-- ==== Sys2Proof/Word.lean ====
section
/-!
DEFINITION. The words of the machine: bytes, doubles, vector and predicate registers (R8, R46), and register numbers
as the instruction formats hold them (R43).
-/
namespace Sys2Proof

/-- A byte (R8). -/
abbrev Byte := BitVec 8
/-- A double (R8), the width of an x register (R46). -/
abbrev Word := BitVec 64
/-- The contents of a v register: 512 bytes, byte 0 in bits 7:0 (R10, R46). -/
abbrev VData := BitVec 4096
/-- The contents of a k register: bit i governs element i (R10, R46). -/
abbrev KData := BitVec 512
/-- The 64 bytes of an instruction line, byte 0 first (R29). -/
abbrev LineImg := List Byte

/-- Number of an x register, a 6-bit field. -/
abbrev XReg := BitVec 6
/-- Number of a v register, a 4-bit field. -/
abbrev VReg := BitVec 4
/-- Number of a k register, a 3-bit field. -/
abbrev KReg := BitVec 3
/-- Number of a segment register, a 3-bit field. -/
abbrev GReg := BitVec 3
/-- Number of a stream register, a 3-bit field. -/
abbrev WReg := BitVec 3

end Sys2Proof
end

