-- ==== Sys2Proof/Config.lean ====
section
/-!
DEFINITION. What is fixed for the device, and the free values: constants with no body, so that no proof sees their
value. Each free value is named in a row of notes/assumptions.
-/
namespace Sys2Proof.Config

/-- Nanoseconds that pass between step n and step n + 1 (R385; log entry 2). -/
opaque elapsedNs : Nat → Nat
/-- Bits of an accumulator cell outside every window after a restore (R185; log entry 5). The first argument is the
free-value counter at that restore, the second the cell's index. -/
opaque staleCell : Nat → Nat → BitVec 32
/-- Bytes a peer device returns (R241, R420; log entry 7): counter, then index within the answer. -/
opaque peerByte : Nat → Nat → BitVec 8
/-- Microjoules drawn in a 1 µs interval by a partition's quarters and slots (R388, R391; log entry 8): counter,
partition. -/
opaque energySpent : Nat → Nat → Nat
/-- Watts the package draws in a temper window, and each partition (R390; log entry 8): counter, partition or 40 for
the device's own. -/
opaque drawWatts : Nat → Nat → Nat
/-- The SHA3-512 digest of bytes (R408, R410; log entry 9). -/
opaque digest : List (BitVec 8) → BitVec 512
/-- The keyed SHA3-512 digest of bytes under the key drawn at a sealing (R410; log entry 9): the sealing's free number, bytes. -/
opaque keyedDigest : Nat → List (BitVec 8) → BitVec 512
/-- The ML-DSA-87 signature of a digest, byte by byte (R408, R410; log entry 9). -/
opaque signature : BitVec 512 → Nat → BitVec 8
/-- A measurement the spec names and gives no value of (R419; log entry 9): 1 and 2 the firmwares, 4 the fuse state. -/
opaque measured : Nat → Nat
/-- The answer of the security controller to an SPDM message (R419; log entry 9): counter, measurements, message. -/
opaque spdmAnswer : Nat → List (List Nat) → List (BitVec 8) → List (BitVec 8)
/-- Whether the fourth colour of a BC1 block with three is transparent (R326; log entry 10). -/
opaque bc1Alpha : Bool
/-- The sample count of a texture sample whose derivatives have no lengths (R329; log entry 18): counter. -/
opaque openSamples : Nat → Nat
/-- Lines of a set (256 · slice + set) in which a partition's pinned storage lies, at homes the device chooses: the storage's
number, the set (R258, R294, R297; log entry 19). -/
opaque storageLines : Nat → Nat → Nat
/-- Slice at whose bank an announcement on the notification ring counts (R266, R395; log entry 22): announcement. -/
opaque ringSlice : Nat → Nat
/-- Set in which the chase unit pins a tile's ticket state (R333; log entry 19): physical address of the tile. -/
opaque ticketSet : Nat → Nat
/-- Which of some candidates leaves a set of an L1 cache or of a TLB (R261; log entry 19): counter. -/
opaque evicted : Nat → Nat
/-- How a peer device answers an access (R241; log entry 7): counter; 0 with data, 1 that it waits for a page there, any other
number the cause it raises. -/
opaque peerOutcome : Nat → Nat
/-- The bitstream an encoder writes for a frame (R340; log entry 11): counter, stream. -/
opaque bitstream : Nat → Nat → List (BitVec 8)
/-- Which of the engines with room carries a stream (R340, R341; log entry 21): counter. -/
opaque encoderOf : Nat → Nat
/-- Bytes of a line that was written under another memory key than the one it is read with (R345; log entry 90): counter,
physical address. -/
opaque keyedByte : Nat → Nat → BitVec 8
/-- What a counter has counted beside what the model counts of an event that it does not follow (R393, R395; log entry 22):
counter, event. -/
opaque eventCount : Nat → Nat → BitVec 63
/-- Doubles of a trace record whose contents are timing, or whose layout the spec does not give (R400, R401; log entry 23):
counter, double. -/
opaque traceDouble : Nat → Nat → BitVec 64
/-- The bytes of a capsule or of a view of one, from the numbers it holds (R408, R410; log entry 9). -/
opaque layView : List Nat → List (BitVec 8)
/-- The bytes of a firmware dump, from the numbers it holds (R411; log entry 9). -/
opaque dumpBytes : List Nat → List (BitVec 8)

/-- Doubles that a thread record of a save area holds to the firmware once something else has written it (R355; log entry
20): the record's bytes, double. -/
opaque overwrittenDouble : List (BitVec 8) → Nat → BitVec 64

/-- Frames of 64 KiB of the device's GDDR7: 64 devices of 32 Gbit, 256 GiB (R16, R23). -/
def nearFrames : Nat := 4194304
/-- Benches (R23). -/
def benches : Nat := 128
/-- Vector sequencer entries of a thread (R143). -/
def seqEntries : Nat := 16
/-- Mailbox entries of a thread (R98). -/
def mailboxEntries : Nat := 8
/-- Loop stack entries (R103). -/
def loopEntries : Nat := 6
/-- Drawplate operations a thread may hold outstanding (R214). -/
def outstandingMax : Nat := 16
/-- Records of an assay ring (R403). -/
def assayRecords : Nat := 4096

end Sys2Proof.Config
end

