-- ==== Sys2Proof/Machine/Blocks.lean ====
section
/-!
DEFINITION. The texels of the compressed blocks BC1 to BC7, as the Khronos Data Format Specification 1.3 that R326 names
has them (log entry 10: its tables stand in no file of the spec). A block is the number that its bytes make, the first the lowest.
-/
namespace Sys2Proof.Machine

/-- `n` bits of a block from bit `lo`. -/
def blockBits (v lo n : Nat) : Nat := v / 2 ^ lo % 2 ^ n

/-- A point between two endpoints, `k` parts of `n` from the first. -/
def between (a b : Rat) (k n : Nat) : Rat := (((n - k : Nat) : Rat) * a + (k : Rat) * b) / (n : Rat)

/-! ### BC1 to BC3: a colour block of 64 bits -/

/-- Channel `ch` of a 16-bit colour 5:6:5. -/
def colour565 (c ch : Nat) : Rat :=
  match ch with
  | 0 => (c / 2048 : Nat) / (31 : Rat)
  | 1 => (c / 32 % 64 : Nat) / (63 : Rat)
  | _ => (c % 32 : Nat) / (31 : Rat)

/-- Channel `ch` of texel `i` of a colour block; `four` says that it always has four colours. -/
def colourBlock (v : Nat) (four : Bool) (i ch : Nat) : Rat :=
  let c0 := blockBits v 0 16
  let c1 := blockBits v 16 16
  let a := colour565 c0 ch
  let b := colour565 c1 ch
  match blockBits v (32 + 2 * i) 2 with
  | 0 => a
  | 1 => b
  | 2 => if four || decide (c1 < c0) then between a b 1 3 else between a b 1 2
  | _ => if four || decide (c1 < c0) then between a b 2 3 else 0

/-- A texel of a BC1 block is its transparent black. -/
def bc1Clear (v i : Nat) : Bool := decide (blockBits v 0 16 ≤ blockBits v 16 16) && blockBits v (32 + 2 * i) 2 == 3

/-! ### BC3 to BC5: a block of 64 bits of one channel -/

/-- The endpoint of a byte: unorm, or snorm where the byte −128 is −1. -/
def bcEnd (snorm : Bool) (b : Nat) : Rat :=
  if snorm then max (-1) ((BitVec.ofNat 8 b).toInt / (127 : Rat)) else (b : Rat) / 255

/-- Texel `i` of a block of one channel. -/
def channelBlock (snorm : Bool) (v i : Nat) : Rat :=
  let b0 := blockBits v 0 8
  let b1 := blockBits v 8 8
  let eight := if snorm then decide ((BitVec.ofNat 8 b1).toInt < (BitVec.ofNat 8 b0).toInt) else decide (b1 < b0)
  let a := bcEnd snorm b0
  let b := bcEnd snorm b1
  match blockBits v (16 + 3 * i) 3 with
  | 0 => a
  | 1 => b
  | n + 2 =>
    if eight then between a b (n + 1) 7
    else if n < 4 then between a b (n + 1) 5
    else if n = 4 then (if snorm then -1 else 0)
    else 1

/-! ### BC7 -/

/-- A mode of BC7: subsets, bits of the partition number, the rotation, the index selection, a colour endpoint, an alpha
endpoint; P bits an endpoint and a subset has; bits of an index and of a second one. -/
structure Bc7Mode where
  subsets : Nat
  part : Nat
  rot : Nat
  sel : Nat
  colour : Nat
  alpha : Nat
  pEnd : Nat
  pShared : Nat
  idx : Nat
  idx2 : Nat
  deriving DecidableEq, Repr

/-- The modes of BC7. -/
def bc7Modes : List Bc7Mode :=
  [⟨3, 4, 0, 0, 4, 0, 1, 0, 3, 0⟩, ⟨2, 6, 0, 0, 6, 0, 0, 1, 3, 0⟩, ⟨3, 6, 0, 0, 5, 0, 0, 0, 2, 0⟩,
   ⟨2, 6, 0, 0, 7, 0, 1, 0, 2, 0⟩, ⟨1, 0, 2, 1, 5, 6, 0, 0, 2, 3⟩, ⟨1, 0, 2, 0, 7, 8, 0, 0, 2, 2⟩,
   ⟨1, 0, 0, 0, 7, 7, 1, 0, 4, 0⟩, ⟨2, 6, 0, 0, 5, 5, 1, 0, 2, 0⟩]

/-- Partitions into two subsets: bit `i` is the subset of texel `i`. -/
def bc7Two : List Nat :=
  [0xCCCC, 0x8888, 0xEEEE, 0xECC8, 0xC880, 0xFEEC, 0xFEC8, 0xEC80, 0xC800, 0xFFEC, 0xFE80, 0xE800, 0xFFE8, 0xFF00, 0xFFF0, 0xF000,
   0xF710, 0x008E, 0x7100, 0x08CE, 0x008C, 0x7310, 0x3100, 0x8CCE, 0x088C, 0x3110, 0x6666, 0x366C, 0x17E8, 0x0FF0, 0x718E, 0x399C]
  ++ [0xAAAA, 0xF0F0, 0x5A5A, 0x33CC, 0x3C3C, 0x55AA, 0x9696, 0xA55A, 0x73CE, 0x13C8, 0x324C, 0x3BDC, 0x6996, 0xC33C, 0x9966, 0x0660,
   0x0272, 0x04E4, 0x4E40, 0x2720, 0xC936, 0x936C, 0x39C6, 0x639C, 0x9336, 0x9CC6, 0x817E, 0xE718, 0xCCF0, 0x0FCC, 0x7744, 0xEE22]

/-- Partitions into three subsets: two bits a texel. -/
def bc7Three : List Nat :=
  [0xAA685050, 0x6A5A5040, 0x5A5A4200, 0x5450A0A8, 0xA5A50000, 0xA0A05050, 0x5555A0A0, 0x5A5A5050, 0xAA550000, 0xAA555500, 0xAAAA5500,
   0x90909090, 0x94949494, 0xA4A4A4A4, 0xA9A59450, 0x2A0A4250, 0xA5945040, 0x0A425054, 0xA5A5A500, 0x55A0A0A0, 0xA8A85454, 0x6A6A4040]
  ++ [0xA4A45000, 0x1A1A0500, 0x0050A4A4, 0xAAA59090, 0x14696914, 0x69691400, 0xA08585A0, 0xAA821414, 0x50A4A450, 0x6A5A0200, 0xA9A58000,
   0x5090A0A8, 0xA8A09050, 0x24242424, 0x00AA5500, 0x24924924, 0x24499224, 0x50A50A50, 0x500AA550, 0xAAAA4444, 0x66660000, 0xA5A0A5A0]
  ++ [0x50A050A0, 0x69286928, 0x44AAAA44, 0x66666600, 0xAA444444, 0x54A854A8, 0x95809580, 0x96969600, 0xA85454A8, 0x80959580, 0xAA141414,
   0x96960000, 0xAAAA1414, 0xA05050A0, 0xA0A5A5A0, 0x96000000, 0x40804080, 0xA9A8A9A8, 0xAAAAAA44, 0x2A4A5254]

/-- Texels whose index lacks its top bit: of the second subset of two. -/
def bc7Anchor : List Nat :=
  [15, 15, 15, 15, 15, 15, 15, 15, 15, 15, 15, 15, 15, 15, 15, 15, 15, 2, 8, 2, 2, 8, 8, 15, 2, 8, 2, 2, 8, 8, 2, 2]
  ++ [15, 15, 6, 8, 2, 8, 15, 15, 2, 8, 2, 2, 2, 15, 15, 6, 6, 2, 6, 8, 15, 15, 2, 2, 15, 15, 15, 15, 15, 2, 2, 15]

/-- Of the second subset of three. -/
def bc7Anchor2 : List Nat :=
  [3, 3, 15, 15, 8, 3, 15, 15, 8, 8, 6, 6, 6, 5, 3, 3, 3, 3, 8, 15, 3, 3, 6, 10, 5, 8, 8, 6, 8, 5, 15, 15]
  ++ [8, 15, 3, 5, 6, 10, 8, 15, 15, 3, 15, 5, 15, 15, 15, 15, 3, 15, 5, 5, 5, 8, 5, 10, 5, 10, 8, 13, 15, 12, 3, 3]

/-- Of the third subset of three. -/
def bc7Anchor3 : List Nat :=
  [15, 8, 8, 3, 15, 15, 3, 8, 15, 15, 15, 15, 15, 15, 15, 8, 15, 8, 15, 3, 15, 8, 15, 8, 3, 15, 6, 10, 15, 15, 10, 8]
  ++ [15, 3, 15, 10, 10, 8, 9, 10, 6, 15, 8, 15, 3, 6, 6, 8, 15, 3, 15, 15, 15, 15, 15, 15, 15, 15, 15, 15, 3, 15, 15, 8]

/-- The subset of a texel. -/
def bc7Subset (subsets part i : Nat) : Nat :=
  match subsets with
  | 2 => blockBits ((bc7Two[part]?).getD 0) i 1
  | 3 => blockBits ((bc7Three[part]?).getD 0) (2 * i) 2
  | _ => 0

/-- The texels whose index lacks its top bit. -/
def bc7Anchors (subsets part : Nat) : List Nat :=
  match subsets with
  | 2 => [0, (bc7Anchor[part]?).getD 0]
  | 3 => [0, (bc7Anchor2[part]?).getD 0, (bc7Anchor3[part]?).getD 0]
  | _ => [0]

/-- Weights of an index of `n` bits, in 64ths. -/
def bc7Weights (n : Nat) : List Nat :=
  match n with
  | 2 => [0, 21, 43, 64]
  | 3 => [0, 9, 18, 27, 37, 46, 55, 64]
  | _ => [0, 4, 9, 13, 17, 21, 26, 30, 34, 38, 43, 47, 51, 55, 60, 64]

/-- An endpoint of `n` bits as 8 bits. -/
def bc7Expand (n v : Nat) : Nat := v * 2 ^ (8 - n) + v / 2 ^ (2 * n - 8)

/-- The weight of texel `i` from indices of `n` bits that begin at bit `lo`. -/
def bc7Weight (v lo n : Nat) (anchors : List Nat) (i : Nat) : Nat :=
  let before := (anchors.filter (· < i)).length
  ((bc7Weights n)[blockBits v (lo + i * n - before) (if anchors.contains i then n - 1 else n)]?).getD 0

/-- A channel of texel `i` of a BC7 block before its rotation, in 255ths. -/
def bc7Plain (v i : Nat) (k : Nat) (m : Bc7Mode) (ch : Nat) : Nat :=
  let part := blockBits v (k + 1) m.part
  let sel := blockBits v (k + 1 + m.part + m.rot) m.sel
  let colours := k + 1 + m.part + m.rot + m.sel
  let alphas := colours + 6 * m.subsets * m.colour
  let ps := alphas + 2 * m.subsets * m.alpha
  let first := ps + m.subsets * (2 * m.pEnd + m.pShared)
  let anchors := bc7Anchors m.subsets part
  let second := first + 16 * m.idx - m.subsets
  let primary := bc7Weight v first m.idx anchors i
  let other := bc7Weight v second m.idx2 [0] i
  let w := if m.idx2 = 0 then primary else if (ch == 3) != (sel == 1) then other else primary
  let stop (e : Nat) : Nat :=
    let n := if ch = 3 then m.alpha else m.colour
    let raw := blockBits v (if ch = 3 then alphas + e * n else colours + (ch * 2 * m.subsets + e) * n) n
    if m.pEnd = 1 then bc7Expand (n + 1) (raw * 2 + blockBits v (ps + e) 1)
    else if m.pShared = 1 then bc7Expand (n + 1) (raw * 2 + blockBits v (ps + e / 2) 1)
    else bc7Expand n raw
  let s := bc7Subset m.subsets part i
  if ch = 3 ∧ m.alpha = 0 then 255 else ((64 - w) * stop (2 * s) + w * stop (2 * s + 1) + 32) / 64

/-- A channel of texel `i` of a BC7 block, in 255ths: its mode's number is that of its lowest bit set; without one, 0. -/
def bc7Channel (v i ch : Nat) : Nat :=
  match (List.range 8).find? fun k => blockBits v k 1 == 1 with
  | none => 0
  | some k => match bc7Modes[k]? with
    | none => 0
    | some m =>
      let rot := blockBits v (k + 1 + m.part) m.rot
      bc7Plain v i k m (if rot = 0 then ch else if ch = 3 then rot - 1 else if ch + 1 = rot then 3 else ch)

/-! ### BC6H -/

/-- A mode of BC6H: bits of a base endpoint, of the other endpoints' channels, and where the bits of the endpoints stand, in the
order of the block: endpoint (4 · channel + W, X, Y or Z), its lowest bit there, their number. -/
structure Bc6Mode where
  base : Nat
  red : Nat
  green : Nat
  blue : Nat
  places : List (Nat × Nat × Nat)
  deriving DecidableEq, Repr

/-- The modes of BC6H by their number. -/
def bc6Mode : Nat → Option Bc6Mode
  | 0x0 => some ⟨10, 5, 5, 5, [(6, 4, 1), (10, 4, 1), (11, 4, 1), (0, 0, 10), (4, 0, 10), (8, 0, 10), (1, 0, 5), (7, 4, 1),
    (6, 0, 4), (5, 0, 5), (11, 0, 1), (7, 0, 4), (9, 0, 5), (11, 1, 1), (10, 0, 4), (2, 0, 5), (11, 2, 1), (3, 0, 5), (11, 3,
    1)]⟩
  | 0x1 => some ⟨7, 6, 6, 6, [(6, 5, 1), (7, 4, 1), (7, 5, 1), (0, 0, 7), (11, 0, 1), (11, 1, 1), (10, 4, 1), (4, 0, 7), (10,
    5, 1), (11, 2, 1), (6, 4, 1), (8, 0, 7), (11, 3, 1), (11, 5, 1), (11, 4, 1), (1, 0, 6), (6, 0, 4), (5, 0, 6), (7, 0, 4),
    (9, 0, 6), (10, 0, 4), (2, 0, 6), (3, 0, 6)]⟩
  | 0x2 => some ⟨11, 5, 4, 4, [(0, 0, 10), (4, 0, 10), (8, 0, 10), (1, 0, 5), (0, 10, 1), (6, 0, 4), (5, 0, 4), (4, 10, 1),
    (11, 0, 1), (7, 0, 4), (9, 0, 4), (8, 10, 1), (11, 1, 1), (10, 0, 4), (2, 0, 5), (11, 2, 1), (3, 0, 5), (11, 3, 1)]⟩
  | 0x6 => some ⟨11, 4, 5, 4, [(0, 0, 10), (4, 0, 10), (8, 0, 10), (1, 0, 4), (0, 10, 1), (7, 4, 1), (6, 0, 4), (5, 0, 5), (4,
    10, 1), (7, 0, 4), (9, 0, 4), (8, 10, 1), (11, 1, 1), (10, 0, 4), (2, 0, 4), (11, 0, 1), (11, 2, 1), (3, 0, 4), (6, 4, 1),
    (11, 3, 1)]⟩
  | 0xa => some ⟨11, 4, 4, 5, [(0, 0, 10), (4, 0, 10), (8, 0, 10), (1, 0, 4), (0, 10, 1), (10, 4, 1), (6, 0, 4), (5, 0, 4),
    (4, 10, 1), (11, 0, 1), (7, 0, 4), (9, 0, 5), (8, 10, 1), (10, 0, 4), (2, 0, 4), (11, 1, 1), (11, 2, 1), (3, 0, 4), (11,
    4, 1), (11, 3, 1)]⟩
  | 0xe => some ⟨9, 5, 5, 5, [(0, 0, 9), (10, 4, 1), (4, 0, 9), (6, 4, 1), (8, 0, 9), (11, 4, 1), (1, 0, 5), (7, 4, 1), (6, 0,
    4), (5, 0, 5), (11, 0, 1), (7, 0, 4), (9, 0, 5), (11, 1, 1), (10, 0, 4), (2, 0, 5), (11, 2, 1), (3, 0, 5), (11, 3, 1)]⟩
  | 0x12 => some ⟨8, 6, 5, 5, [(0, 0, 8), (7, 4, 1), (10, 4, 1), (4, 0, 8), (11, 2, 1), (6, 4, 1), (8, 0, 8), (11, 3, 1), (11,
    4, 1), (1, 0, 6), (6, 0, 4), (5, 0, 5), (11, 0, 1), (7, 0, 4), (9, 0, 5), (11, 1, 1), (10, 0, 4), (2, 0, 6), (3, 0, 6)]⟩
  | 0x16 => some ⟨8, 5, 6, 5, [(0, 0, 8), (11, 0, 1), (10, 4, 1), (4, 0, 8), (6, 5, 1), (6, 4, 1), (8, 0, 8), (7, 5, 1), (11,
    4, 1), (1, 0, 5), (7, 4, 1), (6, 0, 4), (5, 0, 6), (7, 0, 4), (9, 0, 5), (11, 1, 1), (10, 0, 4), (2, 0, 5), (11, 2, 1),
    (3, 0, 5), (11, 3, 1)]⟩
  | 0x1a => some ⟨8, 5, 5, 6, [(0, 0, 8), (11, 1, 1), (10, 4, 1), (4, 0, 8), (10, 5, 1), (6, 4, 1), (8, 0, 8), (11, 5, 1),
    (11, 4, 1), (1, 0, 5), (7, 4, 1), (6, 0, 4), (5, 0, 5), (11, 0, 1), (7, 0, 4), (9, 0, 6), (10, 0, 4), (2, 0, 5), (11, 2,
    1), (3, 0, 5), (11, 3, 1)]⟩
  | 0x1e => some ⟨6, 6, 6, 6, [(0, 0, 6), (7, 4, 1), (11, 0, 1), (11, 1, 1), (10, 4, 1), (4, 0, 6), (6, 5, 1), (10, 5, 1),
    (11, 2, 1), (6, 4, 1), (8, 0, 6), (7, 5, 1), (11, 3, 1), (11, 5, 1), (11, 4, 1), (1, 0, 6), (6, 0, 4), (5, 0, 6), (7, 0,
    4), (9, 0, 6), (10, 0, 4), (2, 0, 6), (3, 0, 6)]⟩
  | 0x3 => some ⟨10, 10, 10, 10, [(0, 0, 10), (4, 0, 10), (8, 0, 10), (1, 0, 10), (5, 0, 10), (9, 0, 10)]⟩
  | 0x7 => some ⟨11, 9, 9, 9, [(0, 0, 10), (4, 0, 10), (8, 0, 10), (1, 0, 9), (0, 10, 1), (5, 0, 9), (4, 10, 1), (9, 0, 9),
    (8, 10, 1)]⟩
  | 0xb => some ⟨12, 8, 8, 8, [(0, 0, 10), (4, 0, 10), (8, 0, 10), (1, 0, 8), (0, 11, 1), (0, 10, 1), (5, 0, 8), (4, 11, 1),
    (4, 10, 1), (9, 0, 8), (8, 11, 1), (8, 10, 1)]⟩
  | 0xf => some ⟨16, 4, 4, 4, [(0, 0, 10), (4, 0, 10), (8, 0, 10), (1, 0, 4), (0, 15, 1), (0, 14, 1), (0, 13, 1), (0, 12, 1),
    (0, 11, 1), (0, 10, 1), (5, 0, 4), (4, 15, 1), (4, 14, 1), (4, 13, 1), (4, 12, 1), (4, 11, 1), (4, 10, 1), (9, 0, 4), (8,
    15, 1), (8, 14, 1), (8, 13, 1), (8, 12, 1), (8, 11, 1), (8, 10, 1)]⟩
  | _ => none

/-- Bits of endpoint `f` that a list of places holds from bit `lo` of a block on. -/
def bc6Field (v f : Nat) : Nat → List (Nat × Nat × Nat) → Nat
  | _, [] => 0
  | lo, (g, first, n) :: rest => (if g = f then blockBits v lo n * 2 ^ first else 0) + bc6Field v f (lo + n) rest

/-- The integer that `n` bits in two's complement are. -/
def signedBits (n v : Nat) : Int := if 2 ^ (n - 1) ≤ v then (v : Int) - 2 ^ n else v

/-- An endpoint's channel brought to 16 bits. -/
def bc6Wide (signed : Bool) (n : Nat) (x : Int) : Int :=
  let m := x.natAbs
  if signed then
    let w : Int := if 16 ≤ n then m else if m = 0 then 0 else if 2 ^ (n - 1) - 1 ≤ m then 0x7FFF else (m * 2 ^ 15 + 0x4000) / 2 ^ (n - 1)
    if x < 0 then -w else w
  else if 15 ≤ n then x
  else if x = 0 then 0
  else if m = 2 ^ n - 1 then 0xFFFF
  else (m * 2 ^ 16 + 0x8000) / 2 ^ n

/-- The f16 image of an interpolated channel. -/
def bc6Half (signed : Bool) (x : Int) : Nat :=
  if signed then (if x < 0 then 0x8000 + x.natAbs * 31 / 32 else x.natAbs * 31 / 32) else x.toNat * 31 / 64

/-- The f16 image of a channel of texel `i` of a BC6H block: 0 in a reserved mode. -/
def bc6Channel (signed : Bool) (v i ch : Nat) : Nat :=
  let k := if blockBits v 0 2 < 2 then blockBits v 0 2 else blockBits v 0 5
  match bc6Mode k with
  | none => 0
  | some m =>
    let start := if k < 2 then 2 else 5
    let two := !(k == 3 || k == 7 || k == 11 || k == 15)
    let plain := k == 0x1E || k == 3
    let n := match ch with | 0 => m.red | 1 => m.green | _ => m.blue
    let raw (e : Nat) : Nat := bc6Field v (4 * ch + e) start m.places
    let w : Int := if signed then signedBits m.base (raw 0) else raw 0
    let stop (e : Nat) : Int :=
      if e = 0 then w
      else if plain then (if signed then signedBits n (raw e) else raw e)
      else
        let sum := ((w + signedBits n (raw e)) % 2 ^ m.base).toNat
        if signed then signedBits m.base sum else sum
    let part := if two then blockBits v 77 5 else 0
    let anchors := bc7Anchors (if two then 2 else 1) part
    let weight : Int := if two then bc7Weight v 82 3 anchors i else bc7Weight v 65 4 anchors i
    let s := bc7Subset (if two then 2 else 1) part i
    bc6Half signed ((bc6Wide signed m.base (stop (2 * s)) * (64 - weight) + bc6Wide signed m.base (stop (2 * s + 1)) * weight + 32) / 64)

end Sys2Proof.Machine
end

