-- ==== Sys2Proof/Machine/Astc.lean ====
section
/-!
DEFINITION. The texels of ASTC blocks under the LDR profile, two dimensions, as the Khronos Data Format Specification 1.3
that R326 names has them (log entry 10: its tables stand in no file of the spec). A block is the number that its 16 bytes
make, the first the lowest.
-/
namespace Sys2Proof.Machine

/-! ### Integer sequences -/

/-- How many values a quantisation level has, as a factor (1, 3 for a trit or 5 for a quint) and bits. -/
structure AstcRange where
  factor : Nat
  bits : Nat
  deriving DecidableEq, Repr

/-- The ranges in rising order: 2, 3, 4, 5, 6, 8, 10, 12, 16, 20, 24, 32, 40, 48, 64, 80, 96, 128, 160, 192 and 256 values. -/
def astcRanges : List AstcRange :=
  [⟨1, 1⟩, ⟨3, 0⟩, ⟨1, 2⟩, ⟨5, 0⟩, ⟨3, 1⟩, ⟨1, 3⟩, ⟨5, 1⟩, ⟨3, 2⟩, ⟨1, 4⟩, ⟨5, 2⟩, ⟨3, 3⟩, ⟨1, 5⟩, ⟨5, 3⟩, ⟨3, 4⟩, ⟨1, 6⟩,
    ⟨5, 4⟩, ⟨3, 5⟩, ⟨1, 7⟩, ⟨5, 5⟩, ⟨3, 6⟩, ⟨1, 8⟩]

/-- The range of a quantisation level. -/
def astcRange (q : Nat) : AstcRange := (astcRanges[q]?).getD ⟨1, 8⟩

/-- Bits of a sequence of `n` values of a range. -/
def AstcRange.size (r : AstcRange) (n : Nat) : Nat :=
  n * r.bits + match r.factor with
    | 3 => (8 * n + 4) / 5
    | 5 => (7 * n + 2) / 3
    | _ => 0

/-- The five trits of eight bits. -/
def trits (t : Nat) : List Nat :=
  let b := blockBits t
  let c := if b 2 3 = 7 then 4 * b 5 3 + b 0 2 else b 0 5
  let high := if b 2 3 = 7 then [2, 2] else if b 5 2 = 3 then [b 7 1, 2] else [b 5 2, b 7 1]
  let d := blockBits c
  let pair (hi lo : Nat) : Nat := 2 * hi + lo * (1 - hi)
  (if d 0 2 = 3 then [pair (d 3 1) (d 2 1), d 4 1, 2]
    else if d 2 2 = 3 then [d 0 2, 2, 2]
    else [pair (d 1 1) (d 0 1), d 2 2, d 4 1]) ++ high

/-- The three quints of seven bits. -/
def quints (q : Nat) : List Nat :=
  let b := blockBits q
  if b 1 2 = 3 ∧ b 5 2 = 0 then
    [4, 4, 4 * b 0 1 + 2 * (b 4 1 * (1 - b 0 1)) + b 3 1 * (1 - b 0 1)]
  else
    let c := if b 1 2 = 3 then 8 * b 3 2 + 2 * (3 - b 5 2) + b 0 1 else b 0 5
    let d := blockBits c
    (if d 0 3 = 5 then [d 3 2, 4] else [d 0 3, d 3 2]) ++ [if b 1 2 = 3 then 4 else b 5 2]

/-- The bits that follow each value's own bits in a group: of five trits, or of three quints. -/
def groupCuts (factor : Nat) : List Nat := if factor == 3 then [2, 2, 1, 2, 1] else [3, 2, 2]

/-- The own bits of the values of a group, and its packed trits or quints: (values, packed), from bit `at'`. -/
def groupFields (v bits : Nat) : List Nat → Nat → Nat → List Nat × Nat
  | [], _, _ => ([], 0)
  | c :: cs, at', done =>
    let (ms, p) := groupFields v bits cs (at' + bits + c) (done + c)
    (blockBits v at' bits :: ms, blockBits v (at' + bits) c * 2 ^ done + p)

/-- A value of a sequence: its trit or quint, and its own bits. -/
structure AstcValue where
  digit : Nat
  own : Nat
  deriving DecidableEq, Repr

/-- Value `i` of the sequence of `n` values of a range that `v` holds from its lowest bit on; the bits past the sequence read
as zeros. -/
def AstcRange.value (r : AstcRange) (v n i : Nat) : AstcValue :=
  let v := blockBits v 0 (r.size n)
  if r.factor == 1 then ⟨0, blockBits v (r.bits * i) r.bits⟩
  else
    let cuts := groupCuts r.factor
    let (ms, packed) := groupFields v r.bits cuts (i / cuts.length * (cuts.length * r.bits + cuts.sum)) 0
    let digits := if r.factor == 3 then trits packed else quints packed
    ⟨(digits[i % cuts.length]?).getD 0, (ms[i % cuts.length]?).getD 0⟩

/-! ### Unquantisation -/

/-- The bits of `own` spread over a word: entry k of `places`, from the top, is the number of the bit that stands there, or
none for 0. -/
def spread (own : Nat) (places : List (Option Nat)) : Nat :=
  places.foldl (fun n p => 2 * n + match p with | some k => blockBits own k 1 | none => 0) 0

/-- A number of `bits` bits repeated from the top of one of `width` bits down. -/
def repeatBits (own bits width : Nat) : Nat :=
  (List.range width).foldl (fun n i => 2 * n + blockBits own (bits - 1 - i % bits) 1) 0

/-- The multiplier and the spread bits of a colour value of a range. -/
def colourTable (r : AstcRange) : Nat × List (Option Nat) :=
  let b := some 1; let c := some 2; let d := some 3; let e := some 4; let f := some 5; let z := none
  match r.factor, r.bits with
  | 3, 1 => (204, [])
  | 3, 2 => (93, [b, z, z, z, b, z, b, b, z])
  | 3, 3 => (44, [c, b, z, z, z, c, b, c, b])
  | 3, 4 => (22, [d, c, b, z, z, z, d, c, b])
  | 3, 5 => (11, [e, d, c, b, z, z, z, e, d])
  | 3, _ => (5, [f, e, d, c, b, z, z, z, f])
  | _, 1 => (113, [])
  | _, 2 => (54, [b, z, z, z, z, b, b, z, z])
  | _, 3 => (26, [c, b, z, z, z, z, c, b, c])
  | _, 4 => (13, [d, c, b, z, z, z, z, d, c])
  | _, _ => (6, [e, d, c, b, z, z, z, z, e])

/-- A colour value, from 0 to 255. -/
def AstcRange.colour (r : AstcRange) (x : AstcValue) : Nat :=
  if r.factor == 1 then repeatBits x.own r.bits 8
  else
    let m := colourTable r
    let flip := if blockBits x.own 0 1 = 1 then 511 else 0
    let t := (x.digit * m.1 + spread x.own m.2) ^^^ flip
    blockBits flip 0 8 / 128 * 128 ||| t / 4

/-- The multiplier and the spread bits of a weight of a range. -/
def weightTable (r : AstcRange) : Nat × List (Option Nat) :=
  match r.factor, r.bits with
  | 3, 1 => (50, [])
  | 3, 2 => (23, [some 1, none, none, none, some 1, none, some 1])
  | 3, _ => (11, [some 2, some 1, none, none, none, some 2, some 1])
  | _, 1 => (28, [])
  | _, _ => (13, [some 1, none, none, none, none, some 1, none])

/-- A weight, from 0 to 64. -/
def AstcRange.weight (r : AstcRange) (x : AstcValue) : Nat :=
  let w :=
    if r.factor == 1 then repeatBits x.own r.bits 6
    else if r.bits == 0 then
      ((if r.factor == 3 then [0, 32, 63] else [0, 16, 32, 47, 63])[x.digit]?).getD 0
    else
      let m := weightTable r
      let flip := if blockBits x.own 0 1 = 1 then 127 else 0
      blockBits flip 5 1 * 32 ||| (((x.digit * m.1 + spread x.own m.2) ^^^ flip) / 4)
  if 32 < w then w + 1 else w

/-! ### Block modes -/

/-- The grid of weights that a block mode asks for. -/
structure AstcGrid where
  cols : Nat
  rows : Nat
  dual : Bool
  quant : Nat
  deriving DecidableEq, Repr

/-- The grid of a block mode of 11 bits; none for a reserved one. -/
def astcGrid (m : Nat) : Option AstcGrid :=
  let b := blockBits m
  let a := b 5 2
  let low := b 0 2 ≠ 0
  let r := b 4 1 + 2 * (if low then b 0 2 else b 2 2)
  let size : Option (Nat × Nat) :=
    if low then
      match b 2 2 with
      | 0 => some (b 7 2 + 4, a + 2)
      | 1 => some (b 7 2 + 8, a + 2)
      | 2 => some (a + 2, b 7 2 + 8)
      | _ => if b 8 1 = 1 then some (b 7 1 + 2, a + 2) else some (a + 2, b 7 1 + 6)
    else if b 2 2 = 0 then none
    else
      match b 7 2 with
      | 0 => some (12, a + 2)
      | 1 => some (a + 2, 12)
      | 2 => some (a + 6, b 9 2 + 6)
      | _ => if a = 0 then some (6, 10) else if a = 1 then some (10, 6) else none
  let plain := !(decide (¬ low) && b 7 2 == 2)
  size.map fun s =>
    { cols := s.1, rows := s.2, dual := plain && b 10 1 == 1, quant := r - 2 + (if plain && b 9 1 == 1 then 6 else 0) }

/-- The weights of a grid. -/
def AstcGrid.count (g : AstcGrid) : Nat := g.cols * g.rows * (if g.dual then 2 else 1)

/-- The bits of its weights. -/
def AstcGrid.size (g : AstcGrid) : Nat := (astcRange g.quant).size g.count

/-! ### Partitions -/

/-- The hash of a partition's seed. -/
def astcHash (p : BitVec 32) : BitVec 32 :=
  let p := p ^^^ p >>> 15
  let p := p - p <<< 17
  let p := p + p <<< 7
  let p := p + p <<< 4
  let p := p ^^^ p >>> 5
  let p := p + p <<< 16
  let p := p ^^^ p >>> 7
  let p := p ^^^ p >>> 3
  let p := p ^^^ p <<< 6
  p ^^^ p >>> 17

/-- The partition of texel (x, y) of a block: index, number of partitions, and whether the block has less than 31 texels. -/
def astcPartition (index parts : Nat) (small : Bool) (x y : Nat) : Nat :=
  let x := if small then 2 * x else x
  let y := if small then 2 * y else y
  let seed := index + (parts - 1) * 1024
  let h := (astcHash (BitVec.ofNat 32 seed)).toNat
  let one := if blockBits seed 1 1 = 1 then 4 else 5
  let two := if parts = 3 then 6 else 5
  let odd := if blockBits seed 0 1 = 1 then one else two
  let even := if blockBits seed 0 1 = 1 then two else one
  let term (n : Nat) (sh : Nat) : Nat := (blockBits h (4 * n) 4) ^ 2 / 2 ^ sh
  let value (k base : Nat) : Nat := (term (2 * k) odd * x + term (2 * k + 1) even * y + h / 2 ^ base) % 64
  let a := value 0 14
  let b := value 1 10
  let c := if 2 < parts then value 2 6 else 0
  let d := if 3 < parts then value 3 2 else 0
  if b ≤ a ∧ c ≤ a ∧ d ≤ a then 0 else if c ≤ b ∧ d ≤ b then 1 else if d ≤ c then 2 else 3

/-! ### Endpoints -/

/-- A base and a signed offset from two colour values: the offset's top bit moves to the base. -/
def moveBit (offset base : Nat) : Int × Int :=
  let o := blockBits offset 1 6
  ((if 32 ≤ o then (o : Int) - 64 else (o : Int)), ((base / 2 + offset / 128 * 128 : Nat) : Int))

/-- A colour whose red and green come half from its blue. -/
def contractBlue (c : List Int) : List Int :=
  match c with
  | [r, g, b, a] => [(r + b) / 2, (g + b) / 2, b, a]
  | _ => c

/-- The two endpoints of an LDR mode from its colour values, each R, G, B, A before clamping; none for an HDR mode. -/
def astcEndpoints (mode : Nat) (v : List Nat) : Option (List Int × List Int) :=
  let n (i : Nat) : Nat := (v[i]?).getD 0
  let i (k : Nat) : Int := (n k : Int)
  let grey (l a : Int) : List Int := [l, l, l, a]
  let scaled (k : Nat) : Int := ((n k * n 3 / 256 : Nat) : Int)
  let direct (a0 a1 : Int) : List Int × List Int :=
    if n 0 + n 2 + n 4 ≤ n 1 + n 3 + n 5 then ([i 0, i 2, i 4, a0], [i 1, i 3, i 5, a1])
    else (contractBlue [i 1, i 3, i 5, a1], contractBlue [i 0, i 2, i 4, a0])
  let moved (k : Nat) : Int × Int := moveBit (n (k + 1)) (n k)
  let offset (a0 a1 : Int) : List Int × List Int :=
    let r := moved 0; let g := moved 2; let b := moved 4
    let first := [r.2, g.2, b.2, a0]
    let second := [r.2 + r.1, g.2 + g.1, b.2 + b.1, a1]
    if 0 ≤ r.1 + g.1 + b.1 then (first, second)
    else (contractBlue [r.2 + r.1, g.2 + g.1, b.2 + b.1, a1], contractBlue [r.2, g.2, b.2, a0])
  match mode with
  | 0 => some (grey (i 0) 255, grey (i 1) 255)
  | 1 =>
    let l := n 0 / 4 + n 1 / 64 * 64
    some (grey l 255, grey ((l + n 1 % 64 : Nat) : Int) 255)
  | 4 => some (grey (i 0) (i 2), grey (i 1) (i 3))
  | 5 =>
    let l := moved 0; let a := moved 2
    some (grey l.2 a.2, grey (l.2 + l.1) (a.2 + a.1))
  | 6 => some ([scaled 0, scaled 1, scaled 2, 255], [i 0, i 1, i 2, 255])
  | 8 => some (direct 255 255)
  | 9 => some (offset 255 255)
  | 10 => some ([scaled 0, scaled 1, scaled 2, i 4], [i 0, i 1, i 2, i 5])
  | 12 => some (direct (i 6) (i 7))
  | 13 => let a := moved 6; some (offset a.2 (a.2 + a.1))
  | _ => none

/-- A channel of an endpoint, brought between 0 and 255. -/
def clampByte (x : Int) : Nat := if x < 0 then 0 else min x.toNat 255

/-! ### Blocks -/

/-- What a block that is legal in the LDR profile holds: one colour, or a grid with the endpoints of its partitions. -/
inductive AstcBlock where
  | plain (colour : List Nat)
  | grid (g : AstcGrid) (parts index : Nat) (ends : List (List Int × List Int)) (second : Nat)
  deriving DecidableEq, Repr

/-- A block of one colour; none where it is HDR, a reserved bit is 0 or its extent is empty. -/
def astcPlain (v : Nat) : Option AstcBlock :=
  let at' (i : Nat) : Nat := blockBits v (12 + 13 * i) 13
  let whole := (List.range 4).all fun i => at' i == 8191
  if blockBits v 9 1 = 0 ∧ blockBits v 10 2 = 3 ∧ (whole || decide (at' 0 < at' 1 ∧ at' 2 < at' 3)) then
    some (.plain ((List.range 4).map fun i => blockBits v (64 + 16 * i) 16))
  else none

/-- The endpoint modes of the partitions of a block whose weights, of the bits above `top`, stand highest; and the bits that
the modes take there. -/
def astcModes (v parts top : Nat) : List Nat × Nat :=
  if parts = 1 then ([blockBits v 13 4], 0)
  else if blockBits v 23 2 = 0 then (List.replicate parts (blockBits v 25 4), 0)
  else
    let extra := 3 * parts - 4
    let kinds := blockBits v 25 4 + 16 * blockBits v (top - extra) extra
    ((List.range parts).map fun i =>
      4 * (blockBits v 23 2 - 1 + blockBits kinds i 1) + blockBits kinds (parts + 2 * i) 2, extra)

/-- The colour values an endpoint mode takes. -/
def modeValues (mode : Nat) : Nat := 2 * (mode / 4) + 2

/-- The endpoints of the partitions in turn, from the colour values of the block; none when a mode is HDR. -/
def astcEnds : List Nat → List Nat → Option (List (List Int × List Int))
  | [], _ => some []
  | m :: ms, v =>
    match astcEndpoints m (v.take (modeValues m)), astcEnds ms (v.drop (modeValues m)) with
    | some e, some es => some (e :: es)
    | _, _ => none

/-- The largest quantisation level, of the first `q`, whose sequence of `n` values fits `bits` bits. -/
def fitting (n bits : Nat) : Nat → Option Nat
  | 0 => none
  | q + 1 => if (astcRange q).size n ≤ bits then some q else fitting n bits q

/-- The block of a footprint that a number holds; none where it is illegal or HDR in the LDR profile (R326). -/
def astcRead (bw bh v : Nat) : Option AstcBlock :=
  if blockBits v 0 9 = 508 then astcPlain v
  else
    match astcGrid (blockBits v 0 11) with
    | none => none
    | some g =>
      let parts := blockBits v 11 2 + 1
      let top := 128 - g.size
      let (modes, extra) := astcModes v parts top
      let n := (modes.map modeValues).sum
      let start := if parts = 1 then 17 else 29
      let below := extra + (if g.dual then 2 else 0)
      match fitting n (top - start - below) 21 with
      | some q =>
        let r := astcRange q
        let values := (List.range n).map fun i => r.colour (r.value (v / 2 ^ start) n i)
        if g.cols ≤ bw ∧ g.rows ≤ bh ∧ g.count ≤ 64 ∧ 24 ≤ g.size ∧ g.size ≤ 96 ∧ (parts < 4 ∨ g.dual = false) ∧ n ≤ 18
            ∧ 4 ≤ q then
          (astcEnds modes values).map fun es => .grid g parts (blockBits v 13 10) es (blockBits v (top - below) 2)
        else none
      | none => none

/-- The weights of a block's grid in the order stored: from the top bit of the block down. -/
def astcWeights (v : Nat) (g : AstcGrid) : List Nat :=
  let turned := (List.range 128).foldl (fun n i => 2 * n + blockBits v i 1) 0
  let r := astcRange g.quant
  (List.range g.count).map fun i => r.weight (r.value turned g.count i)

/-- Where a texel falls on an axis of the grid: the column or row before it and the sixteenths past it. -/
def gridPlace (texels cells x : Nat) : Nat × Nat :=
  let g := ((1024 + texels / 2) / (texels - 1) * x * (cells - 1) + 32) / 64
  (g / 16, g % 16)

/-- The weight of texel (x, y), from the weights of one plane of the grid. -/
def texelWeight (bw bh : Nat) (g : AstcGrid) (ws : Nat → Nat) (x y : Nat) : Nat :=
  let s := gridPlace bw g.cols x
  let t := gridPlace bh g.rows y
  let w11 := (s.2 * t.2 + 8) / 16
  let at' (dx dy : Nat) : Nat := ws (s.1 + dx + (t.1 + dy) * g.cols)
  (at' 0 0 * (16 + w11 - s.2 - t.2) + at' 1 0 * (s.2 - w11) + at' 0 1 * (t.2 - w11) + at' 1 1 * w11 + 8) / 16

/-- Channel `ch` of texel (x, y) as 16 bits; `srgb` says that the channel passes the sRGB curve afterwards. -/
def AstcBlock.channel (b : AstcBlock) (bw bh v : Nat) (srgb : Bool) (x y ch : Nat) : Nat :=
  match b with
  | .plain px => (px[ch]?).getD 0
  | .grid g parts index ends second =>
    let part := if parts = 1 then 0 else astcPartition index parts (decide (bw * bh < 31)) x y
    let e := (ends[part]?).getD ([], [])
    let wide (l : List Int) : Nat :=
      let c := clampByte ((l[ch]?).getD 0)
      256 * c + (if srgb then 128 else c)
    let ws := astcWeights v g
    let plane (i : Nat) : Nat :=
      if g.dual then (ws[2 * i + (if ch = second then 1 else 0)]?).getD 0 else (ws[i]?).getD 0
    let w := texelWeight bw bh g plane x y
    (wide e.1 * (64 - w) + wide e.2 * w + 32) / 64

/-- A number of 16 bits as the value a texel has: 1 for the largest, else n / 65536 cut to a half-precision number. -/
def unorm16 (n : Nat) : Rat :=
  if n = 65535 then 1
  else
    let drop := 2 ^ (n.log2 - 10)
    ((n / drop * drop : Nat) : Rat) / 65536

/-- The channels of texel (x, y) of an ASTC block of a footprint, before the sRGB curve; the error colour (1, 0, 1, 1) where the
block is illegal or HDR (R326). -/
def astcTexel (bw bh v : Nat) (srgb : Bool) (x y : Nat) : List Rat :=
  match astcRead bw bh v with
  | none => [1, 0, 1, 1]
  | some b => (List.range 4).map fun ch =>
    if srgb && ch != 3 then ((b.channel bw bh v true x y ch / 256 : Nat) : Rat) / 255
    else unorm16 (b.channel bw bh v false x y ch)

end Sys2Proof.Machine
end

