-- ==== Sys2Proof/Syntax.lean ====
section
/-!
DEFINITION. The syntax: one constructor of `Instr` for each row of spec/opcode_table.json. Rows with an encoding carry
the operand fields of their format (R43); rows of the other agents (events, mailbox commands, reset and error events)
are single names.
-/
namespace Sys2Proof

/-- Element types, in the order of their codes (R44). -/
inductive Ty where
  | i8 | i16 | i32 | i64 | n8 | n16 | n32 | n64 | f16 | bf16 | f32 | f64 | fp8e4 | fp8e5 | fp4 | ds8
  deriving DecidableEq, Repr, Inhabited

/-- Rounding codes 0 to 5 and 7 (R45); code 6 is reserved. -/
inductive RC where
  | rne | rtz | rdn | rup | rna | rsr | dyn
  deriving DecidableEq, Repr, Inhabited

/-- Scopes of ordering instructions, codes 0 to 5 (R274). -/
inductive Scope where
  | thread | core | bench | die | partition | system
  deriving DecidableEq, Repr, Inhabited

/-- The ORDER field of atomics (R284). -/
inductive Order where
  | relaxed | acq | rel | ar
  deriving DecidableEq, Repr, Inhabited

/-- Atomic operations, in the order of their F codes (R49, R285). -/
inductive AmoOp where
  | add | and | or | xor | min | max | minN | maxN | swap | fadd
  deriving DecidableEq, Repr, Inhabited

/-- Conditions of `fcmp` (R120). -/
inductive FCond where
  | eq | lt | le | un | ne
  deriving DecidableEq, Repr, Inhabited

/-- Conditions of `vcmp` (R156). -/
inductive VCond where
  | eq | ne | lt | le | gt | ge | un
  deriving DecidableEq, Repr, Inhabited

/-- Conditions of `vwait` (R319). -/
inductive WCond where
  | eq | ne | ge
  deriving DecidableEq, Repr, Inhabited

/-- Operations of `vred` and `vscan` (R159). -/
inductive RedOp where
  | add | min | max | and | or | xor
  deriving DecidableEq, Repr, Inhabited

/-- Operations of `dred` (R215). -/
inductive DRedOp where
  | add | min | max
  deriving DecidableEq, Repr, Inhabited

/-- Architectural control registers (R47). -/
inductive CReg where
  | vstart | tid | gang | launch | ctx | part | claim | frm | fflags | mxstat | srseed | lstack | ldepth
  | felimit | cblimit | tvec | tcause | tpc | tval | energy | gtsc
  deriving DecidableEq, Repr, Inhabited

/-- A vector source with its chain bit (R43, R144). -/
structure VSrc where
  reg : VReg
  chain : Bool
  deriving DecidableEq, Repr, Inhabited

/-- The second source of MAJ 0x42 to 0x44: a vector, or an x register under XS (R151). -/
inductive VArg where
  | vec (s : VSrc)
  | scal (x : XReg)
  deriving DecidableEq, Repr, Inhabited

/-- The `len` and `if` clauses: XL and KG (R43, R50). -/
structure VLen where
  xl : XReg
  kg : KReg
  deriving DecidableEq, Repr, Inhabited

/-- A memory operand gN:(xB+disp) of format M (R43). -/
structure MAddr where
  g : GReg
  xb : XReg
  disp : BitVec 16
  deriving DecidableEq, Repr, Inhabited

/-- Operands of a rounding, saturating element-wise member: `vadd`, `vsub`, `vmul` (R152). -/
structure VBin where
  vd : VReg
  a : VSrc
  b : VArg
  t : Ty
  sat : Bool
  rc : RC
  l : VLen
  deriving DecidableEq, Repr, Inhabited

/-- Operands of a two-source member that neither rounds nor saturates (R152). -/
structure VPair where
  vd : VReg
  a : VSrc
  b : VArg
  t : Ty
  l : VLen
  deriving DecidableEq, Repr, Inhabited

/-- Operands of `vabs` and `vneg` (R152). -/
structure VUn where
  vd : VReg
  a : VSrc
  t : Ty
  sat : Bool
  l : VLen
  deriving DecidableEq, Repr, Inhabited

/-- Operands of `vmad` and `vmsb` (R152). -/
structure VTer where
  vd : VReg
  a : VSrc
  b : VArg
  c : VSrc
  t : Ty
  sat : Bool
  rc : RC
  l : VLen
  deriving DecidableEq, Repr, Inhabited

/-- Operands of `amo` and `cas` (R285, R286). -/
structure Amo where
  d : XReg
  t : Ty
  m : MAddr
  xi : XReg
  ord : Order
  sc : Scope
  deriving DecidableEq, Repr, Inhabited

/-- An operand of `mma`: a scratchpad pair or v registers (R178, R181, R186). -/
inductive MOperand where
  | pad (p : XReg)
  | reg (v : VReg)
  deriving DecidableEq, Repr, Inhabited

/-- Operands of `vsfu`, `vamax` and other one-source members without rounding code. -/
structure VMono where
  vd : VReg
  a : VSrc
  t : Ty
  l : VLen
  deriving DecidableEq, Repr, Inhabited

/-- Operands of the conversions `vcvt`, `vpack` and `vunpack` (R163, R166). -/
structure VCv where
  vd : VReg
  a : VSrc
  t : Ty
  s : Ty
  part : BitVec 3
  sat : Bool
  rc : RC
  l : VLen
  deriving DecidableEq, Repr, Inhabited

/-- One constructor for each row of the table. The rows of the agents (units, host, mailbox, reset and error events) have
no operand fields: what names the unit, the thread or the payload of such a step stands in the state, in
`Machine.State.ev`. -/
inductive Instr where
  -- MAJ 0x01 to 0x07: scalar integer (R109 to R115)
  | li (d : XReg) (imm : BitVec 48)
  | liN (d : XReg) (imm : BitVec 48)
  | add (d a b : XReg)
  | sub (d a b : XReg)
  | and (d a b : XReg)
  | or (d a b : XReg)
  | xor (d a b : XReg)
  | shl (d a b : XReg)
  | shr (d a b : XReg)
  | sra (d a b : XReg)
  | slt (d a b : XReg)
  | sltN (d a b : XReg)
  | min (d a b : XReg)
  | minN (d a b : XReg)
  | max (d a b : XReg)
  | maxN (d a b : XReg)
  | mov (d a : XReg)
  | mul (d a b : XReg)
  | mulh (d a b : XReg)
  | mulhN (d a b : XReg)
  | div (d a b : XReg)
  | divN (d a b : XReg)
  | rem (d a b : XReg)
  | remN (d a b : XReg)
  | clz (d a : XReg)
  | ctz (d a : XReg)
  | popc (d a : XReg)
  | brev (d a : XReg)
  | sel (d p q u : XReg)
  | bfx (d p : XReg) (lsb wm1 : BitVec 6)
  | bfxN (d p : XReg) (lsb wm1 : BitVec 6)
  | bfi (d p : XReg) (lsb wm1 : BitVec 6)
  | addi (d a : XReg) (imm : BitVec 22)
  | andi (d a : XReg) (imm : BitVec 22)
  | ori (d a : XReg) (imm : BitVec 22)
  | xori (d a : XReg) (imm : BitVec 22)
  | shli (d a : XReg) (sh : BitVec 6)
  | shri (d a : XReg) (sh : BitVec 6)
  | srai (d a : XReg) (sh : BitVec 6)
  | slti (d a : XReg) (imm : BitVec 22)
  | sltiN (d a : XReg) (imm : BitVec 22)
  -- MAJ 0x10 to 0x13: scalar floating point (R116 to R121)
  | fadd (d p q : XReg) (t : Ty) (rc : RC)
  | fsub (d p q : XReg) (t : Ty) (rc : RC)
  | fmul (d p q : XReg) (t : Ty) (rc : RC)
  | fdiv (d p q : XReg) (t : Ty) (rc : RC)
  | fsqrt (d p : XReg) (t : Ty) (rc : RC)
  | fmin (d p q : XReg) (t : Ty)
  | fmax (d p q : XReg) (t : Ty)
  | fclass (d p : XReg) (t : Ty)
  | ffma (d p q u : XReg) (t : Ty) (rc : RC)
  | fcmp (c : FCond) (d p q : XReg) (t : Ty)
  | fcvt (d p : XReg) (dst src : Ty) (sat : Bool) (rc : RC)
  -- MAJ 0x14 to 0x1B: control transfer and loops (R102 to R106)
  | jmp (off : BitVec 22)
  | jal (link : XReg) (off : BitVec 22)
  | jalr (d a : XReg) (imm : BitVec 22)
  | beq (a b : XReg) (off : BitVec 22)
  | bne (a b : XReg) (off : BitVec 22)
  | blt (a b : XReg) (off : BitVec 22)
  | bltN (a b : XReg) (off : BitVec 22)
  | bge (a b : XReg) (off : BitVec 22)
  | bgeN (a b : XReg) (off : BitVec 22)
  | loop (count : XReg) (off : BitVec 22)
  | loopi (count : BitVec 26) (off : BitVec 22)
  -- MAJ 0x1C: control registers (R123)
  | crrd (d : XReg) (r : CReg)
  | crwr (d : XReg) (r : CReg) (a : XReg)
  | crset (d : XReg) (r : CReg) (a : XReg)
  | crclr (d : XReg) (r : CReg) (a : XReg)
  -- MAJ 0x20 to 0x25: memory (R238 to R255)
  | ld (d : XReg) (t : Ty) (m : MAddr)
  | st (d : XReg) (t : Ty) (m : MAddr)
  | vld (vd : VReg) (t : Ty) (m : MAddr) (l : VLen)
  | vlds (vd : VReg) (t : Ty) (m : MAddr) (xi : XReg) (l : VLen)
  | vldx (vd : VReg) (t : Ty) (m : MAddr) (vi : VReg) (l : VLen)
  | vldff (vd : VReg) (t : Ty) (m : MAddr) (l : VLen)
  | vst (vd : VReg) (t : Ty) (m : MAddr) (l : VLen)
  | vsts (vd : VReg) (t : Ty) (m : MAddr) (xi : XReg) (l : VLen)
  | vstx (vd : VReg) (t : Ty) (m : MAddr) (vi : VReg) (l : VLen)
  | pref (sl : Bool) (m : MAddr) (xi : XReg)
  | segld (d p : XReg) (gu : GReg) (q : XReg)
  | segnarrow (d : XReg) (gp gq : GReg) (u w : XReg) (rights : BitVec 4)
  | segrd (d : XReg) (gp : GReg) (n : BitVec 2)
  -- MAJ 0x28 to 0x2F: order, atomics, objects, caches (R283 to R292)
  | fence (sc : Scope) (i e s l : Bool)
  | ldacq (d : XReg) (t : Ty) (m : MAddr) (sc : Scope)
  | strel (d : XReg) (t : Ty) (m : MAddr) (sc : Scope)
  | amoAdd (o : Amo)
  | amoAnd (o : Amo)
  | amoOr (o : Amo)
  | amoXor (o : Amo)
  | amoMin (o : Amo)
  | amoMax (o : Amo)
  | amoMinN (o : Amo)
  | amoMaxN (o : Amo)
  | amoSwap (o : Amo)
  | amoFadd (o : Amo)
  | cas (o : Amo)
  | vamo (op : AmoOp) (vd : VReg) (t : Ty) (g : GReg) (xb : XReg) (disp : BitVec 12) (vi : VReg) (l : VLen)
  | objdecl (d : XReg) (gp : GReg) (q : XReg)
  | objdrop (d p : XReg)
  | track (d : XReg) (gp : GReg) (q u : XReg)
  | wb (gp : GReg) (q u : XReg)
  | inv (gp : GReg) (q u : XReg)
  | wbinv (gp : GReg) (q u : XReg)
  | icinv (sc : Scope) (gp : GReg) (q u : XReg)
  -- MAJ 0x30 to 0x37: threads (R89 to R101, R351)
  | spawn (w p q u : XReg)
  | reap (w p : XReg)
  | reapTry (w p : XReg)
  | haltX (a : XReg)
  | sleep (d a : XReg)
  | msend (w p q u : XReg)
  | msendTry (w p q u : XReg)
  | mrecv (w p u : XReg)
  | mrecvTry (w p u : XReg)
  -- MAJ 0x38 to 0x3D: sprues, launches, phases (R301 to R319)
  | qpush (d p q : XReg)
  | qpushTry (d p q : XReg)
  | qtake (d w p : XReg)
  | qtakeTry (d w p : XReg)
  | qdone (d p q : XReg)
  | qstat (d p : XReg)
  | launch (d : XReg) (gp : GReg) (q : XReg)
  | cwait (d p u : XReg)
  | cwaitTry (d p : XReg)
  | cancel (d p : XReg)
  | vwait (kd : KReg) (c : WCond) (va vb : VSrc) (signed : Bool) (g : GReg) (u : XReg) (l : VLen)
  | phaseOpen (d p q u : XReg)
  | phaseGraph (d p q : XReg)
  | phaseSeal (d p : XReg)
  -- MAJ 0x40 to 0x4A: vectors (R141 to R162)
  | vclaim (d p : XReg)
  | vrelease (d p : XReg)
  | vloop (p q u : XReg) (n : BitVec 6)
  | vadd (o : VBin)
  | vsub (o : VBin)
  | vmul (o : VBin)
  | vmin (o : VPair)
  | vmax (o : VPair)
  | vabs (o : VUn)
  | vneg (o : VUn)
  | vand (o : VPair)
  | vor (o : VPair)
  | vxor (o : VPair)
  | vshl (o : VPair)
  | vshr (o : VPair)
  | vsra (o : VPair)
  | vmad (o : VTer)
  | vmsb (o : VTer)
  | vdot4 (vd : VReg) (a b c : VSrc) (signed ua ub sat : Bool) (l : VLen)
  | vcmp (kd : KReg) (c : VCond) (a : VSrc) (b : VArg) (t : Ty) (l : VLen)
  | vsel (vd : VReg) (a b : VSrc) (ks : KReg) (t : Ty) (l : VLen)
  | vmov (vd : VReg) (a : VSrc) (t : Ty) (l : VLen)
  | vbcast (vd : VReg) (xs : XReg) (t : Ty) (l : VLen)
  | vext (xd : XReg) (a : VSrc) (xi : XReg) (t : Ty) (l : VLen)
  | vins (vd : VReg) (xs xi : XReg) (t : Ty) (l : VLen)
  | viota (vd : VReg) (t : Ty) (l : VLen)
  | vred (op : RedOp) (vd : VReg) (a : VSrc) (t : Ty) (sat : Bool) (rc : RC) (l : VLen)
  | vscan (op : RedOp) (vd : VReg) (a : VSrc) (t : Ty) (sat : Bool) (rc : RC) (l : VLen)
  | vperm (vd va vb : VReg) (t : Ty) (l : VLen)
  | vslideDown (vd va : VReg) (xs : XReg) (t : Ty) (l : VLen)
  | vslideUp (vd va : VReg) (xs : XReg) (t : Ty) (l : VLen)
  | vcompress (vd va : VReg) (t : Ty) (l : VLen)
  | vexpand (vd va : VReg) (t : Ty) (l : VLen)
  | vzip (hi : Bool) (vd va vb : VReg) (t : Ty) (l : VLen)
  | vunzip (odd : Bool) (vd va vb : VReg) (t : Ty) (l : VLen)
  | kand (d p q : KReg)
  | kor (d p q : KReg)
  | kxor (d p q : KReg)
  | knot (d p : KReg)
  | kmov (d p : KReg)
  | kpop (d : XReg) (p : KReg) (u : XReg)
  | kfirst (d : XReg) (p : KReg) (u : XReg)
  | kset (d : KReg) (u : XReg)
  -- MAJ 0x58 to 0x5D: conversion and special functions (R163 to R174)
  | vcvt (o : VCv)
  | vpack (o : VCv)
  | vunpack (o : VCv)
  | vamax (o : VMono)
  | vquant (vd vs : VReg) (a : VSrc) (t s : Ty) (part : BitVec 3) (rc : RC) (l : VLen)
  | vdequant (vd : VReg) (a b : VSrc) (t s : Ty) (part : BitVec 3) (rc : RC) (l : VLen)
  | vhad (vd : VReg) (a : VSrc) (t : Ty) (stage : BitVec 3) (rc : RC) (l : VLen)
  | vhadPass (vd : VReg) (a : VSrc) (t : Ty) (stage : BitVec 3) (rc : RC) (l : VLen)
  | vsfuRcp (o : VMono)
  | vsfuRsq (o : VMono)
  | vsfuSqrt (o : VMono)
  | vsfuExp2 (o : VMono)
  | vsfuLog2 (o : VMono)
  | vsfuSin (o : VMono)
  | vsfuCos (o : VMono)
  | vsfuTanh (o : VMono)
  | vsfuSigmoid (o : VMono)
  | vsfuGelu (o : VMono)
  | vsfuSilu (o : VMono)
  -- MAJ 0x60 to 0x65: the anvil (R186)
  | mfmt (d p : XReg)
  | mfmtWin (d p q : XReg)
  | mzero (w d u : XReg)
  | mma (w d : XReg) (set : Bool) (a b : MOperand)
  | mrow (vd : VReg) (t : Ty) (p u : XReg) (sat : Bool) (rc : RC)
  | mwrow (vd : VReg) (t : Ty) (p u : XReg)
  | mload (w d p u : XReg) (t : Ty)
  | mcopy (w d p u : XReg) (t : Ty) (sat : Bool) (rc : RC)
  | mwait (p : XReg)
  | mstat (d : XReg)
  | mstatClr (d : XReg)
  -- MAJ 0x68 to 0x6D: buffers, drawplate, barriers, full/empty words (R208 to R231)
  | cbdef (d p q : XReg)
  | cbacqW (d p : XReg)
  | cbacqR (d p : XReg)
  | cbacqWTry (d p : XReg)
  | cbacqRTry (d p : XReg)
  | cbrelW (d p u : XReg)
  | cbrelR (d p u : XReg)
  | cbstat (d p : XReg)
  | dcopy (d p q u : XReg)
  | dcopym (d p q u w : XReg)
  | dred (op : DRedOp) (t : Ty) (d p q u : XReg)
  | dwait (p : XReg)
  | dtest (d p : XReg)
  | dcancel (d p : XReg)
  | dstream (t : Ty) (wd : WReg) (gw : GReg) (p q u : XReg)
  | wget (t : Ty) (vd : VReg) (wp : WReg) (u : XReg)
  | bardef (d p q : XReg)
  | barexp (d p q : XReg)
  | bararr (d p q : XReg)
  | barwait (p q : XReg)
  | lde (d : XReg) (m : MAddr)
  | ldf (d : XReg) (m : MAddr)
  | stf (d : XReg) (m : MAddr)
  -- MAJ 0x70 to 0x74: rays, textures, shader matrices, tickets (R322 to R339)
  | boxt (vd va vb : VReg) (l : VLen)
  | trit (vd va vb : VReg) (l : VLen)
  | tsampGrad (vd va vb : VReg) (g : GReg) (xr : XReg) (l : VLen)
  | tsampLod (vd va : VReg) (g : GReg) (xr : XReg) (l : VLen)
  | tsampBase (vd va : VReg) (g : GReg) (xr : XReg) (l : VLen)
  | tfetch (vd va : VReg) (g : GReg) (xr : XReg) (l : VLen)
  | vmm8 (e5 : Bool) (vd : VReg) (a c : VSrc) (xr : XReg) (l : VLen)
  | tkget (d : XReg) (gp : GReg) (q : XReg)
  | tkgetPeek (d : XReg) (gp : GReg) (q : XReg)
  | tkcommit (d : XReg) (gp : GReg) (q u : XReg) (vw : VReg)
  | tkcommitTry (d : XReg) (gp : GReg) (q u : XReg) (vw : VReg)
  | tkretire (d : XReg) (gp : GReg) (q u : XReg)
  -- MAJ 0x78 to 0x7C: traps, seams, marks (R371 to R399)
  | trap (n : BitVec 7)
  | brk (n : BitVec 4)
  | seam (n : BitVec 8)
  | pmark (p : XReg) (code : BitVec 6)
  | pmarkE (p : XReg) (code : BitVec 6)
  | cntrd (d p : XReg)
  -- what the decoder answers for encodings that are not instructions (R33, R40)
  | illegalInstruction (head : BitVec 16) (tail : BitVec 48)
  | lineFormat (base : Word)
  -- instructions without operand fields
  | lbrk
  | wbAll
  | invAll
  | wbinvAll
  | ifence
  | halt
  | yield
  | gbar
  | slicegive
  | tret
  | tretNext
  | seamret
  -- steps of the units that serve threads
  | ticketRequestAtTileHome
  | deferredTrapEntry
  | lineFill
  | loadDataArrival
  | accessAtHome
  | l1Eviction
  | objectHomeRequest
  | ringAnnouncement
  | pageWalk
  | pageWake
  | vectorGroupEntry
  | vectorGroupDelivery
  | renegotiation
  | freeRowGrant
  | anvilBeat
  | mrowDelivery
  | drawplateBeat
  | streamElementArrival
  | messageTimeout
  | feTimeout
  | cbTimeout
  | cwaitTimeout
  | vwaitRecheck
  | vwaitTimeout
  | sleepDeadline
  -- the caster, counters, phases (R295, R312, R316, R317)
  | placementDecision
  | counterCompletion
  | cancelComplete
  | phaseDeadline
  -- switches (R350 to R354)
  | switchTick
  | slicegiveChoice
  | saveDone
  | restoreDone
  | saveBudgetExpiry
  | saveOverrun
  -- the ladle and the temper (R358, R361, R390, R391)
  | swapUp
  | migrationCopy
  | temperWindow
  | creditInterval
  -- encoders and the host's accesses (R304, R340, R413, R415)
  | encoderFrame
  | sprueWindowPush
  | hostHdmAccess
  | backInvalidateResponse
  | evhead
  -- mailbox commands (R416, R417)
  | identify
  | setevq
  | partcfg
  | partdestroy
  | ownerset
  | vfrange
  | poolsetAdd
  | poolsetWithdraw
  | ctxcreate
  | ctxdestroy
  | ctxpolicy
  | shootdown
  | ladlemap
  | ladlemapUnmap
  | spruecreate
  | spruedestroy
  | gatewrite
  | gatewriteWithdraw
  | seamregion
  | faultreplyResume
  | faultreplyDeliver
  | faultreplyStop
  | encstream
  | encstreamWithdraw
  | ctxstart
  | cntcfg
  | cntread
  | cntsnap
  | cntload
  | traceclaim
  | tracerelease
  | debugstateRead
  | debugstateResume
  | debugstateSetComparator
  | debugstateClearComparator
  | debugStop
  | capsuleget
  | capsuleclear
  | dumpbuf
  | woenebindOwnNumber
  | woenebindRoute
  | woenebindBind
  | woenebindUnbind
  -- Woene Link, attestation, reset, power and errors (R406 to R425)
  | woeneTransaction
  | peerUnreachable
  | woeneLinkChange
  | spdmRequest
  | tdispRun
  | tdispError
  | coldReset
  | warmReset
  | functionLevelReset
  | powerLoss
  | junctionThrottle
  | junctionShutdown
  | uncorrectableError
  | patrolScrub
  | freeze
  | capsuleSeal
  | unknownOp
  | cmdWriteWhileBusy
  | flitReplay
  | junctionThrottleEnd
  deriving DecidableEq, Repr, Inhabited

end Sys2Proof
end

