-- ==== Sys2Proof/WellFormed.lean ====
section
/-!
DEFINITION. Which instructions are well formed: the types, rounding codes and field values each instruction accepts
(R40 and the instruction's own rule). An encoding whose instruction is not well formed is illegal.
-/
namespace Sys2Proof

namespace Ty

/-- The integer types. -/
def isInt : Ty → Bool
  | .i8 | .i16 | .i32 | .i64 | .n8 | .n16 | .n32 | .n64 => true
  | _ => false

/-- The signed integer types. -/
def isSigned : Ty → Bool
  | .i8 | .i16 | .i32 | .i64 => true
  | _ => false

/-- Size of an element in bits (R44, R55, R57, R61). -/
def bits : Ty → Nat
  | .i8 | .n8 | .fp8e4 | .fp8e5 | .ds8 => 8
  | .i16 | .n16 | .f16 | .bf16 => 16
  | .i32 | .n32 | .f32 => 32
  | .i64 | .n64 | .f64 => 64
  | .fp4 => 4

/-- Types of scalar floating point (R116). -/
def isScalarFloat : Ty → Bool
  | .f16 | .bf16 | .f32 | .f64 => true
  | _ => false

/-- "float" of the vector chapter (R152). -/
def isVecFloat : Ty → Bool
  | .f16 | .bf16 | .f32 => true
  | _ => false

/-- "int" of the vector chapter (R152). -/
def isVecInt : Ty → Bool
  | .i8 | .i16 | .i32 | .n8 | .n16 | .n32 => true
  | _ => false

/-- Any 8-, 16- or 32-bit type (R152, R157, R160). -/
def isVecAny (t : Ty) : Bool := t.bits == 8 || t.bits == 16 || t.bits == 32

/-- Element types of MX blocks (R60, R168). -/
def isMx : Ty → Bool
  | .fp8e4 | .fp8e5 | .fp4 | .ds8 | .i8 => true
  | _ => false

/-- Types `vcvt`, `vpack` and `vunpack` convert between (R165). -/
def isConv (t : Ty) : Bool := isVecInt t || isVecFloat t || isMx t

/-- Types of `mrow`, `mwrow`, `mload` and `mcopy` (R186). -/
def isAnvil : Ty → Bool
  | .f32 | .i32 | .f16 | .bf16 => true
  | _ => false

/-- Vector length limit of a type (R54). -/
def vlmax (t : Ty) : Nat := if t.bits == 32 then 128 else if t.bits == 16 then 256 else 512

/-- Bits of precision of an integer type's magnitudes, for `holds`. -/
def intPrec : Ty → Nat
  | .i8 => 7 | .n8 => 8 | .i16 => 15 | .n16 => 16 | .i32 => 31 | .n32 => 32 | .i64 => 63 | .n64 => 64 | _ => 0

/-- Bits of precision of a floating-point type's significand (R55, R57). -/
def floatPrec : Ty → Nat
  | .f64 => 53 | .f32 => 24 | .f16 => 11 | .bf16 => 8 | .fp8e4 => 4 | .fp8e5 => 3 | .fp4 => 2 | _ => 0

/-- `dst.holds src`: the format holds every value of the source format (R66, R165). -/
def holds (dst src : Ty) : Bool :=
  if src.isInt then
    if dst.isInt then
      if dst.isSigned == src.isSigned then decide (src.bits ≤ dst.bits)
      else dst.isSigned && decide (src.bits < dst.bits)
    else (dst.isScalarFloat) && decide (src.intPrec ≤ dst.floatPrec)
  else if dst.isInt then false
  else match dst, src with
    | .f64, _ => true
    | .f32, .f64 => false
    | .f32, _ => true
    | .f16, .f16 | .f16, .fp8e4 | .f16, .fp8e5 | .f16, .fp4 | .f16, .ds8 => true
    | .bf16, .bf16 | .bf16, .fp8e4 | .bf16, .fp8e5 | .bf16, .fp4 | .bf16, .ds8 => true
    | .fp8e4, .fp8e4 | .fp8e4, .fp4 => true
    | .fp8e5, .fp8e5 | .fp8e5, .fp4 => true
    | .fp4, .fp4 => true
    | .ds8, .ds8 => true
    | _, _ => false

/-- A narrowing conversion (R66): between integer types, only to a narrower one. -/
def narrowing (dst src : Ty) : Bool :=
  if dst.isInt && src.isInt then decide (dst.bits < src.bits) else !(dst.holds src)

end Ty

namespace VArg
/-- The chain bit and register fields of XS forms are free only for a vector source. -/
def isVec : VArg → Bool
  | .vec _ => true
  | .scal _ => false
end VArg

/-- The rounding code of an arithmetic member: a float T rounds and takes any code but `.rsr`, an integer T takes 0
(R151). -/
def rcArith (t : Ty) (rc : RC) : Bool := if t.isVecFloat then rc != .rsr else rc == .rne

/-- SAT with a floating-point T is illegal (R151). -/
def satArith (t : Ty) (sat : Bool) : Bool := !(sat && t.isVecFloat)

/-- Types of `ld` (R250): any but fp4. -/
def ldType (t : Ty) : Bool := t != .fp4
/-- Types of the vector memory forms (R250): no 64-bit type, no fp4. -/
def vldType (t : Ty) : Bool := t.isVecAny

/-- ORDER 0 goes with SCOPE 0 (R285). -/
def ordScope (o : Order) (sc : Scope) : Bool := o != .relaxed || sc == .thread

/-- Types of `amo` by operation (R285). -/
def amoType (op : AmoOp) (t : Ty) : Bool :=
  match op with
  | .min | .max => t == .i32 || t == .i64
  | .minN | .maxN => t == .n32 || t == .n64
  | .fadd => t == .f32 || t == .f64
  | _ => t == .i32 || t == .i64 || t == .n32 || t == .n64

/-- The encoding rules of `amo` (R285). -/
def amoWf (op : AmoOp) (o : Amo) : Bool := amoType op o.t && ordScope o.ord o.sc

/-- A pair operand of `mma` (R178, R186) names an even register, not 0. -/
def evenPair (p : XReg) : Bool := p != 0 && p.toNat % 2 == 0

/-- An entry-register group of `qpush` and `qtake` (R301): a multiple of 4, not 0. -/
def quad (p : XReg) : Bool := p != 0 && p.toNat % 4 == 0

namespace MOperand
/-- An operand of `mma` is well formed (R186). -/
def wf : MOperand → Bool
  | .pad p => evenPair p
  | .reg _ => true
end MOperand

/-- Legal `vcvt`, `vpack` and `vunpack` (R165), apart from the size conditions. SAT = 1 with a float destination counts every type
that is no integer, fp4 and ds8 too (DEDUCED, log entry 91). -/
def cvWf (t s : Ty) (sat : Bool) (rc : RC) : Bool :=
  t.isConv && s.isConv && t != s
  && (!sat || (t.isInt && s.isInt) || (!t.isInt && t.narrowing s))
  && (if (t.isInt && s.isInt) || t.holds s then rc == .rne else true)
  && (rc != .rsr || t.narrowing s)
  && (t != .ds8 || rc == .rne || rc == .dyn)

/-- A signed branch offset is positive (R104). -/
def offPositive (off : BitVec 22) : Bool := decide (0 < off.toInt)

namespace Instr

/-- The check of an instruction (R40 with the instruction's own rule). -/
def wf : Instr → Bool
  | .bfx _ _ l w | .bfxN _ _ l w | .bfi _ _ l w => decide (l.toNat + w.toNat + 1 ≤ 64)
  | .fadd _ _ _ t rc | .fsub _ _ _ t rc | .fmul _ _ _ t rc | .fdiv _ _ _ t rc | .fsqrt _ _ t rc
  | .ffma _ _ _ _ t rc => t.isScalarFloat && rc != .rsr
  | .fmin _ _ _ t | .fmax _ _ _ t | .fclass _ _ t | .fcmp _ _ _ _ t => t.isScalarFloat
  | .fcvt _ _ dst src sat rc =>
    (dst.isScalarFloat || dst.isInt) && (src.isScalarFloat || src.isInt)
    && (dst.isScalarFloat || src.isScalarFloat) && dst != src
    && (!sat || (dst.isScalarFloat && dst.narrowing src)) && (rc != .rsr || dst.narrowing src)
  | .loop _ off | .loopi _ off => offPositive off
  | .ld _ t _ | .st _ t _ | .ldacq _ t _ _ | .strel _ t _ _ => ldType t
  | .vld _ t _ _ | .vlds _ t _ _ _ | .vldx _ t _ _ _ | .vldff _ t _ _ | .vst _ t _ _ | .vsts _ t _ _ _
  | .vstx _ t _ _ _ => vldType t
  | .fence _ i e s l => i || e || s || l
  | .amoAdd o => amoWf .add o
  | .amoAnd o => amoWf .and o
  | .amoOr o => amoWf .or o
  | .amoXor o => amoWf .xor o
  | .amoMin o => amoWf .min o
  | .amoMax o => amoWf .max o
  | .amoMinN o => amoWf .minN o
  | .amoMaxN o => amoWf .maxN o
  | .amoSwap o => amoWf .swap o
  | .amoFadd o => amoWf .fadd o
  | .cas o => (o.t == .i32 || o.t == .i64 || o.t == .n32 || o.t == .n64 || o.t == .f32 || o.t == .f64)
    && ordScope o.ord o.sc
  | .vamo op _ t _ _ _ _ _ => amoType op t && t.bits == 32
  | .icinv sc _ _ _ => sc == .bench || sc == .die || sc == .partition
  | .haltX a => a != 0
  | .qpush _ _ q | .qpushTry _ _ q => quad q
  | .qtake d _ _ | .qtakeTry d _ _ => quad d
  | .vloop _ _ _ n => n != 0 && decide (n.toNat ≤ 16)
  | .vadd o | .vsub o | .vmul o => (o.t.isVecInt || o.t.isVecFloat) && satArith o.t o.sat && rcArith o.t o.rc
  | .vmin o | .vmax o => o.t.isVecInt || o.t.isVecFloat
  | .vabs o | .vneg o => (o.t.isVecInt || o.t.isVecFloat) && satArith o.t o.sat
  | .vand o | .vor o | .vxor o => o.t.isVecAny
  | .vshl o | .vshr o | .vsra o => o.t.isVecInt
  | .vmad o | .vmsb o => (o.t.isVecInt || o.t.isVecFloat) && satArith o.t o.sat && rcArith o.t o.rc
  | .vcmp _ c _ _ t _ => if t.isVecFloat then true else t.isVecInt && c != .un
  | .vsel _ _ _ _ t _ | .vmov _ _ t _ | .vbcast _ _ t _ | .vext _ _ _ t _ | .vins _ _ _ t _ => t.isVecAny
  | .viota _ t _ => t.isVecInt
  -- SAT = 1 is accepted with an integer type in every operation (DEDUCED, log entry 91)
  | .vred op _ _ t sat rc _ | .vscan op _ _ t sat rc _ =>
    match op with
    | .add => (t.isVecInt || t.isVecFloat) && satArith t sat && rcArith t rc
    | .min | .max => (t.isVecInt || t.isVecFloat) && satArith t sat && rc == .rne
    | .and | .or | .xor => t.isVecInt && rc == .rne
  | .vperm _ _ _ t _ | .vslideDown _ _ _ t _ | .vslideUp _ _ _ t _ | .vcompress _ _ t _ | .vexpand _ _ t _
  | .vzip _ _ _ _ t _ | .vunzip _ _ _ _ t _ => t.isVecAny
  | .vcvt o => cvWf o.t o.s o.sat o.rc && o.part == 0
  | .vpack o => cvWf o.t o.s o.sat o.rc && decide (o.s.vlmax < o.t.vlmax)
    && decide (o.part.toNat < o.t.vlmax / o.s.vlmax)
  | .vunpack o => cvWf o.t o.s o.sat o.rc && !o.sat && decide (o.t.vlmax < o.s.vlmax) && o.t.holds o.s && o.rc == .rne
    && decide (o.part.toNat < o.s.vlmax / o.t.vlmax)
  | .vamax o => o.t.isVecFloat
  | .vquant vd vs _ t s part rc _ => t.isMx && s.isVecFloat && decide (part.toNat < t.vlmax / s.vlmax)
    && (t != .ds8 || rc == .rne || rc == .dyn) && vs != vd
  | .vdequant _ _ _ t s part rc _ => t.isVecFloat && s.isMx && decide (part.toNat < s.vlmax / t.vlmax) && rc != .rsr
  | .vhad _ a t sg rc _ => t.isVecFloat && decide (2 ^ sg.toNat < t.vlmax) && rc != .rsr
    && (decide (2 ^ sg.toNat < 1024 / t.bits) || !a.chain)
  | .vhadPass _ a t sg rc _ => t.isVecFloat && decide (2 ^ sg.toNat < t.vlmax) && rc != .rsr
    && (decide (2 ^ sg.toNat < 1024 / t.bits) || !a.chain)
  | .vsfuRcp o | .vsfuRsq o | .vsfuSqrt o | .vsfuExp2 o | .vsfuLog2 o | .vsfuSin o | .vsfuCos o | .vsfuTanh o
  | .vsfuSigmoid o | .vsfuGelu o | .vsfuSilu o => o.t.isVecFloat
  | .mma _ _ _ a b => a.wf && b.wf
  | .mrow _ t _ _ sat rc => t.isAnvil && rc != .rsr && (t == .f16 || t == .bf16 || (!sat && rc == .rne))
  | .mwrow _ t _ _ => t.isAnvil
  | .mload _ _ p _ t => t.isAnvil && evenPair p
  | .mcopy _ _ p _ t sat rc => t.isAnvil && evenPair p && rc != .rsr
    && (t == .f16 || t == .bf16 || (!sat && rc == .rne))
  | .dcopy _ p _ _ => evenPair p
  | .dcopym d p _ _ w => evenPair d && evenPair p && evenPair w
  | .dred _ t _ _ _ _ => t == .f32 || t == .f16 || t == .bf16 || t == .i32 || t == .n32
  | .dstream t _ _ _ _ _ | .wget t _ _ _ => t.isVecAny
  | .tkcommit _ _ _ u _ | .tkcommitTry _ _ _ u _ => evenPair u
  | _ => true

/-- Well-formed instructions. -/
def WellFormed (i : Instr) : Prop := i.wf = true

/-- Rows that have an encoding: all but the steps of the other agents and the two answers for encodings that are not
instructions. -/
def encoded : Instr → Bool
  | .illegalInstruction .. | .lineFormat .. | .ticketRequestAtTileHome | .deferredTrapEntry | .lineFill
  | .loadDataArrival | .accessAtHome | .l1Eviction | .objectHomeRequest | .ringAnnouncement
  | .pageWalk | .pageWake | .vectorGroupEntry | .vectorGroupDelivery | .renegotiation
  | .freeRowGrant | .anvilBeat | .mrowDelivery | .drawplateBeat | .streamElementArrival
  | .messageTimeout | .feTimeout | .cbTimeout | .cwaitTimeout | .vwaitRecheck | .vwaitTimeout
  | .sleepDeadline | .placementDecision | .counterCompletion | .cancelComplete | .phaseDeadline
  | .switchTick | .slicegiveChoice | .saveDone | .restoreDone | .saveBudgetExpiry | .saveOverrun
  | .swapUp | .migrationCopy | .temperWindow | .creditInterval | .encoderFrame | .sprueWindowPush
  | .hostHdmAccess | .backInvalidateResponse | .evhead | .identify | .setevq | .partcfg
  | .partdestroy | .ownerset | .vfrange | .poolsetAdd | .poolsetWithdraw | .ctxcreate
  | .ctxdestroy | .ctxpolicy | .shootdown | .ladlemap | .ladlemapUnmap | .spruecreate
  | .spruedestroy | .gatewrite | .gatewriteWithdraw | .seamregion | .faultreplyResume
  | .faultreplyDeliver | .faultreplyStop | .encstream | .encstreamWithdraw | .ctxstart | .cntcfg
  | .cntread | .cntsnap | .cntload | .traceclaim | .tracerelease | .debugstateRead
  | .debugstateResume | .debugstateSetComparator | .debugstateClearComparator | .debugStop
  | .capsuleget | .capsuleclear | .dumpbuf | .woenebindOwnNumber | .woenebindRoute
  | .woenebindBind | .woenebindUnbind | .woeneTransaction | .peerUnreachable | .woeneLinkChange
  | .spdmRequest | .tdispRun | .tdispError | .coldReset | .warmReset | .functionLevelReset
  | .powerLoss | .junctionThrottle | .junctionShutdown | .uncorrectableError | .patrolScrub | .freeze
  | .capsuleSeal | .unknownOp | .cmdWriteWhileBusy | .flitReplay | .junctionThrottleEnd => false
  | _ => true

end Instr
end Sys2Proof
end

