-- ==== Sys2Proof/Machine/Flags.lean ====
section
/-!
DEFINITION. Number formats, rounding and the flags rounding sets: R55 to R75 of Number Formats, Rounding and Summation
Order. Values are exact rationals; a result is rounded once, from its exact value.
-/
namespace Sys2Proof.Machine

/-! ### Flags (R72, R73) -/

/-- The five sticky bits of FFLAGS, in their places (R72). -/
abbrev Flags := BitVec 5

/-- No flag. -/
def noFlags : Flags := 0
/-- NV (R72). -/
def flagNV : Flags := 16
/-- DZ (R72). -/
def flagDZ : Flags := 8
/-- OF (R72). -/
def flagOF : Flags := 4
/-- UF (R72). -/
def flagUF : Flags := 2
/-- NX (R72). -/
def flagNX : Flags := 1

/-- A computed value, its bits in the low bits of the natural number, and the flags its computation sets. -/
structure Rounded where
  bits : Nat
  flags : Flags
  deriving DecidableEq, Repr, Inhabited

/-- A result that sets no flag. -/
def Rounded.exact (b : Nat) : Rounded := ⟨b, noFlags⟩

/-! ### Formats (R55, R57) -/

/-- The parameters of a binary floating-point format. -/
structure FloatFormat where
  /-- Exponent bits. -/
  e : Nat
  /-- Fraction bits. -/
  f : Nat
  /-- Exponent bias. -/
  bias : Nat
  deriving DecidableEq, Repr

/-- The tables of R55 and R57. -/
def floatFormat : Ty → FloatFormat
  | .f64 => ⟨11, 52, 1023⟩
  | .f32 => ⟨8, 23, 127⟩
  | .f16 => ⟨5, 10, 15⟩
  | .bf16 => ⟨8, 7, 127⟩
  | .fp8e4 => ⟨4, 3, 7⟩
  | .fp8e5 => ⟨5, 2, 15⟩
  | .fp4 => ⟨2, 1, 1⟩
  | _ => ⟨8, 23, 127⟩

/-- A type with infinities and IEEE NaNs in its top exponent code: all but fp8e4 and fp4 (R57). -/
def ieeeTop : Ty → Bool
  | .fp8e4 | .fp4 => false
  | _ => true

/-- 2 to an integer power. -/
def pow2 (n : Int) : Rat := if 0 ≤ n then ((2 ^ n.toNat : Nat) : Rat) else 1 / ((2 ^ (-n).toNat : Nat) : Rat)

/-- Largest finite magnitude of a floating-point format (R55, R57). -/
def maxFinite (t : Ty) : Rat :=
  let q := floatFormat t
  match t with
  | .fp8e4 => 448
  | .fp4 => 6
  | _ => ((2 ^ (q.f + 1) - 1 : Nat) : Rat) * pow2 ((2 ^ q.e - 2 : Nat) - (q.bias : Int) - q.f)

/-- Exponent of the smallest normal magnitude (R55, R57). -/
def minExp (t : Ty) : Int := 1 - ((floatFormat t).bias : Int)

/-- Canonical quiet NaN of a format (R56). -/
def canonNaN : Ty → Nat
  | .f64 => 0x7FF8000000000000
  | .f32 => 0x7FC00000
  | .f16 => 0x7E00
  | .bf16 => 0x7FC0
  | .fp8e5 => 0x7E
  | .fp8e4 => 0x7F
  | _ => 0

/-- A floating-point value: a NaN, an infinity, or a sign with a magnitude. -/
inductive Fp where
  | nan (signalling : Bool)
  | inf (neg : Bool)
  | fin (neg : Bool) (mag : Rat)
  deriving DecidableEq, Repr

namespace Fp
/-- The value is a NaN. -/
def isNaN : Fp → Bool
  | .nan _ => true
  | _ => false
/-- The value is a signalling NaN. -/
def isSig : Fp → Bool
  | .nan s => s
  | _ => false
/-- The sign bit of an infinity or finite value. -/
def neg : Fp → Bool
  | .nan _ => false
  | .inf n => n
  | .fin n _ => n
/-- The value is ±0. -/
def isZero : Fp → Bool
  | .fin _ m => m == 0
  | _ => false
/-- The value with its sign reversed. -/
def flip : Fp → Fp
  | .nan s => .nan s
  | .inf n => .inf (!n)
  | .fin n m => .fin (!n) m
/-- The signed exact value of a finite value. -/
def toRat : Fp → Rat
  | .fin n m => if n then -m else m
  | _ => 0
end Fp

/-- Exponent code of an encoding. -/
def expField (t : Ty) (b : Nat) : Nat := b / 2 ^ (floatFormat t).f % 2 ^ (floatFormat t).e
/-- Fraction of an encoding. -/
def fracField (t : Ty) (b : Nat) : Nat := b % 2 ^ (floatFormat t).f
/-- Sign bit of an encoding. -/
def signBit (t : Ty) (b : Nat) : Bool := b / 2 ^ ((floatFormat t).f + (floatFormat t).e) % 2 == 1

/-- Read an encoding of a floating-point type (R55 to R57). -/
def readFp (t : Ty) (b : Nat) : Fp :=
  let q := floatFormat t
  let s := signBit t b
  let e := expField t b
  let f := fracField t b
  if ieeeTop t && e == 2 ^ q.e - 1 then
    if f == 0 then .inf s else .nan (decide (f < 2 ^ (q.f - 1)))
  else if t == .fp8e4 && e == 15 && f == 7 then .nan false
  else if e == 0 then .fin s ((f : Rat) * pow2 (minExp t - q.f))
  else .fin s (((2 ^ q.f + f : Nat) : Rat) * pow2 ((e : Int) - q.bias - q.f))

/-- The encoding is of a subnormal value: exponent code 0 and a fraction (R67). -/
def isSubnormal (t : Ty) (b : Nat) : Bool := expField t b == 0 && fracField t b != 0

/-- Read an operand under FZ: a subnormal reads as zero of its sign (R67). -/
def readFz (fz : Bool) (t : Ty) (b : Nat) : Fp :=
  if fz && isSubnormal t b then .fin (signBit t b) 0 else readFp t b

/-- The place of a sign. -/
def signPart (t : Ty) (neg : Bool) : Nat :=
  if neg then 2 ^ ((floatFormat t).f + (floatFormat t).e) else 0

/-- Encoding of zero. -/
def encZero (t : Ty) (neg : Bool) : Nat := signPart t neg

/-- Encoding of an infinity, for the formats that have one. -/
def encInf (t : Ty) (neg : Bool) : Nat :=
  signPart t neg + (2 ^ (floatFormat t).e - 1) * 2 ^ (floatFormat t).f

/-- Encoding of the largest finite value (R55, R57). -/
def encMax (t : Ty) (neg : Bool) : Nat :=
  let q := floatFormat t
  signPart t neg +
    (match t with
     | .fp8e4 => 0x7E
     | .fp4 => 7
     | _ => (2 ^ q.e - 1) * 2 ^ q.f - 1)

/-- Exponent of the leading bit of a positive magnitude: floor(log2 m). -/
def ratLog2 (m : Rat) : Int :=
  let e : Int := (m.num.toNat.log2 : Int) - m.den.log2
  if pow2 e ≤ m then e else e - 1

/-- Encoding of `mant` units of 2^q, a magnitude on the grid of the format, `mant` below 2^(f+1). -/
def encMant (t : Ty) (neg : Bool) (mant : Nat) (q : Int) : Nat :=
  let p := floatFormat t
  if mant < 2 ^ p.f then signPart t neg + mant
  else signPart t neg + (q + p.bias + p.f).toNat * 2 ^ p.f + (mant - 2 ^ p.f)

/-! ### Rounding (R65, R69, R70) -/

/-- A rounding rule for one result: the modes of R65, or the stochastic one with the 24 bits drawn for it (R69). -/
inductive RMode where
  | rne | rtz | rdn | rup | rna
  | sr (draw : Nat)
  deriving DecidableEq, Repr

/-- Round a non-negative count of units to a whole one (R65, R69). -/
def roundUnits (mode : RMode) (neg : Bool) (n : Rat) : Nat :=
  let lo := n.floor.toNat
  let r := n - (lo : Rat)
  if r == 0 then lo else
  let up := match mode with
    | .rne => decide (1 / 2 < r) || (r == 1 / 2 && lo % 2 == 1)
    | .rtz => false
    | .rdn => neg
    | .rup => !neg
    | .rna => decide (1 / 2 ≤ r)
    | .sr d => decide ((d : Rat) < r * (2 ^ 24 : Nat))
  if up then lo + 1 else lo

/-- The rule rounds away from zero on overflow (R70); the stochastic rule has its own (R69). -/
def RMode.away (mode : RMode) (neg : Bool) : Bool :=
  match mode with
  | .rne | .rna => true
  | .rup => !neg
  | .rdn => neg
  | .rtz => false
  | .sr _ => true

/-- The result of an overflow (R70). -/
def overflow (t : Ty) (neg sat away : Bool) : Rounded :=
  let bits :=
    match t with
    | .fp4 => encMax t neg
    | .fp8e4 => if away && !sat then canonNaN t else encMax t neg
    | _ => if away && !sat then encInf t neg else encMax t neg
  ⟨bits, flagOF ||| flagNX⟩

/-- Number of units of 2^q in a magnitude. -/
def unitsOf (m : Rat) (q : Int) : Rat := m * pow2 (-q)

/-- Round a magnitude to a floating-point format (R65, R69, R70) with the tininess rule of R72; `sat` is SAT. -/
def roundMag (t : Ty) (mode : RMode) (sat neg : Bool) (m : Rat) : Rounded :=
  if m == 0 then .exact (encZero t neg) else
  let p := floatFormat t
  let big := maxFinite t
  let beyond := match mode with
    | .sr _ => decide (big < m)
    | _ => false
  if beyond then
    let u := pow2 (ratLog2 big - p.f)
    let away := match mode with
      | .sr d => decide (big + u ≤ m) || decide ((d : Rat) < (m - big) / u * (2 ^ 24 : Nat))
      | _ => true
    overflow t neg sat away
  else
    let e := ratLog2 m
    let q := max (e - p.f) (minExp t - p.f)
    let k := roundUnits mode neg (unitsOf m q)
    -- a carry out of the precision moves to the next binade
    let (k, q) := if k == 2 ^ (p.f + 1) then (2 ^ p.f, q + 1) else (k, q)
    let v := (k : Rat) * pow2 q
    if big < v then overflow t neg sat (mode.away neg)
    else
      let inexact := v != m
      -- tininess: the value rounded with an unbounded exponent range, or the value the draw delivered (R72)
      let tiny := match mode with
        | .sr _ => decide (v < pow2 (minExp t))
        | _ =>
          let qu := e - p.f
          decide ((roundUnits mode neg (unitsOf m qu) : Rat) * pow2 qu < pow2 (minExp t))
      ⟨encMant t neg k q, (if inexact then flagNX else 0) ||| (if inexact && tiny then flagUF else 0)⟩

/-- The flush of a result under FZ (R67): a subnormal becomes zero of its sign and sets UF and NX. -/
def flushResult (fz : Bool) (t : Ty) (r : Rounded) : Rounded :=
  if fz && isSubnormal t r.bits then ⟨encZero t (signBit t r.bits), r.flags ||| flagUF ||| flagNX⟩ else r

/-- Round a signed exact value; a zero takes the sign given. -/
def roundRat (t : Ty) (mode : RMode) (sat fz : Bool) (zeroNeg : Bool) (v : Rat) : Rounded :=
  if v == 0 then .exact (encZero t zeroNeg)
  else flushResult fz t (roundMag t mode sat (decide (v < 0)) (if v < 0 then -v else v))

/-- The canonical NaN, with NV where the case is invalid (R56). -/
def nanResult (t : Ty) (invalid : Bool) : Rounded := ⟨canonNaN t, if invalid then flagNV else 0⟩

/-! ### The dual-shift format (R61 to R63) -/

/-- Value of a ds8 term in units of 2^−6 (R61). -/
def ds8Term (s e : Nat) : Int := if e == 7 then 0 else (if s == 1 then -1 else 1) * ((2 ^ (6 - e) : Nat) : Int)

/-- Value of a ds8 encoding in units of 2^−6 (R61). -/
def ds8Units (b : Nat) : Int := ds8Term (b / 128 % 2) (b / 16 % 8) + ds8Term (b / 8 % 2) (b % 8)

/-- The non-negative ds8 values in canonical form (R62): magnitude in units of 2^−6, non-zero terms, encoding of the
positive value, encoding of the negative one. -/
def ds8Table : List (Nat × Nat × Nat × Nat) :=
  (0, 0, 0x77, 0x77) ::
  (128, 2, 0x00, 0x88) ::
  (List.range 7).map (fun a => (2 ^ (6 - a), 1, 16 * a + 7, 128 + 16 * a + 7)) ++
  (List.range 7).flatMap (fun a => (List.range 7).flatMap (fun b =>
    if a < b then
      (2 ^ (6 - a) + 2 ^ (6 - b), 2, 16 * a + b, 128 + 16 * a + 8 + b) ::
      (if a + 3 ≤ b then [(2 ^ (6 - a) - 2 ^ (6 - b), 2, 16 * a + 8 + b, 128 + 16 * a + b)] else [])
    else []))

/-- Distance of a magnitude from a table value, in units. -/
def ds8Dist (m : Rat) (u : Nat) : Rat := if m < (u : Rat) then (u : Rat) - m else m - (u : Rat)

/-- The choice of R63 between two table rows for a magnitude in units: nearer, then fewer terms, then smaller. -/
def ds8Better (m : Rat) (x y : Nat × Nat × Nat × Nat) : Bool :=
  let dx := ds8Dist m x.1
  let dy := ds8Dist m y.1
  decide (dx < dy) || (dx == dy && (decide (x.2.1 < y.2.1) || (x.2.1 == y.2.1 && decide (x.1 < y.1))))

/-- Convert a magnitude to ds8 (R63, R70, R72). A magnitude above 2 overflows (log entry 13). -/
def roundDs8 (neg : Bool) (m : Rat) : Rounded :=
  let u := m * 64
  let best := ds8Table.foldl (fun acc r => if ds8Better u r acc then r else acc) (0, 0, 0x77, 0x77)
  let bits := if neg then best.2.2.2 else best.2.2.1
  if (128 : Rat) < u then ⟨if neg then 0x88 else 0x00, flagOF ||| flagNX⟩
  else if (best.1 : Rat) == u then .exact bits
  else ⟨bits, flagNX ||| (if u < 1 then flagUF else 0)⟩

/-! ### Integers -/

/-- Smallest value of an integer type (R64). -/
def intMin (t : Ty) : Int := if t.isSigned then -((2 ^ (t.bits - 1) : Nat) : Int) else 0
/-- Largest value of an integer type (R64). -/
def intMax (t : Ty) : Int := if t.isSigned then ((2 ^ (t.bits - 1) : Nat) : Int) - 1 else ((2 ^ t.bits : Nat) : Int) - 1
/-- Read the low bits of an integer type (R64). -/
def readInt (t : Ty) (b : Nat) : Int :=
  let v := b % 2 ^ t.bits
  if t.isSigned && decide (2 ^ (t.bits - 1) ≤ v) then (v : Int) - ((2 ^ t.bits : Nat) : Int) else v
/-- wrap(v, n) (R54). -/
def wrapInt (n : Nat) (v : Int) : Nat := (v % ((2 ^ n : Nat) : Int)).toNat
/-- sat(v, lo, hi) of a type (R54). -/
def satInt (t : Ty) (v : Int) : Int := if v < intMin t then intMin t else if intMax t < v then intMax t else v
/-- An integer result, wrapped or saturated (R64, R154). -/
def intResult (t : Ty) (sat : Bool) (v : Int) : Nat := wrapInt t.bits (if sat then satInt t v else v)

/-- Round a finite value to an integer type, saturating (R69, R70). -/
def roundToInt (t : Ty) (mode : RMode) (neg : Bool) (m : Rat) : Rounded :=
  let lim : Int := if neg then intMin t else intMax t
  let big : Rat := if neg then -(lim : Rat) else (lim : Rat)
  let limited : Rounded := ⟨wrapInt t.bits lim, flagOF ||| flagNX⟩
  match mode with
  | .sr _ =>
    if big < m then limited
    else
      let k := roundUnits mode neg m
      ⟨wrapInt t.bits (if neg then -(k : Int) else k), if (k : Rat) == m then 0 else flagNX⟩
  | _ =>
    let k := roundUnits mode neg m
    if big < (k : Rat) then limited
    else ⟨wrapInt t.bits (if neg then -(k : Int) else k), if (k : Rat) == m then 0 else flagNX⟩

/-! ### Draws (R68) -/

/-- One draw: the state left in SRSEED and the 24 bits returned (R68). -/
def draw (s : BitVec 32) : BitVec 32 × Nat :=
  let s := if s == 0 then 0x2545F491#32 else s
  let s := s ^^^ (s <<< 13)
  let s := s ^^^ (s >>> 17)
  let s := s ^^^ (s <<< 5)
  (s, (s >>> 8).toNat)

/-! ### Conversions (R66, R70, R71) -/

/-- Read the value of a type (R44): integers and ds8 are finite values. -/
def readVal (t : Ty) (b : Nat) : Fp :=
  if t.isInt then
    let v := readInt t b
    .fin (decide (v < 0)) (if v < 0 then ((-v : Int) : Rat) else (v : Rat))
  else if t == .ds8 then
    let v := ds8Units b
    .fin (decide (v < 0)) ((if v < 0 then ((-v : Int) : Rat) else (v : Rat)) / 64)
  else readFp t (b % 2 ^ t.bits)

/-- Convert a value to a type (R65, R69 to R71), without FZ. -/
def convertFp (t : Ty) (mode : RMode) (sat : Bool) (v : Fp) : Rounded :=
  match v with
  | .nan s =>
    if t.isInt then ⟨0, flagNV⟩
    else if t == .fp4 then ⟨0, flagNV⟩
    else if t == .ds8 then ⟨0x77, flagNV⟩
    else nanResult t s
  | .inf n =>
    if t.isInt then ⟨wrapInt t.bits (if n then intMin t else intMax t), flagNV⟩
    else if t == .fp4 then ⟨encMax t n, flagNV⟩
    else if t == .ds8 then ⟨if n then 0x88 else 0x00, flagNV⟩
    else if sat then ⟨encMax t n, flagNV⟩
    else if t == .fp8e4 then ⟨canonNaN t, flagNV⟩
    else .exact (encInf t n)
  | .fin n m =>
    if t.isInt then roundToInt t mode n m
    else if t == .ds8 then roundDs8 n m
    else roundMag t mode sat n m

/-- A type whose values FZ concerns (R67). -/
def fzType : Ty → Bool
  | .f64 | .f32 | .f16 | .bf16 => true
  | _ => false

/-- `cv` of R166 and the conversion of R121: source type, destination type, SAT, FZ. -/
def convert (t s : Ty) (mode : RMode) (sat fz : Bool) (b : Nat) : Rounded :=
  if t.isInt && s.isInt then .exact (intResult t sat (readInt s b))
  else
    let fzSrc := fz && fzType s && (fzType t || t.isInt)
    let v := if fzSrc then readFz true s (b % 2 ^ s.bits) else readVal s b
    let r := convertFp t mode sat v
    if fzType t then flushResult fz t r else r

/-- The rounding rule of a rounding code (R45, R66): the mode, or the draw. `narrow` says that the instruction is a
narrowing conversion. -/
def staticMode (rc : RC) (rm : BitVec 3) (narrow : Bool) : Option RMode :=
  match rc with
  | .rne => some .rne
  | .rtz => some .rtz
  | .rdn => some .rdn
  | .rup => some .rup
  | .rna => some .rna
  | .rsr => none
  | .dyn =>
    match rm.toNat with
    | 1 => some .rtz
    | 2 => some .rdn
    | 3 => some .rup
    | 4 => some .rna
    | 5 => if narrow then none else some .rne
    | _ => some .rne

end Sys2Proof.Machine
end

