-- ==== Sys2Proof/Machine/Float.lean ====
section
/-!
DEFINITION. Floating-point operations on encodings, shared by the scalar and the vector instructions: R76, R117 to R120,
R153, R156, R285, and the square root and the special functions of R172, R173.
-/
namespace Sys2Proof.Machine

/-- Sign of an exact zero sum (R65): both operands' sign when they agree, else + except under RDN. -/
def zeroSumNeg (mode : RMode) (a b : Bool) : Bool := if a == b then a else mode == .rdn

/-- An invalid operation: canonical NaN and NV. -/
def invalid (t : Ty) : Rounded := nanResult t true

/-- a + b from values (R117). -/
def addFp (t : Ty) (mode : RMode) (fz : Bool) (a b : Fp) : Rounded :=
  match a, b with
  | .nan s, _ => nanResult t (s || b.isSig)
  | _, .nan s => nanResult t s
  | .inf x, .inf y => if x == y then .exact (encInf t x) else invalid t
  | .inf x, .fin _ _ => .exact (encInf t x)
  | .fin _ _, .inf y => .exact (encInf t y)
  | .fin x _, .fin y _ => roundRat t mode false fz (zeroSumNeg mode x y) (a.toRat + b.toRat)

/-- a · b from values (R117). -/
def mulFp (t : Ty) (mode : RMode) (fz : Bool) (a b : Fp) : Rounded :=
  let s := a.neg != b.neg
  match a, b with
  | .nan g, _ => nanResult t (g || b.isSig)
  | _, .nan g => nanResult t g
  | .inf _, _ => if b.isZero then invalid t else .exact (encInf t s)
  | _, .inf _ => if a.isZero then invalid t else .exact (encInf t s)
  | .fin _ _, .fin _ _ => roundRat t mode false fz s (a.toRat * b.toRat)

/-- a / b from values (R117). -/
def divFp (t : Ty) (mode : RMode) (fz : Bool) (a b : Fp) : Rounded :=
  let s := a.neg != b.neg
  match a, b with
  | .nan g, _ => nanResult t (g || b.isSig)
  | _, .nan g => nanResult t g
  | .inf _, .inf _ => invalid t
  | .inf _, .fin _ _ => .exact (encInf t s)
  | .fin _ _, .inf _ => .exact (encZero t s)
  | .fin _ m, .fin _ n =>
    if n == 0 then (if m == 0 then invalid t else ⟨encInf t s, flagDZ⟩)
    else roundRat t mode false fz s (a.toRat / b.toRat)

/-- a · b + c from values, rounded once (R76, R120). -/
def fmaFp (t : Ty) (mode : RMode) (fz : Bool) (a b c : Fp) : Rounded :=
  let s := a.neg != b.neg
  let zeroInf := match a, b with
    | .inf _, .fin _ m => m == 0
    | .fin _ m, .inf _ => m == 0
    | _, _ => false
  if zeroInf || a.isSig || b.isSig || c.isSig then invalid t
  else
    match a, b, c with
    | .nan _, _, _ => nanResult t false
    | _, .nan _, _ => nanResult t false
    | _, _, .nan _ => nanResult t false
    | .fin _ _, .fin _ _, .inf z => .exact (encInf t z)
    | .fin _ _, .fin _ _, .fin z _ => roundRat t mode false fz (zeroSumNeg mode s z) (a.toRat * b.toRat + c.toRat)
    | _, _, .inf z => if s == z then .exact (encInf t s) else invalid t
    | _, _, .fin _ _ => .exact (encInf t s)

/-- Floor of the square root of a natural number, by `fuel` bits from the top. -/
def isqrtAux : Nat → Nat → Nat → Nat
  | 0, _, r => r
  | k + 1, n, r =>
    let c := r + 2 ^ k
    isqrtAux k n (if c * c ≤ n then c else r)

/-- Floor of the square root. -/
def isqrt (n : Nat) : Nat := isqrtAux (n.log2 / 2 + 1) n 0

/-- A value that rounds, in every format and mode, as the square root of `m` does: the root to 2^−`k` with a half unit
added when it is not exact. -/
def sqrtNear (k : Nat) (m : Rat) : Rat :=
  -- m · 4^k = num · 4^k / den; its floor and whether it is exact
  let n := m.num.toNat * 4 ^ k
  let w := n / m.den
  let r := isqrt w
  if r * r * m.den == n then (r : Rat) / ((2 ^ k : Nat) : Rat)
  else ((2 * r + 1 : Nat) : Rat) / ((2 ^ (k + 1) : Nat) : Rat)

/-- √p (R117): 700 bits below the point reach every bit of the root of the smallest f64 subnormal. -/
def sqrtFp (t : Ty) (mode : RMode) (fz : Bool) (a : Fp) : Rounded :=
  match a with
  | .nan g => nanResult t g
  | .inf n => if n then invalid t else .exact (encInf t false)
  | .fin n m =>
    if m == 0 then .exact (encZero t n)
    else if n then invalid t
    else roundRat t mode false fz false (sqrtNear 700 m)

/-- Order of values with −0 below +0 (R118). -/
def fpLess (a b : Fp) : Bool :=
  match a, b with
  | .inf x, .inf y => x && !y
  | .inf x, _ => x
  | _, .inf y => !y
  | .fin x m, .fin y n => if m == 0 && n == 0 then x && !y else decide ((Fp.fin x m).toRat < (Fp.fin y n).toRat)
  | _, _ => false

/-- The encoding of an operand after FZ (R67). -/
def flushBits (fz : Bool) (t : Ty) (b : Nat) : Nat := if fz && isSubnormal t b then encZero t (signBit t b) else b

/-- `fmin` and `fmax` on encodings (R118, R153). -/
def minmaxBits (t : Ty) (fz isMax : Bool) (x y : Nat) : Rounded :=
  let a := readFz fz t x
  let b := readFz fz t y
  let fl := if a.isSig || b.isSig then flagNV else noFlags
  if a.isNaN && b.isNaN then ⟨canonNaN t, fl⟩
  else if a.isNaN then ⟨flushBits fz t y, fl⟩
  else if b.isNaN then ⟨flushBits fz t x, fl⟩
  else
    let pickB := if isMax then fpLess a b else fpLess b a
    ⟨flushBits fz t (if pickB then y else x), fl⟩

/-- Equality of values, −0 equal to +0, a NaN to nothing (R120). -/
def fpEq (a b : Fp) : Bool :=
  match a, b with
  | .inf x, .inf y => x == y
  | .fin x m, .fin y n => (m == 0 && n == 0) || (x == y && m == n)
  | _, _ => false

/-- a < b by value, false when unordered (R120). -/
def fpLt (a b : Fp) : Bool := !(a.isNaN || b.isNaN) && fpLess a b && !fpEq a b

/-- `fcmp` (R120): the result and the flags. -/
def compareFp (c : FCond) (a b : Fp) : Bool × Flags :=
  let un := a.isNaN || b.isNaN
  let sig := if a.isSig || b.isSig then flagNV else noFlags
  let any := if un then flagNV else noFlags
  match c with
  | .eq => (fpEq a b, sig)
  | .lt => (fpLt a b, any)
  | .le => (fpLt a b || fpEq a b, any)
  | .un => (un, sig)
  | .ne => (!fpEq a b, sig)

/-- `fclass` (R119). -/
def classify (t : Ty) (b : Nat) : Nat :=
  match readFp t b with
  | .nan true => 256
  | .nan false => 512
  | .inf true => 1
  | .inf false => 128
  | .fin true m => if m == 0 then 8 else if isSubnormal t b then 4 else 2
  | .fin false m => if m == 0 then 16 else if isSubnormal t b then 32 else 64

/-- fadd of atomics (R285): RNE, FZ ignored, no flag. -/
def atomicAddBits (t : Ty) (x y : Nat) : Nat := (addFp t .rne false (readFp t x) (readFp t y)).bits

/-! ### Fixed-point functions for R172

A fixed-point number is an integer count of units of 2^−1024. Each function's error is far below the distance of its
exact value from the nearest rounding boundary of f32 (log entry 14). -/

/-- Bits below the point. -/
def fixBits : Nat := 1024
/-- One, in fixed point. -/
def fixOne : Int := ((2 ^ fixBits : Nat) : Int)
/-- A rational in fixed point. -/
def toFix (r : Rat) : Int := (r * (2 ^ fixBits : Nat)).floor
/-- The rational a fixed-point number stands for. -/
def ofFix (i : Int) : Rat := (i : Rat) / ((2 ^ fixBits : Nat) : Rat)
/-- Fixed-point product. -/
def fixMul (a b : Int) : Int := a * b / fixOne

/-- 2·atanh(1/q) = 2·Σ q^−(2k+1)/(2k+1), `fuel` terms: `p` is q^−(2k+1). -/
def atanhInv : Nat → Nat → Int → Int → Int
  | 0, _, _, acc => 2 * acc
  | n + 1, k, p, acc => atanhInv n (k + 1) (p / 9) (acc + p / (2 * (k : Int) + 1))

/-- ln 2 = 2·atanh(1/3). -/
def fixLn2 : Int := atanhInv 340 0 (fixOne / 3) 0

/-- arctan(1/q) by its alternating series: `p` is q^−(2k+1). -/
def atanInv : Nat → Int → Nat → Int → Int → Int
  | 0, _, _, _, acc => acc
  | n + 1, q, k, p, acc =>
    let term := p / (2 * (k : Int) + 1)
    atanInv n q (k + 1) (p / (q * q)) (if k % 2 == 0 then acc + term else acc - term)

/-- π by Machin's formula. -/
def fixPi : Int := 16 * atanInv 240 5 0 (fixOne / 5) 0 - 4 * atanInv 80 239 0 (fixOne / 239) 0

/-- Σ x^k/k! by its recurrence, for |x| at most 1. -/
def expSeries : Nat → Nat → Int → Int → Int → Int
  | 0, _, _, _, acc => acc
  | n + 1, k, x, term, acc => expSeries n (k + 1) x (fixMul term x / (k + 1 : Int)) (acc + term)

/-- e^x for a fixed-point x with |x| at most 1. -/
def fixExpSmall (x : Int) : Int := expSeries 200 0 x fixOne 0

/-- 2^x for a rational x, as a rational: the integer part moves the point. -/
def exp2Rat (x : Rat) : Rat :=
  let n := x.floor
  ofFix (fixExpSmall (fixMul (toFix (x - (n : Rat))) fixLn2)) * pow2 n

/-- e^x for a rational x: x = n·ln 2 + r. -/
def expRat (x : Rat) : Rat :=
  let f := toFix x
  let n := f / fixLn2
  ofFix (fixExpSmall (f - n * fixLn2)) * pow2 n

/-- ln m by 2·atanh((m − 1)/(m + 1)), for m in [1, 2): `z2` is the squared argument. -/
def lnSeries : Nat → Nat → Int → Int → Int → Int
  | 0, _, _, _, acc => 2 * acc
  | n + 1, k, z2, p, acc => lnSeries n (k + 1) z2 (fixMul p z2) (acc + p / (2 * (k : Int) + 1))

/-- log2 of a positive rational. -/
def log2Rat (m : Rat) : Rat :=
  let e := ratLog2 m
  let y := m * pow2 (-e)
  let z := toFix ((y - 1) / (y + 1))
  (e : Rat) + (lnSeries 340 0 (fixMul z z) z 0 : Rat) / (fixLn2 : Rat)

/-- Σ (−1)^k x^(2k+s)/(2k+s)!, s = 1 for the sine and 0 for the cosine: `term` is x^(2k+s)/(2k+s)!. -/
def trigSeries : Nat → Nat → Int → Int → Int → Int
  | 0, _, _, _, acc => acc
  | n + 1, j, x2, term, acc =>
    trigSeries n (j + 2) x2 (-(fixMul term x2) / (((j + 1) * (j + 2) : Nat) : Int)) (acc + term)

/-- Sine and cosine of a non-negative rational, its argument reduced by multiples of π/2. -/
def sinCosRat (x : Rat) : Rat × Rat :=
  let f := toFix x
  let half := fixPi / 2
  let n := f / half
  -- the remainder's error is n times that of half, below 2^−850
  let r := f - n * half
  let s := trigSeries 160 1 (fixMul r r) r 0
  let c := trigSeries 160 0 (fixMul r r) fixOne 0
  let (s, c) := match (n % 4).toNat with
    | 0 => (s, c)
    | 1 => (c, -s)
    | 2 => (-s, -c)
    | _ => (-c, s)
  (ofFix s, ofFix c)

/-- Σ (−1)^n (x²/2)^n/(n!·(2n+1)): with x·√(1/(2π)), half of erf(x/√2). `h` is x²/2, `term` is (−h)^n/n!. -/
def erfSeries : Nat → Nat → Int → Int → Int → Int
  | 0, _, _, _, acc => acc
  | k + 1, n, h, term, acc =>
    erfSeries k (n + 1) h (-(fixMul term h) / (n + 1 : Int)) (acc + term / (2 * (n : Int) + 1))

/-- (1 + erf(x/√2))/2 for |x| at most 16. -/
def normalCdf (x : Rat) : Rat :=
  let s := erfSeries 900 0 (toFix (x * x / 2)) fixOne 0
  -- √(1/(2π)) in fixed point
  let c : Int := isqrt (fixOne.toNat * (fixOne.toNat * fixOne.toNat / (2 * fixPi).toNat))
  1 / 2 + x * ofFix (fixMul s c)

/-! ### Special functions (R172, R173) -/

/-- The functions of `vsfu` (R49). -/
inductive Sfu where
  | rcp | rsq | sqrt | exp2 | log2 | sin | cos | tanh | sigmoid | gelu | silu
  deriving DecidableEq, Repr

/-- The exact value of a function at a finite non-zero source, as a rational on the same side of every rounding
boundary of f32 (R172); far arguments are answered by a value that rounds as the function does. -/
def sfuExact (fn : Sfu) (x : Rat) : Rat :=
  let a := if x < 0 then -x else x
  match fn with
  | .rcp => 1 / x
  | .rsq => sqrtNear 700 (1 / x)
  | .sqrt => sqrtNear 700 x
  | .exp2 => if 1000 < x then pow2 1000 else if x < -1000 then pow2 (-1000) else exp2Rat x
  | .log2 => log2Rat x
  | .sin => if x < 0 then -(sinCosRat a).1 else (sinCosRat a).1
  | .cos => (sinCosRat a).2
  | .tanh =>
    if 100 < a then (if x < 0 then -(1 - pow2 (-100)) else 1 - pow2 (-100))
    else
      let p := expRat (2 * a)
      let v := (p - 1) / (p + 1)
      if x < 0 then -v else v
  | .sigmoid => if x < -200 then pow2 (-300) else if 200 < x then 1 - pow2 (-300) else 1 / (1 + expRat (-x))
  | .gelu => if x < -16 then -(pow2 (-300)) else if 16 < x then x * (1 - pow2 (-100)) else x * normalCdf x
  | .silu =>
    if x < -200 then -(pow2 (-300)) else if 200 < x then x * (1 - pow2 (-100)) else x / (1 + expRat (-x))

/-- An f32 encoding of 1, 0.5 and of the infinities, for the table of R173. -/
def f32One : Nat := 0x3F800000

/-- One function at an f32 value, as an f32 encoding and its flags (R172, R173): NX and UF are never set, and overflow
sets OF and NX. -/
def sfuF32 (fn : Sfu) (v : Fp) : Rounded :=
  match v with
  | .nan s => nanResult .f32 s
  | .inf n =>
    match fn with
    | .rcp => .exact (encZero .f32 n)
    | .rsq => if n then invalid .f32 else .exact (encZero .f32 false)
    | .sqrt => if n then invalid .f32 else .exact (encInf .f32 false)
    | .exp2 => if n then .exact 0 else .exact (encInf .f32 false)
    | .log2 => if n then invalid .f32 else .exact (encInf .f32 false)
    | .sin | .cos => invalid .f32
    | .tanh => .exact (if n then 0xBF800000 else f32One)
    | .sigmoid => .exact (if n then 0 else f32One)
    | .gelu | .silu => .exact (if n then encZero .f32 true else encInf .f32 false)
  | .fin n m =>
    if m == 0 then
      match fn with
      | .rcp => ⟨encInf .f32 n, flagDZ⟩
      | .rsq => ⟨encInf .f32 n, flagDZ⟩
      | .log2 => ⟨encInf .f32 true, flagDZ⟩
      | .sqrt | .sin | .tanh | .gelu | .silu => .exact (encZero .f32 n)
      | .exp2 | .cos => .exact f32One
      | .sigmoid => .exact 0x3F000000
    else if n && (fn == .rsq || fn == .sqrt || fn == .log2) then invalid .f32
    else
      let x := (Fp.fin n m).toRat
      let e := sfuExact fn x
      let r := roundRat .f32 .rne false false false e
      ⟨r.bits, if r.flags &&& flagOF != 0 then flagOF ||| flagNX else 0⟩

/-- One element of `vsfu` (R172, R173). -/
def sfuBits (fn : Sfu) (t : Ty) (fz : Bool) (b : Nat) : Rounded :=
  let r := sfuF32 fn (readFz fz t b)
  let r := if t == .f32 then r
    else
      let c := convertFp t .rne false (readFp .f32 r.bits)
      ⟨c.bits, r.flags ||| (if c.flags &&& flagOF != 0 then flagOF ||| flagNX else 0)⟩
  flushResult fz t r

end Sys2Proof.Machine
end

