-- ==== Sys2Proof/Decode.lean ====
section
/-!
DEFINITION. The decoder of instruction lines and instructions, total on any bits and rejecting by name (R29 to R44), and
after it the encoder, written from the same tables.

A head and its tail are first cut into the fields of the format that R49 fixes for the major opcode (`Raw`), then read as
an instruction, with every field the instruction does not use required to be zero (R40, R43).
-/
namespace Sys2Proof

/-! ### Codes of fields -/

/-- Element type codes (R44). All sixteen are assigned. -/
def Ty.ofCode (c : BitVec 4) : Ty :=
  match c.toNat with
  | 0 => .i8 | 1 => .i16 | 2 => .i32 | 3 => .i64 | 4 => .n8 | 5 => .n16 | 6 => .n32 | 7 => .n64
  | 8 => .f16 | 9 => .bf16 | 10 => .f32 | 11 => .f64 | 12 => .fp8e4 | 13 => .fp8e5 | 14 => .fp4 | _ => .ds8

/-- Rounding codes (R45). -/
def RC.ofCode (c : BitVec 3) : Option RC :=
  match c.toNat with
  | 0 => some .rne | 1 => some .rtz | 2 => some .rdn | 3 => some .rup | 4 => some .rna | 5 => some .rsr
  | 7 => some .dyn | _ => none

/-- Scope codes (R274). -/
def Scope.ofCode (c : BitVec 3) : Option Scope :=
  match c.toNat with
  | 0 => some .thread | 1 => some .core | 2 => some .bench | 3 => some .die | 4 => some .partition
  | 5 => some .system | _ => none

/-- ORDER codes (R284). -/
def Order.ofCode (c : BitVec 2) : Order :=
  match c.toNat with
  | 0 => .relaxed | 1 => .acq | 2 => .rel | _ => .ar

/-- Atomic operation codes (R49). -/
def AmoOp.ofCode (c : BitVec 4) : Option AmoOp :=
  match c.toNat with
  | 0 => some .add | 1 => some .and | 2 => some .or | 3 => some .xor | 4 => some .min | 5 => some .max
  | 6 => some .minN | 7 => some .maxN | 8 => some .swap | 9 => some .fadd | _ => none

/-- Conditions of `fcmp` (R120). -/
def FCond.ofCode (c : BitVec 3) : Option FCond :=
  match c.toNat with
  | 0 => some .eq | 1 => some .lt | 2 => some .le | 3 => some .un | 4 => some .ne | _ => none

/-- Conditions of `vcmp` (R156). -/
def VCond.ofCode (c : BitVec 3) : Option VCond :=
  match c.toNat with
  | 0 => some .eq | 1 => some .ne | 2 => some .lt | 3 => some .le | 4 => some .gt | 5 => some .ge | 6 => some .un
  | _ => none

/-- Conditions of `vwait` (R319). -/
def WCond.ofCode (c : BitVec 3) : Option WCond :=
  match c.toNat with
  | 0 => some .eq | 1 => some .ne | 2 => some .ge | _ => none

/-- Operations of `vred` and `vscan` (R159). -/
def RedOp.ofCode (c : BitVec 3) : Option RedOp :=
  match c.toNat with
  | 0 => some .add | 1 => some .min | 2 => some .max | 3 => some .and | 4 => some .or | 5 => some .xor | _ => none

/-- Operations of `dred` (R215). -/
def DRedOp.ofCode (c : BitVec 2) : Option DRedOp :=
  match c.toNat with
  | 0 => some .add | 1 => some .min | 2 => some .max | _ => none

/-- Control-register numbers (R47). -/
def CReg.ofCode (c : BitVec 12) : Option CReg :=
  match c.toNat with
  | 0x001 => some .vstart | 0x010 => some .tid | 0x011 => some .gang | 0x012 => some .launch | 0x013 => some .ctx
  | 0x014 => some .part | 0x015 => some .claim | 0x020 => some .frm | 0x021 => some .fflags | 0x022 => some .mxstat
  | 0x023 => some .srseed | 0x030 => some .lstack | 0x031 => some .ldepth | 0x040 => some .felimit
  | 0x041 => some .cblimit | 0x050 => some .tvec | 0x051 => some .tcause | 0x052 => some .tpc | 0x053 => some .tval
  | 0x060 => some .energy | 0x061 => some .gtsc | _ => none

/-! ### Formats -/

/-- The formats of R42; format B has the fields of SI. -/
inductive Format where
  | h | sr | si | x | sl | v | m
  deriving DecidableEq, Repr

/-- The TL field of a format (R42). -/
def Format.tl : Format → Nat
  | .h => 0 | .sr => 1 | .si => 2 | .x => 2 | .sl => 3 | .v => 3 | .m => 3

/-- The format of each allocated major opcode (R48, R49). -/
def formatOf (maj : Nat) : Option Format :=
  match maj with
  | 0x01 => some .sl | 0x02 => some .sr | 0x03 => some .sr | 0x04 => some .sr | 0x05 => some .x | 0x06 => some .x
  | 0x07 => some .si | 0x10 => some .x | 0x11 => some .x | 0x12 => some .x | 0x13 => some .x | 0x14 => some .si
  | 0x15 => some .si | 0x16 => some .si | 0x17 => some .si | 0x18 => some .si | 0x19 => some .si | 0x1A => some .sl
  | 0x1B => some .h | 0x1C => some .si | 0x20 => some .m | 0x21 => some .m | 0x22 => some .m | 0x23 => some .m
  | 0x24 => some .m | 0x25 => some .x | 0x28 => some .h | 0x29 => some .m | 0x2A => some .m | 0x2B => some .m
  | 0x2C => some .m | 0x2D => some .x | 0x2E => some .x | 0x2F => some .h | 0x30 => some .x | 0x31 => some .x
  | 0x32 => some .h | 0x33 => some .h | 0x34 => some .sr | 0x35 => some .x | 0x36 => some .h | 0x37 => some .h
  | 0x38 => some .x | 0x39 => some .x | 0x3A => some .x | 0x3B => some .x | 0x3C => some .v | 0x3D => some .x
  | 0x40 => some .x | 0x41 => some .x | 0x42 => some .v | 0x43 => some .v | 0x44 => some .v | 0x45 => some .v
  | 0x46 => some .v | 0x47 => some .v | 0x48 => some .v | 0x49 => some .v | 0x4A => some .x | 0x58 => some .v
  | 0x59 => some .v | 0x5A => some .v | 0x5B => some .v | 0x5C => some .v | 0x5D => some .v | 0x60 => some .x
  | 0x61 => some .x | 0x62 => some .x | 0x63 => some .x | 0x64 => some .x | 0x65 => some .x | 0x68 => some .x
  | 0x69 => some .x | 0x6A => some .x | 0x6B => some .x | 0x6C => some .x | 0x6D => some .m | 0x70 => some .v
  | 0x71 => some .v | 0x72 => some .v | 0x73 => some .v | 0x74 => some .x | 0x78 => some .h | 0x79 => some .h
  | 0x7A => some .si | 0x7B => some .h | 0x7C => some .x
  | _ => none

/-- Fields of format SR (R43). -/
structure RawSR where
  n : BitVec 1
  d : BitVec 6
  s1 : BitVec 6
  s2 : BitVec 6
  f : BitVec 4
  deriving DecidableEq, Repr

/-- Fields of formats SI and B: in B, `d` is S1, `s1` is S2 and `imm` is OFF (R43). -/
structure RawSI where
  n : BitVec 1
  d : BitVec 6
  s1 : BitVec 6
  f : BitVec 4
  imm : BitVec 22
  deriving DecidableEq, Repr

/-- Fields of format X (R43). -/
structure RawX where
  n : BitVec 1
  d : BitVec 6
  p : BitVec 6
  q : BitVec 6
  u : BitVec 6
  w : BitVec 6
  f : BitVec 4
  e : BitVec 4
  deriving DecidableEq, Repr

/-- Fields of format SL (R43). -/
structure RawSL where
  n : BitVec 1
  d : BitVec 6
  imm : BitVec 48
  deriving DecidableEq, Repr

/-- Fields of format V (R43). -/
structure RawV where
  vd : BitVec 4
  ql : BitVec 3
  va : BitVec 4
  ca : BitVec 1
  vb : BitVec 4
  cb : BitVec 1
  vc : BitVec 4
  cc : BitVec 1
  xl : BitVec 6
  kg : BitVec 3
  t : BitVec 4
  f : BitVec 4
  aux : BitVec 16
  deriving DecidableEq, Repr

/-- Fields of format M (R43). -/
structure RawM where
  n : BitVec 1
  d : BitVec 6
  g : BitVec 3
  xb : BitVec 6
  xi : BitVec 6
  xl : BitVec 6
  kg : BitVec 3
  t : BitVec 4
  f : BitVec 4
  disp : BitVec 16
  deriving DecidableEq, Repr

/-- An instruction cut into the fields of its format. -/
inductive Raw where
  | h (a : BitVec 7)
  | sr (r : RawSR)
  | si (r : RawSI)
  | x (r : RawX)
  | sl (r : RawSL)
  | v (r : RawV)
  | m (r : RawM)
  deriving DecidableEq, Repr

/-- Cut format SR. -/
def RawSR.cut (a : BitVec 7) (t : BitVec 48) : RawSR :=
  ⟨a.extractLsb' 6 1, a.extractLsb' 0 6, t.extractLsb' 10 6, t.extractLsb' 4 6, t.extractLsb' 0 4⟩
/-- Cut formats SI and B. -/
def RawSI.cut (a : BitVec 7) (t : BitVec 48) : RawSI :=
  ⟨a.extractLsb' 6 1, a.extractLsb' 0 6, t.extractLsb' 26 6, t.extractLsb' 22 4, t.extractLsb' 0 22⟩
/-- Cut format X. -/
def RawX.cut (a : BitVec 7) (t : BitVec 48) : RawX :=
  ⟨a.extractLsb' 6 1, a.extractLsb' 0 6, t.extractLsb' 26 6, t.extractLsb' 20 6, t.extractLsb' 14 6,
    t.extractLsb' 8 6, t.extractLsb' 4 4, t.extractLsb' 0 4⟩
/-- Cut format SL. -/
def RawSL.cut (a : BitVec 7) (t : BitVec 48) : RawSL :=
  ⟨a.extractLsb' 6 1, a.extractLsb' 0 6, t⟩
/-- Cut format V. -/
def RawV.cut (a : BitVec 7) (t : BitVec 48) : RawV :=
  ⟨a.extractLsb' 3 4, a.extractLsb' 0 3, t.extractLsb' 44 4, t.extractLsb' 43 1, t.extractLsb' 39 4,
    t.extractLsb' 38 1, t.extractLsb' 34 4, t.extractLsb' 33 1, t.extractLsb' 27 6, t.extractLsb' 24 3,
    t.extractLsb' 20 4, t.extractLsb' 16 4, t.extractLsb' 0 16⟩
/-- Cut format M. -/
def RawM.cut (a : BitVec 7) (t : BitVec 48) : RawM :=
  ⟨a.extractLsb' 6 1, a.extractLsb' 0 6, t.extractLsb' 45 3, t.extractLsb' 39 6, t.extractLsb' 33 6,
    t.extractLsb' 27 6, t.extractLsb' 24 3, t.extractLsb' 20 4, t.extractLsb' 16 4, t.extractLsb' 0 16⟩

/-- Cut a head's A field and a tail into the fields of a format (R43). -/
def Raw.cut (fm : Format) (a : BitVec 7) (t : BitVec 48) : Raw :=
  match fm with
  | .h => .h a
  | .sr => .sr (.cut a t)
  | .si => .si (.cut a t)
  | .x => .x (.cut a t)
  | .sl => .sl (.cut a t)
  | .v => .v (.cut a t)
  | .m => .m (.cut a t)

/-- Why an encoding is not an instruction (the cases of R40, in its order). -/
inductive DecodeError where
  /-- MAJ is reserved or permanently illegal. -/
  | reservedMajor
  /-- TL differs from the tail length of the format. -/
  | tailLength
  /-- A minor field holds a value the map does not assign. -/
  | reservedMinor
  /-- A field holds a value its chapter marks reserved. -/
  | reservedValue
  /-- A bit that must be zero is not. -/
  | reservedBit
  /-- A type, rounding code or operand value the instruction does not accept. -/
  | notAccepted
  deriving DecidableEq, Repr, Inhabited

/-! ### From fields to instructions -/

/-- The answer of a decode. -/
abbrev Decoded := Except DecodeError Instr

/-- Fields that must be zero are zero, or the encoding is illegal. -/
def zeroIf (c : Bool) (i : Instr) : Decoded := if c then .ok i else .error .reservedBit

/-- Read an assigned value of a field, or the encoding is illegal. -/
def assigned {α : Type} (o : Option α) (k : α → Decoded) : Decoded :=
  match o with
  | some a => k a
  | none => .error .reservedValue

/-- The low four bits of a field, a v register. -/
def lowV (b : BitVec 6) : VReg := b.setWidth 4
/-- The low three bits of a field, a k, g or w register. -/
def low3 (b : BitVec 6) : BitVec 3 := b.setWidth 3
/-- A field that names a v register has bits 5:4 zero. -/
def isV (b : BitVec 6) : Bool := decide (b.toNat < 16)
/-- A field that names a k, g or w register has bits 5:3 zero. -/
def is3 (b : BitVec 6) : Bool := decide (b.toNat < 8)
/-- A flag bit. -/
def bit (b : BitVec 1) : Bool := b == 1#1

/-- Format H: fence, halts, waits, traps (R49). -/
def readH (maj : Nat) (a : BitVec 7) : Decoded :=
  match maj with
  | 0x1B => zeroIf (a == 0) .lbrk
  | 0x28 => assigned (Scope.ofCode (a.extractLsb' 4 3)) fun sc =>
      .ok (.fence sc (bit (a.extractLsb' 3 1)) (bit (a.extractLsb' 2 1)) (bit (a.extractLsb' 1 1))
        (bit (a.extractLsb' 0 1)))
  | 0x2F => zeroIf (a == 0) .ifence
  | 0x32 => if a == 0 then .ok .halt else zeroIf (a.extractLsb' 6 1 == 0) (.haltX (a.extractLsb' 0 6))
  | 0x33 => zeroIf (a == 0) .yield
  | 0x36 => zeroIf (a == 0) .gbar
  | 0x37 => zeroIf (a == 0) .slicegive
  | 0x78 => .ok (.trap a)
  | 0x79 => if a == 0 then .ok .tret else if a == 1 then .ok .tretNext else .error .reservedValue
  | 0x7B => zeroIf (a == 0) .seamret
  | _ => .error .reservedMajor

/-- MAJ 0x02 (R110). -/
def readAlu (r : RawSR) : Decoded :=
  match r.f.toNat with
  | 0 => zeroIf (r.n == 0) (.add r.d r.s1 r.s2)
  | 1 => zeroIf (r.n == 0) (.sub r.d r.s1 r.s2)
  | 2 => zeroIf (r.n == 0) (.and r.d r.s1 r.s2)
  | 3 => zeroIf (r.n == 0) (.or r.d r.s1 r.s2)
  | 4 => zeroIf (r.n == 0) (.xor r.d r.s1 r.s2)
  | 5 => zeroIf (r.n == 0) (.shl r.d r.s1 r.s2)
  | 6 => zeroIf (r.n == 0) (.shr r.d r.s1 r.s2)
  | 7 => zeroIf (r.n == 0) (.sra r.d r.s1 r.s2)
  | 8 => .ok (if bit r.n then .sltN r.d r.s1 r.s2 else .slt r.d r.s1 r.s2)
  | 9 => .ok (if bit r.n then .minN r.d r.s1 r.s2 else .min r.d r.s1 r.s2)
  | 10 => .ok (if bit r.n then .maxN r.d r.s1 r.s2 else .max r.d r.s1 r.s2)
  | 11 => zeroIf (r.n == 0 && r.s2 == 0) (.mov r.d r.s1)
  | _ => .error .reservedMinor

/-- MAJ 0x03 (R110). -/
def readMul (r : RawSR) : Decoded :=
  match r.f.toNat with
  | 0 => zeroIf (r.n == 0) (.mul r.d r.s1 r.s2)
  | 1 => .ok (if bit r.n then .mulhN r.d r.s1 r.s2 else .mulh r.d r.s1 r.s2)
  | 2 => .ok (if bit r.n then .divN r.d r.s1 r.s2 else .div r.d r.s1 r.s2)
  | 3 => .ok (if bit r.n then .remN r.d r.s1 r.s2 else .rem r.d r.s1 r.s2)
  | _ => .error .reservedMinor

/-- MAJ 0x04 (R110). -/
def readBits (r : RawSR) : Decoded :=
  match r.f.toNat with
  | 0 => zeroIf (r.n == 0 && r.s2 == 0) (.clz r.d r.s1)
  | 1 => zeroIf (r.n == 0 && r.s2 == 0) (.ctz r.d r.s1)
  | 2 => zeroIf (r.n == 0 && r.s2 == 0) (.popc r.d r.s1)
  | 3 => zeroIf (r.n == 0 && r.s2 == 0) (.brev r.d r.s1)
  | _ => .error .reservedMinor

/-- Format SR (R49). -/
def readSR (maj : Nat) (r : RawSR) : Decoded :=
  match maj with
  | 0x02 => readAlu r
  | 0x03 => readMul r
  | 0x04 => readBits r
  | 0x34 => if r.f == 0 then zeroIf (r.n == 0 && r.s2 == 0) (.sleep r.d r.s1) else .error .reservedMinor
  | _ => .error .reservedMajor

/-- MAJ 0x07 (R115). -/
def readImm (r : RawSI) : Decoded :=
  let sh : BitVec 6 := r.imm.extractLsb' 0 6
  let z := r.n == 0 && r.imm.extractLsb' 6 16 == 0
  match r.f.toNat with
  | 0 => zeroIf (r.n == 0) (.addi r.d r.s1 r.imm)
  | 1 => zeroIf (r.n == 0) (.andi r.d r.s1 r.imm)
  | 2 => zeroIf (r.n == 0) (.ori r.d r.s1 r.imm)
  | 3 => zeroIf (r.n == 0) (.xori r.d r.s1 r.imm)
  | 4 => zeroIf z (.shli r.d r.s1 sh)
  | 5 => zeroIf z (.shri r.d r.s1 sh)
  | 6 => zeroIf z (.srai r.d r.s1 sh)
  | 7 => .ok (if bit r.n then .sltiN r.d r.s1 r.imm else .slti r.d r.s1 r.imm)
  | _ => .error .reservedMinor

/-- MAJ 0x17 (R102). -/
def readEq (r : RawSI) : Decoded :=
  match r.f.toNat with
  | 0 => zeroIf (r.n == 0) (.beq r.d r.s1 r.imm)
  | 1 => zeroIf (r.n == 0) (.bne r.d r.s1 r.imm)
  | _ => .error .reservedMinor

/-- MAJ 0x18 (R102). -/
def readLt (r : RawSI) : Decoded :=
  match r.f.toNat with
  | 0 => .ok (if bit r.n then .bltN r.d r.s1 r.imm else .blt r.d r.s1 r.imm)
  | 1 => .ok (if bit r.n then .bgeN r.d r.s1 r.imm else .bge r.d r.s1 r.imm)
  | _ => .error .reservedMinor

/-- MAJ 0x1C (R123). -/
def readCr (r : RawSI) : Decoded :=
  assigned (CReg.ofCode (r.imm.extractLsb' 0 12)) fun cr =>
  let z := r.n == 0 && r.imm.extractLsb' 12 10 == 0
  match r.f.toNat with
  | 0 => zeroIf (z && r.s1 == 0) (.crrd r.d cr)
  | 1 => zeroIf z (.crwr r.d cr r.s1)
  | 2 => zeroIf z (.crset r.d cr r.s1)
  | 3 => zeroIf z (.crclr r.d cr r.s1)
  | _ => .error .reservedMinor

/-- Formats SI and B (R49). -/
def readSI (maj : Nat) (r : RawSI) : Decoded :=
  match maj with
  | 0x07 => readImm r
  | 0x17 => readEq r
  | 0x18 => readLt r
  | 0x1C => readCr r
  | 0x14 => if r.f == 0 then zeroIf (r.n == 0 && r.d == 0 && r.s1 == 0) (.jmp r.imm) else .error .reservedMinor
  | 0x15 => if r.f == 0 then zeroIf (r.n == 0 && r.s1 == 0) (.jal r.d r.imm) else .error .reservedMinor
  | 0x16 => if r.f == 0 then zeroIf (r.n == 0) (.jalr r.d r.s1 r.imm) else .error .reservedMinor
  | 0x19 => if r.f == 0 then zeroIf (r.n == 0 && r.s1 == 0) (.loop r.d r.imm) else .error .reservedMinor
  | 0x7A => if r.f == 0 then
      zeroIf (r.n == 0 && r.d == 0 && r.s1 == 0 && r.imm.extractLsb' 8 14 == 0) (.seam (r.imm.extractLsb' 0 8))
      else .error .reservedMinor
  | _ => .error .reservedMajor

/-- Format SL (R104, R109). -/
def readSL (maj : Nat) (r : RawSL) : Decoded :=
  match maj with
  | 0x01 => .ok (if bit r.n then .liN r.d r.imm else .li r.d r.imm)
  | 0x1A => zeroIf (r.n == 0 && r.d == 0) (.loopi (r.imm.extractLsb' 22 26) (r.imm.extractLsb' 0 22))
  | _ => .error .reservedMajor

/-- MAJ 0x06 (R114). -/
def readField (r : RawX) : Decoded :=
  match r.f.toNat with
  | 0 => zeroIf (r.w == 0 && r.e == 0) (if bit r.n then .bfxN r.d r.p r.q r.u else .bfx r.d r.p r.q r.u)
  | 1 => zeroIf (r.n == 0 && r.w == 0 && r.e == 0) (.bfi r.d r.p r.q r.u)
  | _ => .error .reservedMinor

/-- MAJ 0x10 (R116 to R119). -/
def readFloat (r : RawX) : Decoded :=
  let t := Ty.ofCode r.e
  let z := r.n == 0 && r.u == 0 && r.w.extractLsb' 3 3 == 0
  let rc := RC.ofCode (r.w.extractLsb' 0 3)
  match r.f.toNat with
  | 0 => assigned rc fun rc => zeroIf z (.fadd r.d r.p r.q t rc)
  | 1 => assigned rc fun rc => zeroIf z (.fsub r.d r.p r.q t rc)
  | 2 => assigned rc fun rc => zeroIf z (.fmul r.d r.p r.q t rc)
  | 3 => assigned rc fun rc => zeroIf z (.fdiv r.d r.p r.q t rc)
  | 4 => assigned rc fun rc => zeroIf (z && r.q == 0) (.fsqrt r.d r.p t rc)
  | 5 => zeroIf (z && r.w == 0) (.fmin r.d r.p r.q t)
  | 6 => zeroIf (z && r.w == 0) (.fmax r.d r.p r.q t)
  | 7 => zeroIf (z && r.w == 0 && r.q == 0) (.fclass r.d r.p t)
  | _ => .error .reservedMinor

/-- MAJ 0x25 (R235, R236). -/
def readSeg (r : RawX) : Decoded :=
  match r.f.toNat with
  | 0 => zeroIf (r.n == 0 && is3 r.u && r.w == 0 && r.e == 0) (.segld r.d r.p (low3 r.u) r.q)
  | 1 => zeroIf (r.n == 0 && is3 r.p && is3 r.q) (.segnarrow r.d (low3 r.p) (low3 r.q) r.u r.w r.e)
  | 2 => zeroIf (r.n == 0 && is3 r.p && decide (r.q.toNat < 4) && r.u == 0 && r.w == 0 && r.e == 0)
      (.segrd r.d (low3 r.p) (r.q.setWidth 2))
  | _ => .error .reservedMinor

/-- MAJ 0x2D (R288 to R290). -/
def readObj (r : RawX) : Decoded :=
  let z := r.n == 0 && r.w == 0 && r.e == 0
  match r.f.toNat with
  | 0 => zeroIf (z && is3 r.p && r.u == 0) (.objdecl r.d (low3 r.p) r.q)
  | 1 => zeroIf (z && r.q == 0 && r.u == 0) (.objdrop r.d r.p)
  | 2 => zeroIf (z && is3 r.p) (.track r.d (low3 r.p) r.q r.u)
  | _ => .error .reservedMinor

/-- MAJ 0x2E (R291, R292). -/
def readCache (r : RawX) : Decoded :=
  let z := r.n == 0 && r.d == 0 && r.w == 0
  let zr := z && is3 r.p
  let za := z && r.p == 0 && r.q == 0 && r.u == 0
  match r.f.toNat, r.e.toNat with
  | 0, 0 => zeroIf zr (.wb (low3 r.p) r.q r.u)
  | 1, 0 => zeroIf zr (.inv (low3 r.p) r.q r.u)
  | 2, 0 => zeroIf zr (.wbinv (low3 r.p) r.q r.u)
  | 0, 1 => zeroIf za .wbAll
  | 1, 1 => zeroIf za .invAll
  | 2, 1 => zeroIf za .wbinvAll
  | 3, 2 => zeroIf zr (.icinv .bench (low3 r.p) r.q r.u)
  | 3, 3 => zeroIf zr (.icinv .die (low3 r.p) r.q r.u)
  | 3, 4 => zeroIf zr (.icinv .partition (low3 r.p) r.q r.u)
  | 0, _ => .error .reservedValue
  | 1, _ => .error .reservedValue
  | 2, _ => .error .reservedValue
  | 3, _ => .error .reservedValue
  | _, _ => .error .reservedMinor

/-- MAJ 0x35 (R99). -/
def readMsg (r : RawX) : Decoded :=
  let z := r.n == 0 && r.d == 0
  match r.f.toNat, r.e.toNat with
  | 0, 0 => zeroIf z (.msend r.w r.p r.q r.u)
  | 0, 1 => zeroIf z (.msendTry r.w r.p r.q r.u)
  | 1, 0 => zeroIf (z && r.q == 0) (.mrecv r.w r.p r.u)
  | 1, 1 => zeroIf (z && r.q == 0) (.mrecvTry r.w r.p r.u)
  | 0, _ => .error .reservedValue
  | 1, _ => .error .reservedValue
  | _, _ => .error .reservedMinor

/-- MAJ 0x38 (R301). -/
def readSprue (r : RawX) : Decoded :=
  let z := r.n == 0 && r.u == 0
  match r.f.toNat, r.e.toNat with
  | 0, 0 => zeroIf (z && r.w == 0) (.qpush r.d r.p r.q)
  | 0, 1 => zeroIf (z && r.w == 0) (.qpushTry r.d r.p r.q)
  | 1, 0 => zeroIf (z && r.q == 0) (.qtake r.d r.w r.p)
  | 1, 1 => zeroIf (z && r.q == 0) (.qtakeTry r.d r.w r.p)
  | 2, 0 => zeroIf (z && r.w == 0) (.qdone r.d r.p r.q)
  | 3, 0 => zeroIf (z && r.w == 0 && r.q == 0) (.qstat r.d r.p)
  | 0, _ => .error .reservedValue
  | 1, _ => .error .reservedValue
  | 2, _ => .error .reservedValue
  | 3, _ => .error .reservedValue
  | _, _ => .error .reservedMinor

/-- MAJ 0x4A (R162). -/
def readPred (r : RawX) : Decoded :=
  let z := r.n == 0 && r.w == 0 && r.e == 0
  let zu := z && r.u == 0
  match r.f.toNat with
  | 0 => zeroIf (zu && is3 r.d && is3 r.p && is3 r.q) (.kand (low3 r.d) (low3 r.p) (low3 r.q))
  | 1 => zeroIf (zu && is3 r.d && is3 r.p && is3 r.q) (.kor (low3 r.d) (low3 r.p) (low3 r.q))
  | 2 => zeroIf (zu && is3 r.d && is3 r.p && is3 r.q) (.kxor (low3 r.d) (low3 r.p) (low3 r.q))
  | 3 => zeroIf (zu && is3 r.d && is3 r.p && r.q == 0) (.knot (low3 r.d) (low3 r.p))
  | 4 => zeroIf (zu && is3 r.d && is3 r.p && r.q == 0) (.kmov (low3 r.d) (low3 r.p))
  | 5 => zeroIf (z && is3 r.p && r.q == 0) (.kpop r.d (low3 r.p) r.u)
  | 6 => zeroIf (z && is3 r.p && r.q == 0) (.kfirst r.d (low3 r.p) r.u)
  | 7 => zeroIf (z && is3 r.d && r.p == 0 && r.q == 0) (.kset (low3 r.d) r.u)
  | _ => .error .reservedMinor

/-- An operand of `mma`, from its register bit and field (R186). -/
def readOperand (breg : Bool) (b : BitVec 6) : MOperand := if breg then .reg (lowV b) else .pad b

/-- MAJ 0x60 to 0x65 (R186). -/
def readAnvil (maj : Nat) (r : RawX) : Decoded :=
  let t := Ty.ofCode r.e
  match maj, r.f.toNat with
  | 0x60, 0 =>
    if r.e == 0 then zeroIf (r.n == 0 && r.q == 0 && r.u == 0 && r.w == 0) (.mfmt r.d r.p)
    else if r.e == 1 then zeroIf (r.n == 0 && r.u == 0 && r.w == 0) (.mfmtWin r.d r.p r.q)
    else .error .reservedValue
  | 0x61, 0 => zeroIf (r.n == 0 && r.p == 0 && r.q == 0 && r.e == 0) (.mzero r.w r.d r.u)
  | 0x62, 0 =>
    let ar := bit (r.e.extractLsb' 0 1)
    let br := bit (r.e.extractLsb' 1 1)
    zeroIf (r.n == 0 && r.u == 0 && r.e.extractLsb' 3 1 == 0 && (!ar || isV r.p) && (!br || isV r.q))
      (.mma r.w r.d (bit (r.e.extractLsb' 2 1)) (readOperand ar r.p) (readOperand br r.q))
  | 0x63, 0 => assigned (RC.ofCode (r.w.extractLsb' 0 3)) fun rc =>
    zeroIf (r.n == 0 && isV r.d && r.q == 0 && r.w.extractLsb' 4 2 == 0)
      (.mrow (lowV r.d) t r.p r.u (bit (r.w.extractLsb' 3 1)) rc)
  | 0x63, 1 => zeroIf (r.n == 0 && isV r.d && r.q == 0 && r.w == 0) (.mwrow (lowV r.d) t r.p r.u)
  | 0x64, 0 => zeroIf (r.n == 0 && r.q == 0) (.mload r.w r.d r.p r.u t)
  | 0x64, 1 => assigned (RC.ofCode (r.q.extractLsb' 0 3)) fun rc =>
    zeroIf (r.n == 0 && r.q.extractLsb' 4 2 == 0) (.mcopy r.w r.d r.p r.u t (bit (r.q.extractLsb' 3 1)) rc)
  | 0x65, 0 => zeroIf (r.n == 0 && r.d == 0 && r.q == 0 && r.u == 0 && r.w == 0 && r.e == 0) (.mwait r.p)
  | 0x65, 1 =>
    let z := r.n == 0 && r.p == 0 && r.q == 0 && r.u == 0 && r.w == 0
    if r.e == 0 then zeroIf z (.mstat r.d) else if r.e == 1 then zeroIf z (.mstatClr r.d) else .error .reservedValue
  | _, _ => .error .reservedMinor

/-- MAJ 0x68 (R208). -/
def readCb (r : RawX) : Decoded :=
  let z := r.n == 0 && r.w == 0
  let z3 := z && r.q == 0 && r.u == 0
  match r.f.toNat, r.e.toNat with
  | 0, 0 => zeroIf (z && r.u == 0) (.cbdef r.d r.p r.q)
  | 1, 0 => zeroIf z3 (.cbacqW r.d r.p)
  | 1, 1 => zeroIf z3 (.cbacqR r.d r.p)
  | 1, 2 => zeroIf z3 (.cbacqWTry r.d r.p)
  | 1, 3 => zeroIf z3 (.cbacqRTry r.d r.p)
  | 2, 0 => zeroIf (z && r.q == 0) (.cbrelW r.d r.p r.u)
  | 2, 1 => zeroIf (z && r.q == 0) (.cbrelR r.d r.p r.u)
  | 3, 0 => zeroIf z3 (.cbstat r.d r.p)
  | 0, _ => .error .reservedValue
  | 1, _ => .error .reservedValue
  | 2, _ => .error .reservedValue
  | 3, _ => .error .reservedValue
  | _, _ => .error .reservedMinor

/-- MAJ 0x69 to 0x6B (R215). -/
def readPlate (maj : Nat) (r : RawX) : Decoded :=
  let t := Ty.ofCode r.e
  let z3 := r.n == 0 && r.q == 0 && r.u == 0 && r.w == 0 && r.e == 0
  match maj, r.f.toNat with
  | 0x69, 0 => zeroIf (r.n == 0 && r.w == 0 && r.e == 0) (.dcopy r.d r.p r.q r.u)
  | 0x69, 1 => zeroIf (r.n == 0 && r.e == 0) (.dcopym r.d r.p r.q r.u r.w)
  | 0x69, 2 => assigned (DRedOp.ofCode (r.w.extractLsb' 0 2)) fun op =>
    zeroIf (r.n == 0 && r.w.extractLsb' 2 4 == 0) (.dred op t r.d r.p r.q r.u)
  | 0x6A, 0 => zeroIf (z3 && r.d == 0) (.dwait r.p)
  | 0x6A, 1 => zeroIf z3 (.dtest r.d r.p)
  | 0x6A, 2 => zeroIf z3 (.dcancel r.d r.p)
  | 0x6B, 0 => zeroIf (r.n == 0 && is3 r.d && is3 r.w) (.dstream t (low3 r.d) (low3 r.w) r.p r.q r.u)
  | 0x6B, 1 => zeroIf (r.n == 0 && isV r.d && is3 r.p && r.q == 0 && r.w == 0) (.wget t (lowV r.d) (low3 r.p) r.u)
  | _, _ => .error .reservedMinor

/-- MAJ 0x6C (R227). -/
def readBar (r : RawX) : Decoded :=
  let z := r.n == 0 && r.u == 0 && r.w == 0 && r.e == 0
  match r.f.toNat with
  | 0 => zeroIf z (.bardef r.d r.p r.q)
  | 1 => zeroIf z (.barexp r.d r.p r.q)
  | 2 => zeroIf z (.bararr r.d r.p r.q)
  | 3 => zeroIf (z && r.d == 0) (.barwait r.p r.q)
  | _ => .error .reservedMinor

/-- MAJ 0x74 (R334). -/
def readTicket (r : RawX) : Decoded :=
  let z := r.n == 0 && is3 r.p
  match r.f.toNat, r.e.toNat with
  | 0, 0 => zeroIf (z && r.u == 0 && r.w == 0) (.tkget r.d (low3 r.p) r.q)
  | 0, 1 => zeroIf (z && r.u == 0 && r.w == 0) (.tkgetPeek r.d (low3 r.p) r.q)
  | 1, 0 => zeroIf (z && isV r.w) (.tkcommit r.d (low3 r.p) r.q r.u (lowV r.w))
  | 1, 1 => zeroIf (z && isV r.w) (.tkcommitTry r.d (low3 r.p) r.q r.u (lowV r.w))
  | 2, 0 => zeroIf (z && r.w == 0) (.tkretire r.d (low3 r.p) r.q r.u)
  | 0, _ => .error .reservedValue
  | 1, _ => .error .reservedValue
  | 2, _ => .error .reservedValue
  | _, _ => .error .reservedMinor

/-- MAJ 0x7C (R371, R397). -/
def readMark (r : RawX) : Decoded :=
  let z := r.n == 0 && r.u == 0 && r.w == 0
  match r.f.toNat with
  | 0 => zeroIf (z && r.d == 0 && r.p == 0 && r.q == 0) (.brk r.e)
  | 1 =>
    if r.e == 0 then zeroIf (z && r.d == 0) (.pmark r.p r.q)
    else if r.e == 1 then zeroIf (z && r.d == 0) (.pmarkE r.p r.q) else .error .reservedValue
  | 2 => if r.e == 0 then zeroIf (z && r.q == 0) (.cntrd r.d r.p) else .error .reservedValue
  | _ => .error .reservedMinor

/-- The majors of format X with one member by F: 0x05, 0x11 to 0x13, 0x30, 0x31, 0x39 to 0x3B, 0x3D, 0x40, 0x41 (R49). -/
def readSingle (maj : Nat) (r : RawX) : Decoded :=
  match maj, r.f.toNat with
  | 0x05, 0 => zeroIf (r.n == 0 && r.w == 0 && r.e == 0) (.sel r.d r.p r.q r.u)
  | 0x11, 0 => assigned (RC.ofCode (r.w.extractLsb' 0 3)) fun rc =>
    zeroIf (r.n == 0 && r.w.extractLsb' 3 3 == 0) (.ffma r.d r.p r.q r.u (Ty.ofCode r.e) rc)
  | 0x12, 0 => assigned (FCond.ofCode (r.w.extractLsb' 0 3)) fun c =>
    zeroIf (r.n == 0 && r.u == 0 && r.w.extractLsb' 3 3 == 0) (.fcmp c r.d r.p r.q (Ty.ofCode r.e))
  | 0x13, 0 => assigned (RC.ofCode (r.w.extractLsb' 0 3)) fun rc =>
    zeroIf (r.n == 0 && r.u == 0 && r.w.extractLsb' 4 2 == 0 && r.q.extractLsb' 4 2 == 0)
      (.fcvt r.d r.p (Ty.ofCode r.e) (Ty.ofCode (r.q.extractLsb' 0 4)) (bit (r.w.extractLsb' 3 1)) rc)
  | 0x30, 0 => zeroIf (r.n == 0 && r.d == 0 && r.e == 0) (.spawn r.w r.p r.q r.u)
  | 0x31, 0 =>
    let z := r.n == 0 && r.d == 0 && r.q == 0 && r.u == 0
    if r.e == 0 then zeroIf z (.reap r.w r.p) else if r.e == 1 then zeroIf z (.reapTry r.w r.p)
    else .error .reservedValue
  | 0x39, 0 => zeroIf (r.n == 0 && is3 r.p && r.u == 0 && r.w == 0 && r.e == 0) (.launch r.d (low3 r.p) r.q)
  | 0x3A, 0 =>
    let z := r.n == 0 && r.q == 0 && r.w == 0
    if r.e == 0 then zeroIf z (.cwait r.d r.p r.u)
    else if r.e == 1 then zeroIf (z && r.u == 0) (.cwaitTry r.d r.p) else .error .reservedValue
  | 0x3B, 0 => zeroIf (r.n == 0 && r.q == 0 && r.u == 0 && r.w == 0 && r.e == 0) (.cancel r.d r.p)
  | 0x3D, 0 =>
    let z := r.n == 0 && r.w == 0
    if r.e == 0 then zeroIf z (.phaseOpen r.d r.p r.q r.u)
    else if r.e == 1 then zeroIf (z && r.u == 0) (.phaseGraph r.d r.p r.q)
    else if r.e == 2 then zeroIf (z && r.q == 0 && r.u == 0) (.phaseSeal r.d r.p)
    else .error .reservedValue
  | 0x40, 0 => zeroIf (r.n == 0 && r.q == 0 && r.u == 0 && r.w == 0 && r.e == 0) (.vclaim r.d r.p)
  | 0x40, 1 => zeroIf (r.n == 0 && r.q == 0 && r.u == 0 && r.w == 0 && r.e == 0) (.vrelease r.d r.p)
  | 0x41, 0 => zeroIf (r.n == 0 && r.d == 0 && r.e == 0) (.vloop r.p r.q r.u r.w)
  | _, _ => .error .reservedMinor

/-- Format X (R49). -/
def readX (maj : Nat) (r : RawX) : Decoded :=
  match maj with
  | 0x06 => readField r
  | 0x10 => readFloat r
  | 0x25 => readSeg r
  | 0x2D => readObj r
  | 0x2E => readCache r
  | 0x35 => readMsg r
  | 0x38 => readSprue r
  | 0x4A => readPred r
  | 0x60 => readAnvil 0x60 r
  | 0x61 => readAnvil 0x61 r
  | 0x62 => readAnvil 0x62 r
  | 0x63 => readAnvil 0x63 r
  | 0x64 => readAnvil 0x64 r
  | 0x65 => readAnvil 0x65 r
  | 0x68 => readCb r
  | 0x69 => readPlate 0x69 r
  | 0x6A => readPlate 0x6A r
  | 0x6B => readPlate 0x6B r
  | 0x6C => readBar r
  | 0x74 => readTicket r
  | 0x7C => readMark r
  | _ => readSingle maj r

/-- A vector source field with its chain bit. -/
def readSrc (v : BitVec 4) (c : BitVec 1) : VSrc := ⟨v, bit c⟩

/-- AUX of MAJ 0x42 to 0x44 selects the second source (R151): `none` where VB, CB or XR should be zero. -/
def readArg (r : RawV) : Option VArg :=
  if bit (r.aux.extractLsb' 4 1) then
    if r.vb == 0 && r.cb == 0 then some (.scal (r.aux.extractLsb' 5 6)) else none
  else if r.aux.extractLsb' 5 6 == 0 then some (.vec (readSrc r.vb r.cb)) else none

/-- XL and KG of format V. -/
def RawV.len (r : RawV) : VLen := ⟨r.xl, r.kg⟩
/-- Field VA with CA. -/
def RawV.a (r : RawV) : VSrc := readSrc r.va r.ca
/-- Field VB with CB. -/
def RawV.b (r : RawV) : VSrc := readSrc r.vb r.cb
/-- Field VC with CC. -/
def RawV.c (r : RawV) : VSrc := readSrc r.vc r.cc
/-- VA and CA are zero. -/
def RawV.noA (r : RawV) : Bool := r.va == 0 && r.ca == 0
/-- VB and CB are zero. -/
def RawV.noB (r : RawV) : Bool := r.vb == 0 && r.cb == 0
/-- VC and CC are zero. -/
def RawV.noC (r : RawV) : Bool := r.vc == 0 && r.cc == 0
/-- The type in T. -/
def RawV.ty (r : RawV) : Ty := Ty.ofCode r.t
/-- The rounding code in AUX bits 2:0. -/
def RawV.rc (r : RawV) : Option RC := RC.ofCode (r.aux.extractLsb' 0 3)
/-- AUX bit 3: SAT or PASS. -/
def RawV.sat (r : RawV) : Bool := bit (r.aux.extractLsb' 3 1)
/-- A field that must be zero, missing in `o`, makes the encoding illegal. -/
def argIf (o : Option VArg) (k : VArg → Decoded) : Decoded :=
  match o with
  | some a => k a
  | none => .error .reservedBit

/-- Operands of `vadd`, `vsub`, `vmul`. -/
def readBin (r : RawV) (k : VBin → Instr) : Decoded :=
  argIf (readArg r) fun b => assigned r.rc fun rc =>
  zeroIf (r.ql == 0 && r.noC && r.aux.extractLsb' 11 5 == 0) (k ⟨r.vd, r.a, b, r.ty, r.sat, rc, r.len⟩)

/-- Operands of two-source members of MAJ 0x42 that neither round nor saturate. -/
def readPair (r : RawV) (k : VPair → Instr) : Decoded :=
  argIf (readArg r) fun b =>
  zeroIf (r.ql == 0 && r.noC && r.aux.extractLsb' 11 5 == 0 && r.aux.extractLsb' 0 4 == 0)
    (k ⟨r.vd, r.a, b, r.ty, r.len⟩)

/-- Operands of `vabs` and `vneg`. -/
def readUn (r : RawV) (k : VUn → Instr) : Decoded :=
  zeroIf (r.ql == 0 && r.noB && r.noC && r.aux.extractLsb' 4 12 == 0 && r.aux.extractLsb' 0 3 == 0)
    (k ⟨r.vd, r.a, r.ty, r.sat, r.len⟩)

/-- MAJ 0x42 (R152). -/
def readVArith (r : RawV) : Decoded :=
  match r.f.toNat with
  | 0 => readBin r .vadd
  | 1 => readBin r .vsub
  | 2 => readBin r .vmul
  | 3 => readPair r .vmin
  | 4 => readPair r .vmax
  | 5 => readUn r .vabs
  | 6 => readUn r .vneg
  | 7 => readPair r .vand
  | 8 => readPair r .vor
  | 9 => readPair r .vxor
  | 10 => readPair r .vshl
  | 11 => readPair r .vshr
  | 12 => readPair r .vsra
  | _ => .error .reservedMinor

/-- Operands of `vmad` and `vmsb`. -/
def readTer (r : RawV) (k : VTer → Instr) : Decoded :=
  argIf (readArg r) fun b => assigned r.rc fun rc =>
  zeroIf (r.ql == 0 && r.aux.extractLsb' 11 5 == 0) (k ⟨r.vd, r.a, b, r.c, r.ty, r.sat, rc, r.len⟩)

/-- MAJ 0x45 (R157, R158). -/
def readVMove (r : RawV) : Decoded :=
  let z := r.ql == 0 && r.noC
  let x0 : XReg := r.aux.extractLsb' 0 6
  let x6 : XReg := r.aux.extractLsb' 6 6
  match r.f.toNat with
  | 0 => zeroIf (z && r.aux.extractLsb' 3 13 == 0) (.vsel r.vd r.a r.b (r.aux.extractLsb' 0 3) r.ty r.len)
  | 1 => zeroIf (z && r.noB && r.aux == 0) (.vmov r.vd r.a r.ty r.len)
  | 2 => zeroIf (z && r.noA && r.noB && r.aux.extractLsb' 6 10 == 0) (.vbcast r.vd x0 r.ty r.len)
  | 3 => zeroIf (z && r.vd == 0 && r.noB && r.aux.extractLsb' 12 4 == 0) (.vext x0 r.a x6 r.ty r.len)
  | 4 => zeroIf (z && r.noA && r.noB && r.aux.extractLsb' 12 4 == 0) (.vins r.vd x0 x6 r.ty r.len)
  | 5 => zeroIf (z && r.noA && r.noB && r.aux == 0) (.viota r.vd r.ty r.len)
  | _ => .error .reservedMinor

/-- MAJ 0x48 (R160). -/
def readVPerm (r : RawV) : Decoded :=
  let z := r.ca == 0 && r.cb == 0 && r.noC
  let z1 := z && r.vb == 0
  let za := z && r.aux == 0
  let x0 : XReg := r.aux.extractLsb' 0 6
  match r.f.toNat, r.ql.toNat with
  | 0, 0 => zeroIf za (.vperm r.vd r.va r.vb r.ty r.len)
  | 1, 0 => zeroIf (z1 && r.aux.extractLsb' 6 10 == 0) (.vslideDown r.vd r.va x0 r.ty r.len)
  | 1, 1 => zeroIf (z1 && r.aux.extractLsb' 6 10 == 0) (.vslideUp r.vd r.va x0 r.ty r.len)
  | 2, 0 => zeroIf (z1 && r.aux == 0) (.vcompress r.vd r.va r.ty r.len)
  | 3, 0 => zeroIf (z1 && r.aux == 0) (.vexpand r.vd r.va r.ty r.len)
  | 4, 0 => zeroIf za (.vzip false r.vd r.va r.vb r.ty r.len)
  | 4, 1 => zeroIf za (.vzip true r.vd r.va r.vb r.ty r.len)
  | 5, 0 => zeroIf za (.vunzip false r.vd r.va r.vb r.ty r.len)
  | 5, 1 => zeroIf za (.vunzip true r.vd r.va r.vb r.ty r.len)
  | 0, _ => .error .reservedBit
  | 1, _ => .error .reservedValue
  | 2, _ => .error .reservedBit
  | 3, _ => .error .reservedBit
  | 4, _ => .error .reservedValue
  | 5, _ => .error .reservedValue
  | _, _ => .error .reservedMinor

/-- Operands of the conversions (R163). -/
def readCv (r : RawV) (k : VCv → Instr) : Decoded :=
  assigned r.rc fun rc =>
  zeroIf (r.noB && r.noC && r.aux.extractLsb' 4 8 == 0)
    (k ⟨r.vd, r.a, r.ty, Ty.ofCode (r.aux.extractLsb' 12 4), r.ql, r.sat, rc, r.len⟩)

/-- Operands of one-source members without AUX or QL. -/
def readMono (r : RawV) (k : VMono → Instr) : Decoded :=
  zeroIf (r.noB && r.noC && r.ql == 0 && r.aux == 0) (k ⟨r.vd, r.a, r.ty, r.len⟩)

/-- MAJ 0x5D (R172). -/
def readSfu (r : RawV) : Decoded :=
  match r.f.toNat with
  | 0 => readMono r .vsfuRcp
  | 1 => readMono r .vsfuRsq
  | 2 => readMono r .vsfuSqrt
  | 3 => readMono r .vsfuExp2
  | 4 => readMono r .vsfuLog2
  | 5 => readMono r .vsfuSin
  | 6 => readMono r .vsfuCos
  | 7 => readMono r .vsfuTanh
  | 8 => readMono r .vsfuSigmoid
  | 9 => readMono r .vsfuGelu
  | 10 => readMono r .vsfuSilu
  | _ => .error .reservedMinor

/-- MAJ 0x59, 0x5B (R165, R168, R169). -/
def readMx (maj : Nat) (r : RawV) : Decoded :=
  let st := Ty.ofCode (r.aux.extractLsb' 12 4)
  match maj, r.f.toNat with
  | 0x59, 0 => readCv r .vpack
  | 0x59, 1 => readCv r .vunpack
  | 0x5B, 0 => assigned r.rc fun rc =>
    zeroIf (r.noB && r.noC && r.aux.extractLsb' 3 5 == 0)
      (.vquant r.vd (r.aux.extractLsb' 8 4) r.a r.ty st r.ql rc r.len)
  | 0x5B, 1 => assigned r.rc fun rc =>
    zeroIf (r.noC && r.aux.extractLsb' 3 9 == 0) (.vdequant r.vd r.a r.b r.ty st r.ql rc r.len)
  | _, _ => .error .reservedMinor

/-- MAJ 0x5C (R170, R171). -/
def readHad (r : RawV) : Decoded :=
  assigned r.rc fun rc =>
  zeroIf (r.noB && r.noC && r.aux.extractLsb' 4 12 == 0)
    (if r.sat then .vhadPass r.vd r.a r.ty r.ql rc r.len else .vhad r.vd r.a r.ty r.ql rc r.len)

/-- The type of MAJ 0x70 to 0x73 is f32 (R322). -/
def f32If (r : RawV) (d : Decoded) : Decoded := if r.t == 10 then d else .error .notAccepted

/-- MAJ 0x72 (R327). -/
def readTex (r : RawV) : Decoded :=
  let z := r.ca == 0 && r.cb == 0 && r.noC && r.aux.extractLsb' 12 4 == 0 && r.aux.extractLsb' 0 3 == 0
  let g : GReg := r.aux.extractLsb' 9 3
  let xr : XReg := r.aux.extractLsb' 3 6
  match r.f.toNat, r.ql.toNat with
  | 0, 0 => zeroIf z (.tsampGrad r.vd r.va r.vb g xr r.len)
  | 0, 1 => zeroIf (z && r.vb == 0) (.tsampLod r.vd r.va g xr r.len)
  | 0, 2 => zeroIf (z && r.vb == 0) (.tsampBase r.vd r.va g xr r.len)
  | 1, 0 => zeroIf (z && r.vb == 0) (.tfetch r.vd r.va g xr r.len)
  | 0, _ => .error .reservedValue
  | 1, _ => .error .reservedBit
  | _, _ => .error .reservedMinor

/-- The majors of format V with one member: 0x3C, 0x44, 0x46, 0x47, 0x49, 0x58, 0x5A, 0x70, 0x71, 0x73 (R49). -/
def readVSingle (maj : Nat) (r : RawV) : Decoded :=
  let kd : KReg := r.vd.setWidth 3
  match maj, r.f.toNat with
  | 0x3C, 0 => assigned (WCond.ofCode r.ql) fun c =>
    if r.t == 2 || r.t == 6 then
      zeroIf (decide (r.vd.toNat < 8) && r.noC && r.aux.extractLsb' 9 7 == 0)
        (.vwait kd c r.a r.b (r.t == 2) (r.aux.extractLsb' 6 3) (r.aux.extractLsb' 0 6) r.len)
    else .error .notAccepted
  | 0x44, 0 => argIf (readArg r) fun b => assigned (VCond.ofCode r.ql) fun c =>
    zeroIf (decide (r.vd.toNat < 8) && r.noC && r.aux.extractLsb' 11 5 == 0 && r.aux.extractLsb' 0 4 == 0)
      (.vcmp kd c r.a b r.ty r.len)
  | 0x46, 0 => assigned (RedOp.ofCode r.ql) fun op => assigned r.rc fun rc =>
    zeroIf (r.noB && r.noC && r.aux.extractLsb' 4 12 == 0) (.vred op r.vd r.a r.ty r.sat rc r.len)
  | 0x47, 0 => assigned (RedOp.ofCode r.ql) fun op => assigned r.rc fun rc =>
    zeroIf (r.noB && r.noC && r.aux.extractLsb' 4 12 == 0) (.vscan op r.vd r.a r.ty r.sat rc r.len)
  | 0x49, 0 =>
    if r.t == 2 || r.t == 6 then
      zeroIf (r.ql == 0 && r.aux.extractLsb' 4 12 == 0 && r.aux.extractLsb' 2 1 == 0)
        (.vdot4 r.vd r.a r.b r.c (r.t == 2) (bit (r.aux.extractLsb' 0 1)) (bit (r.aux.extractLsb' 1 1)) r.sat r.len)
    else .error .notAccepted
  | 0x58, 0 => readCv r .vcvt
  | 0x5A, 0 => readMono r .vamax
  | 0x70, 0 => f32If r (zeroIf (r.ca == 0 && r.cb == 0 && r.noC && r.ql == 0 && r.aux == 0)
      (.boxt r.vd r.va r.vb r.len))
  | 0x71, 0 => f32If r (zeroIf (r.ca == 0 && r.cb == 0 && r.noC && r.ql == 0 && r.aux == 0)
      (.trit r.vd r.va r.vb r.len))
  | 0x73, 0 => f32If r (if r.ql == 0 || r.ql == 1 then
      zeroIf (r.noB && r.aux.extractLsb' 6 10 == 0) (.vmm8 (r.ql == 1) r.vd r.a r.c (r.aux.extractLsb' 0 6) r.len)
      else .error .reservedValue)
  | _, _ => .error .reservedMinor

/-- Format V (R49). -/
def readV (maj : Nat) (r : RawV) : Decoded :=
  match maj with
  | 0x42 => readVArith r
  | 0x43 =>
    match r.f.toNat with
    | 0 => readTer r .vmad
    | 1 => readTer r .vmsb
    | _ => .error .reservedMinor
  | 0x45 => readVMove r
  | 0x48 => readVPerm r
  | 0x59 => readMx 0x59 r
  | 0x5B => readMx 0x5B r
  | 0x5C => if r.f == 0 then readHad r else .error .reservedMinor
  | 0x5D => readSfu r
  | 0x72 => f32If r (readTex r)
  | _ => readVSingle maj r

/-- The memory operand of format M. -/
def RawM.addr (r : RawM) : MAddr := ⟨r.g, r.xb, r.disp⟩
/-- XL and KG of format M. -/
def RawM.len (r : RawM) : VLen := ⟨r.xl, r.kg⟩
/-- The type in T. -/
def RawM.ty (r : RawM) : Ty := Ty.ofCode r.t
/-- N, XL and KG are zero. -/
def RawM.noLen (r : RawM) : Bool := r.n == 0 && r.xl == 0 && r.kg == 0
/-- N is zero and D names a v register. -/
def RawM.dV (r : RawM) : Bool := r.n == 0 && isV r.d

/-- MAJ 0x22 (R250). -/
def readVLoad (r : RawM) : Decoded :=
  match r.f.toNat with
  | 0 => zeroIf (r.dV && r.xi == 0) (.vld (lowV r.d) r.ty r.addr r.len)
  | 1 => zeroIf r.dV (.vlds (lowV r.d) r.ty r.addr r.xi r.len)
  | 2 => zeroIf (r.dV && isV r.xi) (.vldx (lowV r.d) r.ty r.addr (lowV r.xi) r.len)
  | 3 => zeroIf (r.dV && r.xi == 0) (.vldff (lowV r.d) r.ty r.addr r.len)
  | _ => .error .reservedMinor

/-- MAJ 0x23 (R250). -/
def readVStore (r : RawM) : Decoded :=
  match r.f.toNat with
  | 0 => zeroIf (r.dV && r.xi == 0) (.vst (lowV r.d) r.ty r.addr r.len)
  | 1 => zeroIf r.dV (.vsts (lowV r.d) r.ty r.addr r.xi r.len)
  | 2 => zeroIf (r.dV && isV r.xi) (.vstx (lowV r.d) r.ty r.addr (lowV r.xi) r.len)
  | _ => .error .reservedMinor

/-- Operands of `amo` and `cas`, with ORD in XL (R284 to R286). -/
def readAmo (r : RawM) (k : Amo → Instr) : Decoded :=
  assigned (Scope.ofCode (r.xl.extractLsb' 0 3)) fun sc =>
  zeroIf (r.n == 0 && r.kg == 0 && r.xl.extractLsb' 3 1 == 0)
    (k ⟨r.d, r.ty, r.addr, r.xi, Order.ofCode (r.xl.extractLsb' 4 2), sc⟩)

/-- MAJ 0x2A (R285). -/
def readAmoOp (r : RawM) : Decoded :=
  match r.f.toNat with
  | 0 => readAmo r .amoAdd
  | 1 => readAmo r .amoAnd
  | 2 => readAmo r .amoOr
  | 3 => readAmo r .amoXor
  | 4 => readAmo r .amoMin
  | 5 => readAmo r .amoMax
  | 6 => readAmo r .amoMinN
  | 7 => readAmo r .amoMaxN
  | 8 => readAmo r .amoSwap
  | 9 => readAmo r .amoFadd
  | _ => .error .reservedMinor

/-- Operands of `ldacq` and `strel` (R284). -/
def readOrd (r : RawM) (k : XReg → Ty → MAddr → Scope → Instr) : Decoded :=
  assigned (Scope.ofCode (r.xl.extractLsb' 0 3)) fun sc =>
  zeroIf (r.n == 0 && r.kg == 0 && r.xi == 0 && r.xl.extractLsb' 3 3 == 0) (k r.d r.ty r.addr sc)

/-- MAJ 0x6D (R229). -/
def readFe (r : RawM) : Decoded :=
  let z := r.noLen && r.xi == 0 && r.t == 0
  match r.f.toNat with
  | 0 => zeroIf z (.lde r.d r.addr)
  | 1 => zeroIf z (.ldf r.d r.addr)
  | 2 => zeroIf z (.stf r.d r.addr)
  | _ => .error .reservedMinor

/-- Format M (R49). -/
def readM (maj : Nat) (r : RawM) : Decoded :=
  match maj with
  | 0x20 => if r.f == 0 then zeroIf (r.noLen && r.xi == 0) (.ld r.d r.ty r.addr) else .error .reservedMinor
  | 0x21 => if r.f == 0 then zeroIf (r.noLen && r.xi == 0) (.st r.d r.ty r.addr) else .error .reservedMinor
  | 0x22 => readVLoad r
  | 0x23 => readVStore r
  | 0x24 => if r.f == 0 then
      if r.t == 0 || r.t == 1 then zeroIf (r.noLen && r.d == 0) (.pref (r.t == 1) r.addr r.xi)
      else .error .reservedValue
      else .error .reservedMinor
  | 0x29 =>
    match r.f.toNat with
    | 0 => readOrd r .ldacq
    | 1 => readOrd r .strel
    | _ => .error .reservedMinor
  | 0x2A => readAmoOp r
  | 0x2B => if r.f == 0 then readAmo r .cas else .error .reservedMinor
  | 0x2C => if r.f == 0 then
      assigned (AmoOp.ofCode (r.disp.extractLsb' 12 4)) fun op =>
      zeroIf (r.dV && isV r.xi)
        (.vamo op (lowV r.d) r.ty r.g r.xb (r.disp.extractLsb' 0 12) (lowV r.xi) r.len)
      else .error .reservedMinor
  | 0x6D => readFe r
  | _ => .error .reservedMajor

/-- The instruction the fields of a major opcode stand for, before its own check. -/
def readRaw (maj : Nat) (r : Raw) : Decoded :=
  match r with
  | .h a => readH maj a
  | .sr r => readSR maj r
  | .si r => readSI maj r
  | .x r => readX maj r
  | .sl r => readSL maj r
  | .v r => readV maj r
  | .m r => readM maj r

/-- An instruction read from its fields must be well formed (R40). -/
def checked (d : Decoded) : Decoded :=
  match d with
  | .ok i => if i.wf then .ok i else .error .notAccepted
  | .error e => .error e

/-- Decode a head and its tail, the tail's missing upper bits zero (R31, R40). -/
def decode (head : BitVec 16) (tail : BitVec 48) : Decoded :=
  let maj := (head.extractLsb' 9 7).toNat
  match formatOf maj with
  | none => .error .reservedMajor
  | some fm =>
    if (head.extractLsb' 7 2).toNat != fm.tl then .error .tailLength
    else checked (readRaw maj (.cut fm (head.extractLsb' 0 7) tail))

/-! ### Lines -/

/-- Byte `b` of a line image. -/
def lineByte (img : LineImg) (b : Nat) : Byte := img.getD b 0

/-- The number whose bytes, lowest first, are given (R10). -/
def leNat : List Byte → Nat
  | [] => 0
  | b :: bs => b.toNat + 256 * leNat bs

/-- The `n` lowest bytes of a number, lowest first (R10). -/
def leBytes : Nat → Nat → List Byte
  | 0, _ => []
  | n + 1, v => BitVec.ofNat 8 v :: leBytes n (v / 256)

/-- The header of a line (R30). -/
def lineHeader (img : LineImg) : BitVec 16 := lineByte img 1 ++ lineByte img 0

/-- H of a line. -/
def lineH (img : LineImg) : Nat := ((lineHeader img).extractLsb' 11 5).toNat

/-- Head i of a line (R29). -/
def lineHead (img : LineImg) (i : Nat) : BitVec 16 := lineByte img (3 + 2 * i) ++ lineByte img (2 + 2 * i)

/-- Bytes of the tail of a head (R31). -/
def tailLen (head : BitVec 16) : Nat := 2 * (head.extractLsb' 7 2).toNat

/-- Sum of the tail lengths of heads 0 to n − 1. -/
def tailSum (img : LineImg) : Nat → Nat
  | 0 => 0
  | n + 1 => tailSum img n + tailLen (lineHead img n)

/-- The tail of head i, zero-extended (R32). -/
def lineTail (img : LineImg) (i : Nat) : BitVec 48 :=
  BitVec.ofNat 48 (leNat ((img.drop (64 - tailSum img (i + 1))).take (tailLen (lineHead img i))))

/-- The checks of R32 on a whole line. -/
def lineOk (img : LineImg) : Bool :=
  let h := lineH img
  let top := 64 - tailSum img h
  h != 0 && (lineHeader img).extractLsb' 0 11 == 0
  && decide (tailSum img h ≤ 64) && decide (2 + 2 * h ≤ top)
  && ((img.drop (2 + 2 * h)).take (top - (2 + 2 * h))).all (· == 0)

/-- A byte offset in a line can name a head: even and at least 2 (R38). -/
def headPlace (pc : Word) : Bool := pc.toNat % 2 == 0 && decide (2 ≤ pc.toNat % 64)

/-- Index of the head a pc names in its line (R37). -/
def headIndex (pc : Word) : Nat := (pc.toNat % 64 - 2) / 2

/-- R38 for a target whose line is `img`: the comparison with H is waived when the line fails R32. -/
def isHead (img : LineImg) (pc : Word) : Bool :=
  headPlace pc && (!lineOk img || decide (headIndex pc < lineH img))

/-- The sequential successor of a head, for its line's H (R37). -/
def nextPc (h : Nat) (pc : Word) : Word :=
  if headIndex pc + 1 < h then pc + 2 else pc - BitVec.ofNat 64 (pc.toNat % 64) + 66

/-! ### The encoder -/

/-- Code of a type (R44). -/
def Ty.code : Ty → BitVec 4
  | .i8 => 0 | .i16 => 1 | .i32 => 2 | .i64 => 3 | .n8 => 4 | .n16 => 5 | .n32 => 6 | .n64 => 7
  | .f16 => 8 | .bf16 => 9 | .f32 => 10 | .f64 => 11 | .fp8e4 => 12 | .fp8e5 => 13 | .fp4 => 14 | .ds8 => 15

/-- Code of a rounding mode (R45). -/
def RC.code : RC → BitVec 3
  | .rne => 0 | .rtz => 1 | .rdn => 2 | .rup => 3 | .rna => 4 | .rsr => 5 | .dyn => 7

/-- Code of a scope (R274). -/
def Scope.code : Scope → BitVec 3
  | .thread => 0 | .core => 1 | .bench => 2 | .die => 3 | .partition => 4 | .system => 5

/-- Code of an order (R284). -/
def Order.code : Order → BitVec 2
  | .relaxed => 0 | .acq => 1 | .rel => 2 | .ar => 3

/-- Code of an atomic operation (R49). -/
def AmoOp.code : AmoOp → BitVec 4
  | .add => 0 | .and => 1 | .or => 2 | .xor => 3 | .min => 4 | .max => 5 | .minN => 6 | .maxN => 7 | .swap => 8
  | .fadd => 9

/-- Code of a condition of `fcmp` (R120). -/
def FCond.code : FCond → BitVec 3
  | .eq => 0 | .lt => 1 | .le => 2 | .un => 3 | .ne => 4

/-- Code of a condition of `vcmp` (R156). -/
def VCond.code : VCond → BitVec 3
  | .eq => 0 | .ne => 1 | .lt => 2 | .le => 3 | .gt => 4 | .ge => 5 | .un => 6

/-- Code of a condition of `vwait` (R319). -/
def WCond.code : WCond → BitVec 3
  | .eq => 0 | .ne => 1 | .ge => 2

/-- Code of a reduction (R159). -/
def RedOp.code : RedOp → BitVec 3
  | .add => 0 | .min => 1 | .max => 2 | .and => 3 | .or => 4 | .xor => 5

/-- Code of a reducing copy (R215). -/
def DRedOp.code : DRedOp → BitVec 2
  | .add => 0 | .min => 1 | .max => 2

/-- Number of a control register (R47). -/
def CReg.code : CReg → BitVec 12
  | .vstart => 0x001 | .tid => 0x010 | .gang => 0x011 | .launch => 0x012 | .ctx => 0x013 | .part => 0x014
  | .claim => 0x015 | .frm => 0x020 | .fflags => 0x021 | .mxstat => 0x022 | .srseed => 0x023 | .lstack => 0x030
  | .ldepth => 0x031 | .felimit => 0x040 | .cblimit => 0x041 | .tvec => 0x050 | .tcause => 0x051 | .tpc => 0x052
  | .tval => 0x053 | .energy => 0x060 | .gtsc => 0x061

/-- A flag as a bit. -/
def bit1 (b : Bool) : BitVec 1 := if b then 1#1 else 0#1

/-- An encoding: the major opcode and the fields of its format. -/
structure Enc where
  maj : BitVec 7
  raw : Raw
  deriving DecidableEq, Repr

/-- Encode in format H. -/
def eH (maj : BitVec 7) (a : BitVec 7) : Enc := ⟨maj, .h a⟩
/-- Encode in format SR. -/
def eSR (maj : BitVec 7) (f : BitVec 4) (n : BitVec 1) (d s1 s2 : BitVec 6) : Enc := ⟨maj, .sr ⟨n, d, s1, s2, f⟩⟩
/-- Encode in format SI or B. -/
def eSI (maj : BitVec 7) (f : BitVec 4) (n : BitVec 1) (d s1 : BitVec 6) (imm : BitVec 22) : Enc :=
  ⟨maj, .si ⟨n, d, s1, f, imm⟩⟩
/-- Encode in format X with N = 0. -/
def eX (maj : BitVec 7) (f e : BitVec 4) (d p q u w : BitVec 6) : Enc := ⟨maj, .x ⟨0, d, p, q, u, w, f, e⟩⟩
/-- Encode in format SL. -/
def eSL (maj : BitVec 7) (n : BitVec 1) (d : BitVec 6) (imm : BitVec 48) : Enc := ⟨maj, .sl ⟨n, d, imm⟩⟩
/-- An unused vector source. -/
def noSrc : VSrc := ⟨0, false⟩
/-- Encode in format V. -/
def eV (maj : BitVec 7) (f t : BitVec 4) (vd : BitVec 4) (ql : BitVec 3) (a b c : VSrc) (l : VLen)
    (aux : BitVec 16) : Enc :=
  ⟨maj, .v ⟨vd, ql, a.reg, bit1 a.chain, b.reg, bit1 b.chain, c.reg, bit1 c.chain, l.xl, l.kg, t, f, aux⟩⟩
/-- Encode in format M with N = 0. -/
def eM (maj : BitVec 7) (f t : BitVec 4) (d : BitVec 6) (m : MAddr) (xi xl : BitVec 6) (kg : BitVec 3) : Enc :=
  ⟨maj, .m ⟨0, d, m.g, m.xb, xi, xl, kg, t, f, m.disp⟩⟩

/-- A v register in a 6-bit field. -/
def fV (v : VReg) : BitVec 6 := v.setWidth 6
/-- A k, g or w register in a 6-bit field. -/
def f3 (v : BitVec 3) : BitVec 6 := v.setWidth 6

/-- VB of a second source (R151). -/
def VArg.src : VArg → VSrc
  | .vec s => s
  | .scal _ => noSrc

/-- AUX of MAJ 0x42 to 0x44 (R151). -/
def auxArg (b : VArg) (sat : Bool) (rc : BitVec 3) : BitVec 16 :=
  match b with
  | .vec _ => 0#12 ++ bit1 sat ++ rc
  | .scal x => 0#5 ++ x ++ 1#1 ++ bit1 sat ++ rc

/-- AUX of the conversions (R163). -/
def auxCv (s : Ty) (vs : VReg) (sat : Bool) (rc : RC) : BitVec 16 := s.code ++ vs ++ 0#4 ++ bit1 sat ++ rc.code

/-- Encode `vadd`, `vsub`, `vmul`. -/
def eBin (f : BitVec 4) (o : VBin) : Enc :=
  eV 0x42 f o.t.code o.vd 0 o.a o.b.src noSrc o.l (auxArg o.b o.sat o.rc.code)
/-- Encode two-source members without rounding. -/
def ePair (f : BitVec 4) (o : VPair) : Enc := eV 0x42 f o.t.code o.vd 0 o.a o.b.src noSrc o.l (auxArg o.b false 0)
/-- Encode `vabs`, `vneg`. -/
def eUn (f : BitVec 4) (o : VUn) : Enc :=
  eV 0x42 f o.t.code o.vd 0 o.a noSrc noSrc o.l (0#12 ++ bit1 o.sat ++ 0#3)
/-- Encode `vmad`, `vmsb`. -/
def eTer (f : BitVec 4) (o : VTer) : Enc :=
  eV 0x43 f o.t.code o.vd 0 o.a o.b.src o.c o.l (auxArg o.b o.sat o.rc.code)
/-- Encode a conversion. -/
def eCv (maj : BitVec 7) (f : BitVec 4) (o : VCv) : Enc :=
  eV maj f o.t.code o.vd o.part o.a noSrc noSrc o.l (auxCv o.s 0 o.sat o.rc)
/-- Encode a one-source member. -/
def eMono (maj : BitVec 7) (f : BitVec 4) (o : VMono) : Enc := eV maj f o.t.code o.vd 0 o.a noSrc noSrc o.l 0
/-- The ORD field (R284). -/
def ordBits (o : Order) (sc : Scope) : BitVec 6 := o.code ++ 0#1 ++ sc.code
/-- Encode `amo` and `cas`. -/
def eAmo (maj : BitVec 7) (f : BitVec 4) (o : Amo) : Enc := eM maj f o.t.code o.d o.m o.xi (ordBits o.ord o.sc) 0
/-- Encode a reduction or scan. -/
def eRed (maj : BitVec 7) (op : RedOp) (vd : VReg) (a : VSrc) (t : Ty) (sat : Bool) (rc : RC) (l : VLen) : Enc :=
  eV maj 0 t.code vd op.code a noSrc noSrc l (0#12 ++ bit1 sat ++ rc.code)
/-- A plain vector source. -/
def plain (v : VReg) : VSrc := ⟨v, false⟩
/-- AUX of textures (R327). -/
def auxTex (g : GReg) (xr : XReg) : BitVec 16 := 0#4 ++ g ++ xr ++ 0#3
/-- AREG or BREG of an operand of `mma`. -/
def MOperand.isReg : MOperand → Bool
  | .pad _ => false
  | .reg _ => true
/-- Field of an operand of `mma`. -/
def MOperand.field : MOperand → BitVec 6
  | .pad p => p
  | .reg v => fV v

/-- The fields of an instruction's encoding; `none` for the rows that have none. -/
def enc : Instr → Option Enc
  | .li d imm => some (eSL 0x01 0 d imm)
  | .liN d imm => some (eSL 0x01 1 d imm)
  | .add d a b => some (eSR 0x02 0 0 d a b)
  | .sub d a b => some (eSR 0x02 1 0 d a b)
  | .and d a b => some (eSR 0x02 2 0 d a b)
  | .or d a b => some (eSR 0x02 3 0 d a b)
  | .xor d a b => some (eSR 0x02 4 0 d a b)
  | .shl d a b => some (eSR 0x02 5 0 d a b)
  | .shr d a b => some (eSR 0x02 6 0 d a b)
  | .sra d a b => some (eSR 0x02 7 0 d a b)
  | .slt d a b => some (eSR 0x02 8 0 d a b)
  | .sltN d a b => some (eSR 0x02 8 1 d a b)
  | .min d a b => some (eSR 0x02 9 0 d a b)
  | .minN d a b => some (eSR 0x02 9 1 d a b)
  | .max d a b => some (eSR 0x02 10 0 d a b)
  | .maxN d a b => some (eSR 0x02 10 1 d a b)
  | .mov d a => some (eSR 0x02 11 0 d a 0)
  | .mul d a b => some (eSR 0x03 0 0 d a b)
  | .mulh d a b => some (eSR 0x03 1 0 d a b)
  | .mulhN d a b => some (eSR 0x03 1 1 d a b)
  | .div d a b => some (eSR 0x03 2 0 d a b)
  | .divN d a b => some (eSR 0x03 2 1 d a b)
  | .rem d a b => some (eSR 0x03 3 0 d a b)
  | .remN d a b => some (eSR 0x03 3 1 d a b)
  | .clz d a => some (eSR 0x04 0 0 d a 0)
  | .ctz d a => some (eSR 0x04 1 0 d a 0)
  | .popc d a => some (eSR 0x04 2 0 d a 0)
  | .brev d a => some (eSR 0x04 3 0 d a 0)
  | .sel d p q u => some (eX 0x05 0 0 d p q u 0)
  | .bfx d p l w => some (eX 0x06 0 0 d p l w 0)
  | .bfxN d p l w => some ⟨0x06, .x ⟨1, d, p, l, w, 0, 0, 0⟩⟩
  | .bfi d p l w => some (eX 0x06 1 0 d p l w 0)
  | .addi d a i => some (eSI 0x07 0 0 d a i)
  | .andi d a i => some (eSI 0x07 1 0 d a i)
  | .ori d a i => some (eSI 0x07 2 0 d a i)
  | .xori d a i => some (eSI 0x07 3 0 d a i)
  | .shli d a s => some (eSI 0x07 4 0 d a (s.setWidth 22))
  | .shri d a s => some (eSI 0x07 5 0 d a (s.setWidth 22))
  | .srai d a s => some (eSI 0x07 6 0 d a (s.setWidth 22))
  | .slti d a i => some (eSI 0x07 7 0 d a i)
  | .sltiN d a i => some (eSI 0x07 7 1 d a i)
  | .fadd d p q t rc => some (eX 0x10 0 t.code d p q 0 (rc.code.setWidth 6))
  | .fsub d p q t rc => some (eX 0x10 1 t.code d p q 0 (rc.code.setWidth 6))
  | .fmul d p q t rc => some (eX 0x10 2 t.code d p q 0 (rc.code.setWidth 6))
  | .fdiv d p q t rc => some (eX 0x10 3 t.code d p q 0 (rc.code.setWidth 6))
  | .fsqrt d p t rc => some (eX 0x10 4 t.code d p 0 0 (rc.code.setWidth 6))
  | .fmin d p q t => some (eX 0x10 5 t.code d p q 0 0)
  | .fmax d p q t => some (eX 0x10 6 t.code d p q 0 0)
  | .fclass d p t => some (eX 0x10 7 t.code d p 0 0 0)
  | .ffma d p q u t rc => some (eX 0x11 0 t.code d p q u (rc.code.setWidth 6))
  | .fcmp c d p q t => some (eX 0x12 0 t.code d p q 0 (c.code.setWidth 6))
  | .fcvt d p t s sat rc => some (eX 0x13 0 t.code d p (s.code.setWidth 6) 0 (0#2 ++ bit1 sat ++ rc.code))
  | .jmp o => some (eSI 0x14 0 0 0 0 o)
  | .jal l o => some (eSI 0x15 0 0 l 0 o)
  | .jalr d a i => some (eSI 0x16 0 0 d a i)
  | .beq a b o => some (eSI 0x17 0 0 a b o)
  | .bne a b o => some (eSI 0x17 1 0 a b o)
  | .blt a b o => some (eSI 0x18 0 0 a b o)
  | .bltN a b o => some (eSI 0x18 0 1 a b o)
  | .bge a b o => some (eSI 0x18 1 0 a b o)
  | .bgeN a b o => some (eSI 0x18 1 1 a b o)
  | .loop c o => some (eSI 0x19 0 0 c 0 o)
  | .loopi c o => some (eSL 0x1A 0 0 (c ++ o))
  | .lbrk => some (eH 0x1B 0)
  | .crrd d r => some (eSI 0x1C 0 0 d 0 (0#10 ++ r.code))
  | .crwr d r a => some (eSI 0x1C 1 0 d a (0#10 ++ r.code))
  | .crset d r a => some (eSI 0x1C 2 0 d a (0#10 ++ r.code))
  | .crclr d r a => some (eSI 0x1C 3 0 d a (0#10 ++ r.code))
  | .ld d t m => some (eM 0x20 0 t.code d m 0 0 0)
  | .st d t m => some (eM 0x21 0 t.code d m 0 0 0)
  | .vld v t m l => some (eM 0x22 0 t.code (fV v) m 0 l.xl l.kg)
  | .vlds v t m xi l => some (eM 0x22 1 t.code (fV v) m xi l.xl l.kg)
  | .vldx v t m vi l => some (eM 0x22 2 t.code (fV v) m (fV vi) l.xl l.kg)
  | .vldff v t m l => some (eM 0x22 3 t.code (fV v) m 0 l.xl l.kg)
  | .vst v t m l => some (eM 0x23 0 t.code (fV v) m 0 l.xl l.kg)
  | .vsts v t m xi l => some (eM 0x23 1 t.code (fV v) m xi l.xl l.kg)
  | .vstx v t m vi l => some (eM 0x23 2 t.code (fV v) m (fV vi) l.xl l.kg)
  | .pref sl m xi => some (eM 0x24 0 (if sl then 1 else 0) 0 m xi 0 0)
  | .segld d p g q => some (eX 0x25 0 0 d p q (f3 g) 0)
  | .segnarrow d gp gq u w r => some (eX 0x25 1 r d (f3 gp) (f3 gq) u w)
  | .segrd d g n => some (eX 0x25 2 0 d (f3 g) (n.setWidth 6) 0 0)
  | .fence sc i e s l => some (eH 0x28 (sc.code ++ bit1 i ++ bit1 e ++ bit1 s ++ bit1 l))
  | .ldacq d t m sc => some (eM 0x29 0 t.code d m 0 (ordBits .relaxed sc) 0)
  | .strel d t m sc => some (eM 0x29 1 t.code d m 0 (ordBits .relaxed sc) 0)
  | .amoAdd o => some (eAmo 0x2A 0 o)
  | .amoAnd o => some (eAmo 0x2A 1 o)
  | .amoOr o => some (eAmo 0x2A 2 o)
  | .amoXor o => some (eAmo 0x2A 3 o)
  | .amoMin o => some (eAmo 0x2A 4 o)
  | .amoMax o => some (eAmo 0x2A 5 o)
  | .amoMinN o => some (eAmo 0x2A 6 o)
  | .amoMaxN o => some (eAmo 0x2A 7 o)
  | .amoSwap o => some (eAmo 0x2A 8 o)
  | .amoFadd o => some (eAmo 0x2A 9 o)
  | .cas o => some (eAmo 0x2B 0 o)
  | .vamo op v t g xb disp vi l => some (eM 0x2C 0 t.code (fV v) ⟨g, xb, op.code ++ disp⟩ (fV vi) l.xl l.kg)
  | .objdecl d g q => some (eX 0x2D 0 0 d (f3 g) q 0 0)
  | .objdrop d p => some (eX 0x2D 1 0 d p 0 0 0)
  | .track d g q u => some (eX 0x2D 2 0 d (f3 g) q u 0)
  | .wb g q u => some (eX 0x2E 0 0 0 (f3 g) q u 0)
  | .inv g q u => some (eX 0x2E 1 0 0 (f3 g) q u 0)
  | .wbinv g q u => some (eX 0x2E 2 0 0 (f3 g) q u 0)
  | .wbAll => some (eX 0x2E 0 1 0 0 0 0 0)
  | .invAll => some (eX 0x2E 1 1 0 0 0 0 0)
  | .wbinvAll => some (eX 0x2E 2 1 0 0 0 0 0)
  | .icinv sc g q u => some (eX 0x2E 3 (sc.code.setWidth 4) 0 (f3 g) q u 0)
  | .ifence => some (eH 0x2F 0)
  | .spawn w p q u => some (eX 0x30 0 0 0 p q u w)
  | .reap w p => some (eX 0x31 0 0 0 p 0 0 w)
  | .reapTry w p => some (eX 0x31 0 1 0 p 0 0 w)
  | .halt => some (eH 0x32 0)
  | .haltX a => some (eH 0x32 (a.setWidth 7))
  | .yield => some (eH 0x33 0)
  | .sleep d a => some (eSR 0x34 0 0 d a 0)
  | .msend w p q u => some (eX 0x35 0 0 0 p q u w)
  | .msendTry w p q u => some (eX 0x35 0 1 0 p q u w)
  | .mrecv w p u => some (eX 0x35 1 0 0 p 0 u w)
  | .mrecvTry w p u => some (eX 0x35 1 1 0 p 0 u w)
  | .gbar => some (eH 0x36 0)
  | .slicegive => some (eH 0x37 0)
  | .qpush d p q => some (eX 0x38 0 0 d p q 0 0)
  | .qpushTry d p q => some (eX 0x38 0 1 d p q 0 0)
  | .qtake d w p => some (eX 0x38 1 0 d p 0 0 w)
  | .qtakeTry d w p => some (eX 0x38 1 1 d p 0 0 w)
  | .qdone d p q => some (eX 0x38 2 0 d p q 0 0)
  | .qstat d p => some (eX 0x38 3 0 d p 0 0 0)
  | .launch d g q => some (eX 0x39 0 0 d (f3 g) q 0 0)
  | .cwait d p u => some (eX 0x3A 0 0 d p 0 u 0)
  | .cwaitTry d p => some (eX 0x3A 0 1 d p 0 0 0)
  | .cancel d p => some (eX 0x3B 0 0 d p 0 0 0)
  | .vwait k c a b sg g u l =>
    some (eV 0x3C 0 (if sg then 2 else 6) (k.setWidth 4) c.code a b noSrc l (0#7 ++ g ++ u))
  | .phaseOpen d p q u => some (eX 0x3D 0 0 d p q u 0)
  | .phaseGraph d p q => some (eX 0x3D 0 1 d p q 0 0)
  | .phaseSeal d p => some (eX 0x3D 0 2 d p 0 0 0)
  | .vclaim d p => some (eX 0x40 0 0 d p 0 0 0)
  | .vrelease d p => some (eX 0x40 1 0 d p 0 0 0)
  | .vloop p q u n => some (eX 0x41 0 0 0 p q u n)
  | .vadd o => some (eBin 0 o)
  | .vsub o => some (eBin 1 o)
  | .vmul o => some (eBin 2 o)
  | .vmin o => some (ePair 3 o)
  | .vmax o => some (ePair 4 o)
  | .vabs o => some (eUn 5 o)
  | .vneg o => some (eUn 6 o)
  | .vand o => some (ePair 7 o)
  | .vor o => some (ePair 8 o)
  | .vxor o => some (ePair 9 o)
  | .vshl o => some (ePair 10 o)
  | .vshr o => some (ePair 11 o)
  | .vsra o => some (ePair 12 o)
  | .vmad o => some (eTer 0 o)
  | .vmsb o => some (eTer 1 o)
  | .vdot4 v a b c sg ua ub sat l =>
    some (eV 0x49 0 (if sg then 2 else 6) v 0 a b c l (0#12 ++ bit1 sat ++ 0#1 ++ bit1 ub ++ bit1 ua))
  | .vcmp k c a b t l => some (eV 0x44 0 t.code (k.setWidth 4) c.code a b.src noSrc l (auxArg b false 0))
  | .vsel v a b k t l => some (eV 0x45 0 t.code v 0 a b noSrc l (0#13 ++ k))
  | .vmov v a t l => some (eV 0x45 1 t.code v 0 a noSrc noSrc l 0)
  | .vbcast v x t l => some (eV 0x45 2 t.code v 0 noSrc noSrc noSrc l (0#10 ++ x))
  | .vext x a i t l => some (eV 0x45 3 t.code 0 0 a noSrc noSrc l (0#4 ++ i ++ x))
  | .vins v x i t l => some (eV 0x45 4 t.code v 0 noSrc noSrc noSrc l (0#4 ++ i ++ x))
  | .viota v t l => some (eV 0x45 5 t.code v 0 noSrc noSrc noSrc l 0)
  | .vred op v a t sat rc l => some (eRed 0x46 op v a t sat rc l)
  | .vscan op v a t sat rc l => some (eRed 0x47 op v a t sat rc l)
  | .vperm v a b t l => some (eV 0x48 0 t.code v 0 (plain a) (plain b) noSrc l 0)
  | .vslideDown v a x t l => some (eV 0x48 1 t.code v 0 (plain a) noSrc noSrc l (0#10 ++ x))
  | .vslideUp v a x t l => some (eV 0x48 1 t.code v 1 (plain a) noSrc noSrc l (0#10 ++ x))
  | .vcompress v a t l => some (eV 0x48 2 t.code v 0 (plain a) noSrc noSrc l 0)
  | .vexpand v a t l => some (eV 0x48 3 t.code v 0 (plain a) noSrc noSrc l 0)
  | .vzip hi v a b t l => some (eV 0x48 4 t.code v (if hi then 1 else 0) (plain a) (plain b) noSrc l 0)
  | .vunzip odd v a b t l => some (eV 0x48 5 t.code v (if odd then 1 else 0) (plain a) (plain b) noSrc l 0)
  | .kand d p q => some (eX 0x4A 0 0 (f3 d) (f3 p) (f3 q) 0 0)
  | .kor d p q => some (eX 0x4A 1 0 (f3 d) (f3 p) (f3 q) 0 0)
  | .kxor d p q => some (eX 0x4A 2 0 (f3 d) (f3 p) (f3 q) 0 0)
  | .knot d p => some (eX 0x4A 3 0 (f3 d) (f3 p) 0 0 0)
  | .kmov d p => some (eX 0x4A 4 0 (f3 d) (f3 p) 0 0 0)
  | .kpop d p u => some (eX 0x4A 5 0 d (f3 p) 0 u 0)
  | .kfirst d p u => some (eX 0x4A 6 0 d (f3 p) 0 u 0)
  | .kset d u => some (eX 0x4A 7 0 (f3 d) 0 0 u 0)
  | .vcvt o => some (eCv 0x58 0 o)
  | .vpack o => some (eCv 0x59 0 o)
  | .vunpack o => some (eCv 0x59 1 o)
  | .vamax o => some (eMono 0x5A 0 o)
  | .vquant v vs a t s part rc l => some (eV 0x5B 0 t.code v part a noSrc noSrc l (auxCv s vs false rc))
  | .vdequant v a b t s part rc l => some (eV 0x5B 1 t.code v part a b noSrc l (auxCv s 0 false rc))
  | .vhad v a t sg rc l => some (eV 0x5C 0 t.code v sg a noSrc noSrc l (0#13 ++ rc.code))
  | .vhadPass v a t sg rc l => some (eV 0x5C 0 t.code v sg a noSrc noSrc l (0#12 ++ 1#1 ++ rc.code))
  | .vsfuRcp o => some (eMono 0x5D 0 o)
  | .vsfuRsq o => some (eMono 0x5D 1 o)
  | .vsfuSqrt o => some (eMono 0x5D 2 o)
  | .vsfuExp2 o => some (eMono 0x5D 3 o)
  | .vsfuLog2 o => some (eMono 0x5D 4 o)
  | .vsfuSin o => some (eMono 0x5D 5 o)
  | .vsfuCos o => some (eMono 0x5D 6 o)
  | .vsfuTanh o => some (eMono 0x5D 7 o)
  | .vsfuSigmoid o => some (eMono 0x5D 8 o)
  | .vsfuGelu o => some (eMono 0x5D 9 o)
  | .vsfuSilu o => some (eMono 0x5D 10 o)
  | .mfmt d p => some (eX 0x60 0 0 d p 0 0 0)
  | .mfmtWin d p q => some (eX 0x60 0 1 d p q 0 0)
  | .mzero w d u => some (eX 0x61 0 0 d 0 0 u w)
  | .mma w d st a b =>
    some (eX 0x62 0 (0#1 ++ bit1 st ++ bit1 b.isReg ++ bit1 a.isReg) d a.field b.field 0 w)
  | .mrow v t p u sat rc => some (eX 0x63 0 t.code (fV v) p 0 u (0#2 ++ bit1 sat ++ rc.code))
  | .mwrow v t p u => some (eX 0x63 1 t.code (fV v) p 0 u 0)
  | .mload w d p u t => some (eX 0x64 0 t.code d p 0 u w)
  | .mcopy w d p u t sat rc => some (eX 0x64 1 t.code d p (0#2 ++ bit1 sat ++ rc.code) u w)
  | .mwait p => some (eX 0x65 0 0 0 p 0 0 0)
  | .mstat d => some (eX 0x65 1 0 d 0 0 0 0)
  | .mstatClr d => some (eX 0x65 1 1 d 0 0 0 0)
  | .cbdef d p q => some (eX 0x68 0 0 d p q 0 0)
  | .cbacqW d p => some (eX 0x68 1 0 d p 0 0 0)
  | .cbacqR d p => some (eX 0x68 1 1 d p 0 0 0)
  | .cbacqWTry d p => some (eX 0x68 1 2 d p 0 0 0)
  | .cbacqRTry d p => some (eX 0x68 1 3 d p 0 0 0)
  | .cbrelW d p u => some (eX 0x68 2 0 d p 0 u 0)
  | .cbrelR d p u => some (eX 0x68 2 1 d p 0 u 0)
  | .cbstat d p => some (eX 0x68 3 0 d p 0 0 0)
  | .dcopy d p q u => some (eX 0x69 0 0 d p q u 0)
  | .dcopym d p q u w => some (eX 0x69 1 0 d p q u w)
  | .dred op t d p q u => some (eX 0x69 2 t.code d p q u (op.code.setWidth 6))
  | .dwait p => some (eX 0x6A 0 0 0 p 0 0 0)
  | .dtest d p => some (eX 0x6A 1 0 d p 0 0 0)
  | .dcancel d p => some (eX 0x6A 2 0 d p 0 0 0)
  | .dstream t wd g p q u => some (eX 0x6B 0 t.code (f3 wd) p q u (f3 g))
  | .wget t v wp u => some (eX 0x6B 1 t.code (fV v) (f3 wp) 0 u 0)
  | .bardef d p q => some (eX 0x6C 0 0 d p q 0 0)
  | .barexp d p q => some (eX 0x6C 1 0 d p q 0 0)
  | .bararr d p q => some (eX 0x6C 2 0 d p q 0 0)
  | .barwait p q => some (eX 0x6C 3 0 0 p q 0 0)
  | .lde d m => some (eM 0x6D 0 0 d m 0 0 0)
  | .ldf d m => some (eM 0x6D 1 0 d m 0 0 0)
  | .stf d m => some (eM 0x6D 2 0 d m 0 0 0)
  | .boxt v a b l => some (eV 0x70 0 10 v 0 (plain a) (plain b) noSrc l 0)
  | .trit v a b l => some (eV 0x71 0 10 v 0 (plain a) (plain b) noSrc l 0)
  | .tsampGrad v a b g x l => some (eV 0x72 0 10 v 0 (plain a) (plain b) noSrc l (auxTex g x))
  | .tsampLod v a g x l => some (eV 0x72 0 10 v 1 (plain a) noSrc noSrc l (auxTex g x))
  | .tsampBase v a g x l => some (eV 0x72 0 10 v 2 (plain a) noSrc noSrc l (auxTex g x))
  | .tfetch v a g x l => some (eV 0x72 1 10 v 0 (plain a) noSrc noSrc l (auxTex g x))
  | .vmm8 e5 v a c x l => some (eV 0x73 0 10 v (if e5 then 1 else 0) a noSrc c l (0#10 ++ x))
  | .tkget d g q => some (eX 0x74 0 0 d (f3 g) q 0 0)
  | .tkgetPeek d g q => some (eX 0x74 0 1 d (f3 g) q 0 0)
  | .tkcommit d g q u v => some (eX 0x74 1 0 d (f3 g) q u (fV v))
  | .tkcommitTry d g q u v => some (eX 0x74 1 1 d (f3 g) q u (fV v))
  | .tkretire d g q u => some (eX 0x74 2 0 d (f3 g) q u 0)
  | .trap n => some (eH 0x78 n)
  | .tret => some (eH 0x79 0)
  | .tretNext => some (eH 0x79 1)
  | .brk n => some (eX 0x7C 0 n 0 0 0 0 0)
  | .seam n => some (eSI 0x7A 0 0 0 0 (0#14 ++ n))
  | .seamret => some (eH 0x7B 0)
  | .pmark p c => some (eX 0x7C 1 0 0 p c 0 0)
  | .pmarkE p c => some (eX 0x7C 1 1 0 p c 0 0)
  | .cntrd d p => some (eX 0x7C 2 0 d p 0 0 0)
  | _ => none

/-- Format of an encoding. -/
def Raw.format : Raw → Format
  | .h _ => .h | .sr _ => .sr | .si _ => .si | .x _ => .x | .sl _ => .sl | .v _ => .v | .m _ => .m

/-- The A field of a head (R43). -/
def Raw.headA : Raw → BitVec 7
  | .h a => a
  | .sr r => r.n ++ r.d
  | .si r => r.n ++ r.d
  | .x r => r.n ++ r.d
  | .sl r => r.n ++ r.d
  | .v r => r.vd ++ r.ql
  | .m r => r.n ++ r.d

/-- The tail, zero-extended to 48 bits (R43). -/
def Raw.tail : Raw → BitVec 48
  | .h _ => 0
  | .sr r => 0#32 ++ r.s1 ++ r.s2 ++ r.f
  | .si r => 0#16 ++ r.s1 ++ r.f ++ r.imm
  | .x r => 0#16 ++ r.p ++ r.q ++ r.u ++ r.w ++ r.f ++ r.e
  | .sl r => r.imm
  | .v r => r.va ++ r.ca ++ r.vb ++ r.cb ++ r.vc ++ r.cc ++ r.xl ++ r.kg ++ r.t ++ r.f ++ r.aux
  | .m r => r.g ++ r.xb ++ r.xi ++ r.xl ++ r.kg ++ r.t ++ r.f ++ r.disp

/-- The head of an encoding (R31). -/
def Enc.head (e : Enc) : BitVec 16 := e.maj ++ BitVec.ofNat 2 e.raw.format.tl ++ e.raw.headA

/-- The words of an instruction, its head and its tail zero-extended to 48 bits; `none` for the rows without an
encoding. -/
def encode (i : Instr) : Option (BitVec 16 × BitVec 48) := (enc i).map fun e => (e.head, e.raw.tail)

/-- A line that holds one instruction, head 0, and nothing else (R29, R32). -/
def oneLine (head : BitVec 16) (tail : BitVec 48) : LineImg :=
  leBytes 2 0x0800 ++ leBytes 2 head.toNat ++ List.replicate (60 - tailLen head) 0 ++ leBytes (tailLen head) tail.toNat

/-- The bytes of a line that holds some instructions, heads in order and tails packed downward (R29 to R31). -/
def lineOf (is : List (BitVec 16 × BitVec 48)) : LineImg :=
  let heads := is.flatMap fun i => leBytes 2 i.1.toNat
  let tails := is.reverse.flatMap fun i => leBytes (tailLen i.1) i.2.toNat
  leBytes 2 (2048 * is.length) ++ heads ++ List.replicate (62 - heads.length - tails.length) 0 ++ tails

/-- Some instructions fit one line (R51). -/
def fitsLine (is : List (BitVec 16 × BitVec 48)) : Bool :=
  decide (is.length ≤ 31) && decide (2 + 2 * is.length + (is.map fun i => tailLen i.1).sum ≤ 64)

/-- Instructions packed into lines in source order: each joins the line `open'` if it fits, else begins the next (R51). -/
def packLines (open' : List (BitVec 16 × BitVec 48)) : List (BitVec 16 × BitVec 48) → List LineImg
  | [] => if open'.isEmpty then [] else [lineOf open']
  | i :: is => if fitsLine (open' ++ [i]) then packLines (open' ++ [i]) is else lineOf open' :: packLines [i] is

/-- The lines of some instructions as the assembler packs them (R51); none when one has no encoding. -/
def assemble (is : List Instr) : Option (List LineImg) := (is.mapM encode).map (packLines [])

/-- The instruction whose bits are `w`, numbered as spec/opcode_table.json numbers them: the head is the top 16 of the
`nbits` bits and the tail the rest (the table's `match` of ADD is the head 0x0480 over the tail 0x0000; log entry 12). -/
def decodeTableWord (nbits w : Nat) : Option Instr :=
  let head := BitVec.ofNat 16 (w >>> (nbits - 16))
  let img := oneLine head (BitVec.ofNat 48 (w % 2 ^ (nbits - 16)))
  if lineOk img then (decode (lineHead img 0) (lineTail img 0)).toOption else none

end Sys2Proof
end

