-- ==== Sys2Proof/Machine/Map.lean ====
section
/-!
DEFINITION. Finite maps from numbers, as lists of pairs with rising keys: the canonical form of every sparse part of the
state, so that equal contents are equal data.
-/
namespace Sys2Proof.Machine.Map

/-- The value at a key. -/
def get? {α : Type} : List (Nat × α) → Nat → Option α
  | [], _ => none
  | (j, a) :: m, k => if j = k then some a else get? m k

/-- The value at a key, or a default. -/
def getD {α : Type} (m : List (Nat × α)) (k : Nat) (d : α) : α := (get? m k).getD d

/-- Put a value at a key, keeping the keys rising. -/
def put {α : Type} : List (Nat × α) → Nat → α → List (Nat × α)
  | [], k, a => [(k, a)]
  | (j, b) :: m, k, a =>
    if k < j then (k, a) :: (j, b) :: m
    else if j = k then (k, a) :: m
    else (j, b) :: put m k a

/-- Remove a key. -/
def del {α : Type} : List (Nat × α) → Nat → List (Nat × α)
  | [], _ => []
  | (j, b) :: m, k => if j = k then del m k else (j, b) :: del m k

/-- Change the value at a key that is there. -/
def modify {α : Type} (m : List (Nat × α)) (k : Nat) (f : α → α) : List (Nat × α) :=
  m.map fun p => if p.1 = k then (p.1, f p.2) else p

/-- The keys rise strictly. -/
def rising {α : Type} : List (Nat × α) → Bool
  | [] => true
  | [_] => true
  | (j, _) :: (k, b) :: m => decide (j < k) && rising ((k, b) :: m)

end Sys2Proof.Machine.Map
end

