-- ==== Sys2Proof/Machine/State.lean ====
section
/-!
DEFINITION. The state of the machine, as plain data: everything the spec gives the device, and the model's own schedule
and counters. Sparse parts are lists of pairs with rising keys (`Map`); what is absent from one reads as the default its
docstring names.
-/
namespace Sys2Proof.Machine

/-- Why a run of the model stops. No instruction with a meaning in the spec reaches one of these in a state that a step
can reach. -/
inductive Fault where
  /-- A thread's instruction is executed and `State.cur` names no thread. Raised by every meaning of an encoded
  instruction; safe: `step` never selects an instruction without a thread. -/
  | noThread
  deriving DecidableEq, Repr

/-- Why the model has no meaning to give. -/
inductive Refusal where
  /-- The instruction has no meaning yet; raised by an arm of `exec`. Safe. -/
  | notModelled (mnemonic : String)
  deriving DecidableEq, Repr

/-! ### Segments (R232, R233) -/

/-- TYPE of a segment. -/
inductive SegType where
  | null | global | scratch | peer
  deriving DecidableEq, Repr, Inhabited

/-- A segment register. -/
structure Segment where
  type : SegType
  base : BitVec 55
  size : BitVec 56
  r : Bool
  w : Bool
  x : Bool
  a : Bool
  peer : BitVec 10
  deriving DecidableEq, Repr, Inhabited

/-- A null segment. -/
def Segment.none : Segment := ⟨.null, 0, 0, false, false, false, false, 0⟩

/-! ### Threads -/

/-- An entry of the loop stack (R103). -/
structure LoopEntry where
  start : Word
  last : Word
  count : Word
  index : Word
  deriving DecidableEq, Repr, Inhabited

/-- Reasons of a wait (R86). -/
inductive Reason where
  | load | fullEmpty | circularBuffer | sprue | message | mailboxSpace | barrier | children | page | sleep | sequencer
  deriving DecidableEq, Repr, Inhabited

/-- What a waiting instruction has asked for before it waited, so that its reissue does not ask again. -/
inductive Asked where
  /-- Nothing but to be tried again. -/
  | none
  /-- Load data, to be brought by LOAD_DATA_ARRIVAL (R251). -/
  | data
  /-- A line of instructions, by physical address, to be brought by LINE_FILL (R281, R447). -/
  | line (pa : Nat)
  /-- An access at its home, numbered in `State.home`; the access's answer, when it has come (R280). -/
  | home (n : Nat) (answer : Option (List Word))
  /-- A ticket request at a tile home, numbered in `State.tickets`; its answer (R335). -/
  | ticket (n : Nat) (answer : Option Word)
  /-- The pages waited for, as virtual addresses (R248). -/
  | pages (vas : List Nat)
  /-- Elements of a stream that have yet to arrive (R224). -/
  | elements
  /-- The header of TVEC's line, for a trap entry in progress (R364): a line to be filled, or a page. -/
  | handler (pa : Option Nat) (vas : List Nat)
  /-- The end of a vector instruction that returns a value to the scalar side: the sequencer entry's number (R158, R162,
  R192, R254). -/
  | vector (seq : Nat)
  /-- A barrier phase or generation (R100, R227). -/
  | phase (n : Nat)
  /-- A reply over Woene Link from a device (R241, R422). -/
  | peer (dev : Nat)
  /-- Announcements on the ring, the last of them numbered in `State.ring` (R288 to R292). -/
  | ring (n : Nat)
  deriving DecidableEq, Repr, Inhabited

/-- A wait: the instruction that waits (`lineFill` when the thread waits for its next head), its reason, its place in the
order of arrival, the limit in core cycles (0 none), the nanoseconds it has waited unparked and the core cycles that passed
in them at its partition's clock, in 32nds (R6, R88), what it asked for, whether the event it waits for has reached it, and
the counts of a wait with a limit that the instruction began for another reason, from which that wait goes on (R88). -/
structure Wait where
  reason : Reason
  instr : Instr
  stamp : Nat
  limit : Nat
  elapsed : Nat
  cycles : Nat
  asked : Asked
  woken : Bool
  before : Option (Reason × Nat × Nat)
  deriving DecidableEq, Repr, Inhabited

/-- A fault in Service: cause, PC and value of the event (R367). -/
structure Service where
  cause : BitVec 8
  pc : Word
  value : Word
  vec : Option (BitVec 9)
  deriving DecidableEq, Repr, Inhabited

/-- The state of a thread context (R86); a context with no thread has no entry, and Parked is `Thread.parked`. -/
inductive Status where
  | runnable
  | waiting (w : Wait)
  | service (f : Service)
  | halted (exit : BitVec 32)
  | faulted (cause : BitVec 8)
  deriving DecidableEq, Repr, Inhabited

/-- An arrived stream element: its data, or the cause that met it (R224). -/
structure StreamElem where
  index : Nat
  data : Nat
  fault : Option (BitVec 8 × Word)
  deriving DecidableEq, Repr, Inhabited

/-- A stream binding (R223): marks of its fork (R278), the captured segment, the number of the next element to consume, of the
next to request, and the elements arrived and not consumed. -/
structure Stream where
  ty : Ty
  stamp : Nat
  homeMark : Nat
  seg : Segment
  base : Word
  stride : Word
  count : Nat
  consumed : Nat
  requested : Nat
  arrived : List StreamElem
  deriving DecidableEq, Repr, Inhabited

/-- A message in a mailbox (R98). -/
structure Message where
  payload : Word
  sender : BitVec 14
  deriving DecidableEq, Repr, Inhabited

/-- A write of one element of a vector register: register, bit offset, width in bits, value. -/
structure VWrite where
  reg : VReg
  off : Nat
  width : Nat
  val : Nat
  deriving DecidableEq, Repr, Inhabited

/-- A write of `width` bits of a k register from bit `off`. -/
structure KWrite where
  reg : KReg
  off : Nat
  width : Nat
  val : Nat
  deriving DecidableEq, Repr, Inhabited

/-- The results of one element group, written when the group is delivered (R145). -/
structure GroupOut where
  group : Nat
  v : List VWrite
  k : List KWrite
  x : List (XReg × Word)
  flags : BitVec 5
  mx : BitVec 2
  /-- Results of a pass form (R171): element and value. -/
  pass : List (Nat × Nat)
  /-- SRSEED before the group's stochastic draws, if it made any (R69). -/
  draws : Option (BitVec 32)
  deriving DecidableEq, Repr, Inhabited

/-- An entry of the vector sequencer (R143): what was captured at acceptance and how far it has run. -/
structure SeqEntry where
  /-- Number, rising with acceptance across the device, and the place in the order of acceptance, which a member of a `vloop`
  keeps in every iteration (R145, R148). -/
  num : Nat
  order : Nat
  instr : Instr
  pc : Word
  /-- Captured operands: x(XL), then the other x registers in the order the meaning names. -/
  xs : List Word
  seg : Segment
  rm : BitVec 3
  fz : Bool
  /-- The vector length, taken from XL at acceptance, less what `vldff` has trimmed (R254). -/
  vl : Nat
  /-- Groups in all; 1 for an instruction that takes no row. -/
  total : Nat
  /-- Groups entered into rows: the next group to enter. -/
  entered : Nat
  /-- Groups delivered: the next group to deliver (R145). -/
  delivered : Nat
  /-- Results of the groups in rows. -/
  rows : List GroupOut
  /-- Pass results handed to this consumer (R171): element and bits; whether they are still to come. -/
  passIn : List (Nat × Nat)
  passWait : Bool
  /-- Results of this pass form so far. -/
  passOut : List (Nat × Nat)
  /-- The v sources as they were when the first group entered, of an instruction whose groups read them whole (R143, R144). -/
  src : List VData
  /-- What a v source held where the results delivered have overwritten bits that a group to come reads (R143). -/
  kept : List VWrite
  /-- First element of a vector memory instruction (R125). -/
  vstart : Nat
  /-- A member of the `vloop` that runs (R148). -/
  member : Bool
  /-- A group has met a fault or a wait: nothing further enters (R249). -/
  stop : Bool
  /-- Every element still to come would have been performed when the last group entered: what follows the instruction need not
  wait for its checks (R273, R366). -/
  checked : Bool
  deriving DecidableEq, Repr, Inhabited

/-- A `vloop` in capture or running (R148, R149). -/
structure VLoop where
  pc : Word
  count : Nat
  loadStride : Word
  storeStride : Word
  /-- Members still to capture. -/
  left : Nat
  /-- The members as captured. -/
  members : List SeqEntry
  /-- Iteration that runs, and the member it starts at, after a resumption (R149). -/
  iter : Nat
  first : Nat
  /-- Number of the last member captured, for which an instruction may wait. -/
  mark : Nat
  deriving DecidableEq, Repr, Inhabited

/-- The replay record of a deferred trap (R366). -/
structure Replay where
  /-- PC of the faulting instruction, or of its `vloop`. -/
  pc : Word
  rpc : Word
  /-- Place of the faulting instruction in the order of acceptance, which it keeps when it is accepted again (R278). -/
  order : Nat
  entries : List SeqEntry
  loop : Option VLoop
  /-- What `Thread.pass` held (R171). -/
  pass : Option (VReg × Ty × Option (List (Nat × Nat)))
  /-- How many of the last entries were accepted after the loop, where it runs. -/
  behind : Nat
  /-- A `tret` to `pc` has applied it: the set-aside entries follow the faulting instruction (R373). -/
  active : Bool
  deriving DecidableEq, Repr, Inhabited

/-- A trap, or with cause 0 a page wait, of the element checks of entry `num`, deferred to the thread's next instruction
boundary (R248, R366). -/
structure Deferred where
  cause : BitVec 8
  value : Word
  elem : Nat
  pc : Word
  num : Nat
  deriving DecidableEq, Repr, Inhabited

/-- The outcome so far of a drawplate operation (R219, R222). -/
inductive PlateStatus where
  | pending | complete | cancelled | faulted (cause : BitVec 8) (value : Word) (observed : Bool)
  deriving DecidableEq, Repr, Inhabited

/-- An accumulator window (R183). -/
structure Window where
  rows : Nat
  base : Nat
  deriving DecidableEq, Repr, Inhabited

/-- An operand of an anvil operation (R178, R181): a scratchpad pair, or v registers, read at the first beat (R196). -/
inductive AnvilSrc where
  | pad (base pitch : Word)
  | reg (v : Nat) (data : Option (List VData))
  deriving DecidableEq, Repr, Inhabited

/-- What an anvil operation does (R189, R191, R193). -/
inductive AnvilKind where
  | mma (set : Bool) (a b : AnvilSrc)
  | zero
  | load (t : Ty) (base pitch : Word)
  | copy (t : Ty) (sat : Bool) (mode : BitVec 3) (base pitch : Word)
  deriving DecidableEq, Repr, Inhabited

/-- An anvil operation (R187, R190): issuing thread and its device-wide core, ticket, kind, first column and first absolute
row, extent, K, format word and zero-block mask captured, progress in blocks or rows, beats left of the block in progress,
the sequencer entry it holds (a follow-on command none), its place in the thread's order of acceptance (R196), its seam
depth, the status bits of what it has done so far (R195), the blocks of A found zero in every row (R200), and the rows of an
`mma` released since its last beat (R190). -/
structure AnvilOp where
  key : Nat
  core : Nat
  ticket : Nat
  kind : AnvilKind
  col : Nat
  row : Nat
  rows : Nat
  cols : Nat
  depth : Nat
  format : Word
  mask : BitVec 128
  done : Nat
  left : Nat
  entry : Option Nat
  seqMark : Nat
  seam : Nat
  status : BitVec 5
  zeros : BitVec 128
  freed : Nat
  deriving DecidableEq, Repr, Inhabited

/-- A copy of the drawplate as captured at issue (R216): direction 0 to 2, memory segment and address, pitches, shape, bank
rotation, scratchpad offset, barrier counted into, buffer written. -/
structure PlateCopy where
  dir : Nat
  seg : Segment
  addr : Word
  mp : Int
  rows : Nat
  rb : Nat
  br : Nat
  off : Nat
  sp : Nat
  bar : Option Nat
  buf : Option Nat
  deriving DecidableEq, Repr, Inhabited

/-- A reducing copy (R221): its sources in the order of combination. -/
structure PlateRed where
  op : DRedOp
  t : Ty
  srcs : List (Segment × Word)
  dst : Nat
  n : Nat
  bar : Option Nat
  deriving DecidableEq, Repr, Inhabited

/-- What a drawplate operation does. -/
inductive PlateKind where
  /-- `follow` is the command of a `dcopym` not yet handed to the anvil (R199). -/
  | copy (c : PlateCopy) (follow : Option AnvilOp)
  | red (r : PlateRed)
  deriving DecidableEq, Repr, Inhabited

/-- A drawplate operation of a thread (R214 to R222): ticket, watermark, offset of the slot acquired and its place in the order of
acquisition (R443), place in the order of arrival, marks of its fork (R278). -/
structure PlateOp where
  ticket : Nat
  kind : PlateKind
  mark : Nat
  slot : Option (Nat × Nat)
  status : PlateStatus
  stamp : Nat
  seqMark : Nat
  homeMark : Nat
  deriving DecidableEq, Repr, Inhabited

/-- A frame of the seam region: what a seam saves of its caller (R377), and the masks of the gate called. -/
structure SeamFrame where
  x : Vector Word 64
  k : Vector KData 8
  v : Vector VData 16
  g : Vector Segment 8
  w : Vector (Option Stream) 8
  tvec : Word
  tcause : Word
  tpc : Word
  tval : Word
  hnd : Bool
  fflags : BitVec 5
  mxstat : BitVec 2
  loops : List LoopEntry
  lsel : BitVec 3
  lword : BitVec 2
  window : Option Window
  retPc : Word
  xres : Nat
  vres : BitVec 16
  kres : BitVec 8
  /-- What the frame in memory does not hold and neither party of a seam shows the other (R380): FELIMIT, CBLIMIT, VSTART, the
  record of a `vloop`, the anvil status. -/
  felimit : BitVec 32
  cblimit : BitVec 32
  vstart : BitVec 9
  loopRec : Option (Word × Nat × Nat)
  astat : BitVec 5
  deriving DecidableEq, Repr, Inhabited

end Sys2Proof.Machine

namespace Sys2Proof.Config

/-- What a seam frame holds whose bytes something else has written since the seam: its layout is a firmware matter (R377; log
entry 87). -/
opaque overwrittenFrame : List (BitVec 8) → Sys2Proof.Machine.SeamFrame

end Sys2Proof.Config

namespace Sys2Proof.Machine

/-- A thread: the registers of R46 and R47, the hidden state of Thread Contexts and of Traps, and its engines' state. -/
structure Thread where
  ctx : Nat
  tid : BitVec 14
  fn : Nat
  part : Nat
  /-- Number of the thread's gang in `State.gangs`. -/
  gang : Nat
  gangSize : BitVec 7
  gangIndex : BitVec 32
  launch : BitVec 32
  status : Status
  parked : Bool
  /-- The thread's record stands in the save area (R355). -/
  saved : Bool
  x : Vector Word 64
  v : Vector VData 16
  k : Vector KData 8
  g : Vector Segment 8
  w : Vector (Option Stream) 8
  pc : Word
  /-- The line the thread has fetched, with its offset in g0 (R35, R292). -/
  line : Option (Word × List Byte)
  vstart : BitVec 9
  fz : Bool
  rm : BitVec 3
  fflags : BitVec 5
  mxstat : BitVec 2
  srseed : BitVec 32
  /-- Loop stack, top first; LDEPTH.DEPTH is its length (R103). -/
  loops : List LoopEntry
  lsel : BitVec 3
  lword : BitVec 2
  felimit : BitVec 32
  cblimit : BitVec 32
  tvec : Word
  tcause : Word
  tpc : Word
  tval : Word
  hnd : Bool
  /-- Seam frames, innermost first; the seam depth is their number (R377). -/
  frames : List SeamFrame
  window : Option Window
  /-- ASEQ and the sticky anvil status (R187, R195). -/
  aseq : Nat
  astat : BitVec 5
  /-- DSEQ and the drawplate operations not forgotten (R214): those outstanding, and those cancelled or completed. -/
  dseq : Nat
  plate : List PlateOp
  mailbox : List Message
  gbars : Nat
  /-- Core cycles of its core in which it issued last, and from which that instruction has completed (R82, R108). -/
  issuedAt : Nat
  readyAt : Nat
  /-- Core cycle in which a `yield` completed whose effect lasts (R96). -/
  yielded : Option Nat
  /-- Segment registers another thread has loaded, which apply from the next instruction boundary, newest first (R238). -/
  segNext : List (GReg × Segment)
  seq : List SeqEntry
  vloop : Option VLoop
  /-- The record of a `vloop` a fault has stopped: its pc, iteration and member (R149). -/
  loopRec : Option (Word × Nat × Nat)
  /-- A pass form accepted as the last instruction: its VD and T, and its results once they are there (R171). -/
  pass : Option (VReg × Ty × Option (List (Nat × Nat)))
  replay : Option Replay
  deferred : Option Deferred
  /-- A debug stop has been made: the thread issues nothing further (R402). -/
  debugHeld : Bool
  /-- The debug stop is complete: the sequencer is empty and the thread stands at an instruction boundary (R402). -/
  debugStopped : Bool
  /-- A FAULTREPLY that came while the thread was parked (R367). -/
  reply : Option (BitVec 2)
  deriving DecidableEq, Repr

/-! ### Benches and cores -/

/-- Rows of the five pipes MAD, LD, ST, PERM, SFU (R132). -/
structure Rows where
  mad : Nat
  ld : Nat
  st : Nat
  perm : Nat
  sfu : Nat
  deriving DecidableEq, Repr, Inhabited

/-- No rows. -/
def Rows.zero : Rows := ⟨0, 0, 0, 0, 0⟩

/-- A record of an assay ring (R404). -/
structure AssayRecord where
  stamp : BitVec 48
  source : BitVec 16
  kind : BitVec 8
  tctx : BitVec 4
  gen : BitVec 4
  payload : BitVec 48
  deriving DecidableEq, Repr, Inhabited

/-- A barrel core: absent entries of `State.cores` are `Core.fresh`. -/
structure Core where
  /-- The context that issued most recently (R82, R85). -/
  last : Nat
  /-- The core's next core cycle: no context has issued in it or after it (R82). -/
  cycle : Nat
  requests : Rows
  grants : Rows
  /-- A re-negotiation point has passed whose change has yet to take effect (R136). -/
  point : Bool
  /-- Format context (R175) and its zero-block mask (R200). -/
  format : Word
  zeroMask : BitVec 128
  /-- Assay recorder, oldest first (R403). -/
  ring : List AssayRecord
  /-- Oldest records of the ring that a capsule holds already (R403). -/
  kept : Nat
  lost : Nat
  /-- Switch-ins counted, and the generation table: context entry and partition of each tag (R404). -/
  switchIns : Nat
  genTable : List (Nat × (Nat × Nat))
  /-- Instructions issued, for the retire samples (R405). -/
  issues : Nat
  deriving DecidableEq, Repr, Inhabited

/-- A core at reset (R85). -/
def Core.fresh : Core := ⟨15, 0, .zero, .zero, false, 0, 0, [], 0, 0, 0, [], 0⟩

/-- A line of an L1 data cache (R261): the quarter whose way holds it (R342), context, line address (pa / 128, far lines above
2^52 / 128), and its bytes present, by offset, with their dirty marks. -/
structure L1Line where
  quarter : Nat
  ctx : Nat
  line : Nat
  bytes : List (Nat × (Byte × Bool))
  deriving DecidableEq, Repr, Inhabited

/-- A translation held in a TLB (R245): the quarter whose way holds it (R342; 0 in a die's TLB), context, first virtual address,
page size, leaf entry, where the leaf stands. -/
structure TlbEntry where
  quarter : Nat
  ctx : Nat
  va : Nat
  size : Nat
  leaf : Word
  place : Nat
  deriving DecidableEq, Repr, Inhabited

/-- A line of an L1 instruction cache (R281): the quarter whose share holds it (R342), context, physical line address, the 64
bytes. -/
structure ILine where
  quarter : Nat
  ctx : Nat
  line : Nat
  img : List Byte
  deriving DecidableEq, Repr, Inhabited

/-- A line a slice of the shared level holds (R257, R259): pa / 128, the context it is counted for and its partition, whether
it is dirty, whether `pref` brought it and nothing has used it since. -/
structure SliceLine where
  line : Nat
  ctx : Nat
  part : Nat
  dirty : Bool
  pref : Bool
  deriving DecidableEq, Repr, Inhabited

/-! ### Gangs, contexts -/

/-- A defined circular buffer (R207). -/
structure CircBuf where
  base : Nat
  size : Nat
  slots : Nat
  free : Nat
  filled : Nat
  wheld : Nat
  rheld : Nat
  wpos : Nat
  rpos : Nat
  deriving DecidableEq, Repr, Inhabited

/-- A defined barrier (R226). -/
structure Barrier where
  e0 : Nat
  exp : Nat
  arr : Nat
  phase : BitVec 32
  ovr : Bool
  deriving DecidableEq, Repr, Inhabited

/-- A gang (R203, R310). Absent scratchpad bytes are zero and absent tags are empty, as the allotment is granted. -/
structure Gang where
  ctx : Nat
  bench : Nat
  launchSeq : Nat
  /-- Cores of the bench, 0 to 7, and threads per core (R310). -/
  cores : List Nat
  perCore : List Nat
  /-- Allotment: first byte and length (R203). -/
  spadBase : Nat
  spadSize : Nat
  /-- Accumulator rows of the footprint: first and number (R310). -/
  rowBase : Nat
  rows : Nat
  /-- The gang's context is switched out: its engines stand still (R352). -/
  parked : Bool
  bytes : List (Nat × Byte)
  fullTags : List (Nat × Bool)
  cbs : List (Nat × CircBuf)
  bars : List (Nat × Barrier)
  /-- Cores whose head has halted (R91). -/
  done : List Nat
  /-- Thread numbers that have ended and left their context, and have not been spawned again (R90, R91, R100). -/
  reaped : List Nat
  /-- Drawplate operations still pending of threads that have gone, with the key they were issued under (R91). -/
  orphans : List (Nat × PlateOp)
  /-- Lines of 128 bytes of the scratchpad that an uncorrectable error has poisoned, by offset / 128 (R425). -/
  bad : List Nat
  deriving DecidableEq, Repr, Inhabited

/-- STATE of a counter (R294). -/
inductive CounterState where
  | free | opened | done | cancelled
  deriving DecidableEq, Repr, Inhabited

/-- A counter block (R294, R295); `parent` is 0xFFF for none. -/
structure Counter where
  state : CounterState
  sealed : Bool
  late : Bool
  err : Bool
  level : BitVec 3
  pending : BitVec 32
  parent : Nat
  /-- A cancel of it, or of one above it, is in progress (R317). -/
  cancelling : Bool
  deriving DecidableEq, Repr, Inhabited

/-- A free counter. -/
def Counter.fresh : Counter := ⟨.free, false, false, false, 0, 0, 0xFFF, false⟩

/-- An event entry as the device holds it (R418): TYPE, stamp, thread number, context entry, DETAIL, PC, VALUE. -/
structure Event where
  type : BitVec 16
  stamp : BitVec 64
  thread : BitVec 14
  entry : BitVec 11
  detail : Word
  pc : Word
  value : Word
  deriving DecidableEq, Repr, Inhabited

/-- What a command that runs waits for (R415): an announcement on the ring, or withdrawn frames of a pool to be empty. -/
inductive CmdWait where
  | ring (n : Nat)
  | vacate (part : Nat) (frames : List Nat)
  deriving DecidableEq, Repr, Inhabited

/-- A function's mailbox and event ring (R415); an absent function is `Fn.fresh`. -/
structure Fn where
  busy : Bool
  ovr : Bool
  rlen : BitVec 16
  result : BitVec 8
  /-- Payload buffer: as far as it has been written, the command's payload and then its result (R415). -/
  payload : List Byte
  ringBase : Nat
  /-- n of the ring's 2^n entries; none before SETEVQ. -/
  ringLog : Option Nat
  evTail : BitVec 32
  evHead : BitVec 32
  seq : BitVec 32
  /-- Events held in the device, oldest first, and those dropped before the next written (R415). -/
  held : List Event
  dropped : Nat
  /-- Range of context entries: first and count (R346, R416). -/
  first : Nat
  count : Nat
  /-- Dump buffer in host memory (R411): base and size. -/
  dump : Option (Nat × Nat)
  /-- What the command running waits for (R415). -/
  waits : Option CmdWait
  /-- The CMD register: OP and LEN (R415). -/
  op : BitVec 16
  len : BitVec 16
  deriving DecidableEq, Repr, Inhabited

/-- A function at reset. -/
def Fn.fresh : Fn := ⟨false, false, 0, 0, [], 0, none, 0, 0, 0, [], 0, 0, 0, none, none, 0, 0⟩

/-- A freeze in progress (R406): its stamp, its source and t0, the cores whose recorders hold, and the sources and times
of the faults raised. -/
structure Freeze where
  stamp : BitVec 64
  source : Nat
  t0 : BitVec 64
  held : List Nat
  faults : List (Nat × BitVec 64)
  deriving DecidableEq, Repr, Inhabited

/-- What is kept of a phase beside its counter (R315, R316): priority, DROP, deadline (0 none), estimate in microjoules,
core that opened it, arrival order, whether it is admitted. -/
structure Phase where
  prio : BitVec 3
  drop : Bool
  deadline : Word
  estimate : Word
  core : Nat
  order : Nat
  admitted : Bool
  deriving DecidableEq, Repr, Inhabited

/-- KIND of a sprue (R297). -/
inductive SprueKind where
  | fifo | sorted | tile | encoder
  deriving DecidableEq, Repr, Inhabited

/-- An entry of a sprue (R298): SEQ, its four doubles, the die of its sub-queue (R300), the gang that holds it taken. -/
structure SprueEntry where
  seq : BitVec 32
  words : List Word
  die : Nat
  holder : Option Nat
  deriving DecidableEq, Repr, Inhabited

/-- A bound sprue (R297 to R304): entries present in push order, entries held taken, next SEQ, DROPS. -/
structure Sprue where
  kind : SprueKind
  prio : BitVec 3
  logcap : Nat
  donec : Nat
  tstride : Word
  rtbase : Nat
  enc : Word
  entries : List SprueEntry
  taken : List SprueEntry
  next : BitVec 32
  drops : Word
  deriving DecidableEq, Repr, Inhabited

/-- A launch record as checked (R305), with the eight descriptors. -/
structure LaunchRec where
  entry : Word
  arg : Word
  spad : Nat
  cores : Nat
  threads : Nat
  ngangs : Nat
  wrows : Nat
  claim : BitVec 20
  frm : BitVec 4
  tvec : Word
  cblimit : BitVec 32
  felimit : BitVec 32
  quota : Nat
  coop : Bool
  sprue : Nat
  parent : Nat
  waitb : Nat
  waita : Nat
  own : Nat
  segs : Vector Segment 8
  deriving DecidableEq, Repr, Inhabited

/-- States of a launch (R309). -/
inductive LaunchState where
  | queued | ready | early | placed | done | cancelled
  deriving DecidableEq, Repr, Inhabited

/-- A launch (R309): its number in LAUNCH.ID, gangs placed, gangs placed while WAITA was open, gangs complete, whether a
thread under it faulted, whether a cancel covers it. -/
structure Launch where
  id : BitVec 32
  record : LaunchRec
  state : LaunchState
  placed : Nat
  early : Nat
  complete : Nat
  err : Bool
  cancelling : Bool
  deriving DecidableEq, Repr, Inhabited

/-- STATE of a context that is not Free (R347). -/
inductive CtxState where
  | idle | ready | restoring | running | saving | faulted
  deriving DecidableEq, Repr, Inhabited

/-- A managed page (R357): its swap-region unit, the pool frame it occupies while near, its request count (R360), whether
its notification has been pushed, and T, W, X of its leaf (R417). -/
structure Managed where
  unit : Nat
  near : Option Nat
  count : Nat
  t : Bool
  w : Bool
  x : Bool
  deriving DecidableEq, Repr, Inhabited

/-- A message in the ring of a save area (R356). -/
structure RingMsg where
  payload : Word
  sender : BitVec 14
  receiver : Nat
  deriving DecidableEq, Repr, Inhabited

/-- The state of a core saved with a context (R142, R355): requests, format word, zero-block mask, rotation pointer. -/
structure SavedCore where
  requests : Rows
  format : Word
  mask : BitVec 128
  last : Nat
  deriving DecidableEq, Repr, Inhabited

/-- A context (R346, R347); an entry absent from `State.ctxs` is Free. -/
structure Ctx where
  fn : Nat
  part : Nat
  state : CtxState
  auto : Bool
  nptrap : Bool
  prio : BitVec 3
  /-- Physical address of the level-1 table (R242). -/
  root : Nat
  /-- Physical address of the save area (R355). -/
  savebase : Nat
  nsprue : Nat
  hot : Nat
  rth : Nat
  softlim : Nat
  wsmax : Nat
  nquota : Nat
  /-- Swap region: physical base, place (0 none, 1 host, 2 peer), peer device, units of 64 KiB. -/
  farbase : Nat
  farloc : Nat
  peer : Nat
  farsize : Nat
  throttle : Bool
  /-- Gate table (R375): the eight doubles of each entry written. -/
  gates : List (Nat × List Word)
  /-- Physical address of the seam region, if one is set (R377). -/
  seamRegion : Option Nat
  /-- Balance in microjoules (R129, R391). -/
  energy : BitVec 64
  /-- Counter blocks; a number not listed is free (R294). -/
  counters : List (Nat × Counter)
  phases : List (Nat × Phase)
  sprues : List (Nat × Sprue)
  /-- Launches in the order of their issue, numbered by it, and the last LAUNCHID given (R306). -/
  launches : List (Nat × Launch)
  nextLaunch : Nat
  launchId : BitVec 32
  /-- Managed pages by virtual address, pages translated in this slice in order of first report, recorded set (R357). -/
  managed : List (Nat × Managed)
  reported : List Nat
  recorded : List Nat
  /-- Pages beyond WSMAX that the last slice reported, counted and not recorded (R357). -/
  unrecorded : Nat
  /-- Messages in the ring of the save area (R356). -/
  ringMsgs : List RingMsg
  /-- Accumulator rows saved, by bench · 1024 + row, and their poisoned cells, by bench · 2^20 + cell (R182, R185). -/
  savedRows : List Nat
  savedBad : List Nat
  savedCores : List (Nat × SavedCore)
  /-- Nanoseconds by which the next slice is shortened (R354). -/
  shorten : Nat
  /-- Pages that wait for their AUTO migration, in the order in which their counts reached HOT (R436). -/
  autoQueue : List Nat
  deriving DecidableEq, Repr, Inhabited

/-! ### Partitions -/

/-- Phase of a partition's switch (R352). -/
inductive SwitchPhase where
  /-- No switch: a context runs, or none. -/
  | settled
  /-- Stop, Save and Hold: the outgoing context, the dies that have yet to report. -/
  | saving (out : Nat) (dies : List Nat)
  /-- Restore: the dies that have yet to report. -/
  | restoring (dies : List Nat)
  deriving DecidableEq, Repr, Inhabited

/-- A partition (R343), its switch agent (R350 to R354), its pool (R357), its clock in sixteenths (R390), its bindings
(R345, R422). -/
structure Part where
  /-- Quarters, 4·bench + q, rising. -/
  quarters : List Nat
  encs : Nat
  hostw : Nat
  wlw : Nat
  memw : Nat
  slw : Nat
  ways : Nat
  isSealed : Bool
  savebud : Nat
  tick : Nat
  power : Nat
  lend : Bool
  running : Option Nat
  next : Option Nat
  phase : SwitchPhase
  /-- GTSC of the current slice's tick, the slice's length in ns, and the GTSC of the tick of the switch in progress. -/
  tickAt : Nat
  slice : Nat
  switchAt : Nat
  /-- A `slicegive` waits for its choice (R351). -/
  give : Bool
  /-- SAVEBUD has passed in the switch in progress (R354). -/
  stretched : Bool
  /-- GTSC of the last credit interval (R391). -/
  creditAt : Nat
  /-- A swap down in progress: the context saved, and the one it makes room for (R359). -/
  down : Option (Nat × Nat)
  pool : List Nat
  clock : Nat
  bound : Option Nat
  tag : Option Nat
  deriving DecidableEq, Repr, Inhabited

/-- A migration (R361): context, page, old and new physical address of its frame, whether it is upward, whether AUTO
started it, whether its copy and swap are done, the number of the announcement it waits for. -/
structure Migration where
  ctx : Nat
  va : Nat
  src : Nat
  dst : Nat
  up : Bool
  auto : Bool
  swapped : Bool
  ann : Nat
  deriving DecidableEq, Repr, Inhabited

/-- A counter of a bank (R394). -/
structure BankCounter where
  event : BitVec 8
  cfen : Bool
  cfilt : BitVec 11
  count : BitVec 63
  unav : Bool
  deriving DecidableEq, Repr, Inhabited

/-- A vector instruction that a trace session follows to its commit (R401): its thread, the place in the order of acceptance it will
have at least, its pc, and its record. -/
structure Sample where
  key : Nat
  mark : Nat
  pc : Word
  words : List Word
  deriving DecidableEq, Repr, Inhabited

/-- A trace session (R400 to R402): claimant, buffer in host memory, log2 PERIOD, debug, bytes written, records dropped,
issues seen, comparators, the vector instructions it follows. -/
structure Session where
  fn : Nat
  base : Nat
  size : Nat
  period : Nat
  debug : Bool
  written : Nat
  drops : Nat
  issues : Nat
  comparators : List (Nat × Word)
  follow : List Sample
  deriving DecidableEq, Repr, Inhabited

/-- A fault record of a capsule (R408): source, cause, GTSC. -/
structure FaultRec where
  source : Nat
  cause : BitVec 8
  t0 : BitVec 64
  deriving DecidableEq, Repr, Inhabited

/-- A frozen ring as a capsule holds it (R408). -/
structure FrozenRing where
  core : Nat
  records : List AssayRecord
  genTable : List (Nat × (Nat × Nat))
  lost : Nat
  deriving DecidableEq, Repr, Inhabited

/-- What a capsule holds of a context (R408): entry, state, function, job counter, open phases with their deadlines and
LATE bits, balance. -/
structure CtxSummary where
  entry : Nat
  state : CtxState
  fn : Nat
  job : Word
  phases : List (Nat × (Word × Bool))
  balance : Word
  deriving DecidableEq, Repr, Inhabited

/-- What a capsule holds of a partition. -/
structure PartSummary where
  number : Nat
  isSealed : Bool
  bound : Option Nat
  quarters : List Nat
  ctxs : List CtxSummary
  deriving DecidableEq, Repr, Inhabited

/-- A hallmark capsule, or its summary (R408, R409): part number, stepping, sequence number, t0, F, sealing time, faults, rings,
partitions, the number its keyed digests are free under, the functions that marked it read (R417), and the signature that closes it. -/
structure Capsule where
  part : Word
  stepping : BitVec 8
  seq : Nat
  t0 : BitVec 64
  stamp : BitVec 64
  sealedAt : BitVec 64
  faults : List FaultRec
  rings : List FrozenRing
  parts : List PartSummary
  key : Nat
  readBy : List Nat
  signature : List Byte
  deriving DecidableEq, Repr, Inhabited

/-- An encoder stream (R340, R417), where it stands in its output ring, and the engine that carries it (R341). -/
structure EncStream where
  fn : Nat
  d1 : Word
  width : Nat
  height : Nat
  rate : Nat
  bitrate : Nat
  base : Nat
  size : Nat
  written : Nat
  ended : Bool
  engine : Nat
  deriving DecidableEq, Repr, Inhabited

/-- A buffered or waiting commit of a tile (R336): the thread that sent it, ticket, OP, mask, source pixels, whether it is a
retirement. -/
structure Commit where
  key : Nat
  ticket : BitVec 32
  op : Nat
  mask : Word
  src : List Byte
  retire : Bool
  deriving DecidableEq, Repr, Inhabited

/-- The ticket entry of a tile (R333), with the commits held at the tile home until the buffer has room, in order of
arrival: the number of the request and its thread (R336). -/
structure Tile where
  ctx : Nat
  part : Nat
  taken : BitVec 32
  applied : BitVec 32
  commits : List Commit
  waiting : List (Nat × Nat × Commit)
  deriving DecidableEq, Repr, Inhabited

/-- What a ticket request asks of the tile home (R335, R336). -/
inductive TicketOp where
  | get | peek | commit (c : Commit) (once : Bool)
  deriving DecidableEq, Repr, Inhabited

/-- A ticket request on its way or held at the tile home. -/
structure TicketReq where
  key : Nat
  ctx : Nat
  part : Nat
  tile : Nat
  op : TicketOp
  deriving DecidableEq, Repr, Inhabited

/-- A bench: absent entries of `State.benches` are `Bench.fresh`. -/
structure Bench where
  l1 : List L1Line
  il1 : List ILine
  tlb : List TlbEntry
  /-- Accumulator cells written, by row · 512 + column; others are 0, or free values of a row that a switch has left
  unstated (R182, R185). -/
  acc : List (Nat × BitVec 32)
  /-- Rows whose contents are unstated, with the number of the free value they took (R185). -/
  stale : List (Nat × Nat)
  /-- Rows that have lain in a window since reset: their contents are unstated once they lie in none (R182, R185). -/
  opened : List Nat
  /-- Poisoned cells (R182). -/
  badCells : List Nat
  /-- Pending anvil operations, in order of acceptance. -/
  anvil : List AnvilOp
  /-- Core that took the last beat of the anvil, and of the drawplate, of each partition (R177, R214). -/
  anvilTurn : List (Nat × Nat)
  plateTurn : List (Nat × Nat)
  /-- Trace session, and a VF's session suspended by the PF (R400). -/
  trace : Option Session
  suspended : Option Session
  /-- Lines of the L1 that an uncorrectable error has poisoned, by context and line (R425). -/
  badLines : List (Nat × Nat)
  deriving DecidableEq, Repr, Inhabited

/-- A bench at reset. -/
def Bench.fresh : Bench := ⟨[], [], [], [], [], [], [], [], [], [], none, none, []⟩

/-! ### Memory and order -/

/-- The tracking attribute of a frame that is not unset (R260). -/
inductive Attr where
  | untracked | tracked
  deriving DecidableEq, Repr, Inhabited

/-- State of a coherence object at its home (R265). -/
inductive ObjState where
  | invalid
  | shared (benches : List Nat)
  | exclusive (bench : Nat)
  deriving DecidableEq, Repr, Inhabited

/-- A declared object (R263, R264): context, partition, its lines (pa / 128), its tagged words, its home
state. The table of partition p holds number n under p · 2^19 + n. -/
structure Obj where
  ctx : Nat
  part : Nat
  lines : List Nat
  /-- Addresses of the words that carry tags; none without FE (R228, R426). -/
  words : List Nat
  state : ObjState
  deriving DecidableEq, Repr, Inhabited

/-- Names of objects: declared ones by number, page objects by frame (R264). -/
inductive ObjId where
  | declared (n : Nat)
  | page (frame : Nat)
  deriving DecidableEq, Repr, Inhabited

/-- A request at an object home, not yet served (R267). -/
structure ObjReq where
  bench : Nat
  ctx : Nat
  part : Nat
  obj : ObjId
  write : Bool
  deriving DecidableEq, Repr, Inhabited

/-- What an access does at its home (R280, R285, R286). -/
inductive HomeOp where
  | store (bytes : List Byte)
  | amo (op : AmoOp) (t : Ty) (v : Nat)
  | cas (t : Ty) (exp v : Nat)
  deriving DecidableEq, Repr, Inhabited

/-- An access sent to its home and not yet performed (R272, R280). -/
structure HomeAccess where
  key : Nat
  bench : Nat
  ctx : Nat
  part : Nat
  pa : Nat
  /-- The virtual address, which a refusal of the home reports (R247, R269). -/
  va : Nat
  tracked : Bool
  op : HomeOp
  /-- The scope of its release and of its acquire order, but for `.thread` (R275). -/
  rel : Option Scope
  acq : Option Scope
  deriving DecidableEq, Repr, Inhabited

/-- A release write that was performed while earlier accesses of its thread were not (R275): the thread, its partition and
scope, the number below which its accesses in `State.home` came before it, and the bytes written. -/
structure Ordered where
  key : Nat
  part : Nat
  scope : Scope
  mark : Nat
  pa : Nat
  n : Nat
  deriving DecidableEq, Repr

/-- What an announcement on the notification ring asks of the benches that receive it (R266). -/
inductive Announce where
  /-- Discard the translations of a range of a context (R245). -/
  | shootdown (ctx va n : Nat)
  /-- Discard instruction lines of a context, by physical line address (R292). -/
  | icinv (ctx : Nat) (lines : List Nat)
  /-- Write back and discard the untracked lines of a frame, which becomes tracked (R282). -/
  | claim (frame : Nat)
  /-- The Block of a migration: discard translations of the page, write back and discard its lines (R361). -/
  | drain (ctx va frame : Nat)
  /-- The Swap of a migration: discard translations, wake the waiting writers, free the old frame (R361). -/
  | release (ctx va frame : Nat)
  /-- A page made present (R248, R358). -/
  | pageIn (ctx va : Nat)
  /-- A declared object made or dropped (R288, R289). -/
  | object
  deriving DecidableEq, Repr, Inhabited

/-! ### The whole -/

/-- What names the unit, thread or payload of an agent's step: the operands of the rows of the opcode table that have no
operand fields. -/
structure Ev where
  fn : Nat
  a : Nat
  b : Nat
  c : Nat
  flag : Bool
  data : List Byte
  words : List Word
  nums : List Nat
  deriving DecidableEq, Repr, Inhabited

/-- No operands. -/
def Ev.empty : Ev := ⟨0, 0, 0, 0, false, [], [], []⟩

/-- An entry of the schedule: a thread's next instruction, or a step of an agent with its operands. -/
inductive Act where
  | issue (key : Nat)
  | agent (i : Instr) (ev : Ev)
  deriving DecidableEq, Repr, Inhabited

/-- The state of the machine. -/
structure State where
  /-- The thread whose instruction is executed, by key (`Thread.key`). -/
  cur : Option Nat
  ev : Ev
  /-- The model's schedule (log entry 1): which agents move next; empty leaves the choice to the default order. -/
  sched : List Act
  /-- Steps taken: the argument of `Config.elapsedNs` (log entry 2). -/
  steps : Nat
  /-- Free values taken, and arrivals numbered. -/
  frees : Nat
  stamps : Nat
  /-- GTSC (R129, R385). -/
  gtsc : BitVec 64
  threads : List (Nat × Thread)
  cores : List (Nat × Core)
  benches : List (Nat × Bench)
  gangs : List (Nat × Gang)
  ctxs : List (Nat × Ctx)
  /-- Near memory (R16, R423): an unlisted byte reads 0. -/
  near : List Host.Cell
  /-- Far memory (R243): an unlisted byte reads 0 (log entry 3). -/
  far : List Host.Cell
  /-- Owner entries of frames, 0 where unlisted (R247). -/
  owners : List (Nat × BitVec 16)
  /-- Tracking attributes of frames, unset where unlisted; far frames from 2^36 (R260). -/
  attrs : List (Nat × Attr)
  /-- Poisoned lines, by pa / 128 (R425). -/
  poison : List Nat
  /-- Full tags of words in the shared level, by address; empty where unlisted (R228). -/
  fullTags : List (Nat × Bool)
  /-- Declared objects by number, and page objects not Invalid, by frame, with their partition (R264). -/
  objs : List (Nat × Obj)
  pageObjs : List (Nat × (Nat × ObjState))
  /-- Requests at object homes, in order of arrival (R267). -/
  objReqs : List ObjReq
  /-- Accesses not yet performed at their homes, by number, and the next number (R272, R280). -/
  home : List (Nat × HomeAccess)
  nextHome : Nat
  /-- Release writes that stand before accesses they follow, for observers outside their scope (R275, R276). -/
  orders : List Ordered
  /-- Virtual addresses of stores and write-backs that their homes have refused, by thread: its next instruction raises Frame Owner
  (R247, R269; log entry 101). -/
  strays : List (Nat × Word)
  /-- Lines held in the shared level, by 256 · slice + set, the most recently used first (R257, R259). -/
  slices : List (Nat × List SliceLine)
  /-- Last-level TLBs of the dies (R245). -/
  dieTlbs : List (Nat × List TlbEntry)
  /-- Announcements inserted on the ring, by number in the order of insertion, with the benches yet to receive them
  (R266). -/
  ring : List (Nat × (List Nat × Announce))
  nextRing : Nat
  /-- Frames whose claim is in progress (R282). -/
  claims : List Nat
  fns : List (Nat × Fn)
  freeze : Option Freeze
  parts : List (Nat × Part)
  migrations : List Migration
  /-- Pages whose count has reached HOT, in that order, for the ladle to act on (R435): context and address. -/
  hotPages : List (Nat × Nat)
  /-- Counter banks (R393, R394), by ((class · 512 + unit) · 129 + function) · 8 + counter. -/
  banks : List (Nat × BankCounter)
  /-- Capsule slots (R409), the summary in the non-volatile store, the last sequence number. -/
  capsules : List (Nat × Capsule)
  summary : Option Capsule
  capsuleSeq : Nat
  /-- Encoder streams by partition · 65536 + STREAM (R340). -/
  encoders : List (Nat × EncStream)
  /-- Tile entries by physical address (R333); ticket requests by number, and the next number. -/
  tiles : List (Nat × Tile)
  tickets : List (Nat × TicketReq)
  nextTicket : Nat
  /-- Lines of device memory a host agent holds, by pa / 128 (R413), and those a snoop has been sent for. -/
  hostLines : List Nat
  snoops : List Nat
  /-- Reads and writes of peers that could not be reached, counted (R422). -/
  lostReads : Nat
  lostWrites : Nat
  /-- What the device last answered to an access from outside, and whether it was poisoned (R304, R413, R422). -/
  reply : List Byte
  replyBad : Bool
  /-- Routes of Woene destinations to port masks (R421), and ports reported down. -/
  routes : List (Nat × BitVec 36)
  portsDown : List Nat
  /-- The junction-temperature throttle is on (R424). -/
  throttled : Bool
  /-- A Machine Check that the device could not confine has stopped every partition (R407). -/
  stopped : Bool
  /-- GTSC of the last temper window (R390). -/
  temperAt : Nat
  /-- The firmware failed its verification (R423); every command answers 5. -/
  fwHeld : Bool
  /-- Step 5 of the reset has been reached (R423). -/
  booted : Bool
  /-- Answers of the security controller, by function: the last SPDM response (R419). -/
  spdm : List (Nat × List Byte)
  /-- The device's own number in the Woene domain (R421). -/
  ownNumber : Nat
  deriving DecidableEq, Repr

/-- The machine right after reset (R423, R424 and the reset values the chapters state). -/
def State.reset : State where
  cur := none
  ev := .empty
  sched := []
  steps := 0
  frees := 0
  stamps := 0
  gtsc := 0
  threads := []
  cores := []
  benches := []
  gangs := []
  ctxs := []
  near := []
  far := []
  owners := []
  attrs := []
  poison := []
  fullTags := []
  objs := []
  pageObjs := []
  objReqs := []
  home := []
  nextHome := 0
  orders := []
  strays := []
  slices := []
  dieTlbs := []
  ring := []
  nextRing := 0
  claims := []
  fns := []
  freeze := none
  parts := []
  migrations := []
  hotPages := []
  banks := []
  capsules := []
  summary := none
  capsuleSeq := 0
  encoders := []
  tiles := []
  tickets := []
  nextTicket := 0
  hostLines := []
  snoops := []
  reply := []
  replyBad := false
  lostReads := 0
  lostWrites := 0
  routes := []
  portsDown := []
  throttled := false
  stopped := false
  temperAt := 0
  fwHeld := false
  booted := true
  spdm := []
  ownNumber := 0

end Sys2Proof.Machine
end

