-- ==== Sys2Proof/Machine/Ops.lean ====
section
/-!
DEFINITION. The named operations every meaning is written with: threads and their registers, the completion of an
instruction with its loop step, waits, free values, and the program form of a meaning that can trap or wait.
-/
namespace Sys2Proof.Machine

/-! ### Causes (R368) -/

namespace Cause
/-- Illegal Instruction. -/
def illegal : BitVec 8 := 0x01
/-- Line Format. -/
def lineFormat : BitVec 8 := 0x02
/-- Misaligned Target. -/
def misalignedTarget : BitVec 8 := 0x03
/-- Bad Handle. -/
def badHandle : BitVec 8 := 0x04
/-- Privilege. -/
def privilege : BitVec 8 := 0x05
/-- Segment Limit. -/
def segmentLimit : BitVec 8 := 0x08
/-- Segment Rights. -/
def segmentRights : BitVec 8 := 0x09
/-- Null Segment. -/
def nullSegment : BitVec 8 := 0x0A
/-- Misaligned Access. -/
def misalignedAccess : BitVec 8 := 0x0B
/-- Page Not Present. -/
def pageNotPresent : BitVec 8 := 0x10
/-- Page Permission. -/
def pagePermission : BitVec 8 := 0x11
/-- Frame Owner. -/
def frameOwner : BitVec 8 := 0x12
/-- Attribute Conflict. -/
def attributeConflict : BitVec 8 := 0x13
/-- FE Timeout. -/
def feTimeout : BitVec 8 := 0x18
/-- CB Timeout. -/
def cbTimeout : BitVec 8 := 0x19
/-- Message Timeout. -/
def messageTimeout : BitVec 8 := 0x1A
/-- Accumulator Window. -/
def accWindow : BitVec 8 := 0x20
/-- Seam Fault. -/
def seamFault : BitVec 8 := 0x28
/-- Seam Depth. -/
def seamDepth : BitVec 8 := 0x29
/-- Save Overrun. -/
def saveOverrun : BitVec 8 := 0x30
/-- Cancelled. -/
def cancelled : BitVec 8 := 0x31
/-- Breakpoint. -/
def breakpoint : BitVec 8 := 0x38
/-- Software Trap. -/
def softwareTrap : BitVec 8 := 0x39
/-- Machine Check. -/
def machineCheck : BitVec 8 := 0x3F
end Cause

/-- The routes of R363. -/
inductive Route where
  | handler | service | fatal | record
  deriving DecidableEq, Repr

/-- The Route column of R368. -/
def routeOf (c : BitVec 8) : Route :=
  if c == Cause.frameOwner || c == Cause.attributeConflict then .service
  else if c == Cause.saveOverrun || c == Cause.machineCheck then .fatal
  else if c == Cause.cancelled then .record
  else .handler

/-! ### Threads -/

namespace Thread

/-- The number of a thread in `State.threads`: its context entry and its thread number (R22, R98). -/
def key (t : Thread) : Nat := t.ctx * 16384 + t.tid.toNat

/-- Bench of a thread (R22). -/
def bench (t : Thread) : Nat := t.tid.toNat / 128
/-- Core of a thread, device-wide: 8 · bench + core (R386). -/
def core (t : Thread) : Nat := t.tid.toNat / 16
/-- Context number on its core (R22). -/
def context (t : Thread) : Nat := t.tid.toNat % 16
/-- Die of a thread (R22). -/
def die (t : Thread) : Nat := t.tid.toNat / 2048
/-- The thread is a head context (R22). -/
def isHead (t : Thread) : Bool := t.context == 0
/-- Seam depth (R377). -/
def depth (t : Thread) : Nat := t.frames.length

/-- x(i): register 0 reads zero (R46, R54). -/
def getX (t : Thread) (i : XReg) : Word := if i = 0 then 0 else t.x[i.toNat]
/-- setx(i, v): a write to register 0 is discarded (R46, R54). -/
def setX (t : Thread) (i : XReg) (v : Word) : Thread := if i = 0 then t else { t with x := t.x.set i.toNat v }

/-- A v register. -/
def getV (t : Thread) (i : VReg) : VData := t.v[i.toNat]
/-- Write a v register whole. -/
def setV (t : Thread) (i : VReg) (d : VData) : Thread := { t with v := t.v.set i.toNat d }
/-- A k register as an ordinary register (R46). -/
def getK (t : Thread) (i : KReg) : KData := t.k[i.toNat]
/-- Write a k register. -/
def setK (t : Thread) (i : KReg) (d : KData) : Thread := { t with k := t.k.set i.toNat d }
/-- kbit of a guard: k0 is all ones (R46, R54). -/
def guard (t : Thread) (i : KReg) : KData := if i = 0 then -1 else t.getK i
/-- A segment register. -/
def getG (t : Thread) (i : GReg) : Segment := t.g[i.toNat]
/-- Write a segment register. -/
def setG (t : Thread) (i : GReg) (d : Segment) : Thread := { t with g := t.g.set i.toNat d }
/-- Discard the heads fetched and not executed when g0 is new: the next head is fetched through it (R238). -/
def refetchIf (t : Thread) (i : GReg) : Thread := { t with line := if i = 0 then none else t.line }
/-- The thread at an instruction boundary: segment registers another thread has loaded apply (R238). -/
def boundary (t : Thread) : Thread :=
  { t.segNext.foldr (fun p t => (t.setG p.1 p.2).refetchIf p.1) t with segNext := [] }
/-- A stream register. -/
def getW (t : Thread) (i : WReg) : Option Stream := t.w[i.toNat]
/-- Write a stream register. -/
def setW (t : Thread) (i : WReg) (d : Option Stream) : Thread := { t with w := t.w.set i.toNat d }

/-- OR flags into FFLAGS (R72). -/
def addFlags (t : Thread) (f : Flags) : Thread := { t with fflags := t.fflags ||| f }

/-- The image of the line the pc is in, once fetched. -/
def lineImg (t : Thread) : List Byte :=
  match t.line with
  | some (_, img) => img
  | none => []

/-- next(pc) for the line the thread executes in (R37). -/
def next (t : Thread) : Word := nextPc (lineH t.lineImg) t.pc

/-- Go on after a wait: Runnable again (R87). -/
def resumed (t : Thread) : Thread :=
  match t.status with
  | .waiting _ => { t with status := .runnable }
  | _ => t

/-- The loop step of R105 at the completion of the instruction at `pc`, whose sequential successor is `nxt`: the loop
stack left and the next pc. -/
def loopStep (pc nxt : Word) : List LoopEntry → List LoopEntry × Word
  | [] => ([], nxt)
  | e :: es =>
    if pc = e.last then
      let i := e.index + 1
      if i < e.count then ({ e with index := i } :: es, e.start) else loopStep pc nxt es
    else (e :: es, nxt)

/-- Complete an instruction without a taken transfer (R105). -/
def completed (t : Thread) : Thread :=
  let r := loopStep t.pc t.next t.loops
  { t.resumed with loops := r.1, pc := r.2 }

/-- Complete an instruction that discards the heads fetched and not executed (R292). -/
def refetches (t : Thread) : Thread := { t.completed with line := none }

/-- Complete an instruction with a transfer to `target` (R102, R105). -/
def jumped (t : Thread) (target : Word) : Thread := { t.resumed with pc := target }

end Thread

/-! ### Access to the parts of the state -/

namespace State

/-- A thread by key. -/
def thread? (s : State) (k : Nat) : Option Thread := Map.get? s.threads k
/-- Put a thread in its place. -/
def putThread (s : State) (t : Thread) : State := { s with threads := Map.put s.threads t.key t }
/-- Remove a thread: its context becomes Empty (R86). -/
def dropThread (s : State) (k : Nat) : State := { s with threads := Map.del s.threads k, strays := Map.del s.strays k }
/-- Change a thread that exists. -/
def onThread (s : State) (k : Nat) (f : Thread → Thread) : State :=
  match s.thread? k with
  | some t => { s with threads := Map.put s.threads k (f t) }
  | none => s

/-- The thread whose instruction is executed. -/
def curThread (s : State) : Option Thread :=
  match s.cur with
  | some k => s.thread? k
  | none => none

/-- A core, or a fresh one. -/
def core (s : State) (n : Nat) : Core := Map.getD s.cores n Core.fresh
/-- Put a core. -/
def putCore (s : State) (n : Nat) (c : Core) : State := { s with cores := Map.put s.cores n c }
/-- A bench, or a fresh one. -/
def bench (s : State) (n : Nat) : Bench := Map.getD s.benches n Bench.fresh
/-- Put a bench. -/
def putBench (s : State) (n : Nat) (b : Bench) : State := { s with benches := Map.put s.benches n b }
/-- A context, if its entry is not Free. -/
def ctx? (s : State) (n : Nat) : Option Ctx := Map.get? s.ctxs n
/-- Put a context. -/
def putCtx (s : State) (n : Nat) (c : Ctx) : State := { s with ctxs := Map.put s.ctxs n c }
/-- A gang by number. -/
def gang? (s : State) (n : Nat) : Option Gang := Map.get? s.gangs n
/-- Put a gang. -/
def putGang (s : State) (n : Nat) (g : Gang) : State := { s with gangs := Map.put s.gangs n g }

/-- A fresh free-value number. -/
def takeFree (s : State) : Nat × State := (s.frees, { s with frees := s.frees + 1 })
/-- A fresh arrival number. -/
def takeStamp (s : State) : Nat × State := (s.stamps, { s with stamps := s.stamps + 1 })

end State

/-! ### Meanings of thread instructions -/

/-- The outcome of a step. -/
abbrev Result := Host.Outcome State Fault Refusal

/-- How a meaning that does not complete stops: a trap with its cause, TVAL and element (R235), or a wait with its
reason, limit in core cycles and what it asked for. Each carries the state its effects so far have made. -/
inductive Stop where
  | trap (s : State) (c : BitVec 8) (v : Word) (elem : Option Nat)
  | wait (s : State) (r : Reason) (limit : Nat) (asked : Asked)

/-- How a meaning that completes leaves the pc. -/
inductive Ending where
  /-- Sequential, with the loop step (R105). -/
  | seq
  /-- A taken transfer. -/
  | jump (target : Word)
  /-- The meaning has set the thread itself. -/
  | stay

/-- A computation on the state that can trap or wait. -/
abbrev M (α : Type) := StateT State (Except Stop) α

/-- Raise a cause in a scalar access or instruction. -/
def trapM {α : Type} (c : BitVec 8) (v : Word) : M α := fun s => .error (.trap s c v none)
/-- Raise a cause of an element (R235). -/
def trapElem {α : Type} (c : BitVec 8) (v : Word) (e : Option Nat) : M α := fun s => .error (.trap s c v e)
/-- Wait. -/
def waitM {α : Type} (r : Reason) (limit : Nat := 0) (asked : Asked := .none) : M α :=
  fun s => .error (.wait s r limit asked)

/-- Put a thread. -/
def putM (t : Thread) : M Unit := fun s => .ok ((), s.putThread t)
/-- A thread as it stands now, or the given one when it has gone. -/
def nowM (t : Thread) : M Thread := fun s => .ok ((s.thread? t.key).getD t, s)

/-- A scalar instruction that only changes the executing thread, and completes (R107). -/
def simple (s : State) (f : Thread → Thread) : Result :=
  match s.curThread with
  | some t => .next (s.putThread (f t).completed)
  | none => .fault .noThread

/-- The wait record of the instruction a thread waits in. -/
def Thread.waitOf (t : Thread) : Option Wait :=
  match t.status with
  | .waiting w => some w
  | _ => none

/-- What the executing instruction asked for before it waited. -/
def Thread.asked (t : Thread) : Asked :=
  match t.waitOf with
  | some w => w.asked
  | none => .none

/-- The counts with which an instruction that waits goes on to wait for a reason: those of its wait for that reason (R88). -/
def Wait.countsFor (w : Wait) (r : Reason) : Nat × Nat :=
  if w.reason = r then (w.elapsed, w.cycles)
  else match w.before with
    | some (q, e, c) => if q = r then (e, c) else (0, 0)
    | none => (0, 0)

/-- The counts kept for a reason other than the one an instruction goes on to wait for: those of its last wait with a limit. -/
def Wait.keptFor (w : Wait) (r : Reason) : Option (Reason × Nat × Nat) :=
  if w.reason = r then w.before
  else if w.limit = 0 then w.before.filter (·.1 != r)
  else some (w.reason, w.elapsed, w.cycles)

/-- Put a thread into Waiting with an instruction; a wait that goes on keeps its place in the order of arrival and its
elapsed time (R88), but one that begins at a full/empty word has its place there from its arrival at the word (R231). -/
def State.beginWait (s : State) (key : Nat) (i : Instr) (r : Reason) (limit : Nat) (asked : Asked) : State :=
  match s.thread? key with
  | none => s
  | some t =>
    match t.waitOf with
    | some w =>
      let (e, c) := w.countsFor r
      let here := r = .fullEmpty ∧ w.reason ≠ .fullEmpty
      let stamp := if here then s.stamps else w.stamp
      { s.putThread { t with status := .waiting ⟨r, i, stamp, limit, e, c, asked, false, w.keptFor r⟩ } with
        stamps := s.stamps + if here then 1 else 0 }
    | none =>
      { s.putThread { t with status := .waiting ⟨r, i, s.stamps, limit, 0, 0, asked, false, none⟩ } with stamps := s.stamps + 1 }

/-- The event a thread waits for has reached it. -/
def State.wake (s : State) (key : Nat) : State :=
  s.onThread key fun t =>
    match t.status with
    | .waiting w => { t with status := .waiting { w with woken := true } }
    | _ => t

/-- 32nds of a core cycle in a number of nanoseconds, at a clock in sixteenths of the nominal 1.5 GHz (R5, R6). -/
def cycles32 (ns clock : Nat) : Nat := ns * 3 * clock

/-- The limit of a wait has passed (R6, R88). -/
def Wait.expired (w : Wait) : Bool := w.limit != 0 && decide (w.limit * 32 ≤ w.cycles)

/-- sext(v, n) of a field, to a double. -/
def sx {n : Nat} (b : BitVec n) : Word := b.signExtend 64
/-- zext(v, n) of a field, to a double. -/
def zx {n : Nat} (b : BitVec n) : Word := b.setWidth 64

/-- A field of a double. -/
def fieldAt (w : Word) (lo n : Nat) : Nat := w.toNat / 2 ^ lo % 2 ^ n

/-- The double TVAL holds for Illegal Instruction and Privilege: head and tail (R40). -/
def headTail (head : BitVec 16) (tail : BitVec 48) : Word := tail ++ head

/-- Head and tail of an instruction, as TVAL holds them; 0 for a row without encoding. -/
def instrTval (i : Instr) : Word :=
  match encode i with
  | some (h, t) => headTail h t
  | none => 0

end Sys2Proof.Machine
end

