-- ==== Sys2Proof/Machine/Slices.lean ====
section
/-!
DEFINITION. The shared level: home slices, the lines each slice holds with their contexts, ways and victims, what is pinned
(R257 to R259), and the counter banks its events are counted in (R393 to R395).
-/
namespace Sys2Proof.Machine

/-- Where far addresses begin in the model's physical numbering. -/
def farBase : Nat := 2 ^ 52
/-- Bytes of a frame (R247). -/
def frameBytes : Nat := 65536

/-- Home slice of a physical address, near or far (R257). -/
def homeSlice (pa : Nat) : Nat :=
  let f (lo n : Nat) : Nat := pa / 2 ^ lo % 2 ^ n
  f 7 8 ^^^ f 15 8 ^^^ f 23 8 ^^^ f 31 8 ^^^ f 39 8 ^^^ f 47 5

/-- Compute die of a slice (R257). -/
def sliceDie (slice : Nat) : Nat := slice / 32

/-- GDDR7 device of a near frame, and the controller it is stored through (R21, R257). -/
def frameController (frame : Nat) : Nat := frame % 64

/-- Home slice and set of a line, as 256 · slice + set. The set's index is the model's choice (log entry 19). -/
def sliceSet (pa : Nat) : Nat := homeSlice (pa % farBase) * 256 + pa / 2 ^ 15 % 256

namespace State

/-! ### Owner entries (R247) -/

/-- Owner entry of a near frame. -/
def owner (s : State) (frame : Nat) : BitVec 16 := Map.getD s.owners frame 0

/-- KIND of an owner entry. -/
def ownerKind (e : BitVec 16) : Nat := (e.extractLsb' 14 2).toNat
/-- NUMBER of an owner entry. -/
def ownerNumber (e : BitVec 16) : Nat := (e.extractLsb' 0 11).toNat

/-- The frame is shared: its accesses are uncached (R247). -/
def sharedFrame (s : State) (pa : Nat) : Bool :=
  decide (pa < farBase) && ownerKind (s.owner (pa / frameBytes)) == 3

/-! ### Counter banks (R393 to R395) -/

/-- Key of a counter of a function's bank at a unit. -/
def bankKey (cls unit fn cnt : Nat) : Nat := ((cls * 512 + unit) * 129 + fn) * 8 + cnt

/-- An event at a unit for a context, or for none, `n` times: each counter of the function's bank that names it counts. -/
def count (s : State) (cls unit : Nat) (ctx : Option Nat) (event : BitVec 8) (n : Nat) : State :=
  let fn := match ctx.bind s.ctx? with | some c => c.fn | none => 0
  if s.banks.isEmpty then s
  else (List.range 8).foldl (fun s i =>
    match Map.get? s.banks (bankKey cls unit fn i) with
    | some c =>
      if c.event == event && (!c.cfen || ctx == some c.cfilt.toNat) then
        { s with banks := Map.put s.banks (bankKey cls unit fn i) { c with count := c.count + BitVec.ofNat 63 n } }
      else s
    | none => s) s

/-- The elements a stream register holds and no `wget` has taken are discarded (R225, R395). -/
def streamGone (s : State) (t : Thread) (w : WReg) : State := match t.getW w with
  | some b => s.count 1 t.bench (some t.ctx) 0x15 b.arrived.length
  | none => s

/-- Those of all stream registers of a thread are. -/
def streamsGone (s : State) (t : Thread) : State := (List.range 8).foldl (fun s i => s.streamGone t (BitVec.ofNat 3 i)) s

/-! ### Ways and pins (R258, R259) -/

/-- Ways a partition owns in every slice (R343). -/
def partWays (s : State) (part : Nat) : Nat := match Map.get? s.parts part with
  | some p => p.ways
  | none => 0

/-- What a partition has pinned at homes the device chooses, by number: its object table, and of each of its contexts the
counter blocks and the storage of each sprue (R258, R264, R294, R297). -/
def storages (s : State) (part : Nat) : List Nat :=
  part :: (s.ctxs.filter fun c => c.2.part == part).flatMap fun c =>
    (64 + c.1) :: c.2.sprues.map fun q => 4096 + 64 * c.1 + q.1

/-- Lines of 128 bytes that a partition has pinned so: an object table of 1,024 entries for each quarter and 4,095 counter blocks for
each context, at 64 bytes each, which no rule states (log entry 104), and 2^LOGCAP entries of 32 bytes for each sprue (R264, R294,
R297). -/
def storedLines (s : State) (part : Nat) : Nat :=
  (match Map.get? s.parts part with
   | some p => 512 * p.quarters.length
   | none => 0)
  + ((s.ctxs.filter fun c => c.2.part == part).map fun c => 2048 + (c.2.sprues.map fun q => 2 ^ q.2.logcap / 4).sum).sum

/-- The most lines that storage of some lines takes in one set: the device spreads it over the 65,536 sets (log entry 104). -/
def setShare (lines : Nat) : Nat := (lines + 65535) / 65536

/-- Sets in which a tile's two lines and its ticket state are pinned (R333). -/
def tilePins (pa : Nat) : List Nat := [sliceSet pa, sliceSet (pa + 128), Config.ticketSet pa % 65536]

/-- Lines of a set that a partition has pinned. -/
def pinnedAt (s : State) (part set : Nat) : Nat :=
  min ((s.storages part).map fun n => Config.storageLines n set).sum (setShare (s.storedLines part))
    + (((s.tiles.filter fun t => t.2.part == part).flatMap fun t => tilePins t.1).filter (· == set)).length

/-- A tile can be pinned: every set it takes ways of keeps one that is free of pins (R258). -/
def pinFits (s : State) (part pa : Nat) : Bool :=
  (tilePins pa).all fun set => decide (s.pinnedAt part set + ((tilePins pa).filter (· == set)).length < s.partWays part)

/-- What a partition has pinned leaves a way free of pins in every set (R258). A partition of one way, which R343 accepts although its
object table is pinned in it, may hold a line of storage in each (log entry 98). -/
def pinsHold (s : State) (part : Nat) : Bool :=
  (decide (setShare (s.storedLines part) < s.partWays part) || decide (setShare (s.storedLines part) ≤ 1))
  && (s.tiles.filter fun t => t.2.part == part).all fun t => (tilePins t.1).all fun set => decide (s.pinnedAt part set < s.partWays part)

/-- A line is one of a tile that is pinned. -/
def linePinned (s : State) (line : Nat) : Bool := (Map.get? s.tiles (line / 2 * 256)).isSome

/-! ### Lines held (R259) -/

/-- Lines of a set, the most recently used first. -/
def setLines (s : State) (set : Nat) : List SliceLine := Map.getD s.slices set []

/-- Put the lines of a set; an empty set is not listed. -/
def putSet (s : State) (set : Nat) (ls : List SliceLine) : State :=
  { s with slices := if ls.isEmpty then Map.del s.slices set else Map.put s.slices set ls }

/-- Lines a slice holds for a context (R259). -/
def linesHeld (s : State) (slice ctx : Nat) : Nat :=
  ((s.slices.filter fun p => p.1 / 256 == slice).map fun p => (p.2.filter fun l => l.ctx == ctx).length).sum

/-- The count of a context in a slice exceeds its soft limit (R259). -/
def overSoft (s : State) (slice ctx : Nat) : Bool := match s.ctx? ctx with
  | some c => decide (c.softlim < s.linesHeld slice ctx)
  | none => true

/-- The line of a partition that gives way in a set (R259): the least recently used of a context over its soft limit, else
the least recently used. -/
def victim (s : State) (part set : Nat) : Option SliceLine :=
  let mine := ((s.setLines set).filter fun l => l.part == part).reverse
  (mine.find? fun l => s.overSoft (set / 256) l.ctx).or mine.head?

/-- Evict lines of a partition from a set until at most `n` are left: `fuel` lines. -/
def trimSet (s : State) (part set n : Nat) : Nat → State
  | 0 => s
  | fuel + 1 =>
    if ((s.setLines set).filter fun l => l.part == part).length ≤ n then s
    else
      match s.victim part set with
      | none => s
      | some v =>
        let s := if v.dirty then s.count 0 (set / 256) (some v.ctx) 0x03 1 else s
        (s.putSet set ((s.setLines set).filter fun l => l.line != v.line)).trimSet part set n fuel

/-- Ways of a partition in a set that nothing is pinned in. -/
def freeWays (s : State) (part set : Nat) : Nat := s.partWays part - s.pinnedAt part set

/-- A request of a context for a line reaches its home slice: the line is the most recently used of its set, filled into a
way of the context's partition where the slice does not hold it (R257 to R259). A KIND 3 frame's lines are not kept (R247),
a pinned tile's have their ways, and a peer's have no home here. -/
def touched (s : State) (ctx line : Nat) (dirty pref : Bool) : State :=
  match s.ctx? ctx with
  | none => s
  | some c =>
    let pa := line * 128
    if decide (2 ^ 60 ≤ pa) || s.sharedFrame pa || s.linePinned line then s
    else
      let set := sliceSet pa
      let s := s.count 0 (set / 256) (some ctx) 0x01 1
      let others := (s.setLines set).filter fun l => l.line != line
      match (s.setLines set).find? fun l => l.line == line with
      | some l =>
        let s := if l.pref && !pref then s.count 0 (set / 256) (some ctx) 0x08 1 else s
        s.putSet set ({ l with dirty := l.dirty || dirty, pref := l.pref && pref } :: others)
      | none =>
        let s := s.count 0 (set / 256) (some ctx) (if pref then 0x07 else 0x02) 1
        let ways := s.freeWays c.part set
        if ways = 0 then s
        else
          let s := s.trimSet c.part set (ways - 1) 48
          s.putSet set (⟨line, ctx, c.part, dirty, pref⟩ :: s.setLines set)

/-- A change of the shared level: of the lines it holds and of the events counted, and of nothing else. -/
def inShared (s s' : State) : State := { s with slices := s'.slices, banks := s'.banks }

/-- The state after a request for a line (`touched`). -/
def touchLine (s : State) (ctx line : Nat) (dirty pref : Bool) : State := s.inShared (s.touched ctx line dirty pref)

/-- The lines of a tile are pinned: lines of the partition give way where its sets have too many (R258). -/
def pinTile (s : State) (part pa : Nat) : State :=
  let lines := [pa / 128, pa / 128 + 1]
  let s' := lines.foldl (fun s l => s.putSet (sliceSet (l * 128)) ((s.setLines (sliceSet (l * 128))).filter fun x => x.line != l)) s
  s.inShared ((tilePins pa).foldl (fun s set => s.trimSet part set (s.freeWays part set) 48) s')

/-- The lines a context's slices hold are given up. -/
def dropSlices (s : State) (ctx : Nat) : State :=
  { s with slices := (s.slices.map fun p => (p.1, p.2.filter fun l => l.ctx != ctx)).filter fun p => !p.2.isEmpty }

end State

end Sys2Proof.Machine
end

