-- ==== Sys2Proof/Machine/Memory.lean ====
section
/-!
DEFINITION. Memory: bytes at physical addresses, frames, translation, the check of every element, L1 data caches and the
homes (R228 to R282). A physical address below 2^52 is near, one from 2^52 is far (R243).
-/
namespace Sys2Proof.Machine

/-! ### Bytes -/

/-- What a list of cells holds at an address: an unlisted byte reads 0 (R423; far: log entry 3). -/
def cellGet (m : List Host.Cell) (a : Nat) : Byte := Map.getD m a 0
/-- Write a byte, keeping the canonical form: a byte equal to the unlisted value is not listed. -/
def cellPut (m : List Host.Cell) (a : Nat) (b : Byte) : List Host.Cell := if b = 0 then Map.del m a else Map.put m a b

/-- The canonical form of a list of cells: addresses rise and no listed byte is 0. -/
def cellsWf (m : List Host.Cell) : Bool := Map.rising m && m.all fun c => c.2 != 0

/-- The canonical form of every memory of the machine: near, far, and the scratchpad allotments. -/
def Memory.wf (s : State) : Bool := cellsWf s.near && cellsWf s.far && s.gangs.all fun g => cellsWf g.2.bytes

namespace State

/-- The byte at a physical address, at its home. -/
def byteAt (s : State) (pa : Nat) : Byte := if pa < farBase then cellGet s.near pa else cellGet s.far (pa - farBase)

/-- Write a byte at its home. -/
def setByte (s : State) (pa : Nat) (b : Byte) : State :=
  if pa < farBase then { s with near := cellPut s.near pa b } else { s with far := cellPut s.far (pa - farBase) b }

/-- `n` bytes from a physical address, at their home. -/
def bytesAt (s : State) (pa : Nat) : Nat → List Byte
  | 0 => []
  | n + 1 => s.byteAt pa :: s.bytesAt (pa + 1) n

/-- Write bytes from a physical address, at their home. -/
def setBytes (s : State) (pa : Nat) : List Byte → State
  | [] => s
  | b :: bs => (s.setByte pa b).setBytes (pa + 1) bs

/-- A double at a physical address (R10). -/
def doubleAt (s : State) (pa : Nat) : Word := BitVec.ofNat 64 (leNat (s.bytesAt pa 8))
/-- Write a double. -/
def setDouble (s : State) (pa : Nat) (w : Word) : State := s.setBytes pa (leBytes 8 w.toNat)

/-- The first poisoned line an access of `n` bytes at a physical address touches (R425). -/
def poisoned (s : State) (pa n : Nat) : Option Nat :=
  (s.poison.find? fun l => decide (pa / 128 ≤ l) && decide (l * 128 < pa + n)).map (· * 128)

/-- A host agent gives up the lines of a range: the snoop for a write is sent and answered (R413; log entry 1). -/
def snoop (s : State) (pa n : Nat) : State :=
  let hit := fun l : Nat => decide (pa / 128 ≤ l) && decide (l * 128 < pa + n)
  if s.hostLines.any hit then { s with hostLines := s.hostLines.filter (!hit ·), snoops := s.snoops.filter (!hit ·) } else s

/-- A peer device can be reached: its route names a port that is up, and the partition has a tag (R421, R422). -/
def peerUp (s : State) (part dev : Nat) : Bool :=
  (match Map.get? s.routes dev with
   | some m => (List.range 36).any fun i => m.getLsbD i && !s.portsDown.contains i
   | none => false)
  && match Map.get? s.parts part with
     | some p => p.tag.isSome
     | none => false

/-! ### Frames (R247, R260) -/

/-- The owner check of a near frame for an access of a context and its partition (R247); a frame the device does not
have is no one's. Far frames are not checked. -/
def ownerOk (s : State) (ctx part pa : Nat) : Bool :=
  if farBase ≤ pa then true
  else if Config.nearFrames ≤ pa / frameBytes then false
  else
    let e := s.owner (pa / frameBytes)
    match ownerKind e with
    | 0 => false
    | 1 => ownerNumber e == part
    | 2 => ownerNumber e == ctx
    | _ => true

/-- Tracking attribute of a frame, unset when none (R260). -/
def attr? (s : State) (pa : Nat) : Option Attr := Map.get? s.attrs (pa / frameBytes)

end State

/-! ### Page tables (R242 to R246) -/

/-- Bit `i` of an entry. -/
def pteBit (e : Word) (i : Nat) : Bool := e.getLsbD i
/-- FRAME of an entry, as a physical address. -/
def pteFrame (e : Word) : Nat := (e.extractLsb' 16 36).toNat * frameBytes
/-- LOC of an entry. -/
def pteLoc (e : Word) : Nat := (e.extractLsb' 2 2).toNat
/-- PEER of an entry. -/
def ptePeer (e : Word) : Nat := (e.extractLsb' 52 10).toNat

/-- Bytes a leaf of a level covers (R242). -/
def pageSize (lvl : Nat) : Nat := if lvl == 1 then 2 ^ 42 else if lvl == 2 then 2 ^ 29 else 2 ^ 16
/-- Index of a virtual address in the table of a level (R242). -/
def pageIndex (lvl va : Nat) : Nat := va / pageSize lvl % 8192

/-- A present entry is malformed (R243). -/
def pteMalformed (lvl : Nat) (e : Word) : Bool :=
  e.extractLsb' 62 2 != 0 || e.extractLsb' 12 4 != 0 || pteLoc e == 3
  || (!pteBit e 1 && lvl == 3)
  || (!pteBit e 1 && (e &&& ~~~(0x000FFFFFFFFF0003#64)) != 0)
  || (pteBit e 1 && pteFrame e % pageSize lvl != 0)
  || (ptePeer e != 0 && pteLoc e != 2)

/-- Quarter of its bench that a core belongs to (R342). -/
def wayQuarter (core : Nat) : Nat := core % 8 / 2

/-- One of some candidates that have filled their ways, chosen by a free value, and none while there is room (log entry
19). -/
def State.pickVictim {α : Type} (s : State) (rivals : List α) (ways : Nat) : Option α × State :=
  if rivals.length < ways then (none, s)
  else (rivals[Config.evicted s.frees % rivals.length]?, { s with frees := s.frees + 1 })

/-! ### Swapped pages of a sealed partition (R345) -/

/-- Where the plain bytes of a sealed partition's page in its swap region stand in the model's physical numbering: above the far
frame, which holds them encrypted (log entry 90). -/
def plainBase : Nat := 2 ^ 58

/-- The managed page of a context at an address (R357). -/
def State.managed? (s : State) (ctx va : Nat) : Option Managed :=
  match s.ctx? ctx with
  | some c => Map.get? c.managed (va / frameBytes * frameBytes)
  | none => none

/-- The partition of a context is sealed. -/
def State.ctxSealed (s : State) (ctx : Nat) : Bool := match s.ctx? ctx with
  | some c => match Map.get? s.parts c.part with
    | some p => p.isSealed
    | none => false
  | none => false

/-- Physical address an address of a context translates to by a leaf of a page size (R244). -/
def State.leafPa (s : State) (ctx va : Nat) (e : Word) (size : Nat) : Nat :=
  let a := (if pteLoc e == 1 then farBase else 0) + pteFrame e + va % size
  if pteLoc e == 1 && (s.managed? ctx va).isSome && s.ctxSealed ctx then plainBase + a else a

/-- A frame holds free values: what a key makes of it that the reader does not have (R345; log entry 90). -/
def State.scramble (s : State) (pa : Nat) : State :=
  { s with frees := s.frees + 1 }.setBytes pa ((List.range frameBytes).map fun i => Config.keyedByte s.frees (pa + i))

/-! ### Requests at far homes -/

/-- Count a request of a context at the homes of a far managed page (R360, R435); a page that reaches HOT waits for the
ladle. -/
def State.farRequest (s : State) (ctx pa n : Nat) : State :=
  if pa < farBase then s
  else
    match s.ctx? ctx with
    | none => s
    | some c =>
      let far := pa % plainBase - farBase
      let unit := (far - c.farbase) / frameBytes
      if c.hot == 0 || c.farloc != 1 || decide (far < c.farbase) then s
      else
        match c.managed.find? fun m => m.2.unit == unit && m.2.near.isNone with
        | none => s
        | some (va, m) =>
          let count := min (m.count + n) 65535
          let s := s.putCtx ctx { c with managed := Map.put c.managed va { m with count := count } }
          if decide (m.count < c.hot) && decide (c.hot ≤ count) then { s with hotPages := s.hotPages ++ [(ctx, va)] } else s

/-- A request of a context for `n` units of 64 bytes from a physical address is performed at their homes (R257, R435). -/
def State.homeRequest (s : State) (ctx pa n : Nat) (write : Bool) : State :=
  let s := s.farRequest ctx pa n
  if n = 0 then s
  else (List.range ((pa / 64 + n - 1) / 2 - pa / 128 + 1)).foldl (fun s i => s.touchLine ctx (pa / 128 + i) write false) s

/-- Die of the ladle share that serves a managed page: that of the home slice of the frame it occupies (R360). -/
def State.ladleDie (s : State) (ctx va : Nat) : Nat :=
  match s.ctx? ctx with
  | none => 0
  | some c => match Map.get? c.managed (va / frameBytes * frameBytes) with
    | none => 0
    | some m => sliceDie (homeSlice (match m.near with
      | some f => f * frameBytes
      | none => c.farbase + m.unit * frameBytes))

/-! ### L1 data caches (R261) -/

/-- A line of a context in a bench's L1. -/
def Bench.l1Find (b : Bench) (ctx line : Nat) : Option L1Line := b.l1.find? fun l => l.ctx == ctx && l.line == line

/-- Put a line in a bench's L1, in the place of its old copy. -/
def Bench.l1Put (b : Bench) (l : L1Line) : Bench :=
  { b with l1 := l :: b.l1.filter fun m => !(m.ctx == l.ctx && m.line == l.line) }

/-- Discard a line of a bench's L1. -/
def Bench.l1Del (b : Bench) (ctx line : Nat) : Bench :=
  { b with l1 := b.l1.filter (fun m => !(m.ctx == ctx && m.line == line)), badLines := b.badLines.filter (· != (ctx, line)) }

/-- Physical address of the first byte of a line. -/
def linePa (line : Nat) : Nat := line * 128

/-- A line copy with every dirty mark cleared. -/
def L1Line.clean (l : L1Line) : L1Line := { l with bytes := l.bytes.map fun c => (c.1, (c.2.1, false)) }

/-- The bytes of an access in a line copy, when all are present. -/
def L1Line.read (l : L1Line) (off : Nat) : Nat → Option (List Byte)
  | 0 => some []
  | n + 1 =>
    match Map.get? l.bytes off with
    | none => none
    | some c =>
      match l.read (off + 1) n with
      | none => none
      | some bs => some (c.1 :: bs)

/-- Write bytes into a line copy and mark them dirty. -/
def L1Line.write (l : L1Line) (off : Nat) : List Byte → L1Line
  | [] => l
  | b :: bs => ({ l with bytes := Map.put l.bytes off (b, true) }).write (off + 1) bs

/-- The first poisoned line of a bench's L1 that an access of a context touches (R425). -/
def State.l1Poisoned (s : State) (bench ctx pa n : Nat) : Option Nat :=
  ((s.bench bench).badLines.find? fun l => l.1 == ctx && decide (pa / 128 ≤ l.2) && decide (l.2 * 128 < pa + n)).map (·.2 * 128)

/-- The bytes of an access a bench's L1 holds. -/
def State.readL1 (s : State) (bench ctx pa n : Nat) : Option (List Byte) :=
  match (s.bench bench).l1Find ctx (pa / 128) with
  | some l => l.read (pa % 128) n
  | none => none

/-! ### Objects (R263 to R269) -/

/-- The object a line belongs to: a declared one that covers it, else the page object of its page (R264). -/
def State.objOf (s : State) (pa : Nat) : ObjId :=
  match s.objs.find? fun o => o.2.lines.contains (pa / 128) with
  | some o => .declared o.1
  | none => .page (pa / frameBytes)

/-- Home state of an object. -/
def State.objState (s : State) : ObjId → ObjState
  | .declared n => match Map.get? s.objs n with
    | some o => o.state
    | none => .invalid
  | .page f => match Map.get? s.pageObjs f with
    | some o => o.2
    | none => .invalid

/-- Partition an object belongs to; a page object that is Invalid belongs to none. -/
def State.objPart (s : State) : ObjId → Option Nat
  | .declared n => (Map.get? s.objs n).map (·.part)
  | .page f => (Map.get? s.pageObjs f).map (·.1)

/-- A request, or a write-back, of a partition that an object home rejects (R269). -/
def State.homeRejects (s : State) (part pa : Nat) : Bool :=
  match s.objPart (s.objOf pa) with
  | some p => p != part
  | none => false

/-- The virtual address that the translations of a context in a bench's TLB give a physical address, 0 where none does. -/
def State.virtualOf (s : State) (bench ctx pa : Nat) : Nat :=
  ((s.bench bench).tlb.findSome? fun e =>
    let a := (if pteLoc e.leaf == 1 then farBase else 0) + pteFrame e.leaf
    let p := pa % plainBase
    if e.ctx == ctx && pteLoc e.leaf != 2 && decide (a ≤ p) && decide (p < a + e.size) then some (e.va + p - a) else none).getD 0

/-- A home refuses the write-back of a line copy of a bench: the lowest thread of its context there that has not ended raises Frame
Owner (R247, R269; log entry 101). -/
def State.strayLine (s : State) (bench : Nat) (l : L1Line) : State :=
  let live (t : Thread) : Bool := match t.status with
    | .halted _ | .faulted _ => false
    | _ => true
  match s.threads.find? fun p => p.2.ctx == l.ctx && p.2.bench == bench && live p.2 with
  | some p => { s with strays := Map.put s.strays p.1 (BitVec.ofNat 64 (s.virtualOf bench l.ctx (linePa l.line))) }
  | none => s

/-- Write the dirty bytes of a line copy of a bench at the home, with its poison (R261, R425), which refuses those of a frame of another owner and of an
object of another partition (R247, R269). -/
def State.writeDirty (s : State) (bench : Nat) (l : L1Line) : State :=
  let rejected := match s.ctx? l.ctx with
    | some c => !s.ownerOk l.ctx c.part (linePa l.line) || s.homeRejects c.part (linePa l.line)
    | none => false
  if !l.bytes.any (·.2.2) then s
  else if rejected then s.strayLine bench l
  else
    let s := (s.snoop (linePa l.line) 128).touchLine l.ctx l.line true false
    let s := l.bytes.foldl (fun s c => if c.2.2 then s.setByte (linePa l.line + c.1) c.2.1 else s) s
    if (s.bench bench).badLines.contains (l.ctx, l.line) && !s.poison.contains l.line then { s with poison := s.poison ++ [l.line] } else s

/-- Write back the dirty bytes of a line copy of a bench and keep it clean, or discard it (R261). -/
def State.writeBack (s : State) (bench : Nat) (l : L1Line) (discard : Bool) : State :=
  let s := s.writeDirty bench l
  let b := s.bench bench
  s.putBench bench (if discard then b.l1Del l.ctx l.line else b.l1Put l.clean)

/-- Write back, and discard or keep, every copy a bench holds of the lines that satisfy `p`. -/
def State.writeBackAll (s : State) (bench : Nat) (p : L1Line → Bool) (discard : Bool) : State :=
  ((s.bench bench).l1.filter p).foldl (fun s l => s.writeBack bench l discard) s

/-- Set the home state of an object. -/
def State.setObj (s : State) (part : Nat) (o : ObjId) (st : ObjState) : State :=
  match o with
  | .declared n => { s with objs := Map.modify s.objs n fun x => { x with state := st } }
  | .page f =>
    match st with
    | .invalid => { s with pageObjs := Map.del s.pageObjs f }
    | _ => { s with pageObjs := Map.put s.pageObjs f (part, st) }

/-- A line of an object. -/
def State.inObj (s : State) (o : ObjId) (line : Nat) : Bool := s.objOf (linePa line) == o

/-- The object's state lets a bench read its copy. -/
def ObjState.mayRead (st : ObjState) (b : Nat) : Bool :=
  match st with
  | .invalid => false
  | .shared m => m.contains b
  | .exclusive o => o == b

/-- The object's state lets a bench write its copy. -/
def ObjState.mayWrite (st : ObjState) (b : Nat) : Bool :=
  match st with
  | .exclusive o => o == b
  | _ => false

/-- The transition of R267 for a read or write request from a bench: holders write back, keep or discard. -/
def State.objTransition (s : State) (part b : Nat) (o : ObjId) (write : Bool) : State :=
  let mine := fun l : L1Line => s.inObj o l.line
  match s.objState o with
  | .invalid => s.setObj part o (if write then .exclusive b else .shared [b])
  | .shared m =>
    if write then
      ((m.filter (· != b)).foldl (fun s c => s.writeBackAll c mine true) s).setObj part o (.exclusive b)
    else s.setObj part o (.shared (if m.contains b then m else m ++ [b]))
  | .exclusive c =>
    if c == b then s
    else if write then (s.writeBackAll c mine true).setObj part o (.exclusive b)
    else (s.writeBackAll c mine false).setObj part o (.shared [c, b])

/-- Every holder writes back and discards its copies, and the object is Invalid (R267, R288, R289). -/
def State.objRecall (s : State) (o : ObjId) : State :=
  let mine := fun l : L1Line => s.inObj o l.line
  let holders := match s.objState o with
    | .invalid => []
    | .shared m => m
    | .exclusive c => [c]
  (holders.foldl (fun s c => s.writeBackAll c mine true) s).setObj 0 o .invalid

/-- A bench that holds no line of the object of an address leaves it (R267). -/
def State.leaveObject (s : State) (b pa : Nat) : State :=
  let o := s.objOf pa
  if (s.bench b).l1.any fun l => s.inObj o l.line then s
  else
    match s.objState o with
    | .invalid => s
    | .shared m =>
      let m' := m.filter (· != b)
      if m.contains b then s.setObj ((s.objPart o).getD 0) o (if m'.isEmpty then .invalid else .shared m') else s
    | .exclusive c => if c == b then s.setObj 0 o .invalid else s

/-! ### Fills and stores of L1 lines (R261, R268, R270) -/

/-- A word of the shared level carries a full/empty tag (R228). -/
def State.tagged (s : State) (pa : Nat) : Bool := s.objs.any fun o => o.2.words.contains (pa / 8 * 8)

/-- A line held in a bench's L1 is one of a tracked frame or object (R260, R265). -/
def State.lineTracked (s : State) (bench line : Nat) : Bool :=
  s.attr? (linePa line) == some .tracked || (s.objState (s.objOf (linePa line))).mayRead bench

/-- Copies of a tracked line that a bench holds under other contexts give way to its owner's: they are written back and
discarded, so that the bench has one copy (R268, R271; log entry 19). -/
def State.oneCopy (s : State) (bench ctx line : Nat) : State :=
  if s.lineTracked bench line then s.writeBackAll bench (fun l => l.line == line && l.ctx != ctx) true else s

/-- A way for a line of a context in the L1 of a core's bench: of 1,024 sets the core's quarter has two ways, and a line that
gives way is written back (R20, R261, R342; log entry 19). -/
def State.l1Room (s : State) (core ctx line : Nat) : State :=
  let b := s.bench (core / 8)
  if (b.l1Find ctx line).isSome then s
  else
    let rivals := b.l1.filter fun l => l.quarter == wayQuarter core && l.line % 1024 == line % 1024
    match s.pickVictim rivals 2 with
    | (some l, s) => (s.writeBack (core / 8) l true).leaveObject (core / 8) (linePa l.line)
    | (none, s) => s

/-- The copy of a line that a core's bench holds for a context, or an empty one in the core's quarter. -/
def State.l1Copy (s : State) (core ctx line : Nat) : L1Line :=
  ((s.bench (core / 8)).l1Find ctx line).getD ⟨wayQuarter core, ctx, line, []⟩

/-- Fill the bytes of a range of a line from the home, but those of words with tags, leaving dirty bytes as they are. -/
def State.fillBytes (s : State) (l : L1Line) (off : Nat) : Nat → L1Line
  | 0 => l
  | n + 1 =>
    let kept := match Map.get? l.bytes off with
      | some (_, d) => d
      | none => s.tagged (linePa l.line + off)
    let l := if kept then l else { l with bytes := Map.put l.bytes off (s.byteAt (linePa l.line + off), false) }
    s.fillBytes l (off + 1) n

/-- Fill the sectors of the line of address `pa` into the L1 of a core's bench, with their poison: one request (R261, R425, R435). -/
def State.fillL1 (s : State) (core ctx pa : Nat) : State :=
  let s := (s.oneCopy (core / 8) ctx (pa / 128)).l1Room core ctx (pa / 128)
  let l := s.fillBytes (s.l1Copy core ctx (pa / 128)) 0 128
  let b := (s.bench (core / 8)).l1Put l
  let bad := s.poison.contains (pa / 128) && !b.badLines.contains (ctx, pa / 128)
  (s.putBench (core / 8) (if bad then { b with badLines := b.badLines ++ [(ctx, pa / 128)] } else b)).homeRequest ctx pa 1 false

/-- Write bytes into the copy of their line of a core's bench, marking them dirty (R261); a word with a tag is written at its
home (R270). -/
def State.storeL1 (s : State) (core ctx pa : Nat) (bytes : List Byte) : State :=
  if s.tagged pa then ((s.snoop pa bytes.length).setBytes pa bytes).homeRequest ctx pa 1 true
  else
    let s := (s.oneCopy (core / 8) ctx (pa / 128)).l1Room core ctx (pa / 128)
    s.putBench (core / 8) ((s.bench (core / 8)).l1Put ((s.l1Copy core ctx (pa / 128)).write (pa % 128) bytes))

/-- A byte as a bench's copy of its line has it, else as its home does. -/
def State.cachedByte (s : State) (bench ctx pa : Nat) : Byte :=
  match (s.bench bench).l1Find ctx (pa / 128) with
  | some l => match Map.get? l.bytes (pa % 128) with
    | some c => c.1
    | none => s.byteAt pa
  | none => s.byteAt pa

/-- Bytes of an access as a bench's copies have them, else as their homes do. -/
def State.cachedBytes (s : State) (bench ctx pa n : Nat) : List Byte := (List.range n).map fun i => s.cachedByte bench ctx (pa + i)

/-- A bench writes back and discards the lines that satisfy `p`, each as an eviction: it leaves every object of which it holds
no line any more (R267, R269). -/
def State.evictAll (s : State) (b : Nat) (p : L1Line → Bool) : State :=
  ((s.bench b).l1.filter p).foldl (fun s l => s.leaveObject b (linePa l.line)) (s.writeBackAll b p true)

/-! ### Accesses at the home by engines and atomics (R262, R280) -/

/-- Bring the home up to date with the owner of a tracked line before a home access reads it (log entry 15). -/
def State.settleRead (s : State) (pa : Nat) : State :=
  let o := s.objOf pa
  match s.objState o with
  | .exclusive c => (s.writeBackAll c (fun l => s.inObj o l.line) false).setObj ((s.objPart o).getD 0) o (.shared [c])
  | _ => s

/-- Recall every copy of a tracked line before a home access writes it (log entry 15). -/
def State.settleWrite (s : State) (pa : Nat) : State :=
  let o := s.objOf pa
  if s.objState o == .invalid then s else s.objRecall o

/-- Do something for the first address of every line that a range touches. -/
def State.eachLine (s : State) (pa n : Nat) (f : State → Nat → State) : State :=
  if n = 0 then s
  else (List.range ((pa + n - 1) / 128 - pa / 128 + 1)).foldl (fun s i => f s (linePa (pa / 128 + i))) s

/-- 64-byte units a range touches. -/
def unitsTouched (pa n : Nat) : Nat := if n == 0 then 0 else (pa + n - 1) / 64 - pa / 64 + 1

/-- Bytes read at their home by an engine for a context. -/
def State.engineRead (s : State) (ctx pa n : Nat) : List Byte × State :=
  let s := (s.eachLine pa n State.settleRead).homeRequest ctx pa (unitsTouched pa n) false
  (s.bytesAt pa n, s)

/-- Bytes written at their home by an engine for a context. -/
def State.engineWrite (s : State) (ctx pa : Nat) (bytes : List Byte) : State :=
  (((s.eachLine pa bytes.length State.settleWrite).snoop pa bytes.length).setBytes pa bytes).homeRequest ctx pa (unitsTouched pa bytes.length) true

/-! ### Translation (R244 to R248) -/

/-- What a walk finds. -/
inductive Walk where
  | leaf (e : Word) (size : Nat) (place : Nat)
  | absent
  | refused (c : BitVec 8)
  /-- An entry lies in a poisoned line (R425). -/
  | poisoned (pa : Nat)
  deriving DecidableEq, Repr

/-- Walk a context's table (R244): each table read is checked for its owner, and at the object home of the line (R247, R269). -/
def walkFrom (s : State) (ctx part va : Nat) : List Nat → Nat → Walk
  | [], _ => .refused Cause.pagePermission
  | lvl :: rest, table =>
    let a := table + 8 * pageIndex lvl va
    if !s.ownerOk ctx part a || s.homeRejects part a then .refused Cause.frameOwner
    else if (s.poisoned a 8).isSome then .poisoned (a / 128 * 128)
    else
      let e := s.doubleAt a
      if !pteBit e 0 then .absent
      else if pteMalformed lvl e then .refused Cause.pagePermission
      else if pteBit e 1 then .leaf e (pageSize lvl) a
      else walkFrom s ctx part va rest (pteFrame e)

/-- The walk of a virtual address of a context. -/
def walk (s : State) (ctx va : Nat) : Walk :=
  match s.ctx? ctx with
  | some c => walkFrom s ctx c.part va [1, 2, 3] c.root
  | none => .absent

/-- A translation of a list for an address of a context (R245). -/
def tlbLookup (es : List TlbEntry) (ctx va : Nat) : Option TlbEntry :=
  es.find? fun e => e.ctx == ctx && decide (e.va ≤ va) && decide (va < e.va + e.size)

/-- The translation of an address a bench's TLB holds (R245). -/
def tlbFind (b : Bench) (ctx va : Nat) : Option TlbEntry := tlbLookup b.tlb ctx va

/-- Set of a TLB of `sets` sets that an entry is held in; the index is the model's choice (log entry 19). -/
def tlbSet (sets : Nat) (e : TlbEntry) : Nat := e.va / e.size % sets

/-- A list of translations with another copy of one page's. -/
def tlbWithout (es : List TlbEntry) (e : TlbEntry) : List TlbEntry := es.filter fun f => !(f.ctx == e.ctx && f.va == e.va)

/-- Hold a leaf in the TLB of a core's bench: 128 sets, two ways of each for the core's quarter (R245, R342). -/
def State.tlbPut (s : State) (core : Nat) (e : TlbEntry) : State :=
  let b := s.bench (core / 8)
  let e := { e with quarter := wayQuarter core }
  let rest := tlbWithout b.tlb e
  let (v, s) := s.pickVictim (rest.filter fun f => f.quarter == e.quarter && tlbSet 128 f == tlbSet 128 e) 2
  s.putBench (core / 8) { b with tlb := e :: rest.filter fun f => some f != v }

/-- The last-level TLB of a die (R245). -/
def State.dieTlb (s : State) (die : Nat) : List TlbEntry := Map.getD s.dieTlbs die []

/-- Hold a leaf in a die's last-level TLB: 2,048 sets of 8 ways (R245). -/
def State.dieTlbPut (s : State) (die : Nat) (e : TlbEntry) : State :=
  let rest := tlbWithout (s.dieTlb die) e
  let (v, s) := s.pickVictim (rest.filter fun f => tlbSet 2048 f == tlbSet 2048 e) 8
  { s with dieTlbs := Map.put s.dieTlbs die (e :: rest.filter fun f => some f != v) }

/-- Die of a core (R21). -/
def coreDie (core : Nat) : Nat := core / 128

/-- The walker's reads reach the homes of the table entries, level by level, and find there what an owner of the line wrote
(R246, R247, R262). -/
def State.walkSteps (s : State) (ctx part va : Nat) : List Nat → Nat → State
  | [], _ => s
  | lvl :: rest, table =>
    let a := table + 8 * pageIndex lvl va
    if !s.ownerOk ctx part a || s.homeRejects part a then s
    else
      let s := (s.settleRead a).touchLine ctx (a / 128) false false
      let e := s.doubleAt a
      if (s.poisoned a 8).isSome || !pteBit e 0 || pteMalformed lvl e || pteBit e 1 then s
      else s.walkSteps ctx part va rest (pteFrame e)

/-- The walker reads the entries of an address of a context. -/
def State.walkReads (s : State) (ctx va : Nat) : State :=
  match s.ctx? ctx with
  | some c => s.walkSteps ctx c.part va [1, 2, 3] c.root
  | none => s

/-- Write a page-table entry at its home: copies that benches and the host hold of its line give way (R244, R268, R413). -/
def State.putLeaf (s : State) (ctx place : Nat) (w : Word) : State := s.engineWrite ctx place (leBytes 8 w.toNat)

/-- Find the leaf of an address in the TLB of a core's bench, then in its die's, or walk it; a walk sets A at the entry's home
as it loads it (R244, R245). -/
def State.leafFor (s : State) (core ctx va : Nat) : Walk × State :=
  match tlbFind (s.bench (core / 8)) ctx va with
  | some e => (.leaf e.leaf e.size e.place, s)
  | none =>
    match tlbLookup (s.dieTlb (coreDie core)) ctx va with
    | some e => (.leaf e.leaf e.size e.place, s.tlbPut core e)
    | none =>
      let s := s.walkReads ctx va
      match walk s ctx va with
      | .leaf e size place =>
        let e' := e ||| 0x400#64
        let s := if pteBit e 10 then s else s.putLeaf ctx place e'
        let t : TlbEntry := ⟨0, ctx, va - va % size, size, e', place⟩
        (.leaf e' size place, (s.dieTlbPut (coreDie core) t).tlbPut core t)
      | w => (w, s)

/-- Kinds of access (R234). -/
inductive Kind where
  | read | write | atomic | fetch
  deriving DecidableEq, Repr

/-- A leaf permits a kind of access (R244). -/
def leafPermits (e : Word) : Kind → Bool
  | .read => pteBit e 7
  | .write => pteBit e 8
  | .atomic => pteBit e 7 && pteBit e 8
  | .fetch => pteBit e 9

/-- A kind that writes. -/
def Kind.writes : Kind → Bool
  | .write | .atomic => true
  | _ => false

/-- Where an access goes once checked. -/
inductive Place where
  /-- An offset in the bench scratchpad. -/
  | pad (off : Nat)
  /-- A physical address, its virtual address, and the leaf it was translated through. -/
  | mem (pa va : Nat) (leaf : Word)
  /-- A virtual address of a peer device. -/
  | peer (dev va : Nat)
  deriving DecidableEq, Repr, Inhabited

/-- What the checks of an access find. -/
inductive Checked where
  | ok (p : Place)
  | fails (c : BitVec 8) (v : Word)
  /-- Wait for the page of a virtual address (R248). -/
  | page (va : Nat)
  deriving DecidableEq, Repr, Inhabited

/-- Who makes an access: the core whose memory port it goes through, context entry, partition; `policy` says whether the
context's not-present policy applies (R248). -/
structure Agent where
  core : Nat
  ctx : Nat
  part : Nat
  policy : Bool
  deriving DecidableEq, Repr, Inhabited

/-- Lines of an unset frame that `pref` has placed in L1s outside their objects leave them as the frame becomes tracked (log entry
103). -/
def State.dropPrefetched (s : State) (frame : Nat) : State :=
  let stays (b : Nat) (l : L1Line) : Bool :=
    linePa l.line / frameBytes != frame || (s.objState (s.objOf (linePa l.line))).mayRead b
  { s with benches := s.benches.map fun b => (b.1, { b.2 with l1 := b.2.l1.filter (stays b.1) }) }

/-- The attribute check of R260, which the first access to an unset frame settles. -/
def State.attrCheck (s : State) (pa : Nat) (tracked : Bool) : Bool × State :=
  let want := if tracked then Attr.tracked else .untracked
  match s.attr? pa with
  | some a => (a == want, s)
  | none =>
    let s := if tracked then s.dropPrefetched (pa / frameBytes) else s
    (true, { s with attrs := Map.put s.attrs (pa / frameBytes) want })

/-- A bench memory port reports a managed page of the running context that an access translated (R357). -/
def State.report (s : State) (ctx va : Nat) : State :=
  match s.ctx? ctx with
  | some c =>
    let p := va / frameBytes * frameBytes
    if (Map.get? c.managed p).isSome && !c.reported.contains p then s.putCtx ctx { c with reported := c.reported ++ [p] } else s
  | none => s

/-- The attribute check applies: not in a shared frame, and not in a far page that is unmanaged, whose attribute is its own
T bit (R260, R357). -/
def State.attrApplies (s : State) (ctx va pa : Nat) : Bool :=
  !s.sharedFrame pa && (decide (pa < farBase) || (s.managed? ctx va).isSome)

/-- A die's TLB has D in its copy of a leaf, where it holds just this leaf. -/
def State.dieDirty (s : State) (die : Nat) (t : TlbEntry) (e : Word) : State :=
  { s with dieTlbs := Map.modify s.dieTlbs die fun es => es.map fun f =>
      if f.ctx == t.ctx && f.va == t.va && f.leaf == e then { f with leaf := t.leaf } else f }

/-- D is set at the entry's home before the first write through a translation without it (R244). -/
def State.setDirty (s : State) (g : Agent) (va : Nat) (kind : Kind) (e : Word) (size place : Nat) : Word × State :=
  if kind.writes && !pteBit e 11 then
    let e' := e ||| 0x800#64
    let t : TlbEntry := ⟨0, g.ctx, va - va % size, size, e', place⟩
    let s := s.settleRead place
    (e', ((s.putLeaf g.ctx place (s.doubleAt place ||| 0x800#64)).dieDirty (coreDie g.core) t e).tlbPut g.core t)
  else (e, s)

/-- The migration of a page, if one is in flight (R361). -/
def State.migration? (s : State) (ctx va : Nat) : Option Migration :=
  s.migrations.find? fun m => m.ctx == ctx && m.va == va / frameBytes * frameBytes

/-- A migration of a page is in flight (R361). -/
def State.migrating (s : State) (ctx va : Nat) : Bool := (s.migration? ctx va).isSome

/-- Writes to the page of an address wait: its leaf has WB set, or its migration has swapped the leaf and not released the old
frame yet (R248, R361, R362). -/
def State.writeHeld (s : State) (ctx va : Nat) (e : Word) : Bool :=
  pteBit e 4 || (match s.migration? ctx va with
    | some m => m.swapped
    | none => false)

/-- Translate a virtual address for a kind, then check owner and attribute (R244, R247, R248, R260, R369). -/
def State.translate (s : State) (g : Agent) (va : Nat) (kind : Kind) : Checked × State :=
  let tv : Word := BitVec.ofNat 64 va
  match s.leafFor g.core g.ctx va with
  | (.absent, s) =>
    let trapping := g.policy && (match s.ctx? g.ctx with | some c => c.nptrap | none => false)
    if trapping then (.fails Cause.pageNotPresent tv, s) else (.page va, s)
  | (.refused c, s) => (.fails c tv, s)
  | (.poisoned p, s) => (.fails Cause.machineCheck (BitVec.ofNat 64 p), s)
  | (.leaf e size place, s) =>
    if !leafPermits e kind then (.fails Cause.pagePermission tv, s)
    else if kind.writes && s.writeHeld g.ctx va e then (.page va, s)
    else if pteLoc e == 2 then
      let (_, s) := (s.report g.ctx va).setDirty g va kind e size place
      (.ok (.peer (ptePeer e) va), s)
    else
      let pa := s.leafPa g.ctx va e size
      if !s.ownerOk g.ctx g.part pa then (.fails Cause.frameOwner tv, s)
      else if s.claims.contains (pa / frameBytes) then (.page va, s)
      else
        let (ok, s) := if s.attrApplies g.ctx va pa then s.attrCheck pa (pteBit e 5) else (true, s)
        let s := s.report g.ctx va
        if !ok then (.fails Cause.attributeConflict tv, s)
        else
          let (e, s) := s.setDirty g va kind e size place
          (.ok (.mem pa va e), s)

/-- The first scratchpad byte of an access outside the gang's allotment (R204). -/
def allotMiss (g : Option Gang) (off n : Nat) : Option Nat :=
  match g with
  | none => some off
  | some g =>
    if n == 0 then none
    else if off < g.spadBase || g.spadBase + g.spadSize ≤ off then some off
    else if g.spadBase + g.spadSize < off + n then some (g.spadBase + g.spadSize)
    else none

/-- The first poisoned line of the scratchpad that `n` bytes of an allotment touch (R425). -/
def Gang.badAt (g : Gang) (off n : Nat) : Option Nat :=
  (g.bad.find? fun l => decide (off / 128 ≤ l) && decide (l * 128 < off + n)).map (· * 128)

/-- The rights of a segment permit a kind (R234). -/
def Segment.permits (g : Segment) : Kind → Bool
  | .read => g.r
  | .write => g.w
  | .atomic => g.a
  | .fetch => g.x && g.type == .global

/-- The checks of R234 on the segment alone: the cause of the first that fails. -/
def Segment.refuses (g : Segment) (o : Word) (n a : Nat) (kind : Kind) : Option (BitVec 8) :=
  if g.type == .null then some Cause.nullSegment
  else if !g.permits kind then some Cause.segmentRights
  else if g.size.toNat < o.toNat + n then some Cause.segmentLimit
  else if (g.base.toNat + o.toNat) % a != 0 then some Cause.misalignedAccess
  else Option.none

/-- The check of an access of `n` bytes at offset `o`, aligned to `a` (R234), with TVAL as R235 states; `tv` is the
value reported by the segment checks. -/
def State.check (s : State) (ag : Agent) (gang : Option Gang) (g : Segment) (o : Word) (n a : Nat) (kind : Kind)
    (tv : Word) : Checked × State :=
  match g.refuses o n a kind with
  | some c => (.fails c tv, s)
  | none =>
    let va := g.base.toNat + o.toNat
    match g.type with
    | .scratch =>
      match allotMiss gang va n with
      | some m => (.fails Cause.segmentLimit (BitVec.ofNat 64 m), s)
      | none => match (if kind = .write then none else gang.bind (·.badAt va n)) with
        | some m => (.fails Cause.machineCheck (BitVec.ofNat 64 m), s)
        | none => (.ok (.pad va), s)
    | .peer => (.ok (.peer g.peer.toNat va), s)
    | _ => s.translate ag va kind

/-- The agent a thread's own accesses are made by. -/
def Thread.agent (t : Thread) : Agent := ⟨t.core, t.ctx, t.part, true⟩

/-- The gang of a thread. -/
def State.gangOf (s : State) (t : Thread) : Option Gang := s.gang? t.gang

/-! ### Atomics (R285, R286) -/

/-- Read some bytes at their home and write what a function gives of them, at once: the old bytes; one request (R280, R435). -/
def State.engineAtomic (s : State) (ctx pa n : Nat) (f : Nat → Option Nat) : List Byte × State :=
  let s := s.eachLine pa n State.settleWrite
  let old := s.bytesAt pa n
  let s := match f (leNat old) with
    | some v => (s.snoop pa n).setBytes pa (leBytes n v)
    | none => s
  (old, s.homeRequest ctx pa 1 true)

/-- The new value of an atomic (R285): operands and result as bits of T. -/
def amoValue (op : AmoOp) (t : Ty) (old v : Nat) : Nat :=
  let w := t.bits
  match op with
  | .add => (old + v) % 2 ^ w
  | .and => old &&& v
  | .or => old ||| v
  | .xor => old ^^^ v
  | .min | .minN => if readInt t old ≤ readInt t v then old else v
  | .max | .maxN => if readInt t v ≤ readInt t old then old else v
  | .swap => v
  | .fadd =>
    let r := addFp t .rne false (readFp t old) (readFp t v)
    r.bits

/-- The value an atomic leaves, for each home operation on the old bits; `none` when it writes nothing (R286). -/
def HomeOp.newBits (op : HomeOp) (old : Nat) : Option Nat :=
  match op with
  | .store _ => none
  | .amo o t v => some (amoValue o t old v)
  | .cas _ exp v => if old == exp then some v else none

/-- Bytes of a home operation. -/
def HomeOp.size : HomeOp → Nat
  | .store bs => bs.length
  | .amo _ t _ => t.bits / 8
  | .cas t _ _ => t.bits / 8

/-- An old value sign- or zero-extended by T, an f32 as R46 has it (R251, R285). -/
def extendBy (t : Ty) (v : Nat) : Word :=
  if t.isInt && t.isSigned then BitVec.ofInt 64 (readInt t v) else BitVec.ofNat 64 (v % 2 ^ t.bits)

end Sys2Proof.Machine
end

