-- ==== Sys2Proof/Machine/Record.lean ====
section
/-!
DEFINITION. What the machine leaves behind it: assay records (R403 to R405), events to functions (R415, R418), counters
and their completion (R294 to R296), and the start of a freeze (R406).
-/
namespace Sys2Proof.Machine
namespace State

/-! ### Assay recorders -/

/-- Put a record in its ring, records of one stamp by rising source (R387, R403). -/
def fileRecord (r : AssayRecord) : List AssayRecord → List AssayRecord
  | [] => [r]
  | x :: xs => if x.stamp == r.stamp && decide (r.source.toNat < x.source.toNat) then r :: x :: xs else x :: fileRecord r xs

/-- A record as its recorder stamps it now (R404). -/
def makeRecord (s : State) (source core tctx : Nat) (kind : BitVec 8) (payload : Nat) : AssayRecord :=
  ⟨s.gtsc.setWidth 48, BitVec.ofNat 16 source, kind, BitVec.ofNat 4 tctx, BitVec.ofNat 4 (s.core core).switchIns,
    BitVec.ofNat 48 payload⟩

/-- The generation count of a core rises: records that carry its new tag are discarded, and the tag names a context and its
partition (R404). -/
def raiseGen (k : Core) (who : Option (Nat × Nat)) : Core :=
  let n := k.switchIns + 1
  let mine (r : AssayRecord) : Bool := r.gen == BitVec.ofNat 4 n
  { k with
    switchIns := n, ring := k.ring.filter fun r => !mine r, kept := k.kept - ((k.ring.take k.kept).filter mine).length
    genTable := match who with
      | some w => Map.put k.genTable (n % 16) w
      | none => Map.del k.genTable (n % 16) }

/-- Write a record of a source in a core's ring (R386, R403, R404): the ring keeps the newest `Config.assayRecords`, and an
overwritten record that no capsule holds is lost; a held recorder counts the event as lost (R407). -/
def assayFrom (s : State) (source core tctx : Nat) (kind : BitVec 8) (payload : Nat) : State :=
  let c := s.core core
  let held := match s.freeze with | some f => f.held.contains core | none => false
  if held then s.putCore core { c with lost := c.lost + 1 }
  else
    let r := s.makeRecord source core tctx kind payload
    if c.ring.length < Config.assayRecords then s.putCore core { c with ring := fileRecord r c.ring }
    else s.putCore core { c with
      ring := fileRecord r (c.ring.drop 1), kept := c.kept - 1, lost := if c.kept = 0 then c.lost + 1 else c.lost }

/-- A record of a core itself. -/
def assay (s : State) (core tctx : Nat) (kind : BitVec 8) (payload : Nat) : State := s.assayFrom core core tctx kind payload

/-- A record about a thread, in its core's recorder. -/
def assayThread (s : State) (t : Thread) (kind : BitVec 8) (payload : Nat) : State :=
  s.assay t.core t.context kind payload

/-- Number of a route in a trap detail record (R405). -/
def routeNumber : Route → Nat
  | .handler => 0 | .service => 1 | .fatal => 2 | .record => 3

/-- The two records of a trap, Service entry or Faulted stop (R405). -/
def assayTrap (s : State) (t : Thread) (c : BitVec 8) (route : Route) (pc v : Word) : State :=
  let s := s.assayThread t 0x40 pc.toNat
  s.assayThread t 0x41 (c.toNat * 2 ^ 40 + routeNumber route * 2 ^ 38 + v.toNat % 2 ^ 38)

/-! ### Events -/

/-- A function, or a fresh one. -/
def fn (s : State) (n : Nat) : Fn := Map.getD s.fns n Fn.fresh
/-- Put a function. -/
def putFn (s : State) (n : Nat) (f : Fn) : State := { s with fns := Map.put s.fns n f }

/-- The eight doubles of an event entry (R418). -/
def eventDoubles (seq : BitVec 32) (lost : Nat) (e : Event) : List Word :=
  [BitVec.ofNat 64 (seq.toNat * 2 ^ 32 + min lost 65535 * 2 ^ 16 + e.type.toNat), e.stamp,
   BitVec.ofNat 64 (e.thread.toNat * 2 ^ 16 + e.entry.toNat), e.detail, e.pc, e.value, 0, 0]

/-- Write doubles at a far address, the host's memory. -/
def putDoubles (s : State) (pa : Nat) : List Word → State
  | [] => s
  | w :: ws => ((s.snoop pa 8).setDouble pa w).putDoubles (pa + 8) ws

/-- The ring of a function is full (R415), or there is none. -/
def ringFull (f : Fn) : Bool :=
  match f.ringLog with
  | none => true
  | some n => decide (2 ^ n ≤ (f.evTail - f.evHead).toNat)

/-- Write held events to the ring while it has room: `fuel` events at most (R415, R418). -/
def flushEvents (s : State) (n : Nat) : Nat → State
  | 0 => s
  | fuel + 1 =>
    let f := s.fn n
    match f.held with
    | [] => s
    | e :: es =>
      if ringFull f then s
      else
        let place := f.ringBase + 64 * (f.evTail.toNat % 2 ^ (f.ringLog.getD 0))
        let s := s.putDoubles (farBase + place) (eventDoubles f.seq f.dropped e)
        flushEvents (s.putFn n { f with held := es, dropped := 0, seq := f.seq + 1, evTail := f.evTail + 1 }) n fuel

/-- Post an event to a function: held in the device, at most 256, then written as the ring has room (R415). -/
def postEvent (s : State) (n : Nat) (e : Event) : State :=
  let f := s.fn n
  let held := f.held ++ [e]
  let f := if 256 < held.length then { f with held := held.drop 1, dropped := f.dropped + 1 } else { f with held := held }
  (s.putFn n f).flushEvents n 257

/-! ### The mailbox ring of a save area (R356) -/

/-- The mailbox ring of a context holds some messages: entry i stands at 16 · i in the 60 KiB after the header of the save area,
its payload, then the numbers of sender and receiver (R356; log entry 20). -/
def putRing (s : State) (ctx : Nat) (ms : List RingMsg) : State :=
  match s.ctx? ctx with
  | none => s
  | some c =>
    let gone := List.replicate (2 * (c.ringMsgs.length - ms.length)) 0
    let ws := ms.flatMap fun m => [m.payload, BitVec.ofNat 64 (m.sender.toNat + 2 ^ 32 * m.receiver)]
    (s.putCtx ctx { c with ringMsgs := ms }).putDoubles (c.savebase + 4096) (ws ++ gone)

/-! ### Counters -/

/-- A counter of a context. -/
def counter (s : State) (ctx n : Nat) : Counter :=
  match s.ctx? ctx with
  | some c => Map.getD c.counters n Counter.fresh
  | none => Counter.fresh

/-- Put a counter of a context. -/
def putCounter (s : State) (ctx n : Nat) (c : Counter) : State :=
  match s.ctx? ctx with
  | some x => s.putCtx ctx { x with counters := Map.put x.counters n c }
  | none => s

/-- The number that names no counter (R295). -/
def noCounter : Nat := 0xFFF

/-- Set ERR in a counter that is not `none` (R294). -/
def setErr (s : State) (ctx n : Nat) : State :=
  if n == noCounter then s else s.putCounter ctx n { s.counter ctx n with err := true }

/-- Add children to a counter, whatever its STATE. -/
def addPending (s : State) (ctx n k : Nat) : State :=
  if n == noCounter then s
  else
    let c := s.counter ctx n
    s.putCounter ctx n { c with pending := c.pending + BitVec.ofNat 32 k }

/-- A child of a counter is complete: PENDING less 1, ERR ORed in (R295). A counter whose PENDING reaches 0 sealed becomes
done at its COUNTER_COMPLETION. -/
def childDone (s : State) (ctx n : Nat) (err : Bool) : State :=
  if n == noCounter then s
  else
    let c := s.counter ctx n
    s.putCounter ctx n { c with pending := c.pending - 1, err := c.err || err }

/-- The counter is open, sealed and has no child left (R295). -/
def counterReady (c : Counter) : Bool := c.state == .opened && c.sealed && c.pending == 0

/-- The layout of R294. -/
def counterWord (c : Counter) : Word :=
  let st : Nat := match c.state with | .free => 0 | .opened => 1 | .done => 2 | .cancelled => 3
  BitVec.ofNat 64 (st * 2 ^ 62 + (if c.sealed then 2 ^ 61 else 0) + (if c.late then 2 ^ 60 else 0)
    + (if c.err then 2 ^ 59 else 0) + c.level.toNat * 2 ^ 56 + c.pending.toNat)

/-! ### Freeze -/

/-- A Machine Check at a source announces a freeze at t0 + 48; one raised while a freeze is in progress only adds a fault
record, and is the freeze's source where it has the same t0 and the lower number (R406, R407). -/
def announceFreeze (s : State) (source : Nat) : State :=
  match s.freeze with
  | some f =>
    let first := s.gtsc == f.t0 && decide (source < f.source)
    { s with freeze := some { f with faults := f.faults ++ [(source, s.gtsc)], source := if first then source else f.source } }
  | none => { s with freeze := some ⟨s.gtsc + 48, source, s.gtsc, [], [(source, s.gtsc)]⟩ }

/-! ### Woene Link (R418, R421) -/

/-- A link-change event to the PF (R418, R422). -/
def linkEvent (s : State) (port : Nat) (up : Bool) : State :=
  s.postEvent 0 ⟨5, s.gtsc, 0, 0, BitVec.ofNat 64 (port + if up then 256 else 0), 0, 0⟩

/-- The port a destination is routed through first. -/
def portOf (s : State) (dev : Nat) : Nat := match Map.get? s.routes dev with
  | some m => ((List.range 36).find? fun i => m.getLsbD i).getD 0
  | none => 0

/-- A peer could not be reached for a read, or for a write: the access is counted, and the PF has a link-change event (R422; log
entry 72). -/
def peerLost (s : State) (dev : Nat) (write : Bool) : State :=
  let s := if write then { s with lostWrites := s.lostWrites + 1 } else { s with lostReads := s.lostReads + 1 }
  s.linkEvent (s.portOf dev) false

end State
end Sys2Proof.Machine
end

