-- ==== Sys2Proof/Machine/Frames.lean ====
section
/-!
DEFINITION. Seam frames in the seam region of a context (R233, R377, R379 to R383).
-/
namespace Sys2Proof.Machine

/-- A double of a segment register in the layout of R233 (R240). -/
def Segment.double (g : Segment) (n : Nat) : Word :=
  match n with
  | 0 => zx g.base
  | 1 => zx g.size
  | 2 =>
    let ty := match g.type with | .null => 0 | .global => 1 | .scratch => 2 | .peer => 3
    BitVec.ofNat 64 (g.peer.toNat * 2 ^ 16 + (if g.r then 128 else 0) + (if g.w then 64 else 0) + (if g.x then 32 else 0)
      + (if g.a then 16 else 0) + ty)
  | _ => 0

/-- Doubles of a value of `64 · n` bits. -/
def doublesFrom {w : Nat} (n : Nat) (v : BitVec w) : List Word := (List.range n).map fun i => v.extractLsb' (64 * i) 64

/-- Doubles in which a frame holds a stream binding: what R225 saves of it. -/
def streamDoubles (w : Option Stream) : List Word :=
  match w with
  | none => List.replicate 9 0
  | some b => [BitVec.ofNat 64 (b.ty.bits * 2 + 1), b.seg.double 0, b.seg.double 1, b.seg.double 2, b.base, b.stride,
      BitVec.ofNat 64 b.count, BitVec.ofNat 64 b.consumed, BitVec.ofNat 64 b.stamp]

/-- Doubles in which a frame holds a loop stack. -/
def loopDoubles (ls : List LoopEntry) : List Word :=
  BitVec.ofNat 64 ls.length :: ls.flatMap fun l => [l.start, l.last, l.count, l.index]

/-- The doubles of a frame from its start: every register R377 names, in a layout of the model's (log entry 87). -/
def SeamFrame.image (f : SeamFrame) : List Word :=
  f.x.toList ++ f.k.toList.flatMap (doublesFrom 8) ++ f.v.toList.flatMap (doublesFrom 64)
    ++ f.g.toList.flatMap (fun g => (List.range 4).map g.double) ++ f.w.toList.flatMap streamDoubles
    ++ [f.tvec, f.tcause, f.tpc, f.tval, BitVec.ofNat 64 f.hnd.toNat, zx f.fflags, zx f.mxstat, zx f.lsel, zx f.lword,
        match f.window with | some w => BitVec.ofNat 64 (w.rows * 2 ^ 16 + w.base) | none => 0,
        f.retPc, BitVec.ofNat 64 f.xres, zx f.vres, zx f.kres]
    ++ loopDoubles f.loops

namespace State

/-- Offset of frame `d` of a thread in the seam region (R377). -/
def seamOffset (s : State) (t : Thread) (d : Nat) : Nat :=
  let quarters := match Map.get? s.parts t.part with | some p => p.quarters | none => []
  let rank := (quarters.filter (· < t.core / 2)).length
  let c := 16 * (t.core % 2) + t.context
  ((rank * 32 + c) * 15 + d - 1) * 16384

/-- Physical address of frame `d` of a thread, when its context has a seam region (R375, R377). -/
def framePa (s : State) (t : Thread) (d : Nat) : Option Nat :=
  ((s.ctx? t.ctx).bind (·.seamRegion)).map (· + s.seamOffset t d)

/-- Write frame `d` of a thread, by its physical address (R377). -/
def writeFrame (s : State) (t : Thread) (d : Nat) (f : SeamFrame) : State :=
  match s.framePa t d with
  | some pa => s.putDoubles pa f.image
  | none => s

/-- Doubles from a physical address. -/
def doublesAt (s : State) (pa n : Nat) : List Word := (List.range n).map fun i => s.doubleAt (pa + 8 * i)

/-- The bytes of a thread's innermost frame are those its seam wrote. -/
def frameHeld (s : State) (t : Thread) (f : SeamFrame) : Bool :=
  match s.framePa t t.frames.length with
  | some pa => s.doublesAt pa f.image.length == f.image
  | none => false

/-- A thread's innermost frame as the seam region holds it: the one its seam wrote, or whatever bytes written there since mean
to the firmware (R377, R381, R383; log entry 87). -/
def readFrame (s : State) (t : Thread) (f : SeamFrame) : SeamFrame :=
  if s.frameHeld t f then f
  else
    let bytes := match s.framePa t t.frames.length with
      | some pa => s.bytesAt pa (8 * f.image.length)
      | none => []
    let g := Config.overwrittenFrame bytes
    { g with loops := g.loops.take Config.loopEntries, felimit := f.felimit, cblimit := f.cblimit, vstart := f.vstart,
             loopRec := f.loopRec, astat := f.astat }

/-- The first poisoned line of a thread's innermost frame (R425). -/
def framePoison (s : State) (t : Thread) : Option Nat := (s.framePa t t.frames.length).bind fun pa => s.poisoned pa 16384

end State
end Sys2Proof.Machine
end

