-- ==== Sys2Proof/Machine/Trap.lean ====
section
/-!
DEFINITION. Instruction fetch, the check of targets, taking a trap, Service and Faulted stops, the return to a seam's
caller, and the runners that turn a meaning into an outcome (R32 to R40, R363 to R370, R377, R382).
-/
namespace Sys2Proof.Machine

/-! ### Fetch -/

/-- What reading a line through g0 finds. -/
inductive Fetched where
  | ok (img : List Byte)
  /-- Wait for a page (R248). -/
  | page (va : Nat)
  /-- The L1 instruction cache does not hold the line (R447). -/
  | line (pa : Nat)
  | fails (c : BitVec 8) (v : Word)
  deriving DecidableEq, Repr

/-- Offset of the line a pc is in. -/
def lineBase (pc : Word) : Word := pc - BitVec.ofNat 64 (pc.toNat % 64)

/-- The number by which an L1 instruction cache knows a place; peers stand above far memory. -/
def Place.codePa : Place → Nat
  | .mem pa _ _ => pa
  | .peer d va => 2 ^ 60 * (d + 1) + va
  | .pad o => o

/-- A line held in a bench's L1 instruction cache (R281). -/
def Bench.il1Find (b : Bench) (ctx pa : Nat) : Option (List Byte) :=
  (b.il1.find? fun l => l.ctx == ctx && l.line == pa).map (·.img)

/-- Record the consumption of poisoned data (R405). -/
def State.poisonRecord (s : State) (t : Thread) (pa : Nat) : State := s.assayThread t 0x24 (pa / 16)

/-- Read the line of `pc` of a thread's code, for the check of a head or, with `transfer`, of a target (R36, R234, R281):
every fault of a target's line has the target as its TVAL; on sequential flow a segment fault has the line's offset, a
page fault the virtual address, a misaligned g0 the pc. -/
def State.fetchLine (s : State) (t : Thread) (pc : Word) (transfer policy : Bool) : Fetched × State :=
  match t.line with
  | some (b, img) => if b = lineBase pc then (.ok img, s) else fetchNew
  | none => fetchNew
where
  /-- A line the thread has not fetched. -/
  fetchNew : Fetched × State :=
    match s.check { t.agent with policy := policy } none (t.getG 0) (lineBase pc) 64 64 .fetch (lineBase pc) with
    | (.fails c v, s) =>
      (.fails c (if transfer || c == Cause.misalignedAccess then pc else v), if c = Cause.machineCheck then s.poisonRecord t v.toNat else s)
    | (.page va, s) => (.page va, s)
    | (.ok p, s) =>
      if p.codePa < 2 ^ 60 ∧ s.sharedFrame p.codePa then
        -- a KIND 3 frame's line is read at its home, and no cache keeps it (R247)
        match s.poisoned p.codePa 64 with
        | some a => (.fails Cause.machineCheck (BitVec.ofNat 64 a), s.poisonRecord t a)
        | none => (.ok (s.bytesAt p.codePa 64), (s.homeRequest t.ctx p.codePa 1 false))
      else
        match (s.bench t.bench).il1Find t.ctx p.codePa with
        | some img => (.ok img, s)
        | none => (.line p.codePa, s)

/-- A 64-byte line as its home gives it; a peer's bytes are free values (log entry 7). -/
def State.homeLine (s : State) (pa : Nat) : List Byte × State :=
  if pa < 2 ^ 60 then (s.bytesAt pa 64, s)
  else ((List.range 64).map (Config.peerByte s.frees), { s with frees := s.frees + 1 })

/-- Fill a line into a core's quarter of its bench's L1 instruction cache from its home: 64 KiB, 1,024 lines, of which one
gives way when they are full (R20, R281, R342; log entry 19). -/
def State.fillLine (s : State) (core ctx pa : Nat) : State :=
  let r := s.homeLine pa
  let s := r.2.homeRequest ctx pa 1 false
  let b := s.bench (core / 8)
  let rest := b.il1.filter fun l => !(l.ctx == ctx && l.line == pa)
  let (v, s) := s.pickVictim (rest.filter (·.quarter == wayQuarter core)) 1024
  s.putBench (core / 8) { b with il1 := ⟨wayQuarter core, ctx, pa, r.1⟩ :: rest.filter fun l => some l != v }

/-- R38 for a target: its line's header is read as a fetch; a failure or a wait is the transferring instruction's. -/
def targetM (t : Thread) (target : Word) : M Unit := fun s =>
  match s.fetchLine t target true true with
  | (.ok img, s) => if isHead img target then .ok ((), s) else .error (.trap s Cause.misalignedTarget target none)
  | (.page va, s) => .error (.wait s .page 0 (.pages [va]))
  | (.line pa, s) => .error (.wait s .load 0 (.line pa))
  | (.fails c v, s) => .error (.trap s c v none)

/-! ### Waits -/

/-- The page a wait asks for. -/
def Asked.page? : Asked → Option Nat
  | .pages (va :: _) | .handler _ (va :: _) => some va
  | _ => Option.none

/-- A wait for a page begins: it is recorded, and a write's wait for the end of a migration is counted (R395, R405). -/
def State.pageWait (s : State) (t : Thread) (i : Instr) (va : Nat) : State :=
  let s := s.assayThread t 0x21 (va / 128)
  let claims := match i with
    | .track .. => true
    | _ => false
  match walk s t.ctx va with
  | .leaf e _ _ => if s.writeHeld t.ctx va e && !claims then s.count 6 (s.ladleDie t.ctx va) (some t.ctx) 0x64 1 else s
  | _ => s

/-- Begin or go on with a wait. -/
def State.startWait (s : State) (key : Nat) (i : Instr) (r : Reason) (limit : Nat) (asked : Asked) : State :=
  let s := match asked.page?, s.thread? key with
    | some va, some t =>
      if (match t.waitOf with | some (w : Wait) => w.reason == Reason.page | none => false) then s else s.pageWait t i va
    | _, _ => s
  s.beginWait key i r limit asked

/-! ### Stops of a thread -/

namespace State

/-- A launch of a context. -/
def launch? (s : State) (ctx n : Nat) : Option Launch := match s.ctx? ctx with
  | some c => Map.get? c.launches n
  | none => none

/-- Put a launch of a context. -/
def putLaunch (s : State) (ctx n : Nat) (l : Launch) : State := match s.ctx? ctx with
  | some c => s.putCtx ctx { c with launches := Map.put c.launches n l }
  | none => s

/-- ERR of the launch a thread belongs to, and of its counter (R294, R363). -/
def threadErr (s : State) (t : Thread) : State :=
  match s.gangOf t with
  | some g =>
    match s.launch? t.ctx g.launchSeq with
    | some l => (s.putLaunch t.ctx g.launchSeq { l with err := true }).setErr t.ctx l.record.own
    | none => s
  | none => s

/-- Stop a thread Faulted with a cause at a pc, with its trap record (R87, R363, R368). -/
def faultThread (s : State) (t : Thread) (c : BitVec 8) (v pc : Word) : State :=
  ((s.putThread { t with status := .faulted c, pc := pc }).threadErr t).assayTrap t c .fatal pc v

/-- Streams restored by a seam return resume at their consumed index (R381). -/
def rewound (w : Option Stream) : Option Stream := w.map fun b => { b with requested := b.consumed, arrived := [] }

/-- The thread with a frame restored whole (R381, R382): everything the frame holds, one level up, and what the callee was not
to see (R380). -/
def restored (t : Thread) (f : SeamFrame) (rest : List SeamFrame) : Thread :=
  { t with
    x := f.x, k := f.k, v := f.v, g := f.g, w := f.w.map rewound, tvec := f.tvec, tcause := f.tcause, tpc := f.tpc,
    tval := f.tval, hnd := f.hnd, fflags := f.fflags, mxstat := f.mxstat, loops := f.loops, lsel := f.lsel,
    lword := f.lword, window := f.window, frames := rest, pc := f.retPc, line := none, replay := none,
    felimit := f.felimit, cblimit := f.cblimit, vstart := f.vstart, loopRec := f.loopRec, astat := f.astat }

/-- Discard a thread's anvil operations issued at a seam depth or deeper: what they have added stays (R197, R382). -/
def dropAnvil (s : State) (t : Thread) (seam : Nat) : State :=
  let b := s.bench t.bench
  s.putBench t.bench { b with anvil := b.anvil.filter fun o => !(o.key == t.key && decide (seam ≤ o.seam)) }

/-- The anvil operations among what a thread's replay record has set aside are discarded with it (R366). -/
def dropReplay (s : State) (t : Thread) : State :=
  let es := match t.replay with | some r => r.entries | none => []
  let mine (o : AnvilOp) : Bool := o.key == t.key && es.any fun e => o.entry == some e.num
  let b := s.bench t.bench
  if b.anvil.any mine then s.putBench t.bench { b with anvil := b.anvil.filter fun o => !mine o } else s

/-- SRSEED of a thread whose sequencer is discarded: the draws of groups that have not been delivered are undone (R69). -/
def undrawn (t : Thread) : BitVec 32 := ((t.seq.flatMap (·.rows)).findSome? (·.draws)).getD t.srseed

/-- Unwind the innermost seam of a thread with the callee's cause (R382); a poisoned frame stops it (R425). -/
def unwind (s : State) (t : Thread) (c : BitVec 8) : State :=
  match t.frames with
  | [] => s
  | f :: rest =>
   match s.framePoison t with
   | some a => (s.faultThread t Cause.machineCheck (BitVec.ofNat 64 a) t.tpc).announceFreeze t.core
   | none =>
    let f := s.readFrame t f
    let s := ((s.dropAnvil t t.depth).dropReplay t).streamsGone t
    let t' := restored { t with srseed := undrawn t, seq := [], vloop := none, pass := none, deferred := none } f rest
    let t' := { t'.setX 1 (BitVec.ofNat 64 (2 ^ 63 + c.toNat * 256 + 0x28)) with status := .runnable }
    (s.putThread t').assayThread t' 0x52 (c.toNat * 256 + t'.depth)

/-- A trap that no handler takes: Faulted at seam depth 0, else an unwind (R363, R364). -/
def undeliverable (s : State) (t : Thread) (c : BitVec 8) (pc : Word) : State :=
  if t.depth = 0 then s.faultThread t c t.tval pc else s.unwind t c

/-- The second half of trap entry, once TCAUSE, TPC and TVAL are written: the header of TVEC's line is read as a fetch,
waited for whatever NPTRAP holds; any fault of it makes the trap undeliverable (R364, R365). READYAT holds the entry cycle:
the handler's first head is eligible 8 core cycles after it. -/
def enterHandler (s : State) (t : Thread) : State :=
  let c : BitVec 8 := t.tcause.setWidth 8
  if t.hnd then s.undeliverable t c t.tpc
  else
    match s.fetchLine t t.tvec true false with
    | (.ok img, s) =>
      if isHead img t.tvec then
        (s.putThread { t with hnd := true, pc := t.tvec, status := .runnable, readyAt := t.readyAt + 8 }).assayTrap t c .handler
          t.tpc t.tval
      else s.undeliverable t c t.tpc
    | (.fails _ _, s) => s.undeliverable t c t.tpc
    | (.page va, s) => (s.putThread t).startWait t.key .deferredTrapEntry .page 0 (.handler none [va])
    | (.line pa, s) => (s.putThread t).beginWait t.key .deferredTrapEntry .load 0 (.handler (some pa) [])

/-- TCAUSE of a cause and the element it names (R128). -/
def causeWord (c : BitVec 8) (elem : Option Nat) : Word :=
  match elem with
  | none => zx c
  | some e => BitVec.ofNat 64 (2 ^ 18 + e % 512 * 2 ^ 9 + c.toNat)

/-- Trap entry (R364). -/
def trapEntry (s : State) (t : Thread) (c : BitVec 8) (v pc : Word) (elem : Option Nat) : State :=
  s.enterHandler { t.resumed.boundary with tcause := causeWord c elem, tpc := pc, tval := v }

/-- Function that owns a context. -/
def ctxFn (s : State) (n : Nat) : Nat := match s.ctx? n with
  | some c => c.fn
  | none => 0

/-- Raise a cause in a thread, along the route of its cause (R363, R368). -/
def raise (s : State) (key : Nat) (c : BitVec 8) (v pc : Word) (elem : Option Nat) : State :=
  match s.thread? key with
  | none => s
  | some t =>
    match routeOf c with
    | .handler => s.trapEntry t c v pc elem
    | .service =>
      ((s.assayTrap t c .service pc v).putThread { t with status := .service ⟨c, pc, v, elem.map (BitVec.ofNat 9)⟩ }).postEvent (s.ctxFn t.ctx)
        ⟨1, s.gtsc, t.tid, BitVec.ofNat 11 t.ctx, zx c, pc, v⟩
    | .fatal =>
      let s := s.faultThread t c v pc
      if c = Cause.machineCheck then s.announceFreeze t.core else s
    | .record => s.assayTrap t c .record pc v

/-- Raise a cause in the instruction a thread executes or waits in, the entry cycle being the latest its core has issued in
(R364): a trap deferred from an earlier one comes first, and the instruction is executed anew after it (R366, R369). -/
def raiseHere (s : State) (key : Nat) (c : BitVec 8) (v pc : Word) (elem : Option Nat) : State :=
  match s.thread? key with
  | none => s
  | some t =>
    if t.deferred.isSome then s.putThread { t with status := .runnable }
    else (s.putThread { t with readyAt := (s.core t.core).cycle - 1 }).raise key c v pc elem

/-- A fault reaches a thread that waits: one of the header of TVEC's line makes the trap undeliverable with its own cause
(R364), any other is a cause of the instruction the thread waits in. -/
def raiseWaiting (s : State) (t : Thread) (c : BitVec 8) (v : Word) : State := match t.asked with
  | .handler .. => s.undeliverable t (t.tcause.setWidth 8) t.tpc
  | _ => s.raiseHere t.key c v t.pc none

end State

/-- A thread whose stay in Service ends reissues the instruction of its event, which what a replay record holds follows (R87, R366,
R367). -/
def Thread.reissued (t : Thread) (f : Service) : Thread :=
  let replay := t.replay.map fun r => if r.pc == f.pc then { r with active := true } else r
  { t with status := .runnable, pc := f.pc, line := none, replay := replay }

/-! ### Runners -/

/-- What becomes of a meaning's run in a thread. -/
def settleRun (i : Instr) (key : Nat) (pc : Word) (r : Except Stop (Ending × State)) : Result :=
  match r with
  | .ok (.seq, s) => .next (s.onThread key Thread.completed)
  | .ok (.jump target, s) => .next (s.onThread key fun t => t.jumped target)
  | .ok (.stay, s) => .next s
  | .error (.trap s c v e) => .next (s.raiseHere key c v pc e)
  | .error (.wait s r l a) => .next (s.startWait key i r l a)

/-- Run the meaning of an encoded instruction in the executing thread. -/
def runThread (i : Instr) (s : State) (body : Thread → M Ending) : Result :=
  match s.curThread with
  | some t => settleRun i t.key t.pc (body t s)
  | none => .fault .noThread

end Sys2Proof.Machine
end

