-- ==== Sys2Proof/Machine/Operands.lean ====
section
/-!
DEFINITION. Operand forms: memory operands, branch targets, elements of vector registers, second sources, lengths and
guards, and what kinds of effect an instruction in the sequencer still owes (R43, R46, R54, R58, R75, R130, R151).
-/
namespace Sys2Proof.Machine

/-! ### Scalar operands -/

/-- Offset of a memory operand: x(XB) + DISP (R250). -/
def Thread.offset (t : Thread) (m : MAddr) : Word := t.getX m.xb + sx m.disp

/-- Target of a PC-relative transfer (R39, R102). -/
def Thread.rel (t : Thread) (off : BitVec 22) : Word := t.pc + sx off

/-- Bits of a scalar source of a type (R46, R121). -/
def Thread.low (t : Thread) (i : XReg) (ty : Ty) : Nat := (t.getX i).toNat % 2 ^ ty.bits

/-- Write a result of a type to an x register: integers extended by their type, others zero-extended (R46, R121). -/
def Thread.setTy (t : Thread) (i : XReg) (ty : Ty) (b : Nat) : Thread := t.setX i (extendBy ty b)

/-! ### Vector operands -/

/-- Bits 8·s·e of an element of a vector register; fp4 elements are packed two to a byte (R46, R58). -/
def velem (d : VData) (ty : Ty) (e : Nat) : Nat := (d.extractLsb' (e * ty.bits) ty.bits).toNat

/-- A vector register with some bits replaced: `w` bits from bit `off`. -/
def vput (d : VData) (off w v : Nat) : VData :=
  let mask : VData := BitVec.ofNat 4096 (2 ^ w - 1) <<< off
  (d &&& ~~~mask) ||| ((BitVec.ofNat 4096 (v % 2 ^ w)) <<< off)

/-- A vector register with the bits of a write. -/
def VWrite.on (w : VWrite) (d : VData) : VData := vput d w.off w.width w.val

/-- A thread as an entry of its sequencer reads it: with what the entry's own results have overwritten (R143). -/
def Thread.asRead (t : Thread) (e : SeqEntry) : Thread := e.kept.foldr (fun w t => t.setV w.reg (w.on (t.getV w.reg))) t

/-- Write an element. -/
def setElem (d : VData) (ty : Ty) (e v : Nat) : VData := vput d (e * ty.bits) ty.bits v

/-- A k register with some bits replaced: `w` bits from bit `off`. -/
def kput (d : KData) (off w v : Nat) : KData :=
  let mask : KData := BitVec.ofNat 512 (2 ^ w - 1) <<< off
  (d &&& ~~~mask) ||| ((BitVec.ofNat 512 (v % 2 ^ w)) <<< off)

/-- vlen of a value and a type (R54). -/
def vlenOf (x : Word) (ty : Ty) : Nat := min x.toNat ty.vlmax

/-- Elements per group (R133): 128 bytes of the index space. -/
def groupElems (ty : Ty) : Nat := ty.vlmax / 4

/-- Number of groups of an instruction (R133). -/
def groupsOf (ty : Ty) (vl : Nat) : Nat := (vl + groupElems ty - 1) / groupElems ty

/-- The vector instructions that can set a flag of FFLAGS (R74, R75). -/
def flagging : Instr → Bool
  | .vadd o | .vsub o | .vmul o => o.t.isVecFloat
  | .vmin o | .vmax o => o.t.isVecFloat
  | .vmad o | .vmsb o => o.t.isVecFloat
  | .vcmp _ _ _ _ t _ => t.isVecFloat
  | .vred _ _ _ t _ _ _ | .vscan _ _ _ t _ _ _ => t.isVecFloat
  | .vcvt o | .vpack o | .vunpack o => !(o.t.isVecInt && o.s.isVecInt)
  | .vquant .. | .vdequant .. | .vhad .. | .vhadPass .. => true
  | .vsfuRcp _ | .vsfuRsq _ | .vsfuSqrt _ | .vsfuExp2 _ | .vsfuLog2 _ | .vsfuSin _ | .vsfuCos _ | .vsfuTanh _
  | .vsfuSigmoid _ | .vsfuGelu _ | .vsfuSilu _ => true
  | .vmm8 .. => true
  | _ => false

/-- The vector instructions that can set a bit of MXSTAT (R168). -/
def scaleFlagging : Instr → Bool
  | .vquant .. => true
  | _ => false

/-- The mode of a conversion between two types, none where each active element draws (R66, R69): to ds8 no code draws, since
its rounding is one whatever FRM holds (R63; log entry 82). -/
def drawMode (dst src : Ty) (rc : RC) (rm : BitVec 3) : Option RMode :=
  if dst == .ds8 then some .rne else staticMode rc rm (dst.narrowing src)

/-- The vector instructions that make stochastic draws, by their code and the RM captured (R69). -/
def drawing (i : Instr) (rm : BitVec 3) : Bool :=
  match i with
  | .vcvt o | .vpack o => (drawMode o.t o.s o.rc rm).isNone
  | .vquant _ _ _ t s _ rc _ => (drawMode t s rc rm).isNone
  | _ => false

/-- Every instruction the thread's sequencer still holds, the members of a `vloop` included. -/
def Thread.held (t : Thread) : List SeqEntry :=
  match t.vloop with
  | some l => t.seq ++ l.members
  | none => t.seq

/-- An accepted instruction may still set FFLAGS (R75). -/
def Thread.owesFlags (t : Thread) : Bool := t.held.any fun e => flagging e.instr
/-- An accepted instruction may still set MXSTAT (R75). -/
def Thread.owesScaleFlags (t : Thread) : Bool := t.held.any fun e => scaleFlagging e.instr
/-- An accepted instruction may still draw (R130). -/
def Thread.owesDraws (t : Thread) : Bool := t.held.any fun e => drawing e.instr e.rm
/-- The thread's sequencer is empty (R130, R379). -/
def Thread.seqEmpty (t : Thread) : Bool := t.held.isEmpty

/-- Wait with reason sequencer unless a condition of the sequencer holds. -/
def untilSeq (ok : Bool) : M Unit := if ok then pure () else waitM .sequencer

end Sys2Proof.Machine
end

