-- ==== Sys2Proof/Machine/ScalarInt.lean ====
section
/-!
DEFINITION. Scalar integer instructions, MAJ 0x01 to 0x07 (R107 to R115).
-/
namespace Sys2Proof.Machine

/-- A truth value as 1 or 0. -/
def bool01 (b : Bool) : Word := if b then 1 else 0

/-- Signed order. -/
def sLess (a b : Word) : Bool := a.slt b
/-- Unsigned order. -/
def uLess (a b : Word) : Bool := a.ult b

/-- A three-register instruction: D from x(S1) and x(S2) (R110). -/
def alu (d a b : XReg) (f : Word → Word → Word) (s : State) : Result :=
  simple s fun t => t.setX d (f (t.getX a) (t.getX b))

/-- An instruction with an immediate: D from x(S1) and the immediate (R115). -/
def aluImm (d a : XReg) (imm : Word) (f : Word → Word → Word) (s : State) : Result :=
  simple s fun t => t.setX d (f (t.getX a) imm)

/-- `li` (R109). -/
def execLi (d : XReg) (imm : BitVec 48) (s : State) : Result := simple s fun t => t.setX d (sx imm)
/-- `li.n` (R109). -/
def execLiN (d : XReg) (imm : BitVec 48) (s : State) : Result := simple s fun t => t.setX d (zx imm)

/-- `add` (R110). -/
def execAdd (d a b : XReg) (s : State) : Result := alu d a b (fun a b => a + b) s
/-- `sub` (R110). -/
def execSub (d a b : XReg) (s : State) : Result := alu d a b (fun a b => a - b) s
/-- `and` (R110). -/
def execAnd (d a b : XReg) (s : State) : Result := alu d a b (fun a b => a &&& b) s
/-- `or` (R110). -/
def execOr (d a b : XReg) (s : State) : Result := alu d a b (fun a b => a ||| b) s
/-- `xor` (R110). -/
def execXor (d a b : XReg) (s : State) : Result := alu d a b (fun a b => a ^^^ b) s

/-- a · 2^b by the whole unsigned amount (R110, R111). -/
def shlWord (a b : Word) : Word := if 64 ≤ b.toNat then 0 else a <<< b.toNat
/-- floor(a / 2^b), a unsigned (R110, R111). -/
def shrWord (a b : Word) : Word := if 64 ≤ b.toNat then 0 else a >>> b.toNat
/-- floor(a / 2^b), a signed (R110, R111). -/
def sraWord (a b : Word) : Word := if 64 ≤ b.toNat then (if a.msb then -1 else 0) else a.sshiftRight b.toNat

/-- `shl` (R110). -/
def execShl (d a b : XReg) (s : State) : Result := alu d a b shlWord s
/-- `shr` (R110). -/
def execShr (d a b : XReg) (s : State) : Result := alu d a b shrWord s
/-- `sra` (R110). -/
def execSra (d a b : XReg) (s : State) : Result := alu d a b sraWord s
/-- `slt` (R110). -/
def execSlt (d a b : XReg) (s : State) : Result := alu d a b (fun a b => bool01 (sLess a b)) s
/-- `slt.n` (R110). -/
def execSltN (d a b : XReg) (s : State) : Result := alu d a b (fun a b => bool01 (uLess a b)) s
/-- `min` (R110). -/
def execMin (d a b : XReg) (s : State) : Result := alu d a b (fun a b => if sLess b a then b else a) s
/-- `min.n` (R110). -/
def execMinN (d a b : XReg) (s : State) : Result := alu d a b (fun a b => if uLess b a then b else a) s
/-- `max` (R110). -/
def execMax (d a b : XReg) (s : State) : Result := alu d a b (fun a b => if sLess a b then b else a) s
/-- `max.n` (R110). -/
def execMaxN (d a b : XReg) (s : State) : Result := alu d a b (fun a b => if uLess a b then b else a) s
/-- `mov` (R110). -/
def execMov (d a : XReg) (s : State) : Result := simple s fun t => t.setX d (t.getX a)
/-- `mul` (R110). -/
def execMul (d a b : XReg) (s : State) : Result := alu d a b (fun a b => a * b) s

/-- floor of the signed product over 2^64 (R110). -/
def mulhWord (a b : Word) : Word := BitVec.ofInt 64 (a.toInt * b.toInt / 2 ^ 64)
/-- floor of the unsigned product over 2^64 (R110). -/
def mulhuWord (a b : Word) : Word := BitVec.ofNat 64 (a.toNat * b.toNat / 2 ^ 64)

/-- `mulh` (R110). -/
def execMulh (d a b : XReg) (s : State) : Result := alu d a b mulhWord s
/-- `mulh.n` (R110). -/
def execMulhN (d a b : XReg) (s : State) : Result := alu d a b mulhuWord s

/-- Signed quotient toward zero, all ones for a zero divisor (R112). -/
def divWord (a b : Word) : Word := if b = 0 then -1 else BitVec.ofInt 64 (a.toInt.tdiv b.toInt)
/-- Unsigned quotient, all ones for a zero divisor (R112). -/
def divuWord (a b : Word) : Word := if b = 0 then -1 else BitVec.ofNat 64 (a.toNat / b.toNat)
/-- Signed remainder with the dividend's sign, the dividend for a zero divisor (R112). -/
def remWord (a b : Word) : Word := if b = 0 then a else BitVec.ofInt 64 (a.toInt.tmod b.toInt)
/-- Unsigned remainder, the dividend for a zero divisor (R112). -/
def remuWord (a b : Word) : Word := if b = 0 then a else BitVec.ofNat 64 (a.toNat % b.toNat)

/-- `div` (R112). -/
def execDiv (d a b : XReg) (s : State) : Result := alu d a b divWord s
/-- `div.n` (R112). -/
def execDivN (d a b : XReg) (s : State) : Result := alu d a b divuWord s
/-- `rem` (R112). -/
def execRem (d a b : XReg) (s : State) : Result := alu d a b remWord s
/-- `rem.n` (R112). -/
def execRemN (d a b : XReg) (s : State) : Result := alu d a b remuWord s

/-- Leading zero bits of the low `n` bits. -/
def leadingZeros (a : Word) : Nat → Nat
  | 0 => 0
  | n + 1 => if a.getLsbD n then 0 else leadingZeros a n + 1

/-- Trailing zero bits from bit `64 - n`. -/
def trailingZeros (a : Word) : Nat → Nat
  | 0 => 0
  | n + 1 => if a.getLsbD (63 - n) then 0 else trailingZeros a n + 1

/-- One bits among the low `n`. -/
def oneBits (a : Nat) : Nat → Nat
  | 0 => 0
  | n + 1 => oneBits a n + (if a.testBit n then 1 else 0)

/-- Bit i of the result is bit 63 − i of a (R110). -/
def reverseBits (a : Word) : Nat → Nat
  | 0 => 0
  | n + 1 => reverseBits a n * 2 + (if a.getLsbD n then 1 else 0)

/-- `clz` (R110). -/
def execClz (d a : XReg) (s : State) : Result := simple s fun t => t.setX d (BitVec.ofNat 64 (leadingZeros (t.getX a) 64))
/-- `ctz` (R110). -/
def execCtz (d a : XReg) (s : State) : Result := simple s fun t => t.setX d (BitVec.ofNat 64 (trailingZeros (t.getX a) 64))
/-- `popc` (R110). -/
def execPopc (d a : XReg) (s : State) : Result := simple s fun t => t.setX d (BitVec.ofNat 64 (oneBits (t.getX a).toNat 64))
/-- `brev` (R110). -/
def execBrev (d a : XReg) (s : State) : Result := simple s fun t => t.setX d (BitVec.ofNat 64 (reverseBits (t.getX a) 64))

/-- `sel` (R113). -/
def execSel (d p q u : XReg) (s : State) : Result :=
  simple s fun t => t.setX d (if t.getX p ≠ 0 then t.getX q else t.getX u)

/-- The field of `width` bits from bit `lsb` (R114). -/
def fieldOf (a : Word) (lsb width : Nat) : Nat := a.toNat / 2 ^ lsb % 2 ^ width

/-- sext(v, n) of a number below 2^n (R54). -/
def sextNat (v n : Nat) : Int := if 2 ^ (n - 1) ≤ v then (v : Int) - ((2 ^ n : Nat) : Int) else v

/-- `bfx` (R114). -/
def execBfx (d p : XReg) (lsb wm1 : BitVec 6) (s : State) : Result :=
  simple s fun t =>
    t.setX d (BitVec.ofInt 64 (sextNat (fieldOf (t.getX p) lsb.toNat (wm1.toNat + 1)) (wm1.toNat + 1)))
/-- `bfx.n` (R114). -/
def execBfxN (d p : XReg) (lsb wm1 : BitVec 6) (s : State) : Result :=
  simple s fun t => t.setX d (BitVec.ofNat 64 (fieldOf (t.getX p) lsb.toNat (wm1.toNat + 1)))

/-- The bits of a field (R114). -/
def fieldMask (lsb width : Nat) : Word := BitVec.ofNat 64 ((2 ^ width - 1) * 2 ^ lsb)

/-- `bfi` (R114): the destination is a source. -/
def execBfi (d p : XReg) (lsb wm1 : BitVec 6) (s : State) : Result :=
  simple s fun t =>
    let n := wm1.toNat + 1
    t.setX d ((t.getX d &&& ~~~(fieldMask lsb.toNat n))
      ||| BitVec.ofNat 64 ((t.getX p).toNat % 2 ^ n * 2 ^ lsb.toNat))

/-- `addi` (R115). -/
def execAddi (d a : XReg) (imm : BitVec 22) (s : State) : Result := aluImm d a (sx imm) (fun a b => a + b) s
/-- `andi` (R115). -/
def execAndi (d a : XReg) (imm : BitVec 22) (s : State) : Result := aluImm d a (sx imm) (fun a b => a &&& b) s
/-- `ori` (R115). -/
def execOri (d a : XReg) (imm : BitVec 22) (s : State) : Result := aluImm d a (sx imm) (fun a b => a ||| b) s
/-- `xori` (R115). -/
def execXori (d a : XReg) (imm : BitVec 22) (s : State) : Result := aluImm d a (sx imm) (fun a b => a ^^^ b) s
/-- `shli` (R115). -/
def execShli (d a : XReg) (sh : BitVec 6) (s : State) : Result := aluImm d a (zx sh) shlWord s
/-- `shri` (R115). -/
def execShri (d a : XReg) (sh : BitVec 6) (s : State) : Result := aluImm d a (zx sh) shrWord s
/-- `srai` (R115). -/
def execSrai (d a : XReg) (sh : BitVec 6) (s : State) : Result := aluImm d a (zx sh) sraWord s
/-- `slti` (R115). -/
def execSlti (d a : XReg) (imm : BitVec 22) (s : State) : Result := aluImm d a (sx imm) (fun a b => bool01 (sLess a b)) s
/-- `slti.n` (R115). -/
def execSltiN (d a : XReg) (imm : BitVec 22) (s : State) : Result :=
  aluImm d a (sx imm) (fun a b => bool01 (uLess a b)) s

end Sys2Proof.Machine
end

