-- ==== Sys2Proof/Machine/Control.lean ====
section
/-!
DEFINITION. Control transfer, hardware loops and control registers, MAJ 0x14 to 0x1C (R102 to R106, R122 to R131).
-/
namespace Sys2Proof.Machine

/-! ### Transfers -/

/-- A taken transfer: the target is checked, then the link is written (R102). -/
def transfer (t : Thread) (target : Word) (link : XReg) : M Ending := do
  targetM t target
  putM (t.setX link t.next)
  return .jump target

/-- `jmp` (R102). -/
def execJmp (off : BitVec 22) (s : State) : Result :=
  runThread (.jmp off) s fun t => transfer t (t.rel off) 0
/-- `jal` (R102). -/
def execJal (link : XReg) (off : BitVec 22) (s : State) : Result :=
  runThread (.jal link off) s fun t => transfer t (t.rel off) link
/-- `jalr` (R102). -/
def execJalr (d a : XReg) (imm : BitVec 22) (s : State) : Result :=
  runThread (.jalr d a imm) s fun t => transfer t (t.getX a + sx imm) d

/-- A conditional branch (R102): taken, a transfer; not taken, an ordinary completion. -/
def branch (i : Instr) (a b : XReg) (off : BitVec 22) (cond : Word → Word → Bool) (s : State) : Result :=
  runThread i s fun t => if cond (t.getX a) (t.getX b) then transfer t (t.rel off) 0 else return .seq

/-- `beq` (R102). -/
def execBeq (a b : XReg) (off : BitVec 22) (s : State) : Result := branch (.beq a b off) a b off (fun a b => a == b) s
/-- `bne` (R102). -/
def execBne (a b : XReg) (off : BitVec 22) (s : State) : Result := branch (.bne a b off) a b off (fun a b => a != b) s
/-- `blt` (R102). -/
def execBlt (a b : XReg) (off : BitVec 22) (s : State) : Result := branch (.blt a b off) a b off sLess s
/-- `blt.n` (R102). -/
def execBltN (a b : XReg) (off : BitVec 22) (s : State) : Result := branch (.bltN a b off) a b off uLess s
/-- `bge` (R102). -/
def execBge (a b : XReg) (off : BitVec 22) (s : State) : Result :=
  branch (.bge a b off) a b off (fun a b => !sLess a b) s
/-- `bge.n` (R102). -/
def execBgeN (a b : XReg) (off : BitVec 22) (s : State) : Result :=
  branch (.bgeN a b off) a b off (fun a b => !uLess a b) s

/-! ### Hardware loops -/

/-- The sequential successor of a head of any line of the thread's code: the line's head count is read as R38 reads it
(R37, R104, R106). A fault of that read has in TVAL the pc whose line is read, that of TPC or END, since the target is not yet known:
the model's choice (log entry 107). -/
def nextM (t : Thread) (pc : Word) : M Word := fun s =>
  match s.fetchLine t pc true true with
  | (.ok img, s) => .ok (nextPc (lineH img) pc, s)
  | (.page va, s) => .error (.wait s .page 0 (.pages [va]))
  | (.line pa, s) => .error (.wait s .load 0 (.line pa))
  | (.fails c v, s) => .error (.trap s c v none)

/-- `loop` and `loopi` with a count (R104). -/
def pushLoop (i : Instr) (t : Thread) (n : Word) (off : BitVec 22) : M Ending := do
  let start := t.next
  let last := t.rel off
  targetM t start
  targetM t last
  if n = 0 then transfer t (← nextM t last) 0
  else if Config.loopEntries ≤ t.loops.length then trapM Cause.illegal (instrTval i)
  else
    -- the loop step that follows finds END of the new entry elsewhere, so the pc becomes START (R104)
    putM { t with loops := ⟨start, last, n, 0⟩ :: t.loops }
    return .seq

/-- `loop` (R104). -/
def execLoop (count : XReg) (off : BitVec 22) (s : State) : Result :=
  runThread (.loop count off) s fun t => pushLoop (.loop count off) t (t.getX count) off
/-- `loopi` (R104). -/
def execLoopi (count : BitVec 26) (off : BitVec 22) (s : State) : Result :=
  runThread (.loopi count off) s fun t => pushLoop (.loopi count off) t (zx count) off

/-- `lbrk` (R106). -/
def execLbrk (s : State) : Result :=
  runThread .lbrk s fun t =>
    match t.loops with
    | [] => trapM Cause.illegal (instrTval .lbrk)
    | e :: es => do
      let target ← nextM t e.last
      targetM t target
      putM { t with loops := es }
      return .jump target

/-! ### Control registers -/

/-- CLAIM layout (R124). -/
def claimWord (r : Rows) : Word :=
  BitVec.ofNat 64 (r.sfu * 2 ^ 16 + r.perm * 2 ^ 12 + r.st * 2 ^ 8 + r.ld * 2 ^ 4 + r.mad)

/-- Entry of the loop stack SEL names (R126). -/
def Thread.selected (t : Thread) : Option LoopEntry := t.loops[t.lsel.toNat]?

/-- A word of a loop entry (R126): 0 START, 1 END, 2 COUNT, 3 INDEX. -/
def LoopEntry.word (e : LoopEntry) (w : BitVec 2) : Word :=
  match w.toNat with
  | 0 => e.start
  | 1 => e.last
  | 2 => e.count
  | _ => e.index

/-- A loop entry with a word written. -/
def LoopEntry.setWord (e : LoopEntry) (w : BitVec 2) (v : Word) : LoopEntry :=
  match w.toNat with
  | 0 => { e with start := v }
  | 1 => { e with last := v }
  | 2 => { e with count := v }
  | _ => { e with index := v }

/-- LDEPTH layout (R126). -/
def Thread.ldepth (t : Thread) : Word :=
  BitVec.ofNat 64 (t.lword.toNat * 2 ^ 16 + t.lsel.toNat * 2 ^ 8 + t.loops.length)

/-- An entry exposed by raising DEPTH (R126). -/
def LoopEntry.zero : LoopEntry := ⟨0, 0, 0, 0⟩

/-- The loop stack with another depth (R126): the top is the head of the list. -/
def resize (n : Nat) (l : List LoopEntry) : List LoopEntry :=
  if n ≤ l.length then l.drop (l.length - n) else List.replicate (n - l.length) LoopEntry.zero ++ l

/-- Value of a control register (R122). -/
def State.readCr (s : State) (t : Thread) (r : CReg) : Word :=
  match r with
  | .vstart => zx t.vstart
  | .tid => zx t.tid
  | .gang => BitVec.ofNat 64 (t.gangSize.toNat * 2 ^ 32 + t.gangIndex.toNat)
  | .launch => zx t.launch
  | .ctx => BitVec.ofNat 64 (t.fn * 2 ^ 16 + t.ctx)
  | .part => BitVec.ofNat 64 t.part
  | .claim => claimWord (s.core t.core).grants
  | .frm => BitVec.ofNat 64 ((if t.fz then 8 else 0) + t.rm.toNat)
  | .fflags => zx t.fflags
  | .mxstat => zx t.mxstat
  | .srseed => zx t.srseed
  | .lstack => match t.selected with
    | some e => e.word t.lword
    | none => 0
  | .ldepth => t.ldepth
  | .felimit => zx t.felimit
  | .cblimit => zx t.cblimit
  | .tvec => t.tvec
  | .tcause => t.tcause
  | .tpc => t.tpc
  | .tval => t.tval
  | .energy => match s.ctx? t.ctx with
    | some c => c.energy
    | none => 0
  | .gtsc => s.gtsc

/-- Registers whose Write column is "—" (R122). -/
def readOnly : CReg → Bool
  | .tid | .gang | .launch | .ctx | .part | .claim | .energy | .gtsc => true
  | _ => false

/-- Write a control register (R122, R66, R126); bits of reserved fields are discarded. -/
def Thread.writeCr (t : Thread) (r : CReg) (v : Word) : Thread :=
  match r with
  | .vstart => { t with vstart := v.setWidth 9 }
  | .frm =>
    let rm := v.extractLsb' 0 3
    { t with fz := v.getLsbD 3, rm := if rm = 6 ∨ rm = 7 then t.rm else rm }
  | .fflags => { t with fflags := v.setWidth 5 }
  | .mxstat => { t with mxstat := v.setWidth 2 }
  | .srseed => { t with srseed := v.setWidth 32 }
  | .lstack => match t.selected with
    | some e => { t with loops := t.loops.set t.lsel.toNat (e.setWord t.lword v) }
    | none => t
  | .ldepth =>
    let d := (v.extractLsb' 0 3).toNat
    { t with
      loops := if d = 7 then t.loops else resize d t.loops, lsel := v.extractLsb' 8 3, lword := v.extractLsb' 16 2 }
  | .felimit => { t with felimit := v.setWidth 32 }
  | .cblimit => { t with cblimit := v.setWidth 32 }
  | .tvec => { t with tvec := v }
  | .tcause => { t with tcause := v &&& 0x7FEFF#64 }
  | .tpc => { t with tpc := v }
  | .tval => { t with tval := v }
  | .tid | .gang | .launch | .ctx | .part | .claim | .energy | .gtsc => t

/-- What an access to a control register waits for in the thread's sequencer (R75, R130). -/
def Thread.crReady (t : Thread) (r : CReg) : Bool :=
  match r with
  | .fflags => !t.owesFlags
  | .mxstat => !t.owesScaleFlags
  | .srseed => !t.owesDraws
  | .vstart => t.seqEmpty
  | _ => true

/-- `crrd` (R123). -/
def execCrrd (d : XReg) (r : CReg) (s : State) : Result :=
  runThread (.crrd d r) s fun t => do
    untilSeq (t.crReady r)
    let s ← get
    putM (t.setX d (s.readCr t r))
    return .seq

/-- `crwr`, `crset` and `crclr` (R123): D gets the old value, the register a value formed from the old one and x(S1). -/
def crModify (i : Instr) (d : XReg) (r : CReg) (a : XReg) (f : Word → Word → Word) (s : State) : Result :=
  runThread i s fun t => do
    if readOnly r then trapM Cause.privilege (instrTval i)
    else
      untilSeq (t.crReady r)
      let s ← get
      let old := s.readCr t r
      putM ((t.setX d old).writeCr r (f old (t.getX a)))
      return .seq

/-- `crwr` (R123). -/
def execCrwr (d : XReg) (r : CReg) (a : XReg) (s : State) : Result := crModify (.crwr d r a) d r a (fun _ v => v) s
/-- `crset` (R123). -/
def execCrset (d : XReg) (r : CReg) (a : XReg) (s : State) : Result :=
  crModify (.crset d r a) d r a (fun old v => old ||| v) s
/-- `crclr` (R123). -/
def execCrclr (d : XReg) (r : CReg) (a : XReg) (s : State) : Result :=
  crModify (.crclr d r a) d r a (fun old v => old &&& ~~~v) s

end Sys2Proof.Machine
end

