-- ==== Sys2Proof/Machine/Lanes.lean ====
section
/-!
DEFINITION. Lane claims: requests, grants, re-negotiation (R132 to R142), with `vclaim`, `vrelease`, RENEGOTIATION and
FREE_ROW_GRANT.
-/
namespace Sys2Proof.Machine

/-- Pipes, in the order of CLAIM's fields (R124, R132). -/
inductive Pipe where
  | mad | ld | st | perm | sfu
  deriving DecidableEq, Repr

/-- Every pipe. -/
def Pipe.all : List Pipe := [.mad, .ld, .st, .perm, .sfu]

/-- The pipe of a field of CLAIM. -/
def pipeOf (n : Nat) : Pipe := match n with | 0 => .mad | 1 => .ld | 2 => .st | 3 => .perm | _ => .sfu

/-- Rows of a pipe. -/
def Rows.get (r : Rows) : Pipe → Nat
  | .mad => r.mad | .ld => r.ld | .st => r.st | .perm => r.perm | .sfu => r.sfu

/-- Rows with those of a pipe replaced. -/
def Rows.set (r : Rows) (p : Pipe) (n : Nat) : Rows :=
  match p with
  | .mad => { r with mad := n } | .ld => { r with ld := n } | .st => { r with st := n }
  | .perm => { r with perm := n } | .sfu => { r with sfu := n }

/-- Rows from a function of the pipes. -/
def Rows.map (f : Pipe → Nat) : Rows := ⟨f .mad, f .ld, f .st, f .perm, f .sfu⟩

/-- Requests from a word in the layout of CLAIM: a field above 8 reads as 8 (R124, R141). -/
def readClaim (w : Word) : Rows :=
  let f (i : Nat) : Nat := min (w.toNat / 2 ^ (4 * i) % 16) 8
  ⟨f 0, f 1, f 2, f 3, f 4⟩

/-- The quarter a core lies in (R343): two cores to a quarter, four quarters to a bench. -/
def coreQuarter (core : Nat) : Nat := core / 2

namespace State

/-- A partition. -/
def part? (s : State) (n : Nat) : Option Part := Map.get? s.parts n
/-- Put a partition. -/
def putPart (s : State) (n : Nat) (p : Part) : State := { s with parts := Map.put s.parts n p }

/-- The partition that owns a quarter. -/
def quarterPart (s : State) (q : Nat) : Option Nat := (s.parts.find? fun p => p.2.quarters.contains q).map (·.1)

/-- Cores of the partition of a core on its bench, rising (R135). -/
def rowCores (s : State) (core : Nat) : List Nat :=
  match s.quarterPart (coreQuarter core) with
  | none => []
  | some p => ((List.range 8).map (core / 8 * 8 + ·)).filter fun c => s.quarterPart (coreQuarter c) == some p

/-- The grant of a pipe at a re-negotiation point of a core (R137). -/
def renegotiated (s : State) (core : Nat) (p : Pipe) : Nat :=
  let cs := s.rowCores core
  let ds := cs.filter (· != core)
  let others := (ds.map fun d => (s.core d).grants.get p).sum
  let owed := (ds.filter fun d => decide (0 < (s.core d).requests.get p) && (s.core d).grants.get p == 0).length
  let c := s.core core
  min (c.requests.get p) (max (cs.length - others - owed) (min (c.grants.get p) 1))

/-- The grants of a core are set anew (R137). -/
def renegotiate (s : State) (core : Nat) : State :=
  s.putCore core { s.core core with grants := Rows.map (s.renegotiated core), point := false }

/-- A re-negotiation point of a core passes; its change takes effect at the core's RENEGOTIATION (R136). -/
def rowPoint (s : State) (core : Nat) : State := s.putCore core { s.core core with point := true }

/-- The core a free row of a pipe goes to: of those of a partition on a bench with a request and no grant, the lowest
(R138). -/
def rowTaker (s : State) (core : Nat) (p : Pipe) : Option Nat :=
  let cs := s.rowCores core
  if cs.length ≤ (cs.map fun d => (s.core d).grants.get p).sum then none
  else cs.find? fun d => decide (0 < (s.core d).requests.get p) && (s.core d).grants.get p == 0

end State

/-- RENEGOTIATION (R136, R137): the change of a point of core `ev.a` takes effect. -/
def execRenegotiation (s : State) : Result :=
  if (s.core s.ev.a).point then .next (s.renegotiate s.ev.a) else .next s

/-- FREE_ROW_GRANT (R138): a free row of pipe `ev.b` of the partition of core `ev.a` goes to a core with a request and no
grant. -/
def execFreeRowGrant (s : State) : Result :=
  let p := pipeOf s.ev.b
  match s.rowTaker s.ev.a p with
  | none => .next s
  | some d =>
    let c := s.core d
    .next (s.putCore d { c with grants := c.grants.set p 1 })

/-- `vclaim` (R141). -/
def execVclaim (d p : XReg) (s : State) : Result :=
  runThread (.vclaim d p) s fun t => do
    let s ← get
    let n := readClaim (t.getX p)
    let c := s.core t.core
    let s := (s.putCore t.core { c with requests := Rows.map fun q => max (c.requests.get q) (n.get q) }).renegotiate t.core
    set s
    putM (t.setX d (claimWord (s.core t.core).grants))
    return .seq

/-- `vrelease` (R92, R141): Privilege in any context but the head. -/
def execVrelease (d p : XReg) (s : State) : Result :=
  runThread (.vrelease d p) s fun t => do
    if !t.isHead then trapM Cause.privilege (instrTval (.vrelease d p))
    else
      let s ← get
      let n := readClaim (t.getX p)
      let c := s.core t.core
      let req := Rows.map fun q => min (c.requests.get q) (n.get q)
      let s := (s.putCore t.core { c with requests := req, grants := Rows.map fun q => min (c.grants.get q) (req.get q) }).renegotiate t.core
      set s
      putM (t.setX d (claimWord (s.core t.core).grants))
      return .seq

end Sys2Proof.Machine
end

