-- ==== Sys2Proof/Machine/VectorArith.lean ====
section
/-!
DEFINITION. What the groups of vector instructions compute: element-wise arithmetic, compares, moves, reductions, scans,
rearrangement, predicates, conversion, quantisation, Hadamard stages and special functions (R69, R74, R77, R78,
R150 to R173).
-/
namespace Sys2Proof.Machine

/-! ### Elements and results -/

/-- The results of a group with nothing written. -/
def GroupOut.empty (j : Nat) : GroupOut := ⟨j, [], [], [], 0, 0, [], none⟩

/-- What a group computes: its results, and SRSEED after its draws (R69). -/
structure Computed where
  out : GroupOut
  seed : BitVec 32
  deriving DecidableEq, Repr, Inhabited

/-- The write of an element. -/
def elemWrite (r : VReg) (ty : Ty) (el v : Nat) : VWrite := ⟨r, el * ty.bits, ty.bits, v⟩

/-- Element `el` is active under a guard, when it lies below vl (R54). -/
def Thread.active (t : Thread) (kg : KReg) (el : Nat) : Bool := (t.guard kg).getLsbD el

/-- An element of a vector register of the thread. -/
def Thread.elem (t : Thread) (r : VReg) (ty : Ty) (el : Nat) : Nat := velem (t.getV r) ty el

/-- An element of the first source of an instruction, with the results of a pass form in its place (R171). -/
def srcElem (t : Thread) (e : SeqEntry) (r : VReg) (ty : Ty) (el : Nat) : Nat :=
  match e.passIn.find? fun p => p.1 == el with
  | some p => p.2
  | none => t.elem r ty el

/-- The second source of MAJ 0x42 to 0x44: a vector's element, or the captured scalar (R151). -/
def argElem (t : Thread) (e : SeqEntry) (b : VArg) (ty : Ty) (el : Nat) : Nat :=
  match b with
  | .vec s => t.elem s.reg ty el
  | .scal _ => ((e.xs[1]?).getD 0).toNat % 2 ^ ty.bits

/-- The rounding mode of an instruction of the vector chapter: code 7 takes the captured RM, with 5 as 0 (R66). -/
def SeqEntry.mode (e : SeqEntry) (rc : RC) : RMode := (staticMode rc e.rm false).getD .rne

/-- Compute the active elements of a group one by one. -/
def mapGroup (j : Nat) (vd : VReg) (ty : Ty) (els : List Nat) (f : Nat → Rounded) : GroupOut :=
  let rs := els.map fun el => (el, f el)
  { GroupOut.empty j with
    v := rs.map fun r => elemWrite vd ty r.1 r.2.bits
    flags := rs.foldl (fun a r => a ||| r.2.flags) 0 }

/-! ### Element-wise arithmetic (R152 to R155) -/

/-- Integer or floating-point sum, difference, product and fused forms. -/
inductive Arith where
  | add | sub | mul
  deriving DecidableEq, Repr

/-- a + b, a − b or a · b of a type (R152 to R154). -/
def arithElem (op : Arith) (ty : Ty) (sat : Bool) (mode : RMode) (fz : Bool) (a b : Nat) : Rounded :=
  if ty.isInt then
    let x := readInt ty a
    let y := readInt ty b
    .exact (intResult ty sat (match op with | .add => x + y | .sub => x - y | .mul => x * y))
  else
    let x := readFz fz ty a
    let y := readFz fz ty b
    match op with
    | .add => addFp ty mode fz x y
    | .sub => addFp ty mode fz x y.flip
    | .mul => mulFp ty mode fz x y

/-- The smaller or the larger (R118, R153, R154). -/
def minmaxElem (isMax : Bool) (ty : Ty) (fz : Bool) (a b : Nat) : Rounded :=
  if ty.isInt then
    let less := decide (readInt ty a ≤ readInt ty b)
    .exact (if isMax then (if less then b else a) else (if less then a else b))
  else minmaxBits ty fz isMax a b

/-- a · b + c or a · b − c (R152 to R154, R76). -/
def madElem (neg : Bool) (ty : Ty) (sat : Bool) (mode : RMode) (fz : Bool) (a b c : Nat) : Rounded :=
  if ty.isInt then
    let p := readInt ty a * readInt ty b
    .exact (intResult ty sat (if neg then p - readInt ty c else p + readInt ty c))
  else
    let z := readFz fz ty c
    fmaFp ty mode fz (readFz fz ty a) (readFz fz ty b) (if neg then z.flip else z)

/-- |a| (R153, R154). -/
def absElem (ty : Ty) (sat : Bool) (a : Nat) : Nat :=
  if ty.isInt then
    let x := readInt ty a
    intResult ty sat (if x < 0 then -x else x)
  else a % 2 ^ (ty.bits - 1)

/-- −a (R153, R154). -/
def negElem (ty : Ty) (sat : Bool) (a : Nat) : Nat :=
  if ty.isInt then intResult ty sat (-(readInt ty a)) else (a + 2 ^ (ty.bits - 1)) % 2 ^ ty.bits

/-- Shifts by an unsigned amount, whole or beyond (R152, R154). -/
def shlElem (ty : Ty) (a b : Nat) : Nat := if ty.bits ≤ b then 0 else a * 2 ^ b % 2 ^ ty.bits
/-- Logical right shift (R152, R154). -/
def shrElem (ty : Ty) (a b : Nat) : Nat := if ty.bits ≤ b then 0 else a / 2 ^ b
/-- Arithmetic right shift: of the operand read as signed (R152, R154). -/
def sraElem (ty : Ty) (a b : Nat) : Nat :=
  let x : Int := if 2 ^ (ty.bits - 1) ≤ a then (a : Int) - ((2 ^ ty.bits : Nat) : Int) else a
  wrapInt ty.bits (if ty.bits ≤ b then (if x < 0 then -1 else 0) else x / ((2 ^ b : Nat) : Int))

/-- A byte read signed, or unsigned. -/
def byteVal (un : Bool) (b : Nat) : Int := readInt (if un then .n8 else .i8) b

/-- One element of `vdot4` (R155). -/
def dotElem (t : Thread) (va vb vc : VReg) (signed ua ub sat : Bool) (el : Nat) : Nat :=
  let ty : Ty := if signed then .i32 else .n32
  let s := (List.range 4).foldl (fun (s : Int) j =>
    s + byteVal ua (t.elem va .n8 (4 * el + j)) * byteVal ub (t.elem vb .n8 (4 * el + j))) (readInt ty (t.elem vc ty el))
  intResult ty sat s

/-! ### Compares (R156) -/

/-- A condition of `vcmp` on two encodings, with its flags. -/
def compareElem (c : VCond) (ty : Ty) (fz : Bool) (a b : Nat) : Bool × Flags :=
  if ty.isInt then
    let x := readInt ty a
    let y := readInt ty b
    (match c with
      | .eq => x == y | .ne => x != y | .lt => decide (x < y) | .le => decide (x ≤ y)
      | .gt => decide (y < x) | .ge => decide (y ≤ x) | .un => false, 0)
  else
    let x := readFz fz ty a
    let y := readFz fz ty b
    match c with
    | .eq => compareFp .eq x y
    | .ne => compareFp .ne x y
    | .lt => compareFp .lt x y
    | .le => compareFp .le x y
    | .gt => compareFp .lt y x
    | .ge => compareFp .le y x
    | .un => compareFp .un x y

/-! ### Trees (R77, R78, R159) -/

/-- A node of the tree: empty, or a value with the flags of the combinations under it. -/
abbrev Node := Option (Nat × Flags)

/-- Combine two nodes (R77). -/
def combineNodes (op : Nat → Nat → Rounded) : Node → Node → Node
  | none, y => y
  | x, none => x
  | some x, some y =>
    let r := op x.1 y.1
    some (r.bits, x.2 ||| y.2 ||| r.flags)

/-- The next level of the tree. -/
def nextLevel (op : Nat → Nat → Rounded) : List Node → List Node
  | x :: y :: rest => combineNodes op x y :: nextLevel op rest
  | l => l

/-- The levels of the tree, from level 0 upward. -/
def treeLevels (op : Nat → Nat → Rounded) : Nat → List Node → List (List Node)
  | 0, l => [l]
  | n + 1, l => l :: treeLevels op n (nextLevel op l)

/-- Depth of the tree of a type: log2 vlmax (R78). -/
def treeDepth (ty : Ty) : Nat := ty.vlmax.log2

/-- The combination of `vred` and `vscan` (R159). -/
def redOp (op : RedOp) (ty : Ty) (sat : Bool) (mode : RMode) (fz : Bool) (a b : Nat) : Rounded :=
  match op with
  | .add => arithElem .add ty sat mode fz a b
  | .min => minmaxElem false ty fz a b
  | .max => minmaxElem true ty fz a b
  | .and => .exact (a &&& b)
  | .or => .exact (a ||| b)
  | .xor => .exact (a ^^^ b)

/-- The identity of an empty result (R159). -/
def redIdentity (op : RedOp) (ty : Ty) : Nat :=
  match op with
  | .add | .or | .xor => 0
  | .min => if ty.isInt then wrapInt ty.bits (intMax ty) else encInf ty false
  | .max => if ty.isInt then wrapInt ty.bits (intMin ty) else encInf ty true
  | .and => 2 ^ ty.bits - 1

/-- Level 0: the active elements below vl. -/
def leaves (t : Thread) (e : SeqEntry) (va : VReg) (ty : Ty) (kg : KReg) : List Node :=
  (List.range ty.vlmax).map fun el =>
    if decide (el < e.vl) && t.active kg el then some (srcElem t e va ty el, 0) else none

/-- Prefix 0 to i from the levels of the tree: its aligned blocks from the left, the largest first (R78). `at'` is where
the next block begins. -/
def prefixNode (op : Nat → Nat → Rounded) (i : Nat) : List (Nat × List Node) → Nat → Node → Node
  | [], _, acc => acc
  | (lv, nodes) :: rest, start, acc =>
    if (i + 1).testBit lv then
      prefixNode op i rest (start + 2 ^ lv) (combineNodes op acc ((nodes[start / 2 ^ lv]?).getD none))
    else prefixNode op i rest start acc

/-- `vred` (R159). -/
def computeRed (t : Thread) (e : SeqEntry) (j : Nat) (op : RedOp) (vd va : VReg) (ty : Ty) (sat : Bool) (rc : RC)
    (kg : KReg) : GroupOut :=
  let f := redOp op ty sat (e.mode rc) e.fz
  let root := (((treeLevels f (treeDepth ty) (leaves t e va ty kg)).getLastD []).headD none)
  match root with
  | none => { GroupOut.empty j with v := [elemWrite vd ty 0 (redIdentity op ty)] }
  | some r => { GroupOut.empty j with v := [elemWrite vd ty 0 r.1], flags := r.2 }

/-- `vscan` (R159). -/
def computeScan (t : Thread) (e : SeqEntry) (j : Nat) (op : RedOp) (vd va : VReg) (ty : Ty) (sat : Bool) (rc : RC)
    (kg : KReg) (els : List Nat) : GroupOut :=
  let f := redOp op ty sat (e.mode rc) e.fz
  let levels := treeLevels f (treeDepth ty) (leaves t e va ty kg)
  let top := ((List.range levels.length).zip levels).reverse
  let rs := els.filterMap fun el => (prefixNode f el top 0 none).map fun r => (el, r)
  { GroupOut.empty j with
    v := rs.map fun r => elemWrite vd ty r.1 r.2.1
    flags := rs.foldl (fun a r => a ||| r.2.2) 0 }

/-! ### Rearrangement (R160, R161) -/

/-- `vcompress`: the selected elements, in order, to the front. -/
def compressed (t : Thread) (vd va : VReg) (ty : Ty) : List Nat → Nat → List VWrite
  | [], _ => []
  | el :: rest, n => elemWrite vd ty n (t.elem va ty el) :: compressed t vd va ty rest (n + 1)

/-- `vexpand`: the leading elements, in order, to the selected places. -/
def expanded (t : Thread) (vd va : VReg) (ty : Ty) : List Nat → Nat → List VWrite
  | [], _ => []
  | el :: rest, n => elemWrite vd ty el (t.elem va ty n) :: expanded t vd va ty rest (n + 1)

/-! ### Conversion (R163 to R169) -/

/-- Convert the active elements in order, drawing where the code asks for it (R69): `src` and `dst` place the elements. -/
def convertAll (e : SeqEntry) (o : VCv) (src : Nat → Nat) (dst : Nat → Nat) :
    List Nat → BitVec 32 → List VWrite × Flags × BitVec 32
  | [], seed => ([], 0, seed)
  | el :: rest, seed =>
    let (mode, seed) := match drawMode o.t o.s o.rc e.rm with
      | some m => (m, seed)
      | none => let d := draw seed; (.sr d.2, d.1)
    let r := convert o.t o.s mode o.sat e.fz (src el)
    let (ws, fl, seed) := convertAll e o src dst rest seed
    (elemWrite o.vd o.t (dst el) r.bits :: ws, r.flags ||| fl, seed)

/-- A conversion's group. -/
def computeCv (t : Thread) (e : SeqEntry) (j : Nat) (o : VCv) (src : Nat → Nat) (dst : Nat → Nat) (els : List Nat) : Computed :=
  let (ws, fl, seed) := convertAll e o src dst els t.srseed
  ⟨{ GroupOut.empty j with v := ws, flags := fl }, seed⟩

/-- The blocks of 32 elements that a list of elements meets, with the elements of each (R167, R168). -/
def blocksOf (els : List Nat) : List (Nat × List Nat) :=
  ((els.map (· / 32)).eraseDups).map fun b => (b, els.filter fun el => el / 32 == b)

/-- The largest magnitude of a block, as an encoding without sign: above the infinity when a NaN is among them (R167). -/
def blockMax (ty : Ty) (vs : List Nat) : Nat := vs.foldl (fun m v => max m (v % 2 ^ (ty.bits - 1))) 0

/-- `vamax` (R167). -/
def computeAmax (t : Thread) (e : SeqEntry) (j : Nat) (o : VMono) (els : List Nat) : GroupOut :=
  { GroupOut.empty j with
    v := (blocksOf els).map fun b =>
      let m := blockMax o.t (b.2.map (srcElem t e o.a.reg o.t))
      elemWrite o.vd o.t b.1 (if encInf o.t false < m then canonNaN o.t else m) }

/-- emax of an MX element type (R168). -/
def emaxOf : Ty → Int
  | .fp8e4 => 8 | .fp8e5 => 15 | .fp4 => 2 | .ds8 => 1 | _ => 6

/-- Bits of +0 of an element type (R168). -/
def mxZero (ty : Ty) : Nat := if ty == .ds8 then 0x77 else 0

/-- The scale of a block and what it sets in MXSTAT (R73, R168): 1 SUF, 2 SNV. -/
def blockScale (ty src : Ty) (amax : Nat) : Nat × BitVec 2 :=
  match readFp src amax with
  | .fin _ m =>
    if m == 0 then (0, 0)
    else
      let c := ratLog2 m - emaxOf ty + 127
      if c < 0 then (0, 1) else (c.toNat, 0)
  | _ => (0xFF, 2)

/-- A value divided by a power of two. -/
def Fp.scale (v : Fp) (n : Int) : Fp :=
  match v with
  | .fin s m => .fin s (m * pow2 n)
  | v => v

/-- Quantise the elements of a block (R168). -/
def quantAll (t : Thread) (e : SeqEntry) (vd : VReg) (a : VReg) (ty src : Ty) (rc : RC) (off code : Nat) :
    List Nat → BitVec 32 → List VWrite × Flags × BitVec 32
  | [], seed => ([], 0, seed)
  | el :: rest, seed =>
    let (mode, seed) := match drawMode ty src rc e.rm with
      | some m => (m, seed)
      | none => let d := draw seed; (.sr d.2, d.1)
    let r := convertFp ty mode true ((readFp src (srcElem t e a src el)).scale (127 - (code : Int)))
    let (ws, fl, seed) := quantAll t e vd a ty src rc off code rest seed
    (elemWrite vd ty (off + el) r.bits :: ws, r.flags ||| fl, seed)

/-- The blocks of `vquant` (R168). -/
def quantBlocks (t : Thread) (e : SeqEntry) (vd vs a : VReg) (ty src : Ty) (rc : RC) (off : Nat) :
    List (Nat × List Nat) → BitVec 32 → List VWrite × Flags × BitVec 2 × BitVec 32
  | [], seed => ([], 0, 0, seed)
  | (b, els) :: rest, seed =>
    let amax := blockMax src (els.map (srcElem t e a src))
    let (code, mx) := blockScale ty src amax
    let (ws, fl, seed) :=
      if code == 0xFF || amax == 0 then (els.map fun el => elemWrite vd ty (off + el) (mxZero ty), (0 : Flags), seed)
      else quantAll t e vd a ty src rc off code els seed
    let (ws', fl', mx', seed) := quantBlocks t e vd vs a ty src rc off rest seed
    (elemWrite vs .n8 ((off + 32 * b) / 32) code :: ws ++ ws', fl ||| fl', mx ||| mx', seed)

/-- One element of `vdequant` (R169); under a NaN scale it sets no flag, a signalling NaN element neither (DEDUCED, log entry 92). -/
def dequantElem (ty src : Ty) (mode : RMode) (fz : Bool) (scale v : Nat) : Rounded :=
  if scale == 0xFF then .exact (canonNaN ty)
  else
    match (readVal src v).scale ((scale : Int) - 127) with
    | .fin n m => flushResult fz ty (roundMag ty mode false n m)
    | .inf n => .exact (encInf ty n)
    | .nan s => nanResult ty s

/-- One element of `vhad` (R170). -/
def hadElem (t : Thread) (e : SeqEntry) (va : VReg) (ty : Ty) (stage : Nat) (rc : RC) (el : Nat) : Rounded :=
  let p := el ^^^ 2 ^ stage
  let a := readFz e.fz ty (srcElem t e va ty el)
  let b := if p < e.vl then readFz e.fz ty (srcElem t e va ty p) else .fin false 0
  if el.testBit stage then addFp ty (e.mode rc) e.fz b a.flip else addFp ty (e.mode rc) e.fz a b

/-! ### Predicates (R162) -/

/-- The bits of a k register below a length (R162). -/
def lowBits (k : KData) (n : Nat) : List Nat := (List.range (min n 512)).filter fun i => k.getLsbD i

/-- All 512 bits of a k register, as a write. -/
def kAll (d : KReg) (v : KData) : List KWrite := [⟨d, 0, 512, v.toNat⟩]

/-! ### The groups -/

/-- The element results of group `j` of an instruction of MAJ 0x42 to 0x4A and 0x58 to 0x5D; `els` are the active elements
the group computes, in increasing order. -/
def computeGroup (t : Thread) (e : SeqEntry) (j : Nat) (els : List Nat) : Computed :=
  let pure (o : GroupOut) : Computed := ⟨o, t.srseed⟩
  let bin (op : Arith) (o : VBin) : Computed :=
    pure (mapGroup j o.vd o.t els fun el =>
      arithElem op o.t o.sat (e.mode o.rc) e.fz (t.elem o.a.reg o.t el) (argElem t e o.b o.t el))
  let pair (o : VPair) (f : Nat → Nat → Rounded) : Computed :=
    pure (mapGroup j o.vd o.t els fun el => f (t.elem o.a.reg o.t el) (argElem t e o.b o.t el))
  let ter (neg : Bool) (o : VTer) : Computed :=
    pure (mapGroup j o.vd o.t els fun el =>
      madElem neg o.t o.sat (e.mode o.rc) e.fz (t.elem o.a.reg o.t el) (argElem t e o.b o.t el) (t.elem o.c.reg o.t el))
  let sfu (fn : Sfu) (o : VMono) : Computed :=
    pure (mapGroup j o.vd o.t els fun el => sfuBits fn o.t e.fz (t.elem o.a.reg o.t el))
  let move (vd : VReg) (ty : Ty) (f : Nat → Nat) : Computed := pure (mapGroup j vd ty els fun el => .exact (f el))
  let x (i : Nat) : Word := (e.xs[i]?).getD 0
  let logic (d : KReg) (v : KData) : Computed := pure { GroupOut.empty j with k := kAll d v }
  match e.instr with
  | .vadd o => bin .add o
  | .vsub o => bin .sub o
  | .vmul o => bin .mul o
  | .vmin o => pair o (minmaxElem false o.t e.fz)
  | .vmax o => pair o (minmaxElem true o.t e.fz)
  | .vabs o => move o.vd o.t fun el => absElem o.t o.sat (t.elem o.a.reg o.t el)
  | .vneg o => move o.vd o.t fun el => negElem o.t o.sat (t.elem o.a.reg o.t el)
  | .vand o => pair o fun a b => .exact (a &&& b)
  | .vor o => pair o fun a b => .exact (a ||| b)
  | .vxor o => pair o fun a b => .exact (a ^^^ b)
  | .vshl o => pair o fun a b => .exact (shlElem o.t a b)
  | .vshr o => pair o fun a b => .exact (shrElem o.t a b)
  | .vsra o => pair o fun a b => .exact (sraElem o.t a b)
  | .vmad o => ter false o
  | .vmsb o => ter true o
  | .vdot4 vd a b c signed ua ub sat _ =>
    move vd .i32 fun el => dotElem t a.reg b.reg c.reg signed ua ub sat el
  | .vcmp kd c a b ty _ =>
    let rs := els.map fun el => (el, compareElem c ty e.fz (t.elem a.reg ty el) (argElem t e b ty el))
    pure { GroupOut.empty j with
      k := rs.map fun r => ⟨kd, r.1, 1, if r.2.1 then 1 else 0⟩
      flags := rs.foldl (fun f r => f ||| r.2.2) 0 }
  | .vsel vd a b ks ty _ => move vd ty fun el => if (t.getK ks).getLsbD el then t.elem a.reg ty el else t.elem b.reg ty el
  | .vmov vd a ty _ => move vd ty fun el => t.elem a.reg ty el
  | .vbcast vd _ ty _ => move vd ty fun _ => (x 1).toNat % 2 ^ ty.bits
  | .vext xd a _ ty l =>
    -- element i is read with its group; where there is none, with vl = 0 too, xD receives 0 with the last (R158; log entry 35)
    let i := (x 1).toNat
    let v : Word := if decide (i < e.vl) && t.active l.kg i then extendBy ty (t.elem a.reg ty i) else 0
    let here := if i < e.vl then i / groupElems ty == j else j + 1 == e.total
    pure { GroupOut.empty j with x := if here then [(xd, v)] else [] }
  | .vins vd _ _ ty _ =>
    let i := (x 2).toNat
    pure { GroupOut.empty j with v := if els.contains i then [elemWrite vd ty i ((x 1).toNat % 2 ^ ty.bits)] else [] }
  | .viota vd ty _ => move vd ty fun el => el % 2 ^ ty.bits
  | .vred op vd a ty sat rc l => pure (computeRed t e j op vd a.reg ty sat rc l.kg)
  | .vscan op vd a ty sat rc l => pure (computeScan t e j op vd a.reg ty sat rc l.kg els)
  | .vperm vd va vb ty _ => move vd ty fun el => let i := t.elem vb ty el; if i < e.vl then t.elem va ty i else 0
  | .vslideDown vd va _ ty _ => move vd ty fun el => let i := el + (x 1).toNat; if i < e.vl then t.elem va ty i else 0
  | .vslideUp vd va _ ty _ => move vd ty fun el => let n := (x 1).toNat; if n ≤ el then t.elem va ty (el - n) else 0
  | .vcompress vd va ty _ => pure { GroupOut.empty j with v := compressed t vd va ty els 0 }
  | .vexpand vd va ty _ => pure { GroupOut.empty j with v := expanded t vd va ty els 0 }
  | .vzip hi vd va vb ty _ =>
    move vd ty fun el =>
      let i := el / 2 + (if hi then ty.vlmax / 2 else 0)
      if el % 2 == 0 then t.elem va ty i else t.elem vb ty i
  | .vunzip odd vd va vb ty _ =>
    move vd ty fun el =>
      let m := 2 * el + (if odd then 1 else 0)
      if m < ty.vlmax then t.elem va ty m else t.elem vb ty (m - ty.vlmax)
  | .kand d p q => logic d (t.getK p &&& t.getK q)
  | .kor d p q => logic d (t.getK p ||| t.getK q)
  | .kxor d p q => logic d (t.getK p ^^^ t.getK q)
  | .knot d p => logic d (~~~(t.getK p))
  | .kmov d p => logic d (t.getK p)
  | .kpop d p _ => pure { GroupOut.empty j with x := [(d, BitVec.ofNat 64 (lowBits (t.getK p) (x 0).toNat).length)] }
  | .kfirst d p _ =>
    let v : Word := match lowBits (t.getK p) (x 0).toNat with
      | [] => BitVec.allOnes 64
      | i :: _ => BitVec.ofNat 64 i
    pure { GroupOut.empty j with x := [(d, v)] }
  | .kset d _ => logic d (BitVec.ofNat 512 (2 ^ (min (x 0).toNat 512) - 1))
  | .vcvt o => computeCv t e j o (srcElem t e o.a.reg o.s) id els
  | .vpack o => computeCv t e j o (srcElem t e o.a.reg o.s) (fun el => o.part.toNat * o.s.vlmax + el) els
  | .vunpack o => computeCv t e j o (fun el => t.elem o.a.reg o.s (o.part.toNat * o.t.vlmax + el)) id els
  | .vamax o => pure (computeAmax t e j o els)
  | .vquant vd vs a ty src part rc _ =>
    let (ws, fl, mx, seed) := quantBlocks t e vd vs a.reg ty src rc (part.toNat * src.vlmax) (blocksOf els) t.srseed
    ⟨{ GroupOut.empty j with v := ws, flags := fl, mx := mx }, seed⟩
  | .vdequant vd a b ty src part rc _ =>
    pure (mapGroup j vd ty els fun el =>
      let i := part.toNat * ty.vlmax + el
      dequantElem ty src (e.mode rc) e.fz (t.elem b.reg .n8 (i / 32)) (t.elem a.reg src i))
  | .vhad vd a ty sg rc _ => pure (mapGroup j vd ty els fun el => hadElem t e a.reg ty sg.toNat rc el)
  | .vhadPass _ a ty sg rc _ =>
    let rs := els.map fun el => (el, hadElem t e a.reg ty sg.toNat rc el)
    pure { GroupOut.empty j with
      pass := rs.map fun r => (r.1, r.2.bits)
      flags := rs.foldl (fun f r => f ||| r.2.flags) 0 }
  | .vsfuRcp o => sfu .rcp o
  | .vsfuRsq o => sfu .rsq o
  | .vsfuSqrt o => sfu .sqrt o
  | .vsfuExp2 o => sfu .exp2 o
  | .vsfuLog2 o => sfu .log2 o
  | .vsfuSin o => sfu .sin o
  | .vsfuCos o => sfu .cos o
  | .vsfuTanh o => sfu .tanh o
  | .vsfuSigmoid o => sfu .sigmoid o
  | .vsfuGelu o => sfu .gelu o
  | .vsfuSilu o => sfu .silu o
  | _ => pure (GroupOut.empty j)

end Sys2Proof.Machine
end

