-- ==== Sys2Proof/Machine/Rays.lean ====
section
/-!
DEFINITION. What the groups of ray tests and shader matrix products compute: `boxt`, `trit` and `vmm8` (R323, R324, R332),
and the exact sum of products that `vmm8` and the anvil share (R79).
-/
namespace Sys2Proof.Machine

/-! ### Exact products and sums (R79) -/

/-- The exact product; zero times an infinity is a NaN. A zero has the signs' exclusive or, that of a negative number and a ds8 zero
among them: the model's choice (log entry 108). -/
def Fp.times (a b : Fp) : Fp :=
  let s := a.neg != b.neg
  match a, b with
  | .nan _, _ => .nan false
  | _, .nan _ => .nan false
  | .inf _, _ => if b.isZero then .nan false else .inf s
  | _, .inf _ => if a.isZero then .nan false else .inf s
  | .fin _ m, .fin _ n => .fin s (m * n)

/-- The exact sum of two values: a zero sum of opposite signs is +0 (R65). -/
def Fp.plus (a b : Fp) : Fp :=
  match a, b with
  | .nan _, _ => .nan false
  | _, .nan _ => .nan false
  | .inf x, .inf y => if x == y then .inf x else .nan false
  | .inf x, .fin _ _ => .inf x
  | .fin _ _, .inf y => .inf y
  | .fin x m, .fin y n =>
    if m == 0 && n == 0 then .fin (x && y) 0
    else
      let r := (Fp.fin x m).toRat + (Fp.fin y n).toRat
      .fin (decide (r < 0)) (if r < 0 then -r else r)

/-- The exact sum of a list. -/
def sumFp : List Fp → Fp
  | [] => .fin false 0
  | [a] => a
  | a :: l => a.plus (sumFp l)

/-- A value rounded once to f32 under RNE (R65). -/
def roundF32 (fz : Bool) (v : Fp) : Rounded :=
  match v with
  | .nan s => nanResult .f32 s
  | .inf n => .exact (encInf .f32 n)
  | .fin n m => flushResult fz .f32 (roundMag .f32 .rne false n m)

/-- An element of a scaled operand (R60, R79): the value times 2^(scale − 127); scale 0xFF is a NaN. -/
def scaledVal (ty : Ty) (scale v : Nat) : Fp :=
  if scale == 0xFF then .nan false else (readVal ty v).scale ((scale : Int) - 127)

/-! ### `boxt` (R323) -/

/-- +∞ as f32. -/
def f32Inf : Nat := 0x7F800000

/-- a ≤ b by value. -/
def fpLe (a b : Fp) : Bool := fpLt a b || fpEq a b

/-- One axis of the slab test on encodings: whether the axis keeps the hit, and near and far after it. -/
def slabAxis (o id lo hi : Nat) (near far : Nat) : Bool × Nat × Nat :=
  let v := readFp .f32
  match v id with
  | .inf _ => (fpLe (v lo) (v o) && fpLe (v o) (v hi), near, far)
  | i =>
    let along (b : Nat) : Fp := if i.isZero then .fin false 0 else (((v b).plus (v o).flip).times i)
    let p := along lo
    let q := along hi
    let least := if fpLt q p then q else p
    let most := if fpLt q p then p else q
    let down := (convertFp .f32 .rdn false least).bits
    let up := (convertFp .f32 .rup false most).bits
    (true, (minmaxBits .f32 false true near down).bits, (minmaxBits .f32 false false far up).bits)

/-- One box of a test: t(b) when the ray hits it. -/
def boxHit (ray box : List Nat) : Option Nat :=
  let r (i : Nat) : Nat := (ray[i]?).getD 0
  let b (i : Nat) : Nat := (box[i]?).getD 0
  let v := readFp .f32
  let inf (x : Fp) : Bool := match x with | .inf _ => true | _ => false
  let clean := !(ray.any fun x => (v x).isNaN) && !([0, 1, 2].any fun a => inf (v (r a))) && !(box.any fun x => (v x).isNaN)
    && [0, 1, 2].all fun a => fpLe (v (b a)) (v (b (a + 3)))
  if !clean then none
  else
    let f := [0, 1, 2].foldl (fun (s : Bool × Nat × Nat) a =>
      let n := slabAxis (r a) (r (a + 3)) (b a) (b (a + 3)) s.2.1 s.2.2
      (s.1 && n.1, n.2)) (true, r 6, r 7)
    if f.1 && fpLe (v f.2.1) (v f.2.2) then some f.2.1 else none

/-- A box comes before another in the order of `boxt`: hits by t, then misses, each by number. -/
def boxBefore (x y : Nat × Option Nat) : Bool :=
  match x.2, y.2 with
  | some a, some b => fpLt (readFp .f32 a) (readFp .f32 b) || (fpEq (readFp .f32 a) (readFp .f32 b) && decide (x.1 < y.1))
  | some _, none => true
  | none, some _ => false
  | none, none => decide (x.1 < y.1)

/-- Insert a box in order. -/
def boxInsert (x : Nat × Option Nat) : List (Nat × Option Nat) → List (Nat × Option Nat)
  | [] => [x]
  | y :: l => if boxBefore x y then x :: y :: l else y :: boxInsert x l

/-- One test of `boxt`: the elements 8j to 8j + 7 it writes. -/
def boxTest (t : Thread) (vd va vb : VReg) (j : Nat) : List VWrite :=
  let ray := (List.range 8).map fun i => t.elem va .f32 (8 * j + i)
  let hits := (List.range 4).map fun b => (b, boxHit ray ((List.range 6).map fun i => t.elem vb .f32 (32 * j + 6 * b + i)))
  let order := hits.foldr boxInsert []
  (hits.map fun h => elemWrite vd .f32 (8 * j + h.1) (h.2.getD f32Inf))
    ++ ((List.range 4).zip order).map fun p => elemWrite vd .f32 (8 * j + 4 + p.1) p.2.1

/-! ### `trit` (R324) -/

/-- A vector of three exact numbers. -/
structure Vec3 where
  x : Rat
  y : Rat
  z : Rat

/-- Difference. -/
def Vec3.sub (a b : Vec3) : Vec3 := ⟨a.x - b.x, a.y - b.y, a.z - b.z⟩
/-- Scalar product. -/
def Vec3.dot (a b : Vec3) : Rat := a.x * b.x + a.y * b.y + a.z * b.z
/-- Vector product. -/
def Vec3.cross (a b : Vec3) : Vec3 := ⟨a.y * b.z - a.z * b.y, a.z * b.x - a.x * b.z, a.x * b.y - a.y * b.x⟩

/-- An exact number rounded to f32 under RNE. -/
def f32Of (r : Rat) : Nat := (roundRat .f32 .rne false false false r).bits

/-- One test of `trit`: the elements 8j to 8j + 7 it writes. -/
def triTest (t : Thread) (vd va vb : VReg) (j : Nat) : List VWrite :=
  let inp := ((List.range 8).map fun i => readFp .f32 (t.elem va .f32 (8 * j + i)))
    ++ (List.range 9).map fun i => readFp .f32 (t.elem vb .f32 (16 * j + i))
  let r (i : Nat) : Rat := ((inp[i]?).map Fp.toRat).getD 0
  let vec (i : Nat) : Vec3 := ⟨r i, r (i + 1), r (i + 2)⟩
  let finite := inp.all fun x => match x with | .fin _ _ => true | _ => false
  let o := vec 0
  let d := vec 3
  let A := (vec 8).sub o
  let B := (vec 11).sub o
  let C := (vec 14).sub o
  let U := d.dot (C.cross B)
  let V := d.dot (A.cross C)
  let W := d.dot (B.cross A)
  let det := U + V + W
  let N := ((vec 11).sub (vec 8)).cross ((vec 14).sub (vec 8))
  let tx := A.dot N / d.dot N
  let pos := decide (0 ≤ U) && decide (0 ≤ V) && decide (0 ≤ W)
  let neg := decide (U ≤ 0) && decide (V ≤ 0) && decide (W ≤ 0)
  let hit := finite && det != 0 && (pos || neg) && decide (r 6 ≤ tx) && decide (tx ≤ r 7)
  let res := if hit then [f32Of tx, f32Of (V / det), f32Of (W / det), if 0 < det then 1 else 2] else [f32Inf, 0, 0, 0]
  ((List.range 8).zip (res ++ [0, 0, 0, 0])).map fun p => elemWrite vd .f32 (8 * j + p.1) p.2

/-! ### `vmm8` (R332) -/

/-- Type of the matrix of `vmm8`. -/
def mmTy (e5 : Bool) : Ty := if e5 then .fp8e5 else .fp8e4

/-- One element of `vmm8`: the row of the matrix, its scale, the vector's group, the addend. -/
def mmElem (ty : Ty) (fz : Bool) (row : List Nat) (scale : Nat) (a : List Nat) (c : Nat) : Rounded :=
  let add := readFz fz .f32 c
  let as := a.map (readFz fz .f32)
  let ms := row.map (scaledVal ty scale)
  let ps := (ms.zip as).map fun p => p.1.times p.2
  let total := add.plus (sumFp ps)
  -- invalid: a signalling operand, or a NaN formed of operands that are not NaNs (R74, R79)
  let sig := add.isSig || as.any Fp.isSig || (row.any fun b => (readFp ty b).isSig)
  let made := total.isNaN && !(add.isNaN || as.any Fp.isNaN || ms.any Fp.isNaN)
  let r := roundF32 fz total
  if total.isNaN then nanResult .f32 (sig || made) else r

/-- Byte `i` of a matrix held as doubles. -/
def matrixByte (m : List Word) (i : Nat) : Nat := ((m[i / 8]?).getD 0).toNat / 2 ^ (8 * (i % 8)) % 256

/-- `vmm8`'s group: the matrix was read into the entry, after x(XL) and x(R), before the first group (R332). -/
def computeMm8 (t : Thread) (e : SeqEntry) (j : Nat) (e5 : Bool) (vd : VReg) (a c : VReg) (els : List Nat) : GroupOut :=
  let m := e.xs.drop 2
  mapGroup j vd .f32 els fun el =>
    let g := el / 32
    let i := el % 32
    let row := (List.range 32).map fun k => matrixByte m (32 * i + k)
    let scale := matrixByte m (1024 + i)
    let as := (List.range 32).map fun k => if 32 * g + k < e.vl then t.elem a .f32 (32 * g + k) else 0
    mmElem (mmTy e5) e.fz row scale as (t.elem c .f32 el)

/-- The tests of a ray instruction that run, numbered from 0: `per` elements of the index space to a test. -/
def testsOf (t : Thread) (e : SeqEntry) (kg : KReg) (per : Nat) : List Nat :=
  (List.range (e.vl / per)).filter fun j => t.active kg (per * j)

end Sys2Proof.Machine
end

