-- ==== Sys2Proof/Machine/Access.lean ====
section
/-!
DEFINITION. Accesses of threads to the places a check has found: scratchpad bytes, L1 data caches, requests at object
homes and accesses at the homes (R206, R251, R253, R261, R265 to R280, R425).
-/
namespace Sys2Proof.Machine

/-! ### Scratchpad bytes -/

/-- A byte of a gang's allotment: zero until written (R203). -/
def Gang.byteAt (g : Gang) (off : Nat) : Byte := Map.getD g.bytes off 0
/-- Bytes of a gang's allotment. -/
def Gang.bytesAt (g : Gang) (off : Nat) : Nat → List Byte
  | 0 => []
  | n + 1 => g.byteAt off :: g.bytesAt (off + 1) n
/-- Write bytes of an allotment; a zero byte is not listed. -/
def Gang.setBytes (g : Gang) (off : Nat) : List Byte → Gang
  | [] => g
  | b :: bs => ({ g with bytes := cellPut g.bytes off b }).setBytes (off + 1) bs

/-- Two byte ranges meet. -/
def meets (a n b m : Nat) : Bool := decide (a < b + m) && decide (b < a + n)

namespace State

/-- Scratchpad bytes of a thread's gang. -/
def padBytes (s : State) (gang off n : Nat) : List Byte := match s.gang? gang with
  | some g => g.bytesAt off n
  | none => List.replicate n 0
/-- Write scratchpad bytes of a gang. -/
def padPut (s : State) (gang off : Nat) (bs : List Byte) : State := match s.gang? gang with
  | some g => s.putGang gang (g.setBytes off bs)
  | none => s

/-! ### Accesses not yet performed -/

/-- Thread `key` has an access not yet performed at its home (R275, R277). -/
def owes (s : State) (key : Nat) : Bool := s.home.any fun h => h.2.key == key

/-- Thread `key` has an access not yet performed that meets a range (R253). -/
def owesAt (s : State) (key pa n : Nat) : Bool :=
  s.home.any fun h => h.2.key == key && meets h.2.pa h.2.op.size pa n

/-- Send an access to its home. -/
def send (s : State) (h : HomeAccess) : State :=
  { s with home := s.home ++ [(s.nextHome, h)], nextHome := s.nextHome + 1 }

/-- Ask an object home for a grant, once (R265). -/
def ask (s : State) (r : ObjReq) : State := if s.objReqs.contains r then s else { s with objReqs := s.objReqs ++ [r] }

end State

/-- Raise Machine Check when an access consumes poisoned data, of the home or of the bench's L1 (R425). -/
def poisonM (t : Thread) (pa n : Nat) : M Unit := fun s =>
  match (s.poisoned pa n).or (s.l1Poisoned t.bench t.ctx pa n) with
  | some p => .error (.trap (s.poisonRecord t p) Cause.machineCheck (BitVec.ofNat 64 p) none)
  | none => .ok ((), s)

/-- Check an access of a thread and stop it where the check fails or waits; `elem` is the element of a vector access. Poison in a
page table is consumed here (R425). -/
def accessM (t : Thread) (g : Segment) (o : Word) (n a : Nat) (kind : Kind) (elem : Option Nat := none) : M Place :=
  fun s =>
    match s.check t.agent (s.gangOf t) g o n a kind o with
    | (.ok p, s) => .ok (p, s)
    | (.fails c v, s) => .error (.trap (if c = Cause.machineCheck then s.poisonRecord t v.toNat else s) c v elem)
    | (.page va, s) => .error (.wait s .page 0 (.pages [va]))

/-- Raise Machine Check when an access reads a poisoned line of the bench's L1 (R425). -/
def l1CheckM (t : Thread) (pa n : Nat) : M Unit := fun s =>
  match s.l1Poisoned t.bench t.ctx pa n with
  | some p => .error (.trap (s.poisonRecord t p) Cause.machineCheck (BitVec.ofNat 64 p) none)
  | none => .ok ((), s)

/-- Raise Machine Check when scratchpad bytes of the thread's gang that are consumed lie in a poisoned line (R425). -/
def padCheckM (t : Thread) (off n : Nat) : M Unit := fun s =>
  match (s.gangOf t).bind (·.badAt off n) with
  | some p => .error (.trap (s.poisonRecord t p) Cause.machineCheck (BitVec.ofNat 64 p) none)
  | none => .ok ((), s)

/-- Raise Frame Owner when the object home of a tracked line rejects the request (R269). -/
def homeM (t : Thread) (pa va : Nat) (leaf : Word) (elem : Option Nat) : M Unit := fun s =>
  if pteBit leaf 5 && s.homeRejects t.part pa then .error (.trap s Cause.frameOwner (BitVec.ofNat 64 va) elem)
  else .ok ((), s)

/-- The bench may read its L1 copies of a line (R261, R265); a KIND 3 frame has none (R247). -/
def State.mayRead (s : State) (bench pa : Nat) (leaf : Word) : Bool :=
  if s.sharedFrame pa then false
  else if pteBit leaf 5 then (s.objState (s.objOf pa)).mayRead bench
  else true

/-- The doubles of a list of bytes. -/
def doublesOf : Nat → List Byte → List Word
  | 0, _ => []
  | n + 1, bs => BitVec.ofNat 64 (leNat (bs.take 8)) :: doublesOf n (bs.drop 8)

/-! ### Accesses at the home -/

namespace State

/-- An earlier access of the same thread to the same bytes is still to be performed (R272). -/
def blocked (s : State) (n : Nat) (h : HomeAccess) : Bool :=
  s.home.any fun g => decide (g.1 < n) && g.2.key == h.key && meets g.2.pa g.2.op.size h.pa h.op.size

/-- An access sent leaves the list, and a release with nothing left before it is forgotten. -/
def departed (s : State) (n : Nat) : State :=
  let s := { s with home := Map.del s.home n }
  { s with orders := s.orders.filter fun r => s.home.any fun h => h.2.key == r.key && decide (h.1 < r.mark) }

/-- An access sent has been performed: it leaves the list, and a thread that waits for its answer has it. -/
def performed (s : State) (n : Nat) (key : Nat) (answer : List Word) : State :=
  (s.departed n).onThread key fun t =>
    match t.status with
    | .waiting w =>
      match w.asked with
      | .home m none => if m = n then { t with status := .waiting { w with asked := .home n (some answer), woken := true } } else t
      | _ => t
    | _ => t

end State

/-! ### Peers (R241, R422) -/

/-- Bytes returned by a peer, free values (R241; log entry 7). -/
def peerBytes (n : Nat) : M (List Byte) := fun s =>
  .ok ((List.range n).map (Config.peerByte s.frees), { s with frees := s.frees + 1 })

/-- The cause a peer raises (R241): that of its page permissions, of its owner check, which also meets an access without a
binding there (R422), or of its attribute check. -/
def peerCause (n : Nat) : BitVec 8 :=
  if n % 3 = 0 then Cause.frameOwner else if n % 3 = 1 then Cause.pagePermission else Cause.attributeConflict

/-- What a peer that is reached answers to an access at a virtual address (R241; log entry 7): it may wait for a page there, or
return the cause it raised. -/
def peerGate (va : Nat) (elem : Option Nat) : M Unit := fun s =>
  let s' := { s with frees := s.frees + 1 }
  match Config.peerOutcome s.frees with
  | 0 => .ok ((), s')
  | 1 => .error (.wait s' .page 0 (.pages [va]))
  | n + 2 => .error (.trap s' (peerCause n) (BitVec.ofNat 64 va) elem)

/-- Wait for the answer of a peer device; once it has come, go on (R241). -/
def peerM (t : Thread) (dev va : Nat) : M Unit := do
  if t.asked = .peer dev then peerGate va none else waitM .load 0 (.peer dev)

/-- The answer of a peer to an access that does not wait on its own: a peer that is not reached returns poisoned data
(R422). -/
def peerNow (t : Thread) (dev va n : Nat) (elem : Option Nat) : M (List Byte) := do
  let s ← get
  if s.peerUp t.part dev then
    peerGate va elem
    peerBytes n
  else
    set (s.peerLost dev false)
    trapElem Cause.machineCheck 0 elem

/-- A write sent to a peer; one that is not reached drops it (R241, R422). -/
def peerWrite (t : Thread) (dev va : Nat) (elem : Option Nat) : M Unit := do
  let s ← get
  if s.peerUp t.part dev then peerGate va elem else set (s.peerLost dev true)

/-! ### Order within a scope (R274 to R277) -/

/-- Thread `y`, of partition `part`, has thread `x` of partition `q` within a scope (R274); threads are named by key. -/
def inScope (sc : Scope) (y part x q : Nat) : Bool :=
  let core (k : Nat) : Nat := k % 16384 / 16
  match sc with
  | .thread => x == y
  | .core => core x == core y
  | .bench => core x / 8 == core y / 8
  | .die => coreDie (core x) == coreDie (core y)
  | .partition => q == part
  | .system => true

/-- The number by which the bytes of a place are known where accesses are compared: a gang's scratchpad stands above every
physical address and every peer. -/
def placeKey (gang : Nat) : Place → Nat
  | .pad off => 2 ^ 80 + gang * 2 ^ 22 + off
  | p => p.codePa

namespace State

/-- An access of thread `key` numbered below `mark` is not yet performed. -/
def pendingBelow (s : State) (key mark : Nat) : Bool := s.home.any fun h => h.2.key == key && decide (h.1 < mark)

/-- A write of thread `key` to `n` bytes is performed as a release of a scope (R275): an acquire that reads it and is within the
scope, as the thread is within the acquire's, follows what the thread has sent to the homes before number `mark`. -/
def release (s : State) (key part : Nat) (sc : Option Scope) (mark a n : Nat) : State :=
  match sc with
  | some sc => if s.pendingBelow key mark then { s with orders := s.orders ++ [⟨key, part, sc, mark, a, n⟩] } else s
  | none => s

/-- A write sent as a release takes its place in the order as it is performed. -/
def releasedAt (s : State) (n : Nat) (h : HomeAccess) : State := s.release h.key h.part h.rel n h.pa h.op.size

/-- The home refuses an access: that of a frame of another owner, or of an object of another partition (R247, R269). -/
def refused (s : State) (h : HomeAccess) : Bool :=
  !s.ownerOk h.ctx h.part h.pa || (h.tracked && s.homeRejects h.part h.pa)

/-- An access that its home refuses is dropped, and Frame Owner raised with its virtual address: at once in a thread that waits
for its answer, else as the thread's next instruction (R247, R269; log entry 101). -/
def refuse (s : State) (n : Nat) (h : HomeAccess) : State :=
  let s := s.departed n
  let tv : Word := BitVec.ofNat 64 h.va
  match s.thread? h.key with
  | some t =>
    if t.asked == .home n none then s.raiseHere h.key Cause.frameOwner tv t.pc none
    else { s with strays := Map.put s.strays h.key tv }
  | none => s

/-- Perform a store that has reached its home, if its object allows it (R265, R280). -/
def storeHome (s : State) (n : Nat) (h : HomeAccess) (bs : List Byte) : State :=
  if h.tracked then
    if (s.objState (s.objOf h.pa)).mayWrite h.bench then
      ((s.storeL1 (h.key % 16384 / 16) h.ctx h.pa bs).releasedAt n h).performed n h.key []
    else s.ask ⟨h.bench, h.ctx, h.part, s.objOf h.pa, true⟩
  else (((s.setBytes h.pa bs).homeRequest h.ctx h.pa 1 true).releasedAt n h).performed n h.key []

/-- Perform a store sent earlier, whatever the state of its object and of the host's copy (R253). -/
def storeNow (s : State) (n : Nat) (h : HomeAccess) : State :=
  match h.op with
  | .store bs =>
    if s.refused h then s.refuse n h
    else ((if h.tracked then s.objTransition h.part h.bench (s.objOf h.pa) true else s).snoop h.pa h.op.size).storeHome n h bs
  | _ => s

/-- Perform the stores a thread has sent that satisfy `p`, in order. -/
def storesNow (s : State) (p : Nat × HomeAccess → Bool) : State :=
  (s.home.filter p).foldl (fun s h => s.storeNow h.1 h.2) s

/-- `n` bytes are observed by an agent that is within some scopes: the stores that a release write of these bytes follows, in such
a scope, are performed first (R275, R276). -/
def observeIn (s : State) (within : Ordered → Bool) (a n : Nat) : State :=
  (s.orders.filter fun r => meets r.pa r.n a n && within r).foldl
    (fun s r => s.storesNow fun h => h.2.key == r.key && decide (h.1 < r.mark)) s

/-- Thread `key` of a partition reads `n` bytes by an acquire of a scope: it synchronises with the releases that are within its
scope as it is within theirs (R276). -/
def observe (s : State) (key part : Nat) (acq : Option Scope) (a n : Nat) : State :=
  match acq with
  | some sc => s.observeIn (fun r =>
      r.key != key && inScope r.scope r.key r.part key part && inScope sc key part r.key r.part) a n
  | none => s

/-- The host, a peer or an encoder observes `n` bytes: it is within system scope alone (R274). -/
def observeOutside (s : State) (a n : Nat) : State := s.observeIn (fun r => r.scope == .system) a n

end State

/-- A scope that takes in another thread than the one itself (R274). -/
def beyond (sc : Scope) : Option Scope := if sc = .thread then none else some sc

/-- Read the bytes of a place by an acquire of a scope, if of any. -/
def observeM (t : Thread) (acq : Option Scope) (p : Place) (n : Nat) : M Unit :=
  modify fun s => s.observe t.key t.part acq (placeKey t.gang p) n

/-! ### Reads and writes -/

/-- Bytes of a thread's access read at once: of a KIND 3 frame at their home, else of the bench's L1, into which the lines it
lacks are filled, a tracked one after the request that its object's state asks for (R247, R261, R265, R267). -/
def State.readThrough (s : State) (t : Thread) (pa n : Nat) (leaf : Word) : List Byte × State :=
  if s.sharedFrame pa then (s.bytesAt pa n, s.homeRequest t.ctx pa (unitsTouched pa n) false)
  else
    let s := s.eachLine pa n fun s a =>
      let s := if pteBit leaf 5 then s.objTransition t.part t.bench (s.objOf a) false else s
      let lo := max a pa
      if (s.readL1 t.bench t.ctx lo (min (a + 128) (pa + n) - lo)).isSome then s else s.fillL1 t.core t.ctx a
    (s.cachedBytes t.bench t.ctx pa n, s)

/-- A scalar read of `n` bytes at a checked place (R251): a hit in L1 completes at once, anything else waits for the data. An
acquire of a scope follows the releases it reads (R276). -/
def loadM (t : Thread) (p : Place) (n : Nat) (acq : Option Scope) : M (List Byte) := do
  observeM t acq p n
  match p with
  | .pad off => fun s => .ok (s.padBytes t.gang off n, s)
  | .peer dev va => do
    peerM t dev va
    peerBytes n
  | .mem pa va leaf => do
    let s ← get
    if s.owesAt t.key pa n then waitM .load 0 .data
    else
      let hit := if s.mayRead t.bench pa leaf then s.readL1 t.bench t.ctx pa n else none
      match hit with
      | some bs =>
        l1CheckM t pa n
        return bs
      | none =>
        let served := s.sharedFrame pa || !pteBit leaf 5 || s.mayRead t.bench pa leaf
        if t.asked = .data && served then
          poisonM t pa n
          if s.sharedFrame pa then
            set (s.homeRequest t.ctx pa 1 false)
            return s.bytesAt pa n
          else
            let s := s.fillL1 t.core t.ctx pa
            set s
            return s.cachedBytes t.bench t.ctx pa n
        else
          homeM t pa va leaf none
          if !served then modify fun s => s.ask ⟨t.bench, t.ctx, t.part, s.objOf pa, false⟩
          waitM .load 0 .data

/-- A write of a thread that is performed now is a release of a scope, if of any. -/
def State.releases (s : State) (t : Thread) (rel : Option Scope) (p : Place) (n : Nat) : State :=
  s.release t.key t.part rel s.nextHome (placeKey t.gang p) n

/-- A store of a thread as an access at its home. -/
def storeAccess (t : Thread) (pa va : Nat) (tracked : Bool) (bs : List Byte) (rel : Option Scope) : HomeAccess :=
  ⟨t.key, t.bench, t.ctx, t.part, pa, va, tracked, .store bs, rel, none⟩

/-- A write of bytes at a checked place (R251, R261, R265): into the bench's L1 where it may, else towards the home; a release of
a scope takes its place in the order as it is performed (R276). -/
def storeM (t : Thread) (p : Place) (bs : List Byte) (rel : Option Scope) : M Unit :=
  match p with
  | .pad off => modify fun s => (s.padPut t.gang off bs).releases t rel p bs.length
  | .peer dev va => peerWrite t dev va none
  | .mem pa va leaf => do
    let s ← get
    if s.sharedFrame pa then set (s.send (storeAccess t pa va false bs rel))
    else if pteBit leaf 5 then
      if (s.objState (s.objOf pa)).mayWrite t.bench && !s.owesAt t.key pa bs.length then
        set ((s.storeL1 t.core t.ctx pa bs).releases t rel p bs.length)
      else
        homeM t pa va leaf none
        set ((s.ask ⟨t.bench, t.ctx, t.part, s.objOf pa, true⟩).send (storeAccess t pa va true bs rel))
    else set ((s.storeL1 t.core t.ctx pa bs).releases t rel p bs.length)

/-- Bytes of a record at a checked place; the rest of one that crosses a page does not wait for a peer on its own. -/
def placeBytes (t : Thread) (p : Place) (n : Nat) (rest : Bool) : M (List Byte) :=
  match p with
  | .pad off => fun s => .ok (s.padBytes t.gang off n, s)
  | .peer dev va => do
    if rest then peerNow t dev va n none
    else
      peerM t dev va
      peerBytes n
  | .mem pa va leaf => do
    let s ← get
    if s.owesAt t.key pa n then waitM .load
    else
      homeM t pa va leaf none
      poisonM t pa n
      fun s => .ok (s.readThrough t pa n leaf)

namespace State

/-- Prepare the home for an atomic (R280): the bench's own untracked copy is written back and discarded; the copies of a
tracked line are recalled (log entry 15). -/
def beforeAtomic (s : State) (h : HomeAccess) : State :=
  if h.tracked then s.settleWrite h.pa
  else match (s.bench h.bench).l1Find h.ctx (h.pa / 128) with
    | some l => s.writeBack h.bench l true
    | none => s

/-- Perform an atomic at its home (R280, R285, R286): one that writes nothing is no release. -/
def performAtomic (s : State) (n : Nat) (h : HomeAccess) : State :=
  let s := (s.observe h.key h.part h.acq h.pa h.op.size).beforeAtomic h
  let old := leNat (s.bytesAt h.pa h.op.size)
  let s := match h.op.newBits old with
    | some v => (s.setBytes h.pa (leBytes h.op.size v)).releasedAt n h
    | none => s
  (s.homeRequest h.ctx h.pa 1 true).performed n h.key [BitVec.ofNat 64 old]

/-- Perform an access at its home, if nothing keeps it back (R272, R280). -/
def performHome (s : State) (n : Nat) : State :=
  match Map.get? s.home n with
  | none => s
  | some h =>
    if s.blocked n h then s
    else if s.refused h then s.refuse n h
    else if s.hostLines.contains (h.pa / 128) then
      -- the write waits for the host's answer to the snoop (R413)
      { s with snoops := if s.snoops.contains (h.pa / 128) then s.snoops else s.snoops ++ [h.pa / 128] }
    else
      match h.op with
      | .store bs => s.storeHome n h bs
      | .amo .. | .cas .. =>
        match (s.beforeAtomic h).poisoned h.pa h.op.size, s.thread? h.key with
        | some p, some t =>
          (((s.beforeAtomic h).departed n).poisonRecord t p).raiseHere h.key Cause.machineCheck (BitVec.ofNat 64 p) t.pc none
        | _, _ => s.performAtomic n h

/-- Serve a request at its object home (R267). -/
def serveRequest (s : State) (k : Nat) : State :=
  match s.objReqs[k]? with
  | none => s
  | some r => { s with objReqs := s.objReqs.eraseIdx k }.objTransition r.part r.bench r.obj r.write

end State

/-! ### Vector memory instructions in the sequencer -/

/-- Element size, base offset and stride of a vector memory instruction with a fixed stride (R252): the offset of
element e is base + e · stride. -/
def SeqEntry.strided (e : SeqEntry) : Option (Nat × Int) :=
  match e.instr with
  | .vld _ t _ _ | .vldff _ t _ _ | .vst _ t _ _ => some (t.bits / 8, ((t.bits / 8 : Nat) : Int))
  | .vlds _ t _ _ _ | .vsts _ t _ _ _ => some (t.bits / 8, ((e.xs[2]?).getD 0).toInt)
  | _ => none

/-- The instruction reads or writes memory through a segment. -/
def touchesMemory : Instr → Bool
  | .vld .. | .vlds .. | .vldx .. | .vldff .. | .vst .. | .vsts .. | .vstx .. | .vamo .. | .vwait ..
  | .tsampGrad .. | .tsampLod .. | .tsampBase .. | .tfetch .. | .vmm8 .. => true
  | _ => false

/-- Offset of element `k` of a strided instruction whose x(XB) + DISP is `o0` (R252). -/
def stridedOffset (o0 : Word) (stride : Int) (k : Nat) : Word := o0 + BitVec.ofInt 64 ((k : Int) * stride)

/-- Element size, index register and guard of an indexed vector memory instruction (R252, R287). -/
def indexedForm : Instr → Option (Nat × VReg × KReg)
  | .vldx _ ty _ vi l | .vstx _ ty _ vi l => some (ty.bits / 8, vi, l.kg)
  | .vamo _ _ ty _ _ _ vi l => some (ty.bits / 8, vi, l.kg)
  | _ => none

/-- Where an offset of a segment lies for a thread, by the translation in force, without a trace. -/
def State.whereIs (s : State) (t : Thread) (g : Segment) (o : Word) : Option Nat :=
  let va := g.base.toNat + o.toNat
  match g.type with
  | .null => none
  | .scratch => some (placeKey t.gang (.pad va))
  | .peer => some (placeKey t.gang (.peer g.peer.toNat va))
  | .global =>
    let leaf (e : Word) (size : Nat) : Option Nat :=
      if pteLoc e == 2 then some (placeKey t.gang (.peer (ptePeer e) va))
      else some (s.leafPa t.ctx va e size)
    match tlbFind (s.bench t.bench) t.ctx va with
    | some e => leaf e.leaf e.size
    | none => match walk s t.ctx va with
      | .leaf e size _ => leaf e size
      | _ => none

/-- Elements an entry has yet to perform with their offsets, and the element size, where both are known: a strided form, or an
indexed one whose index register no earlier entry may still write. -/
def SeqEntry.offsets (e : SeqEntry) (t : Thread) (oldest : Bool) : Option (Nat × List Word) :=
  let o0 := (e.xs[1]?).getD 0
  match e.strided, indexedForm e.instr with
  | some (sz, stride), _ =>
    let els := (List.range e.vl).filter fun k => decide (e.vstart ≤ k) && decide (e.entered * (128 / sz) ≤ k)
    some (sz, els.map fun k => stridedOffset o0 stride k)
  | none, some (sz, vi, kg) =>
    let els := (List.range e.vl).filter fun k =>
      decide (e.vstart ≤ k) && decide (e.entered * (128 / sz) ≤ k) && (t.guard kg).getLsbD k
    if oldest then some (sz, els.map fun k => o0 + BitVec.ofNat 64 (velem (t.getV vi) .n32 k)) else none
  | none, none => none

/-- An instruction in the sequencer may still access `n` bytes from `a` (R253); one whose addresses are not known may (log
entry 29). -/
def State.mayTouch (s : State) (t : Thread) (e : SeqEntry) (oldest : Bool) (a n : Nat) : Bool :=
  touchesMemory e.instr &&
  match e.offsets (t.asRead e) oldest with
  | none => true
  | some (sz, os) => os.any fun o => match s.whereIs t e.seg o with
    | some b => meets b sz a n
    | none => false

/-- A scalar access waits for the earlier vector memory instructions whose elements it overlaps (R253); a `vloop` with memory
members holds it whatever their addresses (log entry 29). -/
def State.vectorClear (s : State) (t : Thread) (p : Place) (n : Nat) : Bool :=
  let a := placeKey t.gang p
  !((List.range t.seq.length).any fun i => match t.seq[i]? with
    | some e => s.mayTouch t e (i == 0) a n
    | none => false)
  && !(match t.vloop with
       | some l => l.members.any fun e => touchesMemory e.instr
       | none => false)

/-- Wait until no earlier vector access of the thread overlaps a place (R253). -/
def vectorM (t : Thread) (p : Place) (n : Nat) : M Unit := do untilSeq ((← get).vectorClear t p n)

/-- Read bytes of a record through a segment at once, after its checks and every earlier access of the thread to them; each
page it lies in is translated (R234, R253). -/
def recordM (t : Thread) (g : Segment) (o : Word) (n a : Nat) : M (List Byte) := do
  let p ← accessM t g o n a .read
  vectorM t p n
  let room := match g.type with
    | .global => frameBytes - (g.base.toNat + o.toNat) % frameBytes
    | _ => n
  if n ≤ room then placeBytes t p n false
  else
    let q ← accessM t g (o + BitVec.ofNat 64 room) (n - room) 1 .read
    let bs ← placeBytes t p room false
    return bs ++ (← placeBytes t q (n - room) true)

/-! ### Order -/

/-- No instruction in the sequencer may still access memory. -/
def Thread.memoryClear (t : Thread) : Bool := !t.held.any fun e => touchesMemory e.instr

/-- Wait until every earlier access of the thread is performed (R275): its vector memory instructions and what it has sent
to the homes. -/
def releaseM (t : Thread) : M Unit := do
  untilSeq t.memoryClear
  let s ← get
  if s.owes t.key then waitM .load

/-- An access performed at its home whose answer the instruction needs (R280): it is sent once, and waited for. -/
def homeAnswerM (t : Thread) (h : HomeAccess) : M (List Word) := do
  let s ← get
  match t.asked with
  | .home n (some a) => if (Map.get? s.home n).isNone then return a else waitM .load 0 t.asked
  | .home _ none => waitM .load 0 t.asked
  | _ => do
    set (s.send h)
    waitM .load 0 (.home s.nextHome none)

end Sys2Proof.Machine
end

