-- ==== Sys2Proof/Machine/LoadStore.lean ====
section
/-!
DEFINITION. Scalar memory instructions, segment registers, and the steps of memory that serve them: MAJ 0x20, 0x21, 0x24,
0x25, LOAD_DATA_ARRIVAL, ACCESS_AT_HOME, L1_EVICTION, OBJECT_HOME_REQUEST, PAGE_WALK, LINE_FILL (R232 to R256, R261, R267,
R280, R281).
-/
namespace Sys2Proof.Machine

/-! ### Loads and stores -/

/-- The checked place of a scalar access, once no earlier vector access of the thread overlaps it (R234, R253). -/
def scalarPlace (t : Thread) (m : MAddr) (n : Nat) (kind : Kind) : M Place := do
  let p ← accessM t (t.getG m.g) (t.offset m) n n kind
  vectorM t p n
  return p

/-- Read one value into an x register, by an acquire of a scope if of any (R251, R284). -/
def loadTo (t : Thread) (d : XReg) (ty : Ty) (m : MAddr) (acq : Option Scope) : M Ending := do
  let p ← scalarPlace t m (ty.bits / 8) .read
  let bs ← loadM t p (ty.bits / 8) acq
  putM (t.setTy d ty (leNat bs))
  return .seq

/-- `ld` (R251). -/
def execLd (d : XReg) (ty : Ty) (m : MAddr) (s : State) : Result := runThread (.ld d ty m) s fun t => loadTo t d ty m none

/-- The bytes a store of a type writes. -/
def storeBytes (t : Thread) (d : XReg) (ty : Ty) : List Byte := leBytes (ty.bits / 8) (t.low d ty)

/-- `st` (R251). -/
def execSt (d : XReg) (ty : Ty) (m : MAddr) (s : State) : Result :=
  runThread (.st d ty m) s fun t => do
    let p ← scalarPlace t m (ty.bits / 8) .write
    storeM t p (storeBytes t d ty) none
    return .seq

/-- Request the line of `n` bytes of a region for `pref` (R255, R435): with `.l1` it enters the bench's L1, a tracked one after the
request its object's state asks for, unless it is there; else the shared level. No attribute is settled, since a prefetch changes no
state (log entry 103). -/
def prefLine (t : Thread) (sl : Bool) (g : Segment) (o : Word) (n : Nat) (s : State) : State :=
  let attrs := s.attrs
  match s.check t.agent (s.gangOf t) g o n 1 .read o with
  | (.ok (.mem pa _ leaf), s) =>
    let s := { s with attrs := attrs }
    if s.sharedFrame pa || (pteBit leaf 5 && s.homeRejects t.part pa) then s
    else if sl then s.touchLine t.ctx (pa / 128) false true
    else
      let s := if pteBit leaf 5 then s.objTransition t.part t.bench (s.objOf pa) false else s
      if (s.readL1 t.bench t.ctx (linePa (pa / 128)) 128).isSome then s else s.fillL1 t.core t.ctx pa
  | (_, s) => { s with attrs := attrs }

/-- Lines `pref` requests: `fuel` lines of virtual addresses from offset `o`, with the bytes of the `n` that lie in each, one byte
where there are none (R255). -/
def prefLines (t : Thread) (sl : Bool) (g : Segment) (o : Word) (n : Nat) : Nat → State → State
  | 0, s => s
  | k + 1, s =>
    let step := 128 - (g.base.toNat + o.toNat) % 128
    prefLines t sl g (o + BitVec.ofNat 64 step) (n - step) k (prefLine t sl g o (min (max n 1) step) s)

/-- Lines of 128 bytes that `n` bytes at offset `o` of a segment lie in; one for none (R255). -/
def prefCount (g : Segment) (o : Word) (n : Nat) : Nat :=
  if n = 0 then 1 else ((g.base.toNat + o.toNat) % 128 + n + 127) / 128

/-- `pref` (R255). -/
def execPref (sl : Bool) (m : MAddr) (xi : XReg) (s : State) : Result :=
  runThread (.pref sl m xi) s fun t => do
    let o := t.offset m
    let n := min (t.getX xi).toNat 65536
    modify (prefLines t sl (t.getG m.g) o n (prefCount (t.getG m.g) o n))
    return .seq

/-! ### Segment registers -/

/-- The segment four doubles describe, when the descriptor is well formed (R233); `own` is the device's own number. -/
def readDescriptor (own : Nat) (d : List Word) : Option Segment :=
  match d with
  | [d0, d1, d2, d3] =>
    let seg : Segment := {
      type := match (d2.extractLsb' 0 2).toNat with | 0 => .null | 1 => .global | 2 => .scratch | _ => .peer
      base := d0.setWidth 55
      size := d1.setWidth 56
      r := d2.getLsbD 7
      w := d2.getLsbD 6
      x := d2.getLsbD 5
      a := d2.getLsbD 4
      peer := d2.extractLsb' 16 10 }
    let reserved := d0.extractLsb' 55 9 == 0 && d1.extractLsb' 56 8 == 0 && (d2 &&& ~~~0x3FF00F3#64) == 0 && d3 == 0
    let limit := seg.base.toNat + seg.size.toNat
    let ok := match seg.type with
      | .null => d0 == 0 && d1 == 0 && d2 == 0
      | .global => decide (limit ≤ 2 ^ 55) && seg.peer == 0
      | .scratch => decide (limit ≤ 2 ^ 22) && !seg.x && seg.peer == 0
      | .peer => decide (limit ≤ 2 ^ 55) && !seg.x && seg.peer.toNat != own
    if reserved && ok then some seg else none
  | _ => none

/-- State of a context `segld` may write: Runnable, Waiting or Service (R238). -/
def Thread.open (t : Thread) : Bool :=
  match t.status with
  | .runnable | .waiting _ | .service _ => true
  | _ => false

/-- `segld` (R238). -/
def execSegld (d p : XReg) (gu : GReg) (q : XReg) (s : State) : Result :=
  runThread (.segld d p gu q) s fun t => do
    if !t.isHead && t.depth = 0 then trapM Cause.privilege (instrTval (.segld d p gu q))
    else
      let bs ← recordM t (t.getG gu) (t.getX q) 32 32
      let s ← get
      let w := t.getX p
      let c := (w.extractLsb' 0 4).toNat
      let r : GReg := w.extractLsb' 8 3
      let key := t.ctx * 16384 + t.core * 16 + c
      let target := if key = t.key then some t else s.thread? key
      let fit := match target with
        | some u => u.open
        | none => false
      if w.extractLsb' 11 53 ≠ 0 ∨ w.extractLsb' 4 4 ≠ 0 ∨ !fit ∨ (!t.isHead ∧ c ≠ t.context) then
        putM (t.setX d 1)
      else
        match readDescriptor s.ownNumber (doublesOf 4 bs) with
        | none => putM (t.setX d 2)
        | some g =>
          if r = 0 ∧ g.base.toNat % 64 ≠ 0 then putM (t.setX d 3)
          else if key = t.key then
            putM (((t.setX d 0).setG r g).completed.refetchIf r)
            return .stay
          else
            putM (t.setX d 0)
            modify fun s => s.onThread key fun u => { u with segNext := (r, g) :: u.segNext }
      return .seq

/-- `segnarrow` (R239). -/
def execSegnarrow (d : XReg) (gp gq : GReg) (u w : XReg) (rights : BitVec 4) (s : State) : Result :=
  simple s fun t =>
    let g := t.getG gq
    if gp = 0 then t.setX d 3
    else if g.type = .null then t.setX d 2
    else
      let off := (t.getX u).toNat
      let n := (t.getX w).toNat
      if g.size.toNat < off + n then t.setX d 1
      else
        (t.setX d 0).setG gp { g with
          base := g.base + BitVec.ofNat 55 off, size := BitVec.ofNat 56 n, r := g.r && rights.getLsbD 3,
          w := g.w && rights.getLsbD 2, x := g.x && rights.getLsbD 1, a := g.a && rights.getLsbD 0 }

/-- `segrd` (R240). -/
def execSegrd (d : XReg) (gp : GReg) (n : BitVec 2) (s : State) : Result :=
  simple s fun t => t.setX d ((t.getG gp).double n.toNat)

/-! ### Steps of memory -/

/-- LOAD_DATA_ARRIVAL (R251, R256): the data the thread `ev.a` waits for arrive; `ev.a` is its key. -/
def execLoadDataArrival (s : State) : Result :=
  match s.thread? s.ev.a with
  | none => .next s
  | some t =>
    match t.asked with
    | .peer dev => .next (if s.peerUp t.part dev then s.wake s.ev.a else s)
    | _ => .next (s.wake s.ev.a)

/-- ACCESS_AT_HOME (R280): the access numbered `ev.a` is performed at its home. -/
def execAccessAtHome (s : State) : Result := .next (s.performHome s.ev.a)

/-- L1_EVICTION (R261, R267, R269): the line `ev.c` of context `ev.b` leaves the L1 of bench `ev.a`; a bench that holds no
line of an object any more leaves it. With `ev.flag` the bench powers its L1 down, and every line leaves it. -/
def execL1Eviction (s : State) : Result :=
  let b := s.ev.a
  if s.ev.flag then .next (s.evictAll b fun _ => true)
  else
    match (s.bench b).l1Find s.ev.b s.ev.c with
    | none => .next s
    | some l => .next ((s.writeBack b l true).leaveObject b (linePa l.line))

/-- OBJECT_HOME_REQUEST (R267): the request at place `ev.a` of the queue is served; its object's earlier requests come
first. -/
def execObjectHomeRequest (s : State) : Result :=
  match s.objReqs[s.ev.a]? with
  | none => .next s
  | some r => .next (s.serveRequest ((s.objReqs.findIdx? fun q => q.obj == r.obj).getD s.ev.a))

/-- PAGE_WALK (R244, R246): the translations of the addresses `ev.nums` of context `ev.b` are walked into the TLB of core
`ev.c` of bench `ev.a` and into its die's. -/
def execPageWalk (s : State) : Result :=
  .next (s.ev.nums.foldl (fun s va => (s.leafFor (8 * s.ev.a + s.ev.c % 8) s.ev.b va).2) s)

/-- The line of code a thread waits for. -/
def Asked.code? : Asked → Option Nat
  | .line pa | .handler (some pa) _ => some pa
  | _ => Option.none

/-- The line a thread waits for is filled and the thread is woken; poisoned bytes raise Machine Check in it (R281, R425). -/
def State.lineArrives (s : State) (t : Thread) (pa : Nat) : State :=
  match s.poisoned pa 64 with
  | some p => (s.poisonRecord t p).raiseWaiting t Cause.machineCheck (BitVec.ofNat 64 p)
  | none => (s.fillLine t.core t.ctx pa).wake t.key

/-- A peer answers the fetch of a line: with its bytes, with a wait for a page there, or with the cause it raised, which makes
a trap entry in progress undeliverable (R241, R365). -/
def State.peerLine (s : State) (t : Thread) (w : Wait) (pa : Nat) : State :=
  let va := pa % 2 ^ 60
  let (f, s) := s.takeFree
  match Config.peerOutcome f, w.asked with
  | 0, _ => s.lineArrives t pa
  | 1, .handler .. => s.startWait t.key w.instr .page 0 (.handler none [va])
  | 1, _ => s.startWait t.key w.instr .page 0 (.pages [va])
  | n, _ => s.raiseWaiting t (peerCause n) (BitVec.ofNat 64 va)

/-- LINE_FILL (R281, R447): the line the thread `ev.a` waits for is filled from its home into its bench's L1 instruction
cache, and the thread is woken. -/
def execLineFill (s : State) : Result :=
  match s.thread? s.ev.a with
  | none => .next s
  | some t =>
    match t.waitOf, t.asked.code? with
    | some w, some pa =>
      if pa < 2 ^ 60 then .next (s.lineArrives t pa)
      else .next (if s.peerUp t.part (pa / 2 ^ 60 - 1) then s.peerLine t w pa else s)
    | _, _ => .next s

end Sys2Proof.Machine
end

