-- ==== Sys2Proof/Machine/Queues.lean ====
section
/-!
DEFINITION. Sprues as their homes keep them (R257, R297 to R302): what is full, what is eligible, a push and a take, and the
ladle's notifications (R360).
-/
namespace Sys2Proof.Machine

/-- KEY of an entry (R298). -/
def entryKey (words : List Word) : Nat := fieldAt ((words[2]?).getD 0) 0 32

namespace State

/-- A sprue bound in a context. -/
def sprue? (s : State) (ctx h : Nat) : Option Sprue := match s.ctx? ctx with
  | some c => Map.get? c.sprues h
  | none => none

/-- Put a sprue. -/
def putSprue (s : State) (ctx h : Nat) (q : Sprue) : State := match s.ctx? ctx with
  | some c => s.putCtx ctx { c with sprues := Map.put c.sprues h q }
  | none => s

/-- The sprue counter is sealed (R299). -/
def sprueSealed (s : State) (ctx : Nat) (q : Sprue) : Bool := q.donec != noCounter && (s.counter ctx q.donec).sealed

/-- A child more, or less, of the sprue counter, whatever its STATE (R299, R302). -/
def sprueChild (s : State) (ctx : Nat) (q : Sprue) (more err : Bool) : State :=
  if more then s.addPending ctx q.donec 1 else s.childDone ctx q.donec err

/-- The near or far physical address a virtual address of a context translates to for a read, without a trace (R300). -/
def translated (s : State) (ctx va : Nat) : Option Nat :=
  match s.ctx? ctx, walk s ctx va with
  | some c, .leaf e size _ =>
    let pa := s.leafPa ctx va e size
    if leafPermits e .read && pteLoc e != 2 && s.ownerOk ctx c.part pa then some pa else none
  | _, _ => none

/-- Die of the sub-queue an entry joins: that of its tile's home, or by the tile's number (R300). -/
def entryDie (s : State) (ctx : Nat) (q : Sprue) (words : List Word) : Nat :=
  match q.kind with
  | .tile =>
    let tile := entryKey words / 4096
    match s.translated ctx (q.rtbase + tile * q.tstride.toNat) with
    | some pa => sliceDie (homeSlice (pa % farBase))
    | none => tile % 8
  | _ => 0

/-- Append an entry with the next SEQ (R300, R302). -/
def pushEntry (s : State) (ctx h : Nat) (q : Sprue) (words : List Word) : State :=
  let e : SprueEntry := ⟨q.next, words, s.entryDie ctx q words, none⟩
  (s.putSprue ctx h { q with entries := q.entries ++ [e], next := q.next + 1 }).sprueChild ctx q true false

end State

/-- No entry is free (R297, R302). -/
def Sprue.full (q : Sprue) : Bool := decide (2 ^ q.logcap ≤ q.entries.length)

/-- The entry with the smallest KEY, the earliest of equals (R300). -/
def smallestKey : List SprueEntry → Option SprueEntry
  | [] => none
  | e :: es => match smallestKey es with
    | some m => if entryKey m.words < entryKey e.words then some m else some e
    | none => some e

/-- The entry `qtake` would return to a taker on a die (R300). -/
def Sprue.eligible (q : Sprue) (die : Nat) : Option SprueEntry :=
  match q.kind with
  | .fifo => q.entries.head?
  | .sorted => smallestKey (q.entries.take 256)
  | .tile => q.entries.find? fun e => e.die == die
  | .encoder => none

/-- The sprue with an entry taken by a gang. -/
def Sprue.take (q : Sprue) (e : SprueEntry) (gang : Nat) : Sprue :=
  { q with entries := q.entries.filter (·.seq != e.seq), taken := q.taken ++ [{ e with holder := some gang }] }

namespace State

/-- A notification of the ladle about a page: USER 1 to 3; a push to a full or sealed sprue, or to none, is dropped
(R360). -/
def notifyPage (s : State) (ctx va user : Nat) : State :=
  match s.ctx? ctx with
  | none => s
  | some c =>
    let dropped := s.count 6 (s.ladleDie ctx va) (some ctx) 0x63 1
    match s.sprue? ctx c.nsprue with
    | none => dropped
    | some q =>
      if q.full || s.sprueSealed ctx q then dropped
      else s.pushEntry ctx c.nsprue q [0, BitVec.ofNat 64 va, BitVec.ofNat 64 c.hot, BitVec.ofNat 64 user]

end State
end Sys2Proof.Machine
end

