-- ==== Sys2Proof/Machine/Order.lean ====
section
/-!
DEFINITION. Order, atomics, coherence objects and cache instructions: MAJ 0x28 to 0x2F but for `vamo`, RING_ANNOUNCEMENT
and PAGE_WAKE (R245, R248, R263 to R292).
-/
namespace Sys2Proof.Machine

/-! ### Announcements on the ring (R266) -/

namespace State

/-- Benches of a partition, rising (R343). -/
def partBenches (s : State) (part : Nat) : List Nat := match Map.get? s.parts part with
  | some p => (p.quarters.map (· / 4)).eraseDups
  | none => []

/-- Insert an announcement of a context on the ring for the benches that act on it; its number is the old `nextRing`, and it counts at
a slice that the spec does not name (R266, R395; log entry 22). -/
def announce (s : State) (ctx : Nat) (bs : List Nat) (a : Announce) : State :=
  let s := s.count 0 (Config.ringSlice s.nextRing % 256) (some ctx) 0x06 1
  { s with ring := s.ring ++ [(s.nextRing, (bs, a))], nextRing := s.nextRing + 1 }

/-- Discard the translations of a range of a context in the TLB of a bench and in that of its die, so that the bench finds the
new entry from now on (R245). -/
def tlbDrop (s : State) (bench ctx va n : Nat) : State :=
  let keep (es : List TlbEntry) : List TlbEntry := es.filter fun e => !(e.ctx == ctx && meets e.va e.size va n)
  let b := s.bench bench
  { s.putBench bench { b with tlb := keep b.tlb } with dieTlbs := Map.modify s.dieTlbs (bench / 16) keep }

/-- The wake for a page: a thread in Service whose event names an address of the page is Runnable again, and reissues its
instruction (R87; log entry 81); of one that is switched out the wake is kept until Restore (R356). -/
def endService (page ctx : Nat) (t : Thread) : Thread :=
  match t.status with
  | .service f =>
    if t.ctx != ctx || f.value.toNat / frameBytes != page then t
    else if t.parked then { t with reply := some (t.reply.getD 0) }
    else t.reissued f
  | _ => t

/-- Wake the threads of a context that wait for the page of an address (R87, R248, R364), and record it (R405). -/
def wakePage (s : State) (ctx va : Nat) : State :=
  let page := va / frameBytes
  let waits (w : Wait) : Bool := match w.asked with
    | .pages vas => vas.any (· / frameBytes == page)
    | .handler _ vas => vas.any (· / frameBytes == page)
    | _ => false
  let mine := s.threads.filter fun p => p.2.ctx == ctx && (match p.2.waitOf with | some w => waits w && !w.woken | none => false)
  let s := mine.foldl (fun s p => (s.wake p.1).assayThread p.2 0x22 (va / 128)) s
  { s with threads := s.threads.map fun p => (p.1, endService page ctx p.2) }

/-- What a bench does when an announcement reaches it. -/
def receive (s : State) (bench : Nat) : Announce → State
  | .shootdown ctx va n => s.tlbDrop bench ctx va n
  | .icinv ctx lines =>
    let b := s.bench bench
    s.putBench bench { b with il1 := b.il1.filter fun l => !(l.ctx == ctx && lines.contains (l.line / 64)) }
  | .claim frame => s.evictAll bench fun l => linePa l.line / frameBytes == frame
  | .drain ctx va frame | .release ctx va frame =>
    (s.tlbDrop bench ctx va frameBytes).evictAll bench fun l => linePa l.line / frameBytes == frame
  | .pageIn .. | .object => s

/-- Objects with a line in a frame go Invalid: their holders write back and discard their copies, in every frame they cover
(R267, R361). -/
def frameObjects (s : State) (frame : Nat) : State :=
  let ns := (s.objs.filter fun o => o.2.lines.any (linePa · / frameBytes == frame)).map (·.1)
  (ns.foldl (fun s n => s.objRecall (.declared n)) s).objRecall (.page frame)

/-- The lines, words and tags of a frame that a page has left are no one's any more (R361; log entry 99). -/
def leaveFrame (s : State) (frame : Nat) : State :=
  { s with
    objs := s.objs.map fun o => (o.1, { o.2 with
      lines := o.2.lines.filter fun l => linePa l / frameBytes != frame, words := o.2.words.filter fun w => w / frameBytes != frame })
    fullTags := s.fullTags.filter fun w => w.1 / frameBytes != frame }

/-- Threads that wait for claims to end are woken (R282). -/
def wakeClaims (s : State) : State :=
  { s with threads := s.threads.map fun p =>
      match p.2.status with
      | .waiting w => match w.asked with
        | .pages _ | .handler _ (_ :: _) => (p.1, { p.2 with status := .waiting { w with woken := true } })
        | _ => p
      | _ => p }

/-- What an announcement does once every bench has it. -/
def announced (s : State) (n : Nat) (a : Announce) : State :=
  let s := { s with ring := s.ring.filter fun r => r.1 != n }
  let s := { s with threads := s.threads.map fun p =>
    match p.2.status with
    | .waiting w => if w.asked == .ring n then (p.1, { p.2 with status := .waiting { w with woken := true } }) else p
    | _ => p }
  match a with
  | .claim frame => { s with attrs := Map.put s.attrs frame .tracked, claims := s.claims.filter (· != frame) }.wakeClaims
  | .drain _ _ frame => s.frameObjects frame
  | .release ctx va frame =>
    let s := (s.leaveFrame frame).wakePage ctx va
    let auto := s.migrations.any fun m => m.ctx == ctx && m.va == va && m.auto
    match s.ctx? ctx with
    | some _ =>
      let s := { s with migrations := s.migrations.filter fun m => !(m.ctx == ctx && m.va == va) }
      if auto then s.notifyPage ctx va 2 else s
    | none => s
  | .pageIn ctx va => s.wakePage ctx va
  | _ => s

/-- A bench receives the oldest announcement it has yet to receive; the last bench ends it. An announcement with no
bench to reach ends at once. -/
def deliverRing (s : State) (bench : Nat) : State :=
  match s.ring.find? fun r => r.2.1.isEmpty || r.2.1.contains bench with
  | none => s
  | some (n, (left, a)) =>
    let s := if left.isEmpty then s else s.receive bench a
    let left := left.filter (· != bench)
    if left.isEmpty then s.announced n a
    else { s with ring := s.ring.map fun r => if r.1 == n then (n, (left, a)) else r }

end State

/-- RING_ANNOUNCEMENT (R266): bench `ev.a` receives its next announcement and acts on it. -/
def execRingAnnouncement (s : State) : Result := .next (s.deliverRing s.ev.a)

/-- PAGE_WAKE (R248): the wake for the page of `ev.b` arrives at the waiting threads of context `ev.a`. -/
def execPageWake (s : State) : Result := .next (s.wakePage s.ev.a s.ev.b)

/-! ### Fences (R283) -/

/-- A stream has elements that have not arrived: it has not completed (R223, R225, R283). -/
def Stream.fetching (b : Stream) : Bool := decide (b.consumed + b.arrived.length < b.count)

/-- The chase unit holds a commit or retirement of thread `key` that it has yet to apply (R336, R338). -/
def State.blending (s : State) (key : Nat) : Bool :=
  s.tickets.any (fun r => r.2.key == key) || s.tiles.any fun t => t.2.commits.any fun c => c.key == key

/-- The thread has an engine operation that is pending: of the anvil, of the drawplate, a stream, or a
blend (R278, R283). -/
def Thread.engines (t : Thread) (s : State) : Bool :=
  (s.bench t.bench).anvil.any (fun o => o.key == t.key) || t.plate.any (fun o => o.status == .pending)
    || t.w.toList.any (fun b => b.any Stream.fetching) || s.blending t.key

/-- What a fence of some kinds still waits for (R277, R283): with L or S the thread's vector accesses; with S its stores on their
way to the homes, unless they are ordered within the thread alone; with E its engines. -/
def fenceWaits (s : State) (t : Thread) (sc : Scope) (e st l : Bool) : Bool :=
  ((l || st) && !t.memoryClear) || (st && sc != .thread && s.owes t.key) || (e && t.engines s)

/-- `fence` (R283). -/
def execFence (sc : Scope) (i e st l : Bool) (s : State) : Result :=
  runThread (.fence sc i e st l) s fun t => do
    let s ← get
    if fenceWaits s t sc e st l then waitM .load
    else if i then
      putM t.refetches
      return .stay
    else return .seq

/-! ### Acquire loads, release stores, atomics (R284 to R286) -/

/-- `ldacq` (R284): later accesses of the thread follow, since it waits for its data. -/
def execLdacq (d : XReg) (ty : Ty) (m : MAddr) (sc : Scope) (s : State) : Result :=
  runThread (.ldacq d ty m sc) s fun t => loadTo t d ty m (beyond sc)

/-- What a release of a scope waits for before its write to a place (R275): the thread's vector accesses; and, where the write
goes to a peer, the stores it has sent to the homes, which else `State.release` orders. -/
def releaseIn (t : Thread) (sc : Scope) (p : Place) : M Unit := do
  untilSeq t.memoryClear
  let s ← get
  match sc, p with
  | .thread, _ => pure ()
  | _, .peer .. => if s.owes t.key then waitM .load
  | _, _ => pure ()

/-- `strel` (R284): after every earlier access, and until its own write is performed. -/
def execStrel (d : XReg) (ty : Ty) (m : MAddr) (sc : Scope) (s : State) : Result :=
  runThread (.strel d ty m sc) s fun t =>
    match t.asked with
    | .home n none => do
      let s ← get
      if (Map.get? s.home n).isNone then return .seq else waitM .load 0 t.asked
    | .home _ (some _) => return .seq
    | _ => do
      let p ← scalarPlace t m (ty.bits / 8) .write
      releaseIn t sc p
      let before ← get
      storeM t p (storeBytes t d ty) (beyond sc)
      let after ← get
      if after.nextHome = before.nextHome then return .seq else waitM .load 0 (.home before.nextHome none)

/-- What `amo` or `cas` does at its location (R285, R286). -/
def amoHome (o : Amo) (op : Option AmoOp) (t : Thread) : HomeOp :=
  match op with
  | some a => .amo a o.t (t.low o.xi o.t)
  | none => .cas o.t (t.low o.d o.t) (t.low o.xi o.t)

/-- The scope of the release order of an atomic, if it has one that takes in another thread (R284). -/
def amoRel (o : Amo) : Option Scope := if o.ord = .rel ∨ o.ord = .ar then beyond o.sc else none
/-- The scope of the acquire order of an atomic, if it has one that takes in another thread (R284). -/
def amoAcq (o : Amo) : Option Scope := if o.ord = .acq ∨ o.ord = .ar then beyond o.sc else none

/-- Earlier accesses come first when the order asks for release (R275). -/
def amoRelease (o : Amo) (t : Thread) (p : Place) : M Unit :=
  if o.ord = .rel ∨ o.ord = .ar then releaseIn t o.sc p else pure ()

/-- An atomic of a thread as an access at its home. -/
def amoAccess (t : Thread) (o : Amo) (pa va : Nat) (leaf : Word) (h : HomeOp) : HomeAccess :=
  ⟨t.key, t.bench, t.ctx, t.part, pa, va, pteBit leaf 5, h, amoRel o, amoAcq o⟩

/-- An atomic of a thread: at the bank of a scratchpad word, at the home of a line, or at a peer, whose old value is a
free value (R280). The old value goes to x(D). -/
def atomicTo (t : Thread) (o : Amo) (op : Option AmoOp) : M Ending := do
  let n := o.t.bits / 8
  let h := amoHome o op t
  match t.asked with
  | .home _ (some a) =>
    putM (t.setTy o.d o.t ((a[0]?).getD 0).toNat)
    return .seq
  | .home .. => waitM .load 0 t.asked
  | _ =>
    let p ← scalarPlace t o.m n .atomic
    amoRelease o t p
    match p with
    | .pad off =>
      observeM t (amoAcq o) p n
      let s ← get
      let old := leNat (s.padBytes t.gang off n)
      match h.newBits old with
      | some v => set ((s.padPut t.gang off (leBytes n v)).releases t (amoRel o) p n)
      | none => pure ()
      putM (t.setTy o.d o.t old)
      return .seq
    | .peer dev va =>
      peerM t dev va
      let bs ← peerBytes n
      putM (t.setTy o.d o.t (leNat bs))
      return .seq
    | .mem pa va leaf =>
      homeM t pa va leaf none
      let a ← homeAnswerM t (amoAccess t o pa va leaf h)
      putM (t.setTy o.d o.t ((a[0]?).getD 0).toNat)
      return .seq

/-- `amo.add` (R285). -/
def execAmoAdd (o : Amo) (s : State) : Result := runThread (.amoAdd o) s fun t => atomicTo t o (some .add)
/-- `amo.and` (R285). -/
def execAmoAnd (o : Amo) (s : State) : Result := runThread (.amoAnd o) s fun t => atomicTo t o (some .and)
/-- `amo.or` (R285). -/
def execAmoOr (o : Amo) (s : State) : Result := runThread (.amoOr o) s fun t => atomicTo t o (some .or)
/-- `amo.xor` (R285). -/
def execAmoXor (o : Amo) (s : State) : Result := runThread (.amoXor o) s fun t => atomicTo t o (some .xor)
/-- `amo.min` (R285). -/
def execAmoMin (o : Amo) (s : State) : Result := runThread (.amoMin o) s fun t => atomicTo t o (some .min)
/-- `amo.max` (R285). -/
def execAmoMax (o : Amo) (s : State) : Result := runThread (.amoMax o) s fun t => atomicTo t o (some .max)
/-- `amo.min.n` (R285). -/
def execAmoMinN (o : Amo) (s : State) : Result := runThread (.amoMinN o) s fun t => atomicTo t o (some .minN)
/-- `amo.max.n` (R285). -/
def execAmoMaxN (o : Amo) (s : State) : Result := runThread (.amoMaxN o) s fun t => atomicTo t o (some .maxN)
/-- `amo.swap` (R285). -/
def execAmoSwap (o : Amo) (s : State) : Result := runThread (.amoSwap o) s fun t => atomicTo t o (some .swap)
/-- `amo.fadd` (R81, R285): RNE, FZ ignored, no flag set. -/
def execAmoFadd (o : Amo) (s : State) : Result := runThread (.amoFadd o) s fun t => atomicTo t o (some .fadd)
/-- `cas` (R286). -/
def execCas (o : Amo) (s : State) : Result := runThread (.cas o) s fun t => atomicTo t o none

/-! ### Regions (R234, R291) -/

/-- The 64 KiB pieces of a range of virtual addresses: address and length. -/
def pieces (va n : Nat) : List (Nat × Nat) :=
  if n = 0 then []
  else
    (List.range ((va + n - 1) / frameBytes - va / frameBytes + 1)).map fun i =>
      let a := max va ((va / frameBytes + i) * frameBytes)
      (a, min (va + n) ((va / frameBytes + i + 1) * frameBytes) - a)

/-- What the translation of one page of a region finds; no access is made, so no attribute is settled and no D is set. -/
inductive RegionPage where
  | absent
  | blocked
  | fails (c : BitVec 8) (v : Word)
  | mem (pa : Nat) (leaf : Word)
  | peer (dev va : Nat)
  deriving DecidableEq, Repr

/-- Translate one page of a region, for a kind or for none (R244, R247, R248). -/
def State.regionPage (s : State) (t : Thread) (va : Nat) (kind : Option Kind) : RegionPage × State :=
  let tv : Word := BitVec.ofNat 64 va
  match s.leafFor t.core t.ctx va with
  | (.absent, s) => (.absent, s)
  | (.refused c, s) => (.fails c tv, s)
  | (.poisoned p, s) => (.fails Cause.machineCheck (BitVec.ofNat 64 p), s.poisonRecord t p)
  | (.leaf e size _, s) =>
    if kind.any fun k => !leafPermits e k then (.fails Cause.pagePermission tv, s)
    else if (kind.any Kind.writes) && s.writeHeld t.ctx va e then (.blocked, s)
    else if pteLoc e == 2 then (.peer (ptePeer e) va, s)
    else
      let pa := s.leafPa t.ctx va e size
      if !s.ownerOk t.ctx t.part pa then (.fails Cause.frameOwner tv, s) else (.mem pa e, s)

/-- The context of a thread asks for traps at absent pages (R248). -/
def State.nptrap (s : State) (t : Thread) : Bool := match s.ctx? t.ctx with
  | some c => c.nptrap
  | none => false

/-- Where a region lies that has been checked as a whole (R234). -/
inductive Region where
  | pad
  | peer (va : Nat)
  | mem (va : Nat)
  deriving DecidableEq, Repr

/-- The first virtual address of a region whose pages are translated here; the pages of the others are passed over (R291). -/
def Region.here : Region → Option Nat
  | .mem va => some va
  | _ => none

/-- The check of a region as a whole (R234). -/
def regionM (t : Thread) (g : Segment) (o : Word) (n : Nat) (kind : Kind) : M Region := fun s =>
  match g.refuses o n 1 kind with
  | some c => .error (.trap s c o none)
  | none =>
    let va := g.base.toNat + o.toNat
    match g.type with
    | .scratch => match allotMiss (s.gangOf t) va n with
      | some m => .error (.trap s Cause.segmentLimit (BitVec.ofNat 64 m) none)
      | none => .ok (.pad, s)
    | .peer => .ok (.peer va, s)
    | _ => .ok (.mem va, s)

/-- The present pages of a region, with the pieces of it in them; absent ones are passed over, blocked ones waited for. -/
def regionPages (t : Thread) (kind : Kind) : List (Nat × Nat) → M (List (Nat × Nat × RegionPage))
  | [] => return []
  | (va, n) :: rest => do
    let s ← get
    let (p, s) := s.regionPage t va (some kind)
    set s
    match p with
    | .fails c v => trapM c v
    | .blocked => waitM .page 0 (.pages [va])
    | .absent => regionPages t kind rest
    | p => return (va, n, p) :: (← regionPages t kind rest)

/-! ### L1 instructions (R291) -/

/-- What `wb`, `inv` and `wbinv` do to a line. -/
inductive LineOp where
  | wb | inv | wbinv
  deriving DecidableEq, Repr

/-- Act on the untracked lines of a context in a bench's L1 that satisfy `p`, in increasing address. -/
def State.l1Op (s : State) (bench ctx : Nat) (op : LineOp) (p : Nat → Bool) : State :=
  let mine := fun l : L1Line => l.ctx == ctx && p l.line && !s.lineTracked bench l.line
  match op with
  | .wb => s.writeBackAll bench mine false
  | .wbinv => s.writeBackAll bench mine true
  | .inv =>
    let b := s.bench bench
    let gone (x : Nat × Nat) : Bool := b.l1.any fun l => mine l && x == (l.ctx, l.line)
    s.putBench bench { b with l1 := b.l1.filter (fun l => !mine l), badLines := b.badLines.filter (!gone ·) }

/-- The lines of the pieces found near or far, KIND 3 frames passed over. -/
def regionHas (s : State) (ps : List (Nat × Nat × RegionPage)) (line : Nat) : Bool :=
  ps.any fun q => match q.2.2 with
    | .mem pa _ => !s.sharedFrame pa && decide (pa / 128 ≤ line) && decide (line * 128 < pa + q.2.1)
    | _ => false

/-- `wb`, `inv` and `wbinv` of a region (R291); the write-backs are performed within the step. An empty region completes without a check:
the model's choice (log entry 111). -/
def lineRegion (t : Thread) (op : LineOp) (gp : GReg) (q u : XReg) : M Ending := do
  let n := (t.getX u).toNat
  untilSeq t.memoryClear
  if n = 0 then return .seq
  else
    let kind : Kind := if op = .wb then .read else .write
    let v ← regionM t (t.getG gp) (t.getX q) n kind
    match v.here with
    | none => return .seq
    | some va =>
      let ps ← regionPages t kind (pieces va n)
      modify fun s => s.l1Op t.bench t.ctx op (regionHas s ps)
      return .seq

/-- `wb`, `inv` and `wbinv` of every line of the context in the bench's L1 (R291). -/
def lineAll (t : Thread) (op : LineOp) : M Ending := do
  untilSeq t.memoryClear
  modify fun s => s.l1Op t.bench t.ctx op fun _ => true
  return .seq

/-- `wb` (R291). -/
def execWb (gp : GReg) (q u : XReg) (s : State) : Result := runThread (.wb gp q u) s fun t => lineRegion t .wb gp q u
/-- `inv` (R291). -/
def execInv (gp : GReg) (q u : XReg) (s : State) : Result := runThread (.inv gp q u) s fun t => lineRegion t .inv gp q u
/-- `wbinv` (R291). -/
def execWbinv (gp : GReg) (q u : XReg) (s : State) : Result :=
  runThread (.wbinv gp q u) s fun t => lineRegion t .wbinv gp q u
/-- `wb.all` (R291). -/
def execWbAll (s : State) : Result := runThread .wbAll s fun t => lineAll t .wb
/-- `inv.all` (R291). -/
def execInvAll (s : State) : Result := runThread .invAll s fun t => lineAll t .inv
/-- `wbinv.all` (R291). -/
def execWbinvAll (s : State) : Result := runThread .wbinvAll s fun t => lineAll t .wbinv

/-! ### Instruction caches (R292) -/

/-- The 64-byte lines of the pieces of a region, as instruction caches number them. -/
def regionCode (ps : List (Nat × Nat × RegionPage)) : List Nat :=
  ps.flatMap fun q =>
    let lines (pa : Nat) := (List.range ((pa + q.2.1 - 1) / 64 - pa / 64 + 1)).map (pa / 64 + ·)
    match q.2.2 with
    | .mem pa _ => lines pa
    | .peer d va => lines (Place.codePa (.peer d va))
    | _ => []

/-- A thread waits until its announcement, the last inserted, has reached every bench. -/
def ringWait : M Ending := fun s => .error (.wait s .load 0 (.ring (s.nextRing - 1)))

/-- `icinv` (R292): the bench at once, a die or a partition by the ring. An empty region is not checked: the model's choice (log entry
111). -/
def execIcinv (sc : Scope) (gp : GReg) (q u : XReg) (s : State) : Result :=
  runThread (.icinv sc gp q u) s fun t =>
    match t.asked with
    | .ring _ => return .seq
    | _ => do
      let n := (t.getX u).toNat
      let v ← if n = 0 then pure .pad else regionM t (t.getG gp) (t.getX q) n .fetch
      let ps ← match v.here with
        | some va => regionPages t .fetch (pieces va n)
        | none => pure []
      let lines := regionCode ps
      match sc with
      | .die | .partition =>
        modify fun s => s.announce t.ctx ((s.partBenches t.part).filter fun b => sc = .partition || b / 16 = t.die) (.icinv t.ctx lines)
        ringWait
      | _ =>
        modify fun s => s.receive t.bench (.icinv t.ctx lines)
        return .seq

/-- `ifence` (R292): the heads fetched and not executed are discarded. -/
def execIfence (s : State) : Result := match s.curThread with
  | some t => .next (s.putThread t.refetches)
  | none => .fault .noThread

/-! ### Coherence objects (R263, R288, R289) -/

/-- The fields of a shape record (R263). -/
structure Shape where
  base : Nat
  fe : Bool
  size : Nat
  ext : List Nat
  pitch : List Nat
  deriving DecidableEq, Repr

/-- Read a shape record, when its reserved bits, extents and pitches are as R263 states and the footprint lies within
64 GiB above BASE. -/
def readShape (d : List Word) : Option Shape :=
  match d with
  | [d0, d1, d2, d3, p0, p1, p2, p3] =>
    let nd := (d1.extractLsb' 2 2).toNat + 1
    let ext := [d2.extractLsb' 0 32, d2.extractLsb' 32 32, d3.extractLsb' 0 32, d3.extractLsb' 32 32].map BitVec.toNat
    let pitch := [p0, p1, p2, p3].map BitVec.toNat
    let size := 2 ^ (d1.extractLsb' 0 2).toNat
    let span := ((ext.take nd).zip (pitch.take nd)).foldl (fun a p => a + (p.1 - 1) * p.2) size
    if d0.extractLsb' 55 9 = 0 ∧ d1.extractLsb' 5 59 = 0 ∧ (ext.take nd).all (· != 0) ∧ (ext.drop nd).all (· == 0)
        ∧ (pitch.drop nd).all (· == 0) ∧ span ≤ 2 ^ 36 then
      some ⟨d0.toNat, d1.getLsbD 4, size, ext.take nd, pitch.take nd⟩
    else none
  | _ => none

/-- Offsets of the elements of a shape, each once. -/
def shapeOffsets : List (Nat × Nat) → List Nat
  | [] => [0]
  | (ext, pitch) :: rest =>
    let inner := shapeOffsets rest
    (inner.flatMap fun o => (List.range ext).map fun i => o + i * pitch).eraseDups

/-- Virtual units of `2^k` bytes the footprint touches. -/
def Shape.units (h : Shape) (unit : Nat) : List Nat :=
  ((shapeOffsets (h.ext.zip h.pitch)).flatMap fun o =>
    let a := h.base + o
    (List.range ((a + h.size - 1) / unit - a / unit + 1)).map (a / unit + ·)).eraseDups

/-- What the pages of a shape are: valid, with the place of each page, or not valid (R263). -/
def shapePages (t : Thread) (fe : Bool) : List Nat → M (Option (List (Nat × Nat)))
  | [] => return some []
  | page :: rest => do
    let va := page * frameBytes
    if 2 ^ 55 ≤ va then return none
    let s ← get
    let (p, s) := s.regionPage t va none
    set s
    match p with
    | .absent => if s.nptrap t then trapM Cause.pageNotPresent (BitVec.ofNat 64 va) else waitM .page 0 (.pages [va])
    | .mem pa leaf =>
      let kindOk := farBase ≤ pa || (let k := State.ownerKind (s.owner (pa / frameBytes)); k == 1 || k == 2)
      if pteBit leaf 5 && (!fe || pteBit leaf 6) && kindOk then
        return (← shapePages t fe rest).map fun ps => (page, pa) :: ps
      else return none
    | _ => return none

/-- Physical address of a virtual one, by the pages found. -/
def pageAt (ps : List (Nat × Nat)) (va : Nat) : Nat :=
  match ps.find? fun p => p.1 == va / frameBytes with
  | some p => p.2 + va % frameBytes
  | none => 0

/-- First free number of a partition's object table, if it has one (R264). -/
def State.freeObject (s : State) (part : Nat) : Option Nat :=
  let cap := match Map.get? s.parts part with
    | some p => 1024 * p.quarters.length
    | none => 0
  (List.range cap).find? fun n => (Map.get? s.objs (part * 2 ^ 19 + n)).isNone

/-- The bytes of lines leave every L1 that holds tracked copies of them, written back (R267). -/
def State.recallLines (s : State) (lines : List Nat) : State :=
  s.benches.foldl (fun s b => s.evictAll b.1 fun l => lines.contains l.line) s

/-- `objdecl` (R288): status 2, then 3, then 1; the tags of the footprint's words become empty (R426). -/
def execObjdecl (d : XReg) (gp : GReg) (q : XReg) (s : State) : Result :=
  runThread (.objdecl d gp q) s fun t =>
    match t.asked with
    | .ring _ => return .seq
    | _ => do
      let bs ← recordM t (t.getG gp) (t.getX q) 64 64
      let refusal (st : Nat) : M Ending := do
        putM (t.setX d (BitVec.ofNat 64 (2 ^ 63 + st * 2 ^ 60)))
        return .seq
      match readShape (doublesOf 8 bs) with
      | none => refusal 2
      | some h =>
        match ← shapePages t h.fe (h.units frameBytes) with
        | none => refusal 2
        | some ps =>
          let lines := ((h.units 128).map fun u => pageAt ps (u * 128) / 128).eraseDups
          let words := if h.fe then ((h.units 8).map fun u => pageAt ps (u * 8)).eraseDups else []
          let s ← get
          if s.objs.any fun o => o.2.lines.any lines.contains then refusal 3
          else
            match s.freeObject t.part with
            | none => refusal 1
            | some n =>
              let s := s.recallLines lines
              set ({ s with
                objs := Map.put s.objs (t.part * 2 ^ 19 + n) ⟨t.ctx, t.part, lines, words, .invalid⟩
                fullTags := words.foldl (fun m w => Map.del m w) s.fullTags }.announce t.ctx (s.partBenches t.part) .object)
              putM (t.setX d (BitVec.ofNat 64 n))
              ringWait

/-- Free the entry of an object: its lines pass to their page objects and its words lose their tags (R228, R289). -/
def State.dropObject (s : State) (n : Nat) : State :=
  match Map.get? s.objs n with
  | none => s
  | some o =>
    let s := s.objRecall (.declared n)
    { s with objs := Map.del s.objs n, fullTags := o.words.foldl (fun m w => Map.del m w) s.fullTags }

/-- `objdrop` (R289). -/
def execObjdrop (d p : XReg) (s : State) : Result :=
  runThread (.objdrop d p) s fun t =>
    match t.asked with
    | .ring _ => return .seq
    | _ => do
      let s ← get
      let x := (t.getX p).toNat
      let n := t.part * 2 ^ 19 + x
      if decide (x < 2 ^ 19) && ((Map.get? s.objs n).map (·.ctx)) == some t.ctx then
        set ((s.dropObject n).announce t.ctx (s.partBenches t.part) .object)
        putM (t.setX d 0)
        ringWait
      else
        putM (t.setX d 1)
        return .seq

/-! ### `track` (R282, R290) -/

/-- The frames of a region of pages; none when a page maps with T = 0 or at a peer. An absent page waits or traps. -/
def trackFrames (t : Thread) : List (Nat × Nat) → M (Option (List Nat))
  | [] => return some []
  | (va, _) :: rest => do
    let s ← get
    let (p, s) := s.regionPage t va (some .write)
    set s
    match p with
    | .absent => if s.nptrap t then trapM Cause.pageNotPresent (BitVec.ofNat 64 va) else waitM .page 0 (.pages [va])
    | .blocked => waitM .page 0 (.pages [va])
    | .fails c v => trapM c v
    | .peer _ _ =>
      let _ ← trackFrames t rest
      return none
    | .mem pa leaf =>
      let fs ← trackFrames t rest
      return if pteBit leaf 5 then fs.map fun fs => (pa / frameBytes) :: fs else none

/-- `track` (R290): the untracked frames of the region are claimed, one announcement each (R282). Status 1 is answered before any page is
translated: the model's choice (log entry 111). -/
def execTrack (d : XReg) (gp : GReg) (q u : XReg) (s : State) : Result :=
  runThread (.track d gp q u) s fun t =>
    match t.asked with
    | .ring _ => return .seq
    | _ => do
      let n := (t.getX u).toNat
      let answer (st : Nat) : M Ending := do
        putM (t.setX d (BitVec.ofNat 64 st))
        return .seq
      let r ← regionM t (t.getG gp) (t.getX q) n .write
      match r with
      | .pad => answer 2
      | .peer va | .mem va =>
        if n = 0 ∨ va % frameBytes ≠ 0 ∨ n % frameBytes ≠ 0 then answer 1
        else if r = .peer va then answer 2
        else if (pieces va n).any fun p => s.migrating t.ctx p.1 then
          -- step 5 of the migration ends the wait (R362)
          waitM .page 0 (.pages [((pieces va n).find? fun p => s.migrating t.ctx p.1).elim va (·.1)])
        else
          match ← trackFrames t (pieces va n) with
          | none => answer 2
          | some fs =>
            let s ← get
            if fs.any s.claims.contains then waitM .page 0 (.pages [va])
            else
              let todo := fs.eraseDups.filter fun f => Map.get? s.attrs f == some .untracked
              if todo.isEmpty then answer 0
              else
                let s := { s with claims := s.claims ++ todo }
                set (todo.foldl (fun s f => s.announce t.ctx (s.partBenches t.part) (.claim f)) s)
                putM (t.setX d 0)
                ringWait

end Sys2Proof.Machine
end

