-- ==== Sys2Proof/Machine/VectorMemory.lean ====
section
/-!
DEFINITION. What the groups of vector memory instructions do: loads, stores and atomics of elements, each performed as its
group enters, in increasing element order (R234, R249, R252 to R254, R287).
-/
namespace Sys2Proof.Machine

/-- What the entry of a group leaves: the state, the group's results, SRSEED, the element at which it stopped with its
cause (0 for a page) and value (R249), and the element at which `vldff` trims (R254). -/
structure GroupRun where
  s : State
  out : GroupOut
  seed : BitVec 32
  stop : Option (Nat × BitVec 8 × Word)
  trim : Option Nat

/-! ### Accesses performed at once -/

/-- The earlier stores of a thread to some bytes are performed first (R253). -/
def State.flushOwn (s : State) (key pa n : Nat) : State :=
  s.storesNow fun h => h.2.key == key && meets h.2.pa h.2.op.size pa n

/-- An element read at a checked place. -/
def readElem (t : Thread) (p : Place) (n el : Nat) : M (List Byte) :=
  match p with
  | .pad off => fun s => .ok (s.padBytes t.gang off n, s)
  | .peer dev va => peerNow t dev va n (some el)
  | .mem pa va leaf => do
    modify fun s => s.flushOwn t.key pa n
    homeM t pa va leaf (some el)
    poisonM t pa n
    fun s => .ok (s.readThrough t pa n leaf)

/-- An element written at a checked place. -/
def writeElem (t : Thread) (p : Place) (bs : List Byte) (el : Nat) : M Unit :=
  match p with
  | .pad off => modify fun s => s.padPut t.gang off bs
  | .peer dev va => peerWrite t dev va (some el)
  | .mem pa va leaf => do
    modify fun s => s.flushOwn t.key pa bs.length
    homeM t pa va leaf (some el)
    modify fun s =>
      if s.sharedFrame pa then ((s.snoop pa bs.length).setBytes pa bs).homeRequest t.ctx pa 1 true
      else
        let s := if pteBit leaf 5 then s.objTransition t.part t.bench (s.objOf pa) true else s
        s.storeL1 t.core t.ctx pa bs

/-- An element's atomic at a checked place: the old bits (R280, R287). -/
def atomicElem (t : Thread) (p : Place) (op : AmoOp) (ty : Ty) (v el : Nat) : M Nat := do
  let n := ty.bits / 8
  match p with
  | .pad off => do
    let s ← get
    let old := leNat (s.padBytes t.gang off n)
    set (s.padPut t.gang off (leBytes n (amoValue op ty old v)))
    return old
  | .peer dev va => return leNat (← peerNow t dev va n (some el))
  | .mem pa va leaf => do
    modify fun s => s.flushOwn t.key pa n
    homeM t pa va leaf (some el)
    poisonM t pa n
    let h : HomeAccess := ⟨t.key, t.bench, t.ctx, t.part, pa, va, pteBit leaf 5, .amo op ty v, none, none⟩
    fun s =>
      let s := (s.beforeAtomic h).snoop pa n
      let old := leNat (s.bytesAt pa n)
      .ok (old, (s.setBytes pa (leBytes n (amoValue op ty old v))).homeRequest t.ctx pa 1 true)

/-! ### Elements -/

/-- What a vector memory instruction does with its elements. -/
inductive MemKind where
  | load | store
  | atomic (op : AmoOp)
  deriving DecidableEq, Repr

/-- Data register, type, guard, index register and kind of a vector memory instruction (R252, R287). -/
structure MemShape where
  vd : VReg
  ty : Ty
  kg : KReg
  index : Option VReg
  kind : MemKind
  deriving DecidableEq, Repr

/-- The shape of an instruction of MAJ 0x22, 0x23 or 0x2C. -/
def memShape : Instr → Option MemShape
  | .vld vd t _ l | .vldff vd t _ l => some ⟨vd, t, l.kg, none, .load⟩
  | .vlds vd t _ _ l => some ⟨vd, t, l.kg, none, .load⟩
  | .vldx vd t _ vi l => some ⟨vd, t, l.kg, some vi, .load⟩
  | .vst vd t _ l => some ⟨vd, t, l.kg, none, .store⟩
  | .vsts vd t _ _ l => some ⟨vd, t, l.kg, none, .store⟩
  | .vstx vd t _ vi l => some ⟨vd, t, l.kg, some vi, .store⟩
  | .vamo op vd t _ _ _ vi l => some ⟨vd, t, l.kg, some vi, .atomic op⟩
  | _ => none

/-- Offset of element `el` (R252, R287): x(XB) + DISP was captured, with the stride a `vloop` has added. -/
def elemOffset (t : Thread) (e : SeqEntry) (m : MemShape) (el : Nat) : Word :=
  let o0 := (e.xs[1]?).getD 0
  match m.index with
  | some vi => o0 + BitVec.ofNat 64 (t.elem vi .n32 el)
  | none => stridedOffset o0 ((e.strided.map (·.2)).getD 0) el

/-- Perform one element: the bits written to element `el` of the data register, if any (R252, R287). -/
def elementM (t : Thread) (e : SeqEntry) (m : MemShape) (el : Nat) : M (Option Nat) := do
  let n := m.ty.bits / 8
  let o := elemOffset t e m el
  match m.kind with
  | .load =>
    let p ← accessM t e.seg o n n .read (some el)
    return some (leNat (← readElem t p n el))
  | .store =>
    let p ← accessM t e.seg o n n .write (some el)
    writeElem t p (leBytes n (t.elem m.vd m.ty el)) el
    return none
  | .atomic op =>
    let p ← accessM t e.seg o n n .atomic (some el)
    return some (← atomicElem t p op m.ty (t.elem m.vd m.ty el) el)

/-- Causes at which a later element of `vldff` trims (R254). -/
def trims (c : BitVec 8) : Bool :=
  [0, Cause.nullSegment, Cause.segmentRights, Cause.segmentLimit, Cause.misalignedAccess, Cause.pageNotPresent,
    Cause.pagePermission].contains c

/-- Perform elements in increasing order until one stops. -/
def runElements (one : Nat → M (List VWrite)) : List Nat → State → State × List VWrite × Option (Nat × BitVec 8 × Word)
  | [], s => (s, [], none)
  | el :: rest, s =>
    match one el s with
    | .ok (ws, s) =>
      let (s, ws', stop) := runElements one rest s
      (s, ws ++ ws', stop)
    | .error (.trap s c v _) => (s, [], some (el, c, v))
    | .error (.wait s _ _ (.pages (va :: _))) => (s, [], some (el, 0, BitVec.ofNat 64 va))
    | .error (.wait s ..) => (s, [], some (el, 0, 0))

/-- The pages that some elements of an instruction miss in both TLBs are walked together, one walk for each page (R246); an element
that fails its segment checks misses none (R236). -/
def State.walkTogether (s : State) (t : Thread) (e : SeqEntry) (m : MemShape) (els : List Nat) : State :=
  if e.seg.type != .global then s
  else
    let n := m.ty.bits / 8
    let kind : Kind := match m.kind with | .load => .read | .store => .write | .atomic _ => .atomic
    let vas := els.filterMap fun el =>
      let o := elemOffset t e m el
      if (e.seg.refuses o n n kind).isNone then some ((e.seg.base.toNat + o.toNat) / frameBytes * frameBytes) else none
    vas.eraseDups.foldl (fun s va => (s.leafFor t.core t.ctx va).2) s

/-- The entry of group `j` of a vector memory instruction; `els` are its active elements at or above VSTART, `first` the
instruction's first such element. -/
def memGroup (s : State) (t : Thread) (e : SeqEntry) (m : MemShape) (j : Nat) (els : List Nat) (first : Option Nat) : GroupRun :=
  let one (el : Nat) : M (List VWrite) := do
    let r ← elementM t e m el
    return (match r with | some v => [elemWrite m.vd m.ty el v] | none => [])
  let (s, ws, stop) := runElements one els s
  let out := { GroupOut.empty j with v := ws }
  match e.instr, stop with
  | .vldff _ _ _ l, some (el, c, v) =>
    if first != some el && trims c then
      ⟨s, { out with x := [(l.xl, BitVec.ofNat 64 el)] }, t.srseed, none, some el⟩
    else ⟨s, out, t.srseed, some (el, c, v), none⟩
  | _, _ => ⟨s, out, t.srseed, stop, none⟩

end Sys2Proof.Machine
end

