-- ==== Sys2Proof/Machine/Texture.lean ====
section
/-!
DEFINITION. Textures: descriptors, formats, addressing, filtering, and the samples of `tsamp` and `tfetch` (R325 to R331).
-/
namespace Sys2Proof.Machine

/-! ### Descriptors (R325) -/

/-- A texture descriptor. -/
structure Tex where
  base : Nat
  fmt : Nat
  astc : Nat
  levels : Nat
  layers : Nat
  height : Nat
  width : Nat
  srgb : Bool
  aniso : Nat
  addrV : Nat
  addrU : Nat
  mip : Nat
  linMin : Bool
  linMag : Bool
  border : Word
  deriving DecidableEq, Repr

/-- The descriptor eight doubles hold, when no reserved bit is set and every field is in its range (R325, R327). -/
def readTex (d : List Word) : Option Tex :=
  match d with
  | [d0, d1, d2, d3, d4, d5, d6, d7] =>
    let w := fieldAt d1 0 16 + 1
    let h := fieldAt d1 16 16 + 1
    let t : Tex := {
      base := fieldAt d0 0 55, fmt := fieldAt d1 60 4, astc := fieldAt d1 56 4, levels := fieldAt d1 52 4 + 1
      layers := fieldAt d1 40 12 + 1, height := h, width := w, srgb := d2.getLsbD 23, aniso := fieldAt d2 20 3
      addrV := fieldAt d2 18 2, addrU := fieldAt d2 16 2, mip := fieldAt d2 14 2, linMin := d2.getLsbD 13
      linMag := d2.getLsbD 12, border := d3 }
    let reserved := fieldAt d0 55 9 == 0 && fieldAt d1 32 8 == 0 && fieldAt d2 24 40 == 0 && fieldAt d2 0 12 == 0
      && [d4, d5, d6, d7].all fun x => x == 0
    let ranges := t.fmt != 15 && decide (t.astc ≤ 13) && (t.astc == 0 || t.fmt == 14)
      && decide (t.levels - 1 ≤ (max w h).log2) && (!t.srgb || [0, 4, 5, 6, 13, 14].contains t.fmt)
      && decide (t.aniso ≤ 4) && t.addrV != 3 && t.addrU != 3 && t.mip != 3
    if reserved && ranges then some t else none
  | _ => none

/-! ### Layout (R326) -/

/-- ASTC footprints by code (R325). -/
def astcBlock (c : Nat) : Nat × Nat :=
  ([(4, 4), (5, 4), (5, 5), (6, 5), (6, 6), (8, 5), (8, 6), (8, 8), (10, 5), (10, 6), (10, 8), (10, 10), (12, 10),
    (12, 12)][c]?).getD (4, 4)

namespace Tex

/-- Width and height in texels, and bytes, of a block. -/
def block (t : Tex) : Nat × Nat × Nat :=
  if t.fmt == 14 then let b := astcBlock t.astc; (b.1, b.2, 16)
  else match t.fmt with
    | 0 | 1 | 3 => (1, 1, 4)
    | 2 => (1, 1, 8)
    | 4 | 7 | 8 => (4, 4, 8)
    | _ => (4, 4, 16)

/-- Width of a level. -/
def levelW (t : Tex) (l : Nat) : Nat := max 1 (t.width / 2 ^ l)
/-- Height of a level. -/
def levelH (t : Tex) (l : Nat) : Nat := max 1 (t.height / 2 ^ l)

/-- Bytes of a block row of a level. -/
def rowBytes (t : Tex) (l : Nat) : Nat := (t.levelW l + t.block.1 - 1) / t.block.1 * t.block.2.2
/-- Bytes of a layer of a level. -/
def layerBytes (t : Tex) (l : Nat) : Nat := (t.levelH l + t.block.2.1 - 1) / t.block.2.1 * t.rowBytes l
/-- Bytes of a level, rounded up to 128. -/
def levelBytes (t : Tex) (l : Nat) : Nat := (t.layerBytes l * t.layers + 127) / 128 * 128

/-- Offset of the block of a texel. -/
def offset (t : Tex) (l layer x y : Nat) : Word :=
  BitVec.ofNat 64 (t.base + ((List.range l).map t.levelBytes).sum + layer * t.layerBytes l + y / t.block.2.1 * t.rowBytes l
    + x / t.block.1 * t.block.2.2)

end Tex

/-! ### Texels (R326, R329) -/

/-- The transfer function of IEC 61966-2-1, close enough to decide the last rounding (log entry 14). -/
def srgbLinear (c : Rat) : Rat :=
  if c ≤ 4045 / 100000 then c / (1292 / 100) else exp2Rat (24 / 10 * log2Rat ((c + 55 / 1000) / (1055 / 1000)))

/-- A number as a value with sign. -/
def Fp.ofRat (r : Rat) : Fp := .fin (decide (r < 0)) (if r < 0 then -r else r)

/-- c / (2^n − 1) of an unorm field. -/
def unorm (v n : Nat) : Fp := .fin false ((v : Rat) / ((2 ^ n - 1 : Nat) : Rat))

/-- The channels R, G, B, A of a texel, from the bytes of its block and its place in it. -/
def decodeTexel (t : Tex) (bytes : List Byte) (x y : Nat) : List Fp :=
  let v := leNat bytes
  let i := x + 4 * y
  let one : Fp := .fin false 1
  let raw : List Fp := match t.fmt with
    | 0 => (List.range 4).map fun i => unorm (v / 2 ^ (8 * i) % 256) 8
    | 1 => ((List.range 3).map fun i => unorm (v / 2 ^ (10 * i) % 1024) 10) ++ [unorm (v / 2 ^ 30 % 4) 2]
    | 2 => (List.range 4).map fun i => readFp .f16 (v / 2 ^ (16 * i) % 65536)
    | 3 => [readFp .f16 (v % 2048 * 16), readFp .f16 (v / 2 ^ 11 % 2048 * 16), readFp .f16 (v / 2 ^ 22 % 1024 * 32), one]
    | 4 => ((List.range 3).map fun c => Fp.ofRat (colourBlock v false i c))
        ++ [if bc1Clear v i && Config.bc1Alpha then .fin false 0 else one]
    | 5 => ((List.range 3).map fun c => Fp.ofRat (colourBlock (v / 2 ^ 64) true i c)) ++ [unorm (blockBits v (4 * i) 4) 4]
    | 6 => ((List.range 3).map fun c => Fp.ofRat (colourBlock (v / 2 ^ 64) true i c)) ++ [Fp.ofRat (channelBlock false v i)]
    | 7 | 8 => [Fp.ofRat (channelBlock (t.fmt == 8) v i), .fin false 0, .fin false 0, one]
    | 9 | 10 => [Fp.ofRat (channelBlock (t.fmt == 10) v i), Fp.ofRat (channelBlock (t.fmt == 10) (v / 2 ^ 64) i), .fin false 0, one]
    | 11 | 12 => ((List.range 3).map fun c => readFp .f16 (bc6Channel (t.fmt == 12) v i c)) ++ [one]
    | 13 => (List.range 4).map fun c => unorm (bc7Channel v i c) 8
    | _ => (astcTexel t.block.1 t.block.2.1 v t.srgb x y).map Fp.ofRat
  if t.srgb then
    ((List.range 4).zip raw).map fun p => match p with
      | (3, f) => f
      | (_, .fin false m) => Fp.fin false (srgbLinear m)
      | (_, f) => f
  else raw

/-- The border colour. -/
def Tex.borderColour (t : Tex) : List Fp := (List.range 4).map fun i => readFp .f16 (fieldAt t.border (16 * i) 16)

/-! ### Addressing (R328) -/

/-- A texel index along an axis of size `s`: none gives the border colour. -/
def resolveIndex (mode s : Nat) (i : Int) : Option Nat :=
  match mode with
  | 0 => some (i % (s : Int)).toNat
  | 1 => some (if i < 0 then 0 else min i.toNat (s - 1))
  | _ => if i < 0 ∨ (s : Int) ≤ i then none else some i.toNat

/-- The layer of a sample. -/
def layerOf (t : Tex) (v : Fp) : Nat :=
  match v with
  | .nan _ => 0
  | .inf n => if n then 0 else t.layers - 1
  | .fin n m => if n then 0 else min (roundUnits .rne false m) (t.layers - 1)

/-- A texel to be read, or the border colour, with its weight. -/
structure TexelRef where
  level : Nat
  place : Option (Nat × Nat)
  weight : Rat

/-- A finite coordinate, or none (R328). -/
def coordOf (v : Fp) : Option Rat := match v with
  | .fin _ _ => some v.toRat
  | _ => none

/-- An axis of a footprint: the texel indices with their weights, none for the border colour. -/
def axisTexels (mode s : Nat) (linear : Bool) (c : Option Rat) : List (Option Nat × Rat) :=
  match c, mode with
  | none, 2 => if linear then [(none, 1), (none, 0)] else [(none, 1)]
  | c, _ =>
    let x := c.getD 0 * s
    if linear then
      let x' := x - 1 / 2
      let i := x'.floor
      let f : Rat := (((x' - i) * 256).floor : Int) / 256
      [(resolveIndex mode s i, 1 - f), (resolveIndex mode s (i + 1), f)]
    else [(resolveIndex mode s x.floor, 1)]

/-- The footprint of a position at a level. -/
def footprint (t : Tex) (level : Nat) (linear : Bool) (u v : Option Rat) (weight : Rat) : List TexelRef :=
  let xs := axisTexels t.addrU (t.levelW level) linear u
  let ys := axisTexels t.addrV (t.levelH level) linear v
  ys.flatMap fun y => xs.map fun x =>
    ⟨level, match x.1, y.1 with | some a, some b => some (a, b) | _, _ => none, weight * x.2 * y.2⟩

/-! ### Sampling (R329) -/

/-- The levels of a sample with their weights, and whether the filter is linear. -/
def levelsOf (t : Tex) (lambda : Fp) : List (Nat × Rat) × Bool :=
  let l : Option Rat := match lambda with
    | .nan _ => some 0
    | .inf n => if n then some 0 else none
    | .fin _ _ => some lambda.toRat
  match l with
  | some r =>
    if r ≤ 0 then ([(0, 1)], t.linMag) else minified (min r ((t.levels - 1 : Nat) : Rat))
  | none => minified ((t.levels - 1 : Nat) : Rat)
where
  /-- λ above 0, clamped. -/
  minified (r : Rat) : List (Nat × Rat) × Bool :=
    match t.mip with
    | 0 => ([(0, 1)], t.linMin)
    | 1 => ([((r + 1 / 2).floor.toNat, 1)], t.linMin)
    | _ =>
      let k := r.floor.toNat
      let f := r - (k : Rat)
      ([(k, 1 - f), (min (k + 1) (t.levels - 1), f)], t.linMin)

/-- Square of a length from two derivatives and the extents: none when a derivative is NaN; the second says infinite. -/
def lengthSq (du dv : Fp) (w h : Nat) : Option (Rat × Bool) :=
  match du, dv with
  | .nan _, _ => none
  | _, .nan _ => none
  | .inf _, _ => some (0, true)
  | _, .inf _ => some (0, true)
  | .fin _ a, .fin _ b => some ((a * w) * (a * w) + (b * h) * (b * h), false)

/-- The least N with N² · q ≥ p, from 1 to `n`: min(n, ceil √(p / q)). -/
def ceilRoot (p q : Rat) : Nat → Nat
  | 0 => 0
  | n + 1 => let r := ceilRoot p q n
    if n == 0 then 1 else if ((r * r : Nat) : Rat) * q < p then n + 1 else r

/-- Sample count, ρ² with whether ρ is infinite (none when it is a NaN), and whether the first pair of derivatives is the
longer (R329 step 1); `open'` is the free count of a sample whose lengths are not numbers (log entry 18). -/
def aniso (t : Tex) (open' : Nat) (px py : Option (Rat × Bool)) : Nat × Option (Rat × Bool) × Bool :=
  let a := 2 ^ t.aniso
  match px, py with
  | some (p, pi), some (q, qi) =>
    if pi && qi then (if a == 1 then 1 else 1 + open' % a, some (0, true), true)
    else if pi || qi then (a, some (0, true), pi)
    else
      let big := max p q
      let small := min p q
      let n := if a == 1 || big == 0 then 1 else if small == 0 then a else ceilRoot big small a
      (n, some (big / ((n * n : Nat) : Rat), false), decide (q ≤ p))
  | _, _ => (if a == 1 then 1 else 1 + open' % a, none, false)

/-- λ of a sample with derivatives (R329 step 2): floor(256 · log2 ρ) is floor(log2 (ρ²)^128). -/
def lambdaOf (rho : Option (Rat × Bool)) (bias : Fp) : Fp :=
  match rho with
  | none => .nan false
  | some (_, true) => (Fp.inf false).plus bias
  | some (r, false) => if r == 0 then (Fp.inf true).plus bias else (Fp.ofRat ((ratLog2 (r ^ 128) : Rat) / 256)).plus bias

/-- How a sample takes its level: derivatives, a given λ, or none. -/
inductive TexMode where
  | grad (vb : VReg) | lod | base | fetch
  deriving DecidableEq, Repr

/-- The texels of sample `el` (R329, R330), with its layer; none returns zeros. -/
def sampleRefs (th : Thread) (t : Tex) (mode : TexMode) (va : VReg) (open' el : Nat) : Option (Nat × List TexelRef) :=
  let a (g : Nat) : Fp := readFp .f32 (th.elem va .f32 (32 * g + el))
  let i (g : Nat) : Int := readInt .i32 (th.elem va .i32 (32 * g + el))
  let plain (lambda : Fp) : Option (Nat × List TexelRef) :=
    let ls := levelsOf t lambda
    some (layerOf t (a 3), ls.1.flatMap fun l => footprint t l.1 ls.2 (coordOf (a 0)) (coordOf (a 1)) l.2)
  match mode with
  | .fetch =>
    if i 0 < 0 ∨ i 1 < 0 ∨ i 2 < 0 ∨ i 3 < 0 then none
    else
      let l := (i 2).toNat
      if t.levels ≤ l ∨ t.levelW l ≤ (i 0).toNat ∨ t.levelH l ≤ (i 1).toNat ∨ t.layers ≤ (i 3).toNat then none
      else some ((i 3).toNat, [⟨l, some ((i 0).toNat, (i 1).toNat), 1⟩])
  | .lod => plain (a 2)
  | .base => plain (.fin false 0)
  | .grad vb =>
    let b (g : Nat) : Fp := readFp .f32 (th.elem vb .f32 (32 * g + el))
    let r := aniso t open' (lengthSq (b 0) (b 1) t.width t.height) (lengthSq (b 2) (b 3) t.width t.height)
    let n := r.1
    let ls := levelsOf t (lambdaOf r.2.1 (a 2))
    let d := if r.2.2 then (b 0, b 1) else (b 2, b 3)
    let at' (k : Nat) (c dc : Fp) : Option Rat :=
      let f : Rat := ((2 * k + 1 : Nat) : Rat) / ((2 * n : Nat) : Rat) - 1 / 2
      coordOf (if f == 0 then c else c.plus ((Fp.ofRat f).times dc))
    some (layerOf t (a 3), (List.range n).flatMap fun k =>
      ls.1.flatMap fun l => footprint t l.1 ls.2 (at' k (a 0) d.1) (at' k (a 1) d.2) (l.2 / (n : Rat)))

/-- Read the texel of a reference: its channels, times its weight; a weight of 0 counts for nothing (`texelsM`). -/
def texelM (th : Thread) (e : SeqEntry) (t : Tex) (layer el : Nat) (r : TexelRef) : M (List Fp) := do
  let colour ← match r.place with
    | none => pure t.borderColour
    | some (x, y) => do
      let n := t.block.2.2
      let p ← accessM th e.seg (t.offset r.level layer x y) n n .read (some el)
      let bs ← readElem th p n el
      pure (decodeTexel t bs (x % t.block.1) (y % t.block.2.1))
  return colour.map fun c => (Fp.ofRat r.weight).times c

/-- A sample of zeros. -/
def noSample : List Fp := [.fin false 0, .fin false 0, .fin false 0, .fin false 0]

/-- The sums of some contributions to the four channels: those of −0 alone add up to −0 (R329). -/
def sumChannels : List (List Fp) → List Fp
  | [] => noSample
  | [c] => c
  | c :: cs => (c.zip (sumChannels cs)).map fun p => p.1.plus p.2

/-- Read the texels of a sample in order: what each contributes, one of weight 0 nothing (R329). -/
def texelsM (th : Thread) (e : SeqEntry) (t : Tex) (layer el : Nat) : List TexelRef → M (List (List Fp))
  | [] => pure []
  | r :: rest => do
    let c ← texelM th e t layer el r
    let cs ← texelsM th e t layer el rest
    return if r.weight == 0 then cs else c :: cs

/-- One sample: R, G, B, A to elements el, 32 + el, 64 + el and 96 + el (R327). -/
def sampleM (th : Thread) (e : SeqEntry) (t : Tex) (mode : TexMode) (vd va : VReg) (el : Nat) : M (List VWrite) := do
  let s ← get
  set { s with frees := s.frees + 1 }
  let cs ← match sampleRefs th t mode va (Config.openSamples s.frees) el with
    | none => pure noSample
    | some (layer, refs) => sumChannels <$> texelsM th e t layer el refs
  return ((List.range 4).zip cs).map fun p => elemWrite vd .f32 (32 * p.1 + el) (roundF32 false p.2).bits

/-- Destination, first source, mode and guard of a texture instruction (R327). -/
def texShape : Instr → Option (VReg × VReg × TexMode × VLen)
  | .tsampGrad vd va vb _ _ l => some (vd, va, .grad vb, l)
  | .tsampLod vd va _ _ l => some (vd, va, .lod, l)
  | .tsampBase vd va _ _ l => some (vd, va, .base, l)
  | .tfetch vd va _ _ l => some (vd, va, .fetch, l)
  | _ => none

/-- The samples of a texture instruction, those of `els`, in order; the descriptor was read into the entry (R327, R331). -/
def texGroup (s : State) (th : Thread) (e : SeqEntry) (mode : TexMode) (vd va : VReg) (els : List Nat) : GroupRun :=
  match readTex (e.xs.drop 2) with
  | none => ⟨s, .empty 0, th.srseed, none, none⟩
  | some t =>
    let (s, ws, stop) := runElements (sampleM th e t mode vd va) els s
    ⟨s, { GroupOut.empty 0 with v := ws }, th.srseed, stop, none⟩

end Sys2Proof.Machine
end

