-- ==== Sys2Proof/Machine/Trace.lean ====
section
/-!
DEFINITION. Trace units: what a session covers, and what it writes into its buffer (R400 to R402).
-/
namespace Sys2Proof.Machine

/-- A session covers a thread: a VF's covers the threads of its own contexts, the PF's those of unsealed partitions
(R400). -/
def State.covers (s : State) (ss : Session) (t : Thread) : Bool :=
  if ss.fn = 0 then (match Map.get? s.parts t.part with | some p => !p.isSealed | none => false) else ss.fn == t.fn

/-- A session that debugs covers a thread (R402). -/
def State.debugged (s : State) (t : Thread) : Option Session :=
  match (s.bench t.bench).trace with
  | some ss => if ss.debug && s.covers ss t then some ss else none
  | none => none

/-- Write a record of 64 bytes into a session's buffer in host memory; a full buffer drops it (R400). -/
def State.writeTrace (s : State) (ss : Session) (ws : List Word) : Session × State :=
  if ss.written + 64 ≤ ss.size then
    ({ ss with written := ss.written + 64 }, s.putDoubles (farBase + ss.base + ss.written) (ws ++ List.replicate (8 - ws.length) 0))
  else ({ ss with drops := ss.drops + 1 }, s)

/-- Put the session of a bench. -/
def State.putSession (s : State) (bench : Nat) (ss : Session) : State := s.putBench bench { s.bench bench with trace := some ss }

/-- The two doubles of an assay record, low half first (R404). -/
def AssayRecord.doubles (r : AssayRecord) : List Word :=
  [r.kind ++ r.tctx ++ r.gen ++ r.payload, r.stamp ++ r.source]

/-- Copy an assay record into the buffer of a session that covers its thread (R398; log entry 23). -/
def State.traceRecord (s : State) (t : Thread) (r : AssayRecord) : State :=
  match (s.bench t.bench).trace with
  | some ss =>
    if s.covers ss t then
      let (ss, s) := s.writeTrace ss r.doubles
      s.putSession t.bench ss
    else s
  | none => s

/-- The eight doubles of a sample of an issue (R401), for a vector instruction with the head address and the member count of the
convoy it is in as it is accepted (R146; log entry 23) and with ELEMS 0; what holds timing is a free value. -/
def sampleDoubles (s : State) (t : Thread) (convoy : Option (Word × Nat)) : List Word :=
  let pc : BitVec 48 := t.pc.setWidth 48
  let claim := claimWord (s.core t.core).grants
  let free (i : Nat) : Word := Config.traceDouble s.frees i
  [s.gtsc, BitVec.ofNat 16 t.core ++ pc,
   match convoy with
   | some (head, n) => (BitVec.ofNat 3 ((free 2).toNat % 5) ++ 1#1 ++ BitVec.ofNat 6 n ++ head.setWidth 48).setWidth 64
   | none => 0x1000000000000 ||| pc.setWidth 64,
   if convoy.isSome then free 3 &&& 0xFFFFFFFF0000FFFF else 0, if convoy.isSome then free 4 else 0,
   BitVec.ofNat 64 (t.tid.toNat * 2 ^ 36) ||| (claim &&& 0xFFFFF), 0, 0]

/-- The trace unit of a bench sees an issue of a thread: every PERIOD-th is sampled when it is covered, and a vector instruction is
followed to its commit (R401). -/
def State.traceIssue (s : State) (t : Thread) (convoy : Option (Word × Nat)) : State :=
  match (s.bench t.bench).trace with
  | none => s
  | some ss =>
    let ss := { ss with issues := ss.issues + 1 }
    if ss.issues % 2 ^ ss.period = 0 ∧ s.covers ss t then
      let ws := sampleDoubles s t convoy
      if convoy.isSome then
        let f : Sample := ⟨t.key, s.stamps, t.pc, ws⟩
        State.putSession { s with frees := s.frees + 1 } t.bench { ss with follow := ss.follow ++ [f] }
      else
        let (ss, s) := s.writeTrace ss ws
        s.putSession t.bench ss
    else s.putSession t.bench ss

/-- An entry that a session follows commits: its record is written, with the elements it has completed, those from VSTART to vl
(R401; log entry 23). -/
def State.traceCommit (s : State) (t : Thread) (e : SeqEntry) : State :=
  match (s.bench t.bench).trace with
  | none => s
  | some ss =>
    match ss.follow.find? fun f => f.key == t.key && decide (f.mark ≤ e.num) && f.pc == e.pc with
    | none => s
    | some f =>
      let elems : Word := BitVec.ofNat 64 ((e.vl - e.vstart) * 2 ^ 16)
      let (ss, s) := s.writeTrace { ss with follow := ss.follow.erase f } (f.words.set 3 ((f.words[3]?).getD 0 ||| elems))
      s.putSession t.bench ss

/-- A record of a kind whose layout the spec does not give, stamped now (R400; log entry 23). -/
def State.writeMark (s : State) (ss : Session) : Session × State :=
  let (f, s) := s.takeFree
  s.writeTrace ss (s.gtsc :: (List.range 7).map fun i => Config.traceDouble f (i + 1))

end Sys2Proof.Machine
end

