-- ==== Sys2Proof/Machine/Sequencer.lean ====
section
/-!
DEFINITION. The vector sequencer: what an instruction reads, writes and takes, its acceptance, the entry and the delivery
of element groups, `vloop`, pass forms and the stop of an element check (R133, R134, R138, R143 to R149, R171, R248, R249,
R366).
-/
namespace Sys2Proof.Machine

/-! ### Shapes -/

/-- The bits of a register that each group of an instruction touches: group j those from `base` + j · `step`, `size` of them. -/
structure Span where
  base : Nat
  step : Nat
  size : Nat
  deriving DecidableEq, Repr

/-- Every bit of a v register, or of a k register, with each group. -/
def Span.whole : Span := ⟨0, 0, 4096⟩
/-- Group j's own 128 bytes of a v register (R133). -/
def Span.own : Span := ⟨0, 1024, 1024⟩
/-- Elements of `n` bits that lie at the places of the elements of a group of `ty`, from element `first` (R164). -/
def Span.beside (ty : Ty) (first n : Nat) : Span := ⟨first * n, groupElems ty * n, groupElems ty * n⟩
/-- One element of `n` bits for each block of 32 of the elements of a group of `ty`, from element `first` (R167, R168). -/
def Span.blocks (ty : Ty) (first n : Nat) : Span := ⟨first / 32 * n, groupElems ty / 32 * n, groupElems ty / 32 * n⟩
/-- What group `i` touches meets what group `j` of another instruction touches. -/
def Span.meets (a : Span) (i : Nat) (b : Span) (j : Nat) : Bool :=
  Machine.meets (a.base + i * a.step) a.size (b.base + j * b.step) b.size
/-- A bit lies in what group `j` touches. -/
def Span.has (a : Span) (j bit : Nat) : Bool := Machine.meets (a.base + j * a.step) a.size bit 1

/-- When the groups of an instruction read their sources and have their results: each for itself; the sources whole with the
first group and the results group by group (MAJ 0x48); or everything with the last (R144, R164). -/
inductive Pace where
  | groups | captured | atLast
  deriving DecidableEq, Repr

/-- What the sequencer knows of an instruction: the type whose index space it walks, its length and guard, the pipes of a
group, its v sources with their chain bits, its k sources, what it writes, each with the bits its groups touch, and when they
do. -/
structure VShape where
  ty : Ty
  l : Option VLen
  pipes : List Pipe
  reads : List (VReg × Bool × Span)
  kreads : List (KReg × Span)
  writes : List (VReg × Span)
  kwrites : List (KReg × Span)
  pace : Pace
  deriving DecidableEq, Repr

/-- A vector source read at a group's own bytes. -/
def vSrc (s : VSrc) : VReg × Bool × Span := (s.reg, s.chain, .own)

/-- Sources of the second operand of MAJ 0x42 to 0x44. -/
def argSrc : VArg → List (VReg × Bool × Span)
  | .vec s => [vSrc s]
  | .scal _ => []

/-- The bits of a k register that belong to the elements of a group (R54). -/
def Span.guard (ty : Ty) : Span := .beside ty 0 1

/-- An element-wise shape on some pipes. -/
def VShape.each (pipes : List Pipe) (ty : Ty) (l : VLen) (reads : List (VReg × Bool × Span)) (writes : List VReg) : VShape :=
  ⟨ty, some l, pipes, reads, [], writes.map fun r => (r, .own), [], .groups⟩

/-- An element-wise shape on the MAD pipe. -/
def VShape.mad (ty : Ty) (l : VLen) (reads : List (VReg × Bool × Span)) (vd : VReg) : VShape := .each [.mad] ty l reads [vd]

/-- A shape of MAJ 0x48: its sources whole, its results group by group. -/
def VShape.perm (ty : Ty) (l : VLen) (reads : List VReg) (vd : VReg) : VShape :=
  { VShape.each [.perm] ty l (reads.map fun r => (r, false, .whole)) [vd] with pace := .captured }

/-- A shape that delivers all its groups at once, when the last completes (R144, R164). -/
def VShape.atOnce (pipes : List Pipe) (ty : Ty) (l : VLen) (reads : List (VReg × Bool × Span)) (vds : List VReg) : VShape :=
  ⟨ty, some l, pipes, reads, [], vds.map fun r => (r, .whole), [], .atLast⟩

/-- A predicate instruction (R162). -/
def VShape.pred (kreads kwrites : List KReg) : VShape :=
  ⟨.n8, none, [], [], kreads.map fun r => (r, .whole), [], kwrites.map fun r => (r, .whole), .atLast⟩

/-- A memory instruction (R252, R287): its data and its index register are chained by bytes. -/
def MemShape.shape (m : MemShape) (l : VLen) : VShape :=
  let data : List (VReg × Bool × Span) := match m.kind with | .load => [] | _ => [(m.vd, true, .own)]
  let index : List (VReg × Bool × Span) := match m.index with | some vi => [(vi, true, .beside m.ty 0 32)] | none => []
  let pipes : List Pipe := match m.kind with | .store => [.st] | .load => [.ld] | .atomic _ => [.ld, .st]
  .each pipes m.ty l (data ++ index) (match m.kind with | .store => [] | _ => [m.vd])

/-- The wider of two types. -/
def widerTy (a b : Ty) : Ty := if a.bits < b.bits then b else a

/-- The shape of an instruction of the sequencer (R134, R152 to R174, R252, R287, R322), without its guard. -/
def plainShape (i : Instr) : Option VShape :=
  match i with
  | .vadd o | .vsub o | .vmul o => some (.mad o.t o.l (vSrc o.a :: argSrc o.b) o.vd)
  | .vmin o | .vmax o | .vand o | .vor o | .vxor o | .vshl o | .vshr o | .vsra o =>
    some (.mad o.t o.l (vSrc o.a :: argSrc o.b) o.vd)
  | .vabs o | .vneg o => some (.mad o.t o.l [vSrc o.a] o.vd)
  | .vmad o | .vmsb o => some (.mad o.t o.l (vSrc o.a :: vSrc o.c :: argSrc o.b) o.vd)
  | .vdot4 vd a b c signed _ _ _ l => some (.mad (if signed then .i32 else .n32) l [vSrc a, vSrc b, vSrc c] vd)
  | .vcmp kd _ a b t l => some { VShape.each [.mad] t l (vSrc a :: argSrc b) [] with kwrites := [(kd, .guard t)] }
  | .vsel vd a b ks t l => some { VShape.mad t l [vSrc a, vSrc b] vd with kreads := [(ks, .guard t)] }
  | .vmov vd a t l => some (.mad t l [vSrc a] vd)
  | .vbcast vd _ t l => some (.mad t l [] vd)
  | .viota vd t l => some (.mad t l [] vd)
  | .vext _ a _ t l => some (.each [.perm] t l [vSrc a] [])
  | .vins vd _ _ t l => some (.each [.perm] t l [] [vd])
  | .vred _ vd a t _ _ l | .vscan _ vd a t _ _ l => some (.atOnce [.mad, .perm] t l [vSrc a] [vd])
  | .vperm vd va vb t l | .vzip _ vd va vb t l | .vunzip _ vd va vb t l => some (.perm t l [va, vb] vd)
  | .vslideDown vd va _ t l | .vslideUp vd va _ t l | .vcompress vd va t l | .vexpand vd va t l => some (.perm t l [va] vd)
  | .kand d p q | .kor d p q | .kxor d p q => some (.pred [p, q] [d])
  | .knot d p | .kmov d p => some (.pred [p] [d])
  | .kpop _ p _ | .kfirst _ p _ => some (.pred [p] [])
  | .kset d _ => some (.pred [] [d])
  | .vcvt o =>
    let w := widerTy o.t o.s
    some { VShape.mad w o.l [(o.a.reg, o.a.chain, .beside w 0 o.s.bits)] o.vd with writes := [(o.vd, .beside w 0 o.t.bits)] }
  | .vpack o =>
    some { VShape.each [.perm] o.s o.l [vSrc o.a] [] with
      writes := [(o.vd, .beside o.s (o.part.toNat * o.s.vlmax) o.t.bits)] }
  | .vunpack o =>
    some (.each [.perm] o.t o.l [(o.a.reg, o.a.chain, .beside o.t (o.part.toNat * o.t.vlmax) o.s.bits)] [o.vd])
  | .vamax o => some { VShape.each [.mad, .perm] o.t o.l [vSrc o.a] [] with writes := [(o.vd, .blocks o.t 0 o.t.bits)] }
  | .vquant vd vs a t s part _ l =>
    let first := part.toNat * s.vlmax
    some { VShape.each [.mad, .perm] s l [vSrc a] [] with
      writes := [(vd, .beside s first t.bits), (vs, .blocks s first 8)] }
  | .vdequant vd a b t s part _ l =>
    let first := part.toNat * t.vlmax
    some (.mad t l [(a.reg, a.chain, .beside t first s.bits), (b.reg, b.chain, .blocks t first 8)] vd)
  | .vhad vd a t sg _ l =>
    if 2 ^ sg.toNat < groupElems t then some (.each [.mad, .perm] t l [vSrc a] [vd])
    else some (.atOnce [.mad, .perm] t l [vSrc a] [vd])
  | .vhadPass _ a t sg _ l =>
    if 2 ^ sg.toNat < groupElems t then some (.each [.mad, .perm] t l [vSrc a] [])
    else some (.atOnce [.mad, .perm] t l [vSrc a] [])
  | .vsfuRcp o | .vsfuRsq o | .vsfuSqrt o | .vsfuExp2 o | .vsfuLog2 o | .vsfuSin o | .vsfuCos o | .vsfuTanh o
  | .vsfuSigmoid o | .vsfuGelu o | .vsfuSilu o => some (.each [.sfu] o.t o.l [vSrc o.a] [o.vd])
  | .boxt vd va vb l => some { VShape.perm .f32 l [va, vb] vd with pipes := [.mad], writes := [(vd, ⟨0, 256, 256⟩)] }
  | .trit vd va vb l => some { VShape.perm .f32 l [va, vb] vd with pipes := [.mad], writes := [(vd, ⟨0, 512, 512⟩)] }
  | .vmm8 _ vd a c _ l => some (.mad .f32 l [vSrc a, vSrc c] vd)
  | .tsampGrad vd va vb _ _ l => some (.atOnce [.ld] .f32 l [(va, false, .whole), (vb, false, .whole)] [vd])
  | .tsampLod vd va _ _ l | .tsampBase vd va _ _ l | .tfetch vd va _ _ l => some (.atOnce [.ld] .f32 l [(va, false, .whole)] [vd])
  | .mrow vd t _ _ _ _ => some ⟨t, none, [], [], [], [(vd, .whole)], [], .atLast⟩
  | .mwrow vd t _ _ => some ⟨t, none, [], [(vd, false, .whole)], [], [], [], .atLast⟩
  | _ => none

/-- The registers of an `mma`'s operands, which its entry names among the doubles captured at acceptance (R196). -/
def heldRegs (e : SeqEntry) : List (VReg × Bool × Span) := match e.instr with
  | .mma .. => e.xs.map fun x => (x.setWidth 4, false, .whole)
  | _ => []

/-- The shape of an entry: its instruction's, the guard among its k sources. -/
def shapeOf (i : Instr) : Option VShape :=
  let s := match i, memShape i with
    | .vld _ _ _ l, some m | .vldff _ _ _ l, some m | .vst _ _ _ l, some m => some (m.shape l)
    | .vlds _ _ _ _ l, some m | .vldx _ _ _ _ l, some m | .vsts _ _ _ _ l, some m | .vstx _ _ _ _ l, some m =>
      some (m.shape l)
    | .vamo _ _ _ _ _ _ _ l, some m => some (m.shape l)
    | i, _ => plainShape i
  s.map fun s => match s.l with
    | some l =>
      -- `vcompress` and `vexpand` count the guard from its first bit
      let bits : Span := match i with | .vcompress .. | .vexpand .. => .whole | _ => .guard s.ty
      if l.kg = 0 then s else { s with kreads := (l.kg, bits) :: s.kreads }
    | none => s

/-- The shape of an entry; that of an anvil operation names the registers of its operands alone (R196). -/
def SeqEntry.shape (e : SeqEntry) : VShape :=
  (shapeOf e.instr).getD ⟨.n8, none, [], heldRegs e, [], [], [], .atLast⟩

/-- Served by the anvil and not by VECTOR_GROUP_ENTRY (R192, R196). -/
def ofAnvil : Instr → Bool
  | .mrow .. | .mwrow .. | .mma .. | .mzero .. | .mload .. | .mcopy .. => true
  | _ => false

/-- The instruction checks elements after its acceptance (R366). -/
def checksElements (i : Instr) : Bool := (memShape i).isSome || (texShape i).isSome

/-- Vector length at acceptance (R54, R252, R287, R327). -/
def vlAt (t : Thread) (i : Instr) (s : VShape) : Nat :=
  match s.l with
  | none => 0
  | some l =>
    let n := vlenOf (t.getX l.xl) s.ty
    match i with
    | .vldx .. | .vstx .. | .vamo .. => min n 128
    | .tsampGrad .. | .tsampLod .. | .tsampBase .. | .tfetch .. => min n 32
    | _ => n

/-- The x operands captured at acceptance, after x(XL) (R143); of a memory instruction the offset and the stride. -/
def capturedXs (t : Thread) (i : Instr) : List Word :=
  let x := t.getX
  let arg (b : VArg) : List Word := match b with | .scal r => [x r] | .vec _ => []
  match i with
  | .vadd o | .vsub o | .vmul o => x o.l.xl :: arg o.b
  | .vmin o | .vmax o | .vand o | .vor o | .vxor o | .vshl o | .vshr o | .vsra o => x o.l.xl :: arg o.b
  | .vmad o | .vmsb o => x o.l.xl :: arg o.b
  | .vcmp _ _ _ b _ l => x l.xl :: arg b
  | .vbcast _ xs _ l => [x l.xl, x xs]
  | .vext _ _ xi _ l => [x l.xl, x xi]
  | .vins _ xs xi _ l => [x l.xl, x xs, x xi]
  | .vslideDown _ _ xs _ l | .vslideUp _ _ xs _ l => [x l.xl, x xs]
  | .kpop _ _ u | .kfirst _ _ u | .kset _ u => [x u]
  | .vld _ _ m l | .vldff _ _ m l | .vst _ _ m l => [x l.xl, t.offset m]
  | .vlds _ _ m xi l | .vsts _ _ m xi l => [x l.xl, t.offset m, x xi]
  | .vldx _ _ m _ l | .vstx _ _ m _ l => [x l.xl, t.offset m]
  | .vamo _ _ _ _ xb disp _ l => [x l.xl, x xb + sx disp]
  | .vmm8 _ _ _ _ xr l => [x l.xl, x xr]
  | .tsampGrad _ _ _ _ xr l | .tsampLod _ _ _ xr l | .tsampBase _ _ _ xr l | .tfetch _ _ _ xr l => [x l.xl, x xr]
  | i => match plainShape i with
    | some s => match s.l with | some l => [x l.xl] | none => []
    | none => []

/-- The segment an instruction names. -/
def segmentOf (t : Thread) (i : Instr) : Segment :=
  match i with
  | .vld _ _ m _ | .vldff _ _ m _ | .vst _ _ m _ | .vlds _ _ m _ _ | .vsts _ _ m _ _ | .vldx _ _ m _ _ | .vstx _ _ m _ _ =>
    t.getG m.g
  | .vamo _ _ _ g _ _ _ _ | .tsampGrad _ _ _ g _ _ | .tsampLod _ _ g _ _ | .tsampBase _ _ g _ _ | .tfetch _ _ g _ _ =>
    t.getG g
  | _ => Segment.none

/-! ### Acceptance (R143) -/

/-- Place in the order of acceptance: that of the faulting instruction for one that a replay record has accepted again, and for
each member of its `vloop` (R366). -/
def Thread.orderFor (t : Thread) (num : Nat) : Nat := match t.replay with
  | some r =>
    let pc := match t.vloop with
      | some l => if l.left != 0 then l.pc else t.pc
      | none => t.pc
    if r.active && r.pc == pc then r.order else num
  | none => num

/-- An entry for an instruction, with `more` doubles captured beside its x operands. -/
def newEntry (t : Thread) (num : Nat) (i : Instr) (more : List Word) : SeqEntry :=
  let s := (shapeOf i).getD ⟨.n8, none, [], [], [], [], [], .atLast⟩
  let vl := vlAt t i s
  let total := if (texShape i).isSome then 1 else max 1 (groupsOf s.ty vl)
  let first := if checksElements i && !(t.held.any fun e => checksElements e.instr) then t.vstart.toNat else 0
  { num := num, order := t.orderFor num, instr := i, pc := t.pc, xs := capturedXs t i ++ more, seg := segmentOf t i, rm := t.rm, fz := t.fz
    vl := vl, total := total, entered := 0, delivered := 0, rows := [], passIn := [], passWait := false, passOut := [], src := [], kept := []
    vstart := first, member := false, stop := false, checked := false }

/-- Entries taken: those of instructions in the sequencer and of a loop's members (R148). -/
def Thread.entriesTaken (t : Thread) : Nat :=
  (t.seq.filter fun e => !e.member).length + match t.vloop with | some l => l.members.length | none => 0

/-- A `vloop` is capturing (R148). -/
def Thread.capturing (t : Thread) : Bool := match t.vloop with
  | some l => l.left != 0
  | none => false

/-- A member as iteration `i` runs it (R148): its offset moved by the stride of its major. -/
def memberAt (l : VLoop) (i num : Nat) (e : SeqEntry) : SeqEntry :=
  let by' (w : Word) : Word := BitVec.ofNat 64 i * w
  let xs := match memShape e.instr with
    | some m => match m.kind with
      | .load => e.xs.set 1 ((e.xs[1]?).getD 0 + by' l.loadStride)
      | .store => e.xs.set 1 ((e.xs[1]?).getD 0 + by' l.storeStride)
      | .atomic _ => e.xs
    | none => e.xs
  { e with num := num, xs := xs, member := true, vstart := 0 }

/-- The first memory instruction of some entries takes VSTART (R249). -/
def giveVstart (v : Nat) : List SeqEntry → List SeqEntry
  | [] => []
  | e :: es => if checksElements e.instr then { e with vstart := v } :: es else e :: giveVstart v es

/-- Put the entries of the iteration a loop stands at into the sequencer at place `n`, after what was accepted before the
loop and before what was accepted after it (R148, R149). -/
def State.startIteration (s : State) (key n : Nat) : State :=
  match s.thread? key with
  | none => s
  | some t =>
    match t.vloop with
    | none => s
    | some l =>
      if l.count ≤ l.iter then s.putThread { t with vloop := none }
      else
        let ms := l.members.drop l.first
        let es := ((List.range ms.length).zip ms).map fun p => memberAt l l.iter (s.stamps + p.1) p.2
        let free := !((t.seq.take n).any fun e => checksElements e.instr)
        let es := if free then giveVstart t.vstart.toNat es else es
        { s.putThread { t with seq := t.seq.take n ++ es ++ t.seq.drop n } with stamps := s.stamps + ms.length }

/-- After the acceptance of the faulting instruction again, what a replay record has set aside follows it (R366, R373):
the pc that scalar issue continues at. -/
def State.applyReplay (s : State) (key : Nat) (pc : Word) : State × Option Word :=
  match s.thread? key with
  | none => (s, none)
  | some t =>
    match t.replay with
    | none => (s, none)
    | some r =>
      if !r.active || r.pc != pc || t.capturing then (s, none)
      else
        let s := s.putThread { t with seq := t.seq ++ r.entries, replay := none, pass := r.pass.or t.pass,
                                      vloop := if r.loop.isSome then r.loop else t.vloop }
        ((match r.loop with
          | some l => if l.left == 0 then s.startIteration key (t.seq.length + r.entries.length - r.behind) else s
          | none => s), some r.rpc)

/-- Whether the sequencer entry or the loop a thread waits for has gone. -/
def Thread.entryGone (t : Thread) (n : Nat) : Bool :=
  !(t.seq.any fun e => e.num == n) && !(match t.vloop with | some l => l.mark == n | none => false)

/-- `vldff` is among the members of a loop (R254). -/
def VLoop.trims (l : VLoop) : Bool := l.members.any fun e => match e.instr with | .vldff .. => true | _ => false

/-- Accept an instruction into the sequencer (R143, R148, R171, R366): a member of the `vloop` that captures, or an entry.
`waits` holds the thread until the entry has gone. -/
def acceptM (t : Thread) (i : Instr) (waits : Bool) (more : List Word := []) : M Ending :=
  match t.asked with
  | .vector n => if t.entryGone n then return .seq else waitM .sequencer 0 (.vector n)
  | _ => do
    untilSeq (decide (t.entriesTaken < Config.seqEntries))
    let s ← get
    let (num, s) := s.takeStamp
    let e := newEntry t num i more
    match t.vloop with
    | some l =>
      if l.left != 0 then
        let l := { l with members := l.members ++ [{ e with member := true }], left := l.left - 1, mark := num }
        if l.left != 0 then
          set (s.putThread { t with vloop := some l })
          return .seq
        else
          let s := (s.putThread { t with vloop := some l }).startIteration t.key t.seq.length
          let (s, rpc) := s.applyReplay t.key l.pc
          set s
          match rpc with
          | some p => return .jump p
          | none => if l.trims && decide (l.iter < l.count) then waitM .sequencer 0 (.vector num) else return .seq
      else pushed s num e
    | none => pushed s num e
where
  /-- An entry outside a capture. -/
  pushed (s : State) (num : Nat) (e : SeqEntry) : M Ending := do
    let e := match t.pass with
      | some (_, _, some r) => { e with passIn := r }
      | some (_, _, none) => { e with passWait := true, passIn := (t.seq.getLast?.map (·.passOut)).getD [] }
      | none => e
    let pass : Option (VReg × Ty × Option (List (Nat × Nat))) := match i with
      | .vhadPass vd _ ty _ _ _ => some (vd, ty, none)
      | _ => none
    let s := s.putThread { t with seq := t.seq ++ [e], pass := pass }
    let (s, rpc) := s.applyReplay t.key t.pc
    set s
    match rpc with
    | some p => return .jump p
    | none => if waits then waitM .sequencer 0 (.vector num) else return .seq

/-- `vloop` (R148, R149): capture begins, at the record's iteration when it resumes, once an earlier loop has ended (DESIGN
CHOICE, log entry 94). -/
def vloopM (t : Thread) (p q u : XReg) (n : BitVec 6) : M Ending := do
  untilSeq t.vloop.isNone
  let (iter, first) := match t.loopRec with
    | some (pc, i, m) => if pc = t.pc then (i, m) else (0, 0)
    | none => (0, 0)
  putM { t with
    vloop := some ⟨t.pc, (t.getX p).toNat, t.getX q, t.getX u, n.toNat, [], iter, first, 0⟩, loopRec := none }
  return .seq

/-- An instruction a `vloop` may capture (R148). -/
def mayMember (i : Instr) : Bool :=
  match i with
  | .vext .. | .vhadPass .. => false
  | .kand .. | .kor .. | .kxor .. | .knot .. | .kmov .. | .kpop .. | .kfirst .. | .kset .. => false
  | .boxt .. | .trit .. | .vmm8 .. | .tsampGrad .. | .tsampLod .. | .tsampBase .. | .tfetch .. => false
  | .mrow .. | .mwrow .. | .vamo .. => false
  | i => (shapeOf i).isSome

/-- An instruction may take the results of a pass form (R171). -/
def takesPass (i : Instr) (vd : VReg) (ty : Ty) : Bool :=
  let fits (a : VSrc) (s : Ty) : Bool := a.reg == vd && a.chain && s == ty
  match i with
  | .vcvt o | .vpack o => fits o.a o.s
  | .vquant _ _ a _ s _ _ _ => fits a s
  | .vamax o => fits o.a o.t
  | .vhad _ a t _ _ _ | .vhadPass _ a t _ _ _ => fits a t
  | _ => false

/-! ### Convoys (R146) -/

/-- Place, among some entries, of the latest that satisfies `p`. -/
def latest (es : List SeqEntry) (p : SeqEntry → Bool) : Option Nat :=
  (List.range es.length).reverse.find? fun i => (es[i]?).any p

/-- Places of the producers to which the sources of a shape are linked, among the entries before it: those of the sources with a
chain bit, and of every k source (R144). -/
def producers (before : List SeqEntry) (sh : VShape) : List Nat :=
  (sh.reads.filterMap fun r => if r.2.1 then latest before fun e => e.shape.writes.any (·.1 == r.1) else none)
    ++ sh.kreads.filterMap fun r => latest before fun e => e.shape.kwrites.any (·.1 == r.1)

/-- The chain links among the shapes of a sequencer's instructions, the last of which is being accepted: pairs of places. -/
def chainLinks (es : List SeqEntry) (last : VShape) : List (Nat × Nat) :=
  ((List.range es.length).flatMap fun i => match es[i]? with
    | some e => (producers (es.take i) e.shape).map (·, i)
    | none => []) ++ (producers es last).map (·, es.length)

/-- Places linked to some, through at most `fuel` links. -/
def linkedTo (links : List (Nat × Nat)) (ns : List Nat) : Nat → List Nat
  | 0 => ns
  | fuel + 1 =>
    linkedTo links ((List.range 64).filter fun i => ns.contains i || links.any fun l =>
      (l.1 == i && ns.contains l.2) || (l.2 == i && ns.contains l.1)) fuel

/-- The instructions that hold entries, in the order of acceptance: a `vloop` that captures holds those of its members so far
(R148). -/
def Thread.accepted (t : Thread) : List SeqEntry := match t.vloop with
  | some l => if l.left != 0 then t.seq ++ l.members else t.seq
  | none => t.seq

/-- The convoy that an instruction is in as it is accepted: its head address and its member count. -/
def Thread.convoyOf (t : Thread) (i : Instr) : Option (Word × Nat) :=
  (shapeOf i).map fun sh =>
    let es := t.accepted
    let ns := linkedTo (chainLinks es sh) [es.length] es.length
    (((es[ns.headD 0]?).map (·.pc)).getD t.pc, ns.length)

/-! ### When a group may enter (R144, R249) -/

/-- Groups of an entry from `n` on. -/
def SeqEntry.groupsFrom (e : SeqEntry) (n : Nat) : List Nat := (List.range (e.total - n)).map (n + ·)

/-- Every group of an entry has entered, and none has stopped. -/
def SeqEntry.allIn (e : SeqEntry) : Bool := e.entered == e.total && !e.stop

/-- Groups of an entry that have yet to read their v sources. -/
def SeqEntry.toRead (e : SeqEntry) : List Nat :=
  match e.shape.pace with
  | .groups => e.groupsFrom e.entered
  | .captured => if e.entered == 0 then e.groupsFrom 0 else []
  | .atLast => if e.allIn then [] else e.groupsFrom 0

/-- Groups of an entry that have yet to read their k sources. -/
def SeqEntry.toReadK (e : SeqEntry) : List Nat :=
  match e.shape.pace with
  | .atLast => e.toRead
  | _ => e.groupsFrom e.entered

/-- Some groups of one instruction touch none of the bits that group `j` of another does. -/
def Span.clear (a : Span) (gs : List Nat) (b : Span) (j : Nat) : Bool := gs.all fun i => !a.meets i b j

/-- An earlier entry `f` lets group `j` of `e` enter a row (R143, R144): a source waits for the groups of `f` that write the
bits it reads, all of them where it is not chained, and a result for those that write or have yet to read what it writes.
Behind a memory instruction whose elements are not all known to pass their checks nothing enters (R366). -/
def clearOf (f e : SeqEntry) (j : Nat) : Bool :=
  let a := f.shape
  let b := e.shape
  let due := f.groupsFrom f.delivered
  (!checksElements f.instr || f.allIn || f.checked)
  && (!(checksElements e.instr && (match f.instr with | .vmm8 .. => true | _ => false)) || f.entered != 0)
  && (!(drawing f.instr f.rm && drawing e.instr e.rm) || f.allIn)
  && (b.reads.all fun r => a.writes.all fun w => w.1 != r.1 || (r.2.1 && w.2.clear due r.2.2 j))
  && (b.kreads.all fun r => a.kwrites.all fun w => w.1 != r.1 || w.2.clear due r.2 j)
  && (b.writes.all fun r => a.writes.all fun w => w.1 != r.1 || w.2.clear due r.2 j)
  && (b.kwrites.all fun r => a.kwrites.all fun w => w.1 != r.1 || w.2.clear due r.2 j)
  && (b.writes.all fun r => a.reads.all fun w => w.1 != r.1 || w.2.2.clear f.toRead r.2 j)
  && (b.kwrites.all fun r => a.kreads.all fun w => w.1 != r.1 || w.2.clear f.toReadK r.2 j)

/-- The entry at place `i` follows a loop of which iterations are still to start: it takes effect after them (R148). -/
def Thread.behindLoop (t : Thread) (i : Nat) (e : SeqEntry) : Bool :=
  !e.member && ((t.seq.take i).any fun f => f.member) &&
  match t.vloop with
  | some l => decide (l.iter + 1 < l.count)
  | none => false

/-- The results of a pass form that group `j` of its consumer takes are there (R144, R171): the groups of the form just before
it that compute elements the group reads have been delivered. -/
def Thread.passClear (t : Thread) (i : Nat) (e : SeqEntry) (j : Nat) : Bool :=
  !e.passWait ||
  match t.seq[i - 1]?, e.shape.reads with
  | some f, r :: _ => (if f.shape.pace == .groups then Span.own else .whole).clear (f.groupsFrom f.delivered) r.2.2 j
  | _, _ => false

/-- Every entry before place `i`, and every iteration to come of a loop before it, lets the entry there go on with group
`j`. -/
def Thread.clearBefore (t : Thread) (i : Nat) (e : SeqEntry) (j : Nat) : Bool :=
  !t.behindLoop i e && t.passClear i e j && (t.seq.take i).all fun f => clearOf f e j

/-- The entry at place `i` has a group ready for a row. -/
def Thread.groupReady (t : Thread) (i : Nat) : Bool :=
  match t.seq[i]? with
  | none => false
  | some e => !ofAnvil e.instr && !e.stop && decide (e.entered < e.total) && t.clearBefore i e e.entered

/-- Pipes of which a group takes a row; an instruction with vl = 0 takes none (R145). -/
def SeqEntry.pipes (e : SeqEntry) : List Pipe := if e.vl == 0 then [] else e.shape.pipes

/-! ### Entry of a group -/

/-- The active elements that group `j` looks at, in increasing order: its own, or all (R54, R133). -/
def groupEls (t : Thread) (e : SeqEntry) (s : VShape) (j : Nat) : List Nat :=
  let all := match s.pace with
    | .groups => ((List.range (groupElems s.ty)).map (j * groupElems s.ty + ·)).filter (· < e.vl)
    | .captured => List.range e.vl
    | .atLast => if j + 1 == e.total then List.range e.vl else []
  match s.l with
  | some l => all.filter fun el => t.active l.kg el && decide (e.vstart ≤ el)
  | none => all

/-- The first active element of an instruction at or above VSTART. -/
def firstActive (t : Thread) (e : SeqEntry) (l : VLen) : Option Nat :=
  (List.range e.vl).find? fun el => t.active l.kg el && decide (e.vstart ≤ el)

/-- The thread as a group sees it: with the sources captured when the first group entered, and with what the instruction's own
results have overwritten (R143). -/
def Thread.withSources (t : Thread) (e : SeqEntry) : Thread :=
  (e.shape.reads.zip e.src).foldl (fun t r => t.setV r.1.1 r.2) (t.asRead e)

/-- Of results computed whole, those that group `j` writes. -/
def GroupOut.only (o : GroupOut) (sh : VShape) (j : Nat) : GroupOut :=
  match sh.pace with
  | .captured => { o with v := o.v.filter fun w => sh.writes.any fun r => r.1 == w.reg && r.2.has j w.off }
  | _ => o

/-- Compute a group (R150): the results, or those of the element at which a memory instruction stops. -/
def runGroup (s : State) (t : Thread) (e : SeqEntry) (j : Nat) : GroupRun :=
  let sh := e.shape
  let els := groupEls t e sh j
  let pure (c : Computed) : GroupRun := ⟨s, c.out.only sh j, c.seed, none, none⟩
  match memShape e.instr, texShape e.instr, sh.l with
  | some m, _, some l => memGroup s (t.asRead e) e m j els (firstActive t e l)
  | _, some (vd, va, mode, _), _ => texGroup s t e mode vd va els
  | _, _, _ =>
    if sh.pace == .atLast && j + 1 != e.total then pure ⟨.empty j, t.srseed⟩
    else
      let t := t.withSources e
      match e.instr with
      | .boxt vd va vb l => pure ⟨{ GroupOut.empty j with v := (testsOf t e l.kg 32).flatMap (boxTest t vd va vb) }, t.srseed⟩
      | .trit vd va vb l => pure ⟨{ GroupOut.empty j with v := (testsOf t e l.kg 16).flatMap (triTest t vd va vb) }, t.srseed⟩
      | .vmm8 e5 vd a c _ _ => pure ⟨computeMm8 t e j e5 vd a.reg c.reg els, t.srseed⟩
      | _ => pure (computeGroup t e j els)

/-- The doubles of a matrix of `vmm8`, read before its first group (R332). -/
def State.matrixWords (s : State) (t : Thread) (e : SeqEntry) : List Word :=
  doublesOf 132 (s.padBytes t.gang ((e.xs[1]?).getD 0).toNat 1056)

/-- The elements of the memory instruction at place `i` and their addresses are known: no earlier entry may still write its index
register or its guard. -/
def Thread.elementsKnown (t : Thread) (i : Nat) (m : MemShape) : Bool :=
  !((t.seq.take i).any fun f => (f.shape.writes.any fun w => some w.1 == m.index) || f.shape.kwrites.any fun w => w.1 == m.kg)

/-- Before group `j` of a memory instruction is entered, the pages its active elements miss are walked: those of all the elements
that remain, once they are known, else those of the group (R246; log entry 83). -/
def State.walkGroups (s : State) (t : Thread) (i : Nat) (e : SeqEntry) (j : Nat) : State :=
  match memShape e.instr with
  | some m =>
    let gs := if t.elementsKnown i m then e.groupsFrom j else [j]
    s.walkTogether (t.asRead e) e m (gs.flatMap (groupEls t e e.shape))
  | none => s

/-- Every element of a memory instruction after group `j` would be performed as things stand: it passes its checks and meets no
wait. This is known once its elements are (log entry 83). -/
def State.allPass (s : State) (t : Thread) (i : Nat) (e : SeqEntry) (m : MemShape) (j : Nat) : Bool :=
  let els := (e.groupsFrom (j + 1)).flatMap (groupEls t e e.shape)
  let one (el : Nat) : M (List VWrite) := do
    let _ ← elementM (t.asRead e) e m el
    return []
  t.elementsKnown i m && !e.member && (match e.instr with | .vldff .. => false | _ => true) && (runElements one els s).2.2.isNone

/-- Replace the entry at place `i`. -/
def Thread.setEntry (t : Thread) (i : Nat) (e : SeqEntry) : Thread := { t with seq := t.seq.set i e }

/-- Enter the next group of the entry at place `i` of a thread into its row. -/
def State.enterGroup (s : State) (t : Thread) (i : Nat) : State :=
  match t.seq[i]? with
  | none => s
  | some e =>
    let j := e.entered
    let e := match e.instr with
      | .vmm8 .. => if j == 0 then { e with xs := e.xs ++ s.matrixWords t e } else e
      | _ => if j == 0 && e.shape.pace == .captured then { e with src := e.shape.reads.map fun r => t.getV r.1 } else e
    let r := runGroup (s.walkGroups t i e j) t e j
    let out := { r.out with draws := if drawing e.instr e.rm then some t.srseed else none }
    let passed := match memShape e.instr with
      | some m => r.stop.isNone && r.trim.isNone && decide (j + 1 < e.total) && r.s.allPass t i e m j
      | none => false
    let e := { e with entered := j + 1, rows := e.rows ++ [out], checked := passed }
    let e := match r.trim with
      | some el => { e with vl := el, total := j + 1 }
      | none => e
    let pc := match e.member, t.vloop with | true, some l => l.pc | _, _ => e.pc
    match r.stop with
    | none => r.s.putThread { (t.setEntry i e) with srseed := r.seed }
    | some (el, c, v) =>
      r.s.putThread { (t.setEntry i { e with stop := true }) with srseed := r.seed, deferred := some ⟨c, v, el, pc, e.num⟩ }

/-! ### Delivery of a group -/

/-- Write a group's results (R145, R75). -/
def Thread.applyOut (t : Thread) (o : GroupOut) : Thread :=
  let t := o.v.foldl (fun t w => t.setV w.reg (w.on (t.getV w.reg))) t
  let t := o.k.foldl (fun t w => t.setK w.reg (kput (t.getK w.reg) w.off w.width w.val)) t
  let t := o.x.foldl (fun t w => t.setX w.1 w.2) t
  { t with fflags := t.fflags ||| o.flags, mxstat := t.mxstat ||| o.mx }

/-- Hand what a pass form has computed so far to its consumer, if that is at place `i`; `last` says that it is all (R171). -/
def Thread.handPass (t : Thread) (i : Nat) (r : List (Nat × Nat)) (last : Bool) : Thread :=
  match t.seq[i]?, t.pass with
  | some c, _ => if c.passWait then t.setEntry i { c with passIn := r, passWait := !last } else t
  | none, some (vd, ty, none) => if last then { t with pass := some (vd, ty, some r) } else t
  | none, _ => t

/-- The last group of an instruction has been delivered: it commits and leaves the sequencer (R143, R145, R171, R249). -/
def State.commitEntry (s : State) (t : Thread) (i : Nat) (e : SeqEntry) : State :=
  let t := match e.instr with
    | .vhadPass .. => t.handPass (i + 1) e.passOut true
    | _ => t
  let t := { t with seq := t.seq.eraseIdx i, vstart := if checksElements e.instr then 0 else t.vstart }
  let s := (s.putThread t).traceCommit t e
  if e.member && !(t.seq.any fun f => f.member) then
    match t.vloop with
    | some l => (s.putThread { t with vloop := some { l with iter := l.iter + 1, first := 0 } }).startIteration t.key i
    | none => s
  else s

/-- An entry as its results `o` are about to be delivered: it keeps the bits they overwrite that a group to come reads, so that every
source is read as if before any result is written (R143). -/
def SeqEntry.keep (e : SeqEntry) (t : Thread) (o : GroupOut) : SeqEntry :=
  let lost := o.v.filter fun w => e.shape.reads.any fun r => r.1 == w.reg && e.toRead.any fun g =>
    meets (r.2.2.base + g * r.2.2.step) r.2.2.size w.off w.width
  { e with kept := e.kept ++ lost.map fun w => { w with val := ((t.getV w.reg).extractLsb' w.off w.width).toNat } }

/-- Deliver the oldest group in a row of entry `num` of a thread. -/
def State.deliverGroup (s : State) (t : Thread) (num : Nat) : State :=
  match t.seq.findIdx? fun e => e.num == num with
  | none => s
  | some i =>
    match t.seq[i]? with
    | none => s
    | some e =>
      match e.rows with
      | [] => s
      | o :: rest =>
        let e := e.keep t o
        let t := t.applyOut o
        let e := { e with rows := rest, delivered := e.delivered + 1, passOut := e.passOut ++ o.pass }
        let t := t.setEntry i e
        let t := match e.instr with
          | .vhadPass .. => t.handPass (i + 1) e.passOut false
          | _ => t
        if e.delivered == e.total && !e.stop then s.commitEntry t i e else s.putThread t

/-! ### Steps -/

/-- What an entry of a thread's sequencer may still access, at place `k` of it, lies apart from group `j` of the memory
instruction `e` behind it: accesses of one thread to one location take effect in program order (R253). -/
def State.apartFrom (s : State) (t : Thread) (k : Nat) (f e : SeqEntry) (j : Nat) : Bool :=
  f.allIn || !touchesMemory f.instr ||
  match memShape e.instr with
  | none => !touchesMemory e.instr
  | some m => (groupEls t e e.shape j).all fun el =>
    match s.whereIs t e.seg (elemOffset (t.asRead e) e m el) with
    | some a => !s.mayTouch t f (k == 0) a (m.ty.bits / 8)
    | none => true

/-- No earlier entry may still access what the next group of the entry at place `i` does. -/
def State.apart (s : State) (t : Thread) (i : Nat) : Bool :=
  match t.seq[i]? with
  | none => true
  | some e => (List.range i).all fun k => match t.seq[k]? with
    | some f => s.apartFrom t k f e e.entered
    | none => true

/-- Places in the sequencers of a core's threads with a ready group: key, place in the order of acceptance, place. -/
def State.readyGroups (s : State) (core : Nat) : List (Nat × Nat × Nat) :=
  ((s.threads.map (·.2)).filter fun t => t.core == core && !t.parked).flatMap fun t =>
    (List.range t.seq.length).filterMap fun i =>
      if t.groupReady i && s.apart t i then (t.seq[i]?).map fun e => (t.key, e.order, i) else none

/-- Pipes a ready group takes. -/
def State.groupPipes (s : State) (p : Nat × Nat × Nat) : List Pipe :=
  match s.thread? p.1 with
  | some t => ((t.seq[p.2.2]?).map SeqEntry.pipes).getD []
  | none => []

/-- A pipe for which a group is ready and the core has neither grant nor request (R138). -/
def State.implicitPipe (s : State) (core : Nat) : Option Pipe :=
  let c := s.core core
  ((s.readyGroups core).flatMap s.groupPipes).find? fun p => c.grants.get p == 0 && c.requests.get p == 0

/-- The ready group of a core that takes its rows next: the instruction accepted earliest, of those whose pipes the core
holds rows of (R145). -/
def State.nextGroup (s : State) (core : Nat) : Option (Nat × Nat × Nat) :=
  let c := s.core core
  let held := (s.readyGroups core).filter fun p => (s.groupPipes p).all fun q => decide (0 < c.grants.get q)
  held.foldl (fun (b : Option (Nat × Nat × Nat)) p => match b with
    | some q => if p.2.1 < q.2.1 then some p else b
    | none => some p) none

/-- VECTOR_GROUP_ENTRY (R138, R145): core `ev.a` makes an implicit request, or its next ready group enters its rows. -/
def execVectorGroupEntry (s : State) : Result :=
  let core := s.ev.a
  match s.implicitPipe core with
  | some p =>
    let c := s.core core
    .next (s.putCore core { c with requests := c.requests.set p 1, point := true })
  | none =>
    match s.nextGroup core with
    | none => .next s
    | some (key, _, i) =>
      match s.thread? key with
      | none => .next s
      | some t => .next (s.enterGroup t i)

/-- VECTOR_GROUP_DELIVERY (R145): the oldest group in a row of entry `ev.b` of thread `ev.a` is delivered. -/
def execVectorGroupDelivery (s : State) : Result :=
  match s.thread? s.ev.a with
  | none => .next s
  | some t => .next (s.deliverGroup t s.ev.b)

end Sys2Proof.Machine
end

