-- ==== Sys2Proof/Machine/Gangs.lean ====
section
/-!
DEFINITION. The end of threads, gangs and launches: threads that leave their context, gangs that complete, counters that
complete, and cancels (R91, R203, R293 to R296, R309, R317, R318), with CANCEL_COMPLETE.
-/
namespace Sys2Proof.Machine
namespace State

/-! ### Accumulator windows (R183, R185) -/

/-- Accumulator windows of the threads of a bench that are not switched out, and those their seam frames hold. -/
def windowsOn (s : State) (bench : Nat) : List Window :=
  ((s.threads.map (·.2)).filter fun t => t.bench == bench && !t.parked).flatMap fun t =>
    t.window.toList ++ t.frames.filterMap (·.window)

/-- A row lies in one of some windows. -/
def inWindows (ws : List Window) (r : Nat) : Bool := ws.any fun w => decide (w.base ≤ r) && decide (r < w.base + w.rows)

/-- Rows take unstated contents: free values under a new number (R185; log entry 5). -/
def unstate (s : State) (bench : Nat) (rows : List Nat) : State :=
  if rows.isEmpty then s
  else
    let (f, s) := s.takeFree
    let b := s.bench bench
    s.putBench bench { b with
      acc := b.acc.filter fun c => !rows.contains (c.1 / 512)
      badCells := b.badCells.filter fun c => !rows.contains (c / 512)
      stale := rows.foldl (fun m r => Map.put m r f) b.stale }

/-- Rows come to lie in a window: one that lay in a window before, and in none now, has unstated contents. -/
def openRows (s : State) (bench base n : Nat) : State :=
  let b := s.bench bench
  let rows := ((List.range n).map (base + ·)).filter fun r => !inWindows (s.windowsOn bench) r
  let known := rows.filter b.opened.contains
  let new := rows.filter fun r => !b.opened.contains r
  let s := if new.isEmpty then s else s.putBench bench { b with opened := b.opened ++ new }
  s.unstate bench known

/-! ### Threads that go -/

/-- The key under which the engine operations of a thread that has gone are kept (R91). -/
def orphanKey (key : Nat) : Nat := key + 2 ^ 40

/-- The engine operations of a thread that goes are kept until they complete (R91). -/
def leaveEngines (s : State) (t : Thread) : State :=
  let b := s.bench t.bench
  let mine := fun o : AnvilOp => o.key == t.key
  let s := if b.anvil.any mine then
      s.putBench t.bench { b with anvil := b.anvil.map fun o => if mine o then { o with key := orphanKey o.key } else o }
    else s
  let ops := t.plate.filter fun o => o.status == .pending
  match s.gangOf t with
  | some g => if ops.isEmpty then s else s.putGang t.gang { g with orphans := g.orphans ++ ops.map fun o => (t.key, o) }
  | none => s

/-- The messages for a thread in the ring of its context's save area are discarded with its mailbox (R98, R317). -/
def dropMessages (s : State) (t : Thread) : State := match s.ctx? t.ctx with
  | some c =>
    if c.ringMsgs.any fun r => r.receiver == t.tid.toNat then
      s.putRing t.ctx (c.ringMsgs.filter fun r => r.receiver != t.tid.toNat)
    else s
  | none => s

/-- A thread becomes Empty (R87): its mailbox goes, and what it has set aside; its engine operations still complete. -/
def emptyThread (s : State) (t : Thread) : State := ((((s.streamsGone t).dropReplay t).leaveEngines t).dropMessages t).dropThread t.key

/-! ### Gangs that complete -/

end State

/-- An anvil operation works on a core of a gang, for the gang's context. -/
def Gang.worksFor (g : Gang) (o : AnvilOp) : Bool :=
  g.cores.contains (o.core % 8) && o.core / 8 == g.bench && o.key % 2 ^ 40 / 16384 == g.ctx

/-- A thread key is one of a gang's cores, for the gang's context. -/
def Gang.ownsKey (g : Gang) (key : Nat) : Bool :=
  key / 16384 == g.ctx && key % 16384 / 128 == g.bench && g.cores.contains (key / 16 % 8)

namespace State

/-- No engine operation of a gang is pending any more, of the drawplate, the anvil or the chase unit, and every access of its
threads has been performed (R91, R278, R296). -/
def gangIdle (s : State) (g : Gang) : Bool :=
  g.orphans.isEmpty && !((s.bench g.bench).anvil.any fun o => g.worksFor o && decide (2 ^ 40 ≤ o.key))
  && !(s.home.any fun h => g.ownsKey h.2.key)
  && !(s.tickets.any fun r => g.ownsKey r.2.key) && !s.tiles.any fun t => t.2.commits.any fun c => g.ownsKey c.key

/-- A gang whose heads have all ended, and whose engine operations have completed, is complete: its allotment, window and
cores are free, and its launch has one gang more complete (R293, R309). -/
def finishGang (s : State) (n : Nat) : State :=
  match s.gang? n with
  | none => s
  | some g =>
    if !(g.cores.all g.done.contains && s.gangIdle g) then s
    else
      let s := { s with gangs := Map.del s.gangs n }
      match s.launch? g.ctx g.launchSeq with
      | none => s
      | some l =>
        let l := { l with complete := l.complete + 1 }
        let fin := decide (l.record.ngangs ≤ l.complete) && l.state == .placed
        let s := s.putLaunch g.ctx g.launchSeq (if fin then { l with state := .done } else l)
        if l.record.own = noCounter then (if fin then s.childDone g.ctx l.record.parent l.err else s)
        else s.childDone g.ctx l.record.own false

/-- Gangs whose last access has been performed since their heads ended complete (R296). -/
def finishGangs (s : State) : State :=
  (s.gangs.filter fun g => !g.2.parked && g.2.cores.all g.2.done.contains).foldl (fun s g => s.finishGang g.1) s

/-- The head of a core has ended: the core's share of the gang is reported complete (R91). -/
def shareDone (s : State) (gang core : Nat) : State :=
  match s.gang? gang with
  | none => s
  | some g => (s.putGang gang { g with done := g.done ++ [core] }).finishGang gang

/-! ### Cancels (R317) -/

/-- A counter of a context lies under counter `n`, or is it: launches, graphs and phases nest three deep, and all are
under the job counter; a sprue counter has no parent (R293, R299). -/
def under (s : State) (ctx n c : Nat) : Bool :=
  let up (c : Nat) : Nat := (s.counter ctx c).parent
  c != noCounter && (c == n || up c == n || (up c != noCounter && up (up c) == n) || (n == 0 && (s.counter ctx c).level != 4))

/-- A launch is covered by a cancel of counter `n`. -/
def launchUnder (s : State) (ctx n : Nat) (l : Launch) : Bool :=
  s.under ctx n l.record.own || s.under ctx n l.record.parent || n == 0

/-- The taken entries of a gang are released, with DONEC decremented and ERR set (R317). -/
def releaseTaken (s : State) (ctx gang : Nat) : State :=
  match s.ctx? ctx with
  | none => s
  | some c =>
    let mine := fun e : SprueEntry => e.holder == some gang
    let counts := c.sprues.map fun q => (q.2.donec, (q.2.taken.filter mine).length)
    let s := s.putCtx ctx { c with sprues := c.sprues.map fun q => (q.1, { q.2 with taken := q.2.taken.filter fun e => !mine e }) }
    counts.foldl (fun s p => (List.replicate p.2 ()).foldl (fun s _ => s.childDone ctx p.1 true) s) s

/-- A thread stops for a cancel of a counter: nothing it has not yet done is done (R197, R317). -/
def stopThread (s : State) (counter : Nat) (t : Thread) : State :=
  let s := (((((s.streamsGone t).dropAnvil t 0).dropMessages t).assayThread t 0x34 counter).raise t.key Cause.cancelled 0 t.pc none)
  { s.dropThread t.key with
    home := s.home.filter fun h => h.2.key != t.key
    tickets := s.tickets.filter fun r => r.2.key != t.key
    tiles := s.tiles.map fun e => (e.1, { e.2 with waiting := e.2.waiting.filter fun w => w.2.1 != t.key }) }

/-- A gang is stopped for a cancel (R317). -/
def stopGang (s : State) (counter n : Nat) : State :=
  match s.gang? n with
  | none => s
  | some g =>
    let s := ((s.threads.map (·.2)).filter fun t => t.gang == n).foldl (fun s t => s.stopThread counter t) s
    let b := s.bench g.bench
    let s := s.putBench g.bench { b with anvil := b.anvil.filter fun o => !g.worksFor o }
    { s.releaseTaken g.ctx n with gangs := Map.del s.gangs n }

/-- A launch becomes Cancelled: its gangs are stopped; without a counter of its own it counts for its parent at once
(R295, R317). -/
def cancelLaunch (s : State) (ctx counter n : Nat) (l : Launch) : State :=
  if l.state == .done || l.state == .cancelled then s
  else
    let s := s.putLaunch ctx n { l with state := .cancelled, cancelling := true }
    let gs := (s.gangs.filter fun g => g.2.ctx == ctx && g.2.launchSeq == n).map (·.1)
    let s := gs.foldl (fun s g => s.stopGang counter g) s
    if l.record.own = noCounter then s.childDone ctx l.record.parent true else s

/-- Steps 2 and 3 of a cancel of counter `n` (R317). -/
def beginCancel (s : State) (ctx n : Nat) : State :=
  match s.ctx? ctx with
  | none => s
  | some c =>
    let covered := c.launches.filter fun l => s.launchUnder ctx n l.2
    let s := s.putCtx ctx { c with counters := c.counters.map fun k =>
      if (s.under ctx n k.1 && k.2.state == .opened) = true then (k.1, { k.2 with cancelling := true }) else k }
    covered.foldl (fun s l => s.cancelLaunch ctx n l.1 l.2) s

/-- Step 4 of a cancel of counter `n`: each counter affected takes STATE 3, lowest level first, and counts for its
parent (R295, R317). -/
def endCancel (s : State) (ctx n : Nat) : State :=
  match s.ctx? ctx with
  | none => s
  | some c =>
    let hit := c.counters.filter fun k => k.2.cancelling && s.under ctx n k.1
    let rank (r : List (BitVec 3)) := hit.filter fun k => r.contains k.2.level
    (rank [0] ++ rank [1] ++ rank [2, 4] ++ rank [3, 5, 6, 7]).foldl (fun s k =>
      let k' := s.counter ctx k.1
      (s.putCounter ctx k.1 { k' with state := .cancelled, cancelling := false }).childDone ctx k'.parent true) s

/-- A launch whose WAITA or WAITB is cancelled becomes Cancelled as by that cancel (R311): `fuel` launches at most. -/
def sweepCancelled (s : State) (ctx : Nat) : Nat → State
  | 0 => s
  | fuel + 1 =>
    match s.ctx? ctx with
    | none => s
    | some c =>
      let dead (n : Nat) : Bool := n != noCounter && (s.counter ctx n).state == .cancelled
      match c.launches.find? fun l =>
          l.2.state != .done && l.2.state != .cancelled && (dead l.2.record.waita || dead l.2.record.waitb) with
      | none => s
      | some (n, l) =>
        let own := l.record.own
        let s := if own = noCounter then s.cancelLaunch ctx l.record.waita n l else (s.beginCancel ctx own).endCancel ctx own
        sweepCancelled s ctx fuel

/-- The launches of a context that a cancelled counter holds back are cancelled. -/
def sweep (s : State) (ctx : Nat) : State := match s.ctx? ctx with
  | some c => s.sweepCancelled ctx c.launches.length
  | none => s

end State

/-- CANCEL_COMPLETE (R317): the cancel of counter `ev.b` of context `ev.a` ends. -/
def execCancelComplete (s : State) : Result :=
  .next (if (s.counter s.ev.a s.ev.b).cancelling then (s.endCancel s.ev.a s.ev.b).sweep s.ev.a else s)

end Sys2Proof.Machine
end

