-- ==== Sys2Proof/Machine/Turns.lean ====
section
/-!
DEFINITION. The rotation of a core: latencies of instructions, eligible contexts, and whose turn it is (R82 to R85, R96,
R108).
-/
namespace Sys2Proof.Machine

/-- Core cycles from issue to completion (R108), of `ld` from a scratchpad or the L1 data cache, and of words with tags in a
scratchpad (R205, R256); an instruction that waits completes when its wait ends, or later where R82 says so. -/
def latency (t : Thread) : Instr → Nat
  | .mul .. | .mulh .. | .mulhN .. => 6
  | .div .. | .divN .. | .rem .. | .remN .. => 36
  | .fadd _ _ _ ty _ | .fsub _ _ _ ty _ | .fmul _ _ _ ty _ | .fmin _ _ _ ty | .fmax _ _ _ ty | .fcmp _ _ _ _ ty
  | .fclass _ _ ty => if ty = .f64 then 6 else 4
  | .fcvt _ _ dst src _ _ => if dst = .f64 ∨ src = .f64 then 6 else 4
  | .ffma _ _ _ _ ty _ => if ty = .f64 then 8 else 6
  | .fdiv _ _ _ ty _ | .fsqrt _ _ ty _ => if ty = .f64 then 28 else 16
  | .vclaim .. | .vrelease .. => 16
  | .ld _ _ m => if (t.getG m.g).type = .scratch then 12 else 16
  | .lde .. | .ldf .. | .stf .. => 12
  | _ => 4

/-- Core cycles from the end of an instruction's wait to its completion (R108, R158, R224, R238, R319). -/
def latencyAfterWait : Instr → Nat
  | .crrd .. | .crwr .. | .crset .. | .crclr .. | .wget .. | .segld .. | .vext .. | .vwait .. => 4
  | _ => 0

/-- A thread is in the rotation (R86). -/
def Thread.mayIssue (t : Thread) : Bool := t.status == .runnable && !t.parked && !t.debugHeld

/-- A `yield` has no effect any longer, because 16 core cycles have passed (R96). -/
def Thread.rested (t : Thread) (cycle : Nat) : Bool := t.yielded.all fun y => decide (y + 16 ≤ cycle)

/-- A context is eligible in a core cycle (R82); after a `yield`, when no other context that is eligible in this cycle has yet
to issue since it, or 16 cycles have passed (R96). Another context whose own `yield` lasts is not eligible, so it is not waited
for (log entry 33). -/
def Thread.eligible (t : Thread) (ts : List Thread) (cycle : Nat) : Bool :=
  t.mayIssue && decide (t.readyAt ≤ cycle) &&
  match t.yielded with
  | none => true
  | some y => t.rested cycle || !ts.any fun u =>
      u.key != t.key && u.mayIssue && decide (u.readyAt ≤ cycle) && u.rested cycle && decide (u.issuedAt < y)

/-- The least of a list of numbers that lies at or above another. -/
def leastFrom (n : Nat) : List Nat → Option Nat
  | [] => none
  | a :: as => match leastFrom n as with
    | some b => some (min (max a n) b)
    | none => some (max a n)

/-- Core cycles in which a context may become eligible. -/
def Thread.starts (t : Thread) : List Nat :=
  t.readyAt :: match t.yielded with
  | some y => [y + 16]
  | none => []

/-- The next core cycle with an eligible context, from the core's next on, and the first context eligible in it after the one
that issued last (R82). -/
def turn (ts : List Thread) (last cycle : Nat) : Option (Thread × Nat) :=
  let cycles := (ts.filter Thread.mayIssue).flatMap fun t => (t.starts.map (max cycle)).filter fun c => ts.any (·.eligible ts c)
  match leastFrom cycle cycles with
  | none => none
  | some c =>
    let order := (List.range 16).map fun i => (last + 1 + i) % 16
    (order.findSome? fun n => ts.find? fun t => t.context == n && t.eligible ts c).map fun t => (t, c)

/-- The threads on a core that are not switched out. -/
def State.liveOn (s : State) (core : Nat) : List Thread := (s.threads.map (·.2)).filter fun t => t.core == core && !t.parked

/-- The thread whose turn it is on a core, and the core cycle it issues in. -/
def State.turnOf (s : State) (core : Nat) : Option (Thread × Nat) :=
  turn (s.liveOn core) (s.core core).last (s.core core).cycle

/-- A thread whose wait ends in this core cycle: eligible when its instruction completes, and 4 cycles after its issue at the
earliest (R82); a trap entry that waited counts from the cycle of the wake (R364). -/
def State.readyAfter (s : State) (t : Thread) (i : Instr) : Thread :=
  let now := (s.core t.core).cycle
  { t with readyAt := if i = .deferredTrapEntry then now else max (t.issuedAt + 4) (now + latencyAfterWait i) }

/-- The wait of a thread's instruction ends with the rest of its meaning. -/
def State.endWait (s : State) (t : Thread) (i : Instr) (body : Thread → M Ending) : Result :=
  let t := s.readyAfter t i
  settleRun i t.key t.pc (body t (s.putThread t))

/-! ### The transfer of a hardware loop -/

/-- Where the hardware loop takes a thread that has executed the instruction at the END of its top loop, or takes it once an
instruction that waits there completes (R105). -/
def Thread.loopsTo (t before : Thread) : Option Word :=
  match t.loops with
  | e :: _ =>
    if e.last ≠ before.pc then none
    else match t.status with
      | .runnable => if t.pc = e.start then some e.start else none
      | .waiting w => if t.pc = before.pc ∧ w.instr ≠ .lineFill ∧ e.index + 1 < e.count then some e.start else none
      | _ => none
  | [] => none

/-- R38 for the transfer of a hardware loop: START's line is read before the instruction at END has its effect, or begins to
wait, and what fails leaves the state `s` before it. -/
def State.loopCheck (s : State) (t : Thread) (r : Result) : Result :=
  match r with
  | .next s' =>
    match (s'.thread? t.key).bind (·.loopsTo t) with
    | none => r
    | some start =>
      match targetM t start s with
      | .ok _ => r
      | .error (.trap s c v e) => .next (s.raiseHere t.key c v t.pc e)
      | .error (.wait s w l a) => .next (s.startWait t.key .lineFill w l a)
  | _ => r

/-- The running context of a partition is throttled: THROTTLE is set and its balance is negative (R392). -/
def State.throttling (s : State) (p : Part) : Bool := match p.running.bind s.ctx? with
  | some c => c.throttle && decide (c.energy.toInt < 0)
  | none => false

/-- The core clock of a partition in sixteenths of nominal (R6, R390, R392). -/
def State.clockOf (s : State) (part : Nat) : Nat := match Map.get? s.parts part with
  | some p => if s.throttling p then min 8 p.clock else p.clock
  | none => 16

end Sys2Proof.Machine
end

