-- ==== Sys2Proof/Machine/Threads.lean ====
section
/-!
DEFINITION. Threads: MAJ 0x30 to 0x36 and 0x37's `gbar`, MESSAGE_TIMEOUT and SLEEP_DEADLINE (R86 to R101).
-/
namespace Sys2Proof.Machine

/-! ### Siblings -/

/-- Key of context `c` of a thread's core. -/
def Thread.sibling (t : Thread) (c : Nat) : Nat := t.ctx * 16384 + t.core * 16 + c

/-- A spawned child: zeros, and copies of the head's values (R89). -/
def Thread.child (t : Thread) (c : Nat) (pc arg : Word) : Thread :=
  let tid : BitVec 14 := BitVec.ofNat 14 (t.core * 16 + c)
  { t with
    tid := tid, status := .runnable, parked := false, saved := false
    x := (Vector.replicate 64 0).set 1 arg, v := Vector.replicate 16 0, k := Vector.replicate 8 0
    w := Vector.replicate 8 none, pc := pc, line := none
    vstart := 0, fflags := 0, mxstat := 0, srseed := BitVec.ofNat 32 (tid.toNat * 0x9E3779B9)
    loops := [], lsel := 0, lword := 0, tcause := 0, tpc := 0, tval := 0, hnd := false, frames := [], window := none
    aseq := 0, astat := 0, dseq := 0, plate := [], mailbox := [], gbars := 0, issuedAt := 0, readyAt := 0, yielded := none, segNext := []
    seq := [], vloop := none, loopRec := none, pass := none, replay := none, deferred := none, debugHeld := false
    debugStopped := false, reply := none }

/-- Privilege for an instruction of head contexts alone (R92). -/
def headOnly (i : Instr) (t : Thread) : M Unit := if t.isHead then pure () else trapM Cause.privilege (instrTval i)

/-- `spawn` (R89). -/
def execSpawn (w p q u : XReg) (s : State) : Result :=
  runThread (.spawn w p q u) s fun t => do
    headOnly (.spawn w p q u) t
    let c := (t.getX p).toNat
    if c < 1 ∨ 15 < c then
      putM (t.setX w 2)
      return .seq
    else
      let s ← get
      if (s.thread? (t.sibling c)).isSome then
        putM (t.setX w 1)
        return .seq
      else
        targetM t (t.getX q)
        modify fun s => s.putThread (t.child c (t.getX q) (t.getX u))
        modify fun s => match s.gang? t.gang with
          | some g => s.putGang t.gang { g with reaped := g.reaped.filter (· != t.core * 16 + c) }
          | none => s
        putM (t.setX w 0)
        return .seq

/-- The result of a Halted or Faulted thread (R90). -/
def Thread.result (t : Thread) : Option Word :=
  match t.status with
  | .halted e => some (zx e)
  | .faulted c => some (BitVec.ofNat 64 (2 ^ 62 + c.toNat * 2 ^ 32 + t.pc.toNat % 2 ^ 32))
  | _ => none

/-- A thread that has ended is no longer expected at a barrier (R100). -/
def State.unexpect (s : State) (t : Thread) : State :=
  match s.gang? t.gang with
  | some g => s.putGang t.gang { g with reaped := g.reaped ++ [t.tid.toNat] }
  | none => s

/-- A thread is collected: its context becomes Empty and is no longer expected at a barrier (R90, R100). -/
def State.collect (s : State) (t : Thread) : State := (s.emptyThread t).unexpect t

/-- `reap` and `reap.try` (R90). -/
def reapM (i : Instr) (t : Thread) (w p : XReg) (waits : Bool) : M Ending := do
  headOnly i t
  let c := (t.getX p).toNat
  let answer (v : Word) : M Ending := do
    putM (t.setX w v)
    return .seq
  let s ← get
  match if 1 ≤ c ∧ c ≤ 15 then s.thread? (t.sibling c) else none with
  | none => answer (BitVec.ofNat 64 (3 * 2 ^ 62))
  | some u =>
    match u.result with
    | some v =>
      set (s.collect u)
      answer v
    | none => if waits then waitM .children else answer (BitVec.ofNat 64 (2 * 2 ^ 62))

/-- `reap` (R90). -/
def execReap (w p : XReg) (s : State) : Result := runThread (.reap w p) s fun t => reapM (.reap w p) t w p true
/-- `reap.try` (R90). -/
def execReapTry (w p : XReg) (s : State) : Result := runThread (.reapTry w p) s fun t => reapM (.reapTry w p) t w p false

/-- The threads of a core and context. -/
def State.coreThreads (s : State) (ctx core : Nat) : List Thread :=
  (s.threads.map (·.2)).filter fun t => t.ctx == ctx && t.core == core

/-- `halt`, with the exit value (R91): once the sequencer is empty, a sibling is Halted; a head waits for its siblings,
discards their results and reports the core's share of the gang. -/
def haltM (t : Thread) (exit : BitVec 32) : M Ending := do
  untilSeq t.seqEmpty
  if !t.isHead then
    putM { t.resumed with status := .halted exit }
    return .stay
  else
    let s ← get
    let sibs := (s.coreThreads t.ctx t.core).filter fun u => u.key != t.key
    if sibs.any fun u => u.result.isNone then waitM .children
    else
      let s := sibs.foldl State.collect s
      set ((s.collect t).shareDone t.gang (t.core % 8))
      return .stay

/-- `halt` (R91): exit value 0. -/
def execHalt (s : State) : Result := runThread .halt s fun t => haltM t 0
/-- `halt xA` (R91). -/
def execHaltX (a : XReg) (s : State) : Result := runThread (.haltX a) s fun t => haltM t ((t.getX a).setWidth 32)

/-! ### Turns -/

/-- `yield` (R96): the thread forfeits its next turn (`Thread.eligible`), from the core cycle in which this completes. -/
def execYield (s : State) : Result :=
  runThread .yield s fun t => do
    putM { t with yielded := some t.readyAt }
    return .seq

/-- `sleep` (R97). -/
def sleepM (t : Thread) (d a : XReg) : M Ending := do
  let s ← get
  if t.mailbox.isEmpty && decide (s.gtsc.toNat < (t.getX a).toNat) then waitM .sleep
  else
    putM (t.setX d (if t.mailbox.isEmpty then 0 else 1))
    return .seq

/-- `sleep` (R97). -/
def execSleep (d a : XReg) (s : State) : Result := runThread (.sleep d a) s fun t => sleepM t d a

/-- SLEEP_DEADLINE (R97): the GTSC reaches the deadline of the sleeping thread `ev.a`, which completes. -/
def execSleepDeadline (s : State) : Result :=
  match s.thread? s.ev.a with
  | none => .next s
  | some t =>
    match t.waitOf, t.parked with
    | some ⟨.sleep, .sleep d a, _, _, _, _, _, _, _⟩, false => s.endWait t (.sleep d a) fun t => sleepM t d a
    | _, _ => .next s

/-! ### Messages (R98, R99) -/

/-- Entries of the mailbox ring of a save area (R356). -/
def ringEntries : Nat := 3840

/-- Deliver a message to a thread, if it has room: to its mailbox, or to the ring of the save area while its context is
switched out (R98, R356). A mailbox behind which entries of the ring are left is full, since each `mrecv` fills it from the ring
(log entry 88). -/
def State.deliver (s : State) (u : Thread) (m : Message) : Option State :=
  match s.ctx? u.ctx with
  | some c =>
    if u.parked then
      if ringEntries ≤ c.ringMsgs.length then none
      else some (s.putRing u.ctx (c.ringMsgs ++ [⟨m.payload, m.sender, u.tid.toNat⟩]))
    else box
  | none => box
where
  /-- The receiver's mailbox. -/
  box : Option State :=
    if Config.mailboxEntries ≤ u.mailbox.length then none else some (s.putThread { u with mailbox := u.mailbox ++ [m] })

/-- The first `n` entries of the ring for a receiver are taken out of it. -/
def takeMessages (tid : Nat) : Nat → List RingMsg → List RingMsg
  | 0, ms => ms
  | _, [] => []
  | n + 1, m :: ms => if m.receiver == tid then takeMessages tid n ms else m :: takeMessages tid (n + 1) ms

/-- Entries of the ring of the save area move to a thread's mailbox, in ring order, as far as it has room: at Restore, and those
that then found the mailbox full at the receiver's next `mrecv` (R356; DESIGN CHOICE, log entry 88). -/
def State.pullRing (s : State) (key : Nat) : State :=
  match s.thread? key with
  | none => s
  | some u =>
    match s.ctx? u.ctx with
    | none => s
    | some c =>
      let mine := c.ringMsgs.filter fun r => r.receiver == u.tid.toNat
      if mine.isEmpty then s
      else
        let took := mine.take (Config.mailboxEntries - u.mailbox.length)
        let s := s.putRing u.ctx (takeMessages u.tid.toNat took.length c.ringMsgs)
        s.putThread { u with mailbox := u.mailbox ++ took.map fun r => ⟨r.payload, r.sender⟩ }

/-- `msend` and `msend.try` (R99). One that waits for space whose receiver is reaped is tried again and ends with status 2
(DEDUCED, log entry 93). -/
def sendM (t : Thread) (w p q u : XReg) (waits : Bool) : M Ending := do
  let d := (t.getX p).toNat
  let s ← get
  let answer (v : Word) : M Ending := do
    let t ← nowM t
    putM (t.setX w v)
    return .seq
  match if d < 2 ^ 14 then s.thread? (t.ctx * 16384 + d) else none with
  | none => answer 2
  | some r =>
    match s.deliver r ⟨t.getX q, t.tid⟩ with
    | some s =>
      set s
      answer 0
    | none => if waits then waitM .mailboxSpace (t.getX u).toNat else answer 1

/-- `msend` (R99). -/
def execMsend (w p q u : XReg) (s : State) : Result := runThread (.msend w p q u) s fun t => sendM t w p q u true
/-- `msend.try` (R99). -/
def execMsendTry (w p q u : XReg) (s : State) : Result := runThread (.msendTry w p q u) s fun t => sendM t w p q u false

/-- `mrecv` and `mrecv.try` (R99). -/
def recvM (t : Thread) (w p u : XReg) (waits : Bool) : M Ending :=
  match t.mailbox with
  | m :: rest => do
    putM (({ t with mailbox := rest }.setX w m.payload).setX p (zx m.sender))
    modify fun s => s.pullRing t.key
    return .seq
  | [] =>
    if waits then waitM .message (t.getX u).toNat
    else do
      putM ((t.setX w 0).setX p (BitVec.allOnes 64))
      return .seq

/-- `mrecv` (R99). -/
def execMrecv (w p u : XReg) (s : State) : Result := runThread (.mrecv w p u) s fun t => recvM t w p u true
/-- `mrecv.try` (R99). -/
def execMrecvTry (w p u : XReg) (s : State) : Result := runThread (.mrecvTry w p u) s fun t => recvM t w p u false

/-- MESSAGE_TIMEOUT (R99): the message wait of thread `ev.a` reaches its limit. -/
def execMessageTimeout (s : State) : Result :=
  match s.thread? s.ev.a with
  | none => .next s
  | some t =>
    match t.waitOf with
    | some w =>
      if t.parked || !w.expired then .next s
      else
        match w.instr with
        | .msend _ p _ _ => .next (s.raiseHere t.key Cause.messageTimeout (t.getX p) t.pc none)
        | .mrecv .. => .next (s.raiseHere t.key Cause.messageTimeout 0 t.pc none)
        | _ => .next s
    | none => .next s

/-! ### The gang barrier (R100, R101) -/

/-- The thread numbers the caster assigned to a gang (R310). -/
def Gang.members (g : Gang) : List Nat :=
  (g.cores.zip g.perCore).flatMap fun p => (List.range p.2).map fun c => (g.bench * 8 + p.1) * 16 + c

/-- Every expected member of a gang has reached generation `n` (R100). -/
def State.gangReached (s : State) (g : Gang) (n : Nat) : Bool :=
  g.members.all fun d =>
    g.reaped.contains d ||
    match s.thread? (g.ctx * 16384 + d) with
    | some t => t.result.isSome || decide (n ≤ t.gbars)
    | none => false

/-- Complete a `gbar` that every member has reached: a re-negotiation point of every core with a thread of the gang, whatever
has become of that thread (R101, R136). -/
def gbarEnd (t : Thread) (n : Nat) : M Ending := do
  let s ← get
  match s.gang? t.gang with
  | some g =>
    if s.gangReached g n then
      set ((g.cores.filter fun c => !g.done.contains c).foldl (fun s c => s.rowPoint (g.bench * 8 + c)) s)
      return .seq
    else waitM .barrier 0 (.phase n)
  | none =>
    set (s.rowPoint t.core)
    return .seq

/-- `gbar` (R100, R101): a fence of loads and stores, then the barrier. -/
def execGbar (s : State) : Result :=
  runThread .gbar s fun t =>
    match t.asked with
    | .phase n => gbarEnd t n
    | _ => do
      let s ← get
      if !t.memoryClear || s.owes t.key then waitM .load
      else
        putM { t with gbars := t.gbars + 1 }
        gbarEnd t (t.gbars + 1)

end Sys2Proof.Machine
end

