-- ==== Sys2Proof/Machine/Anvil.lean ====
section
/-!
DEFINITION. The anvil and the accumulator store: formats, operands, windows, MAJ 0x60 to 0x65, ANVIL_BEAT and MROW_DELIVERY
(R79, R175 to R200).
-/
namespace Sys2Proof.Machine

/-! ### Formats (R175, R176) -/

/-- Fields of the format word. -/
def fmtA (f : Word) : Nat := fieldAt f 0 4
/-- BTYPE. -/
def fmtB (f : Word) : Nat := fieldAt f 4 4
/-- M. -/
def fmtM (f : Word) : Nat := fieldAt f 18 8 + 1
/-- N. -/
def fmtN (f : Word) : Nat := fieldAt f 26 8 + 1
/-- K. -/
def fmtK (f : Word) : Nat := fieldAt f 34 12 + 1

/-- A pair of operand codes of R176. -/
def legalPair (a b : Nat) : Bool :=
  let fp8 := fun c => c == 2 || c == 3
  (a == b && [0, 1, 4, 5, 6].contains a) || (fp8 a && (fp8 b || b == 7))

/-- Bits of an element of an operand code. -/
def codeBits (c : Nat) : Nat := if c ≤ 1 then 16 else if c == 4 || c == 6 then 4 else 8
/-- The pair accumulates into i32 cells. -/
def pairInt (f : Word) : Bool := fmtA f == 5 || fmtA f == 6
/-- The operands carry block scales. -/
def pairMx (f : Word) : Bool := [2, 3, 4].contains (fmtA f)

/-- Beats of a block of `kb` steps (R176). -/
def blockBeats (f : Word) (kb : Nat) : Nat :=
  if fmtB f == 7 then (kb + 3) / 4
  else if fmtA f ≤ 1 then 2 * kb
  else if fmtA f == 4 || fmtA f == 6 then (kb + 1) / 2
  else kb

/-- The value of an element of a float operand code. -/
def codeVal (c b : Nat) : Fp :=
  match c with
  | 0 => readFp .bf16 b
  | 1 => readFp .f16 b
  | 2 => readFp .fp8e4 b
  | 3 => readFp .fp8e5 b
  | 4 => readFp .fp4 b
  | _ => readVal .ds8 b

/-- The value of an element of an integer operand code (R64). -/
def codeInt (c b : Nat) : Int := if c == 5 then readInt .i8 b else if b < 8 then (b : Int) else (b : Int) - 16

/-! ### Operands in the scratchpad (R178, R179) -/

/-- BASE of a pair. -/
def pairBase (b : Word) : Nat := fieldAt b 0 22
/-- BR of a pair. -/
def pairBr (b : Word) : Nat := fieldAt b 24 5
/-- TP of a pair. -/
def pairTp (p : Word) : Nat := fieldAt p 32 22
/-- RP of a pair. -/
def pairRp (p : Word) : Nat := fieldAt p 0 22

/-- Bank rotation (R179). -/
def physical (br a r : Nat) : Nat := a ^^^ (64 * (r * br % 32))

/-- Address of byte `o` of row `r` of an operand (R179). -/
def padByteAt (base pitch : Word) (r o : Nat) : Nat :=
  physical (pairBr base) (pairBase base + o / 128 * pairTp pitch + r * pairRp pitch + o % 128) r

/-- Bytes of a row of an operand of K steps. -/
def rowBytes (k bits : Nat) : Nat := (k * bits + 7) / 8
/-- Data panels of an operand. -/
def panels (k bits : Nat) : Nat := (k * bits / 8 + 127) / 128
/-- Blocks of K. -/
def blocks (k : Nat) : Nat := (k + 31) / 32

/-- Offset, within a row as `padByteAt` counts it, of the scale of block `j`. -/
def scaleAt (k bits j : Nat) : Nat := panels k bits * 128 + j

/-- The ranges of at most 64 bytes that `n` bytes of row `r` from byte `o` take. -/
def rowRanges (base pitch : Word) (r o n : Nat) : List (Nat × Nat) :=
  let units := (o + n + 63) / 64 - o / 64
  if n == 0 then [] else (List.range units).map fun i =>
    let a := max o ((o / 64 + i) * 64)
    let b := min (o + n) ((o / 64 + i + 1) * 64)
    (padByteAt base pitch r a, b - a)

/-- The first offending offset of some ranges (R204). -/
def firstMiss (g : Option Gang) (rs : List (Nat × Nat)) : Option Nat := rs.findSome? fun r => allotMiss g r.1 r.2

/-- Every range an operand of `rows` rows reads, in the order of R179: the elements row by row, then the scales. -/
def operandRanges (base pitch : Word) (rows k bits : Nat) (mx : Bool) : List (Nat × Nat) :=
  ((List.range rows).flatMap fun r => rowRanges base pitch r 0 (rowBytes k bits))
    ++ (if mx then (List.range rows).flatMap fun r => rowRanges base pitch r (scaleAt k bits 0) (blocks k) else [])

/-- Registers of an operand in v registers (R181): data, then the scales of an MX pair. -/
def regCount (rows k bits : Nat) (mx : Bool) : Nat := (rows * rowBytes k bits + 511) / 512 + (if mx then 1 else 0)

/-! ### Cells (R182, R185) -/

/-- Number of a cell. -/
def cellNo (row col : Nat) : Nat := row * 512 + col

/-- A cell: written, or a free value of a row a switch has left unstated, or 0. -/
def Bench.cell (b : Bench) (row col : Nat) : BitVec 32 :=
  match Map.get? b.acc (cellNo row col) with
  | some v => v
  | none => match Map.get? b.stale row with
    | some n => Config.staleCell n (cellNo row col)
    | none => 0

/-- Write a cell; a write ends its poison. -/
def Bench.setCell (b : Bench) (row col : Nat) (v : BitVec 32) : Bench :=
  let c := cellNo row col
  let acc := if v = 0 ∧ (Map.get? b.stale row).isNone then Map.del b.acc c else Map.put b.acc c v
  { b with acc := acc, badCells := if b.badCells.contains c then b.badCells.filter (· != c) else b.badCells }

/-- A cell of a range is poisoned (R182). -/
def Bench.badRange (b : Bench) (row rows col cols : Nat) : Bool :=
  b.badCells.any fun c => decide (row ≤ c / 512) && decide (c / 512 < row + rows) && decide (col ≤ c % 512) && decide (c % 512 < col + cols)

/-! ### Blocks of an `mma` (R79, R189) -/

/-- The operands of an `mma` as it reads them: byte `o` of row `r`, and the scale of block `j` of row `r`. -/
structure Operand where
  byte : Nat → Nat → Nat
  scale : Nat → Nat → Nat

/-- Byte `i` of v registers side by side. -/
def regByte (ds : List VData) (i : Nat) : Nat :=
  match ds[i / 512]? with
  | some d => (d.extractLsb' (8 * (i % 512)) 8).toNat
  | none => 0

/-- An operand of an operation. -/
def readOperand (g : Gang) (src : AnvilSrc) (rows k bits : Nat) : Operand :=
  match src with
  | .pad base pitch =>
    { byte := fun r o => (g.byteAt (padByteAt base pitch r o)).toNat
      scale := fun r j => (g.byteAt (padByteAt base pitch r (scaleAt k bits j))).toNat }
  | .reg _ data =>
    let ds := data.getD []
    let nd := (rows * rowBytes k bits + 511) / 512
    { byte := fun r o => regByte ds (r * rowBytes k bits + o)
      scale := fun r j => regByte ds (512 * nd + r * blocks k + j) }

/-- Element `k` of row `r`, as bits. -/
def Operand.elem (o : Operand) (bits r k : Nat) : Nat :=
  match bits with
  | 4 => o.byte r (k / 2) / 2 ^ (4 * (k % 2)) % 16
  | 16 => o.byte r (2 * k) + 256 * o.byte r (2 * k + 1)
  | _ => o.byte r k

/-- Steps of block `q`. -/
def blockSteps (k q : Nat) : List Nat := (List.range (min 32 (k - 32 * q))).map (32 * q + ·)

/-- The anvil status bits of a rounding (R195). -/
def anvilFlags (f : Flags) : BitVec 5 := (f &&& 7) ||| (if f &&& flagNV != 0 then 8 else 0)

/-- A float cell after a block: the cell, and the status bits. -/
def floatBlock (sum : Fp) (old : BitVec 32) : BitVec 32 × BitVec 5 :=
  let s := roundF32 false sum
  let r := addFp .f32 .rne false (readFp .f32 s.bits) (readFp .f32 old.toNat)
  let nan := (readFp .f32 r.bits).isNaN || (readFp .f32 s.bits).isNaN
  (BitVec.ofNat 32 r.bits, anvilFlags s.flags ||| anvilFlags r.flags ||| (if nan then 8 else 0))

/-- The sum of a block's products for a cell of a float pair (R79). -/
def blockSum (f : Word) (a b : Operand) (i j q : Nat) : Fp :=
  let bA := codeBits (fmtA f)
  let bB := codeBits (fmtB f)
  let val (c : Nat) (o : Operand) (bits r k : Nat) : Fp :=
    let v := codeVal c (o.elem bits r k)
    if !pairMx f then v else if o.scale r q == 0xFF then .nan false else v.scale ((o.scale r q : Int) - 127)
  sumFp ((blockSteps (fmtK f) q).map fun k => (val (fmtA f) a bA i k).times (val (fmtB f) b bB j k))

/-- The sum of a block's products for a cell of an integer pair. -/
def blockIntSum (f : Word) (a b : Operand) (i j q : Nat) : Int :=
  let bits := codeBits (fmtA f)
  (blockSteps (fmtK f) q).foldl (fun s k => s + codeInt (fmtA f) (a.elem bits i k) * codeInt (fmtB f) (b.elem bits j k)) 0

/-- A cell after a block (R189): the cell and the status bits. -/
def cellBlock (f : Word) (a b : Operand) (i j q : Nat) (old : BitVec 32) : BitVec 32 × BitVec 5 :=
  if pairInt f then
    let s := blockIntSum f a b i j q
    let r := old.toInt + s
    (BitVec.ofInt 32 r, if -(2 ^ 31 : Int) ≤ r ∧ r < 2 ^ 31 then 0 else 16)
  else floatBlock (blockSum f a b i j q) old

/-- Add a block to a row of cells from column `j`. -/
def blockRow (f : Word) (a b : Operand) (op : AnvilOp) (fresh : Bool) (q i : Nat) : Nat → Bench × BitVec 5 → Bench × BitVec 5
  | 0, r => r
  | n + 1, r =>
    let (bn, fl) := blockRow f a b op fresh q i n r
    let old := if fresh then 0 else bn.cell (op.row + i) (op.col + n)
    let (v, fl') := cellBlock f a b i n q old
    (bn.setCell (op.row + i) (op.col + n) v, fl ||| fl')

/-- Block `q` of A is zero in every row. -/
def zeroBlock (f : Word) (a : Operand) (q : Nat) : Bool :=
  let bits := codeBits (fmtA f)
  (List.range (fmtM f)).all fun r => (blockSteps (fmtK f) q).all fun k =>
    let e := a.elem bits r k
    if pairInt f then e == 0 else (codeVal (fmtA f) e).isZero

/-- The prediction of block `q` holds (R200). -/
def predictionHolds (f : Word) (a b : Operand) (q : Nat) : Bool :=
  let finite (v : Fp) : Bool := match v with | .fin _ _ => true | _ => false
  zeroBlock f a q &&
    (pairInt f ||
      (((List.range (fmtN f)).all fun r => (blockSteps (fmtK f) q).all fun k =>
          finite (codeVal (fmtB f) (b.elem (codeBits (fmtB f)) r k)))
       && (!pairMx f || (((List.range (fmtM f)).all fun r => a.scale r q != 0xFF)
          && (List.range (fmtN f)).all fun r => b.scale r q != 0xFF))))

/-- Beats a block of an `mma` takes (R200). -/
def beatsOf (op : AnvilOp) (a b : Operand) (q : Nat) : Nat :=
  let n := blockBeats op.format (min 32 (op.depth - 32 * q))
  if !op.mask.getLsbD q then n else if predictionHolds op.format a b q then 1 else 4 + n

/-! ### Acceptance (R184, R187) -/

/-- ROW of an origin. -/
def originRow (o : Word) : Nat := fieldAt o 0 10
/-- COL of an origin. -/
def originCol (o : Word) : Nat := fieldAt o 16 10
/-- A reserved bit of an origin is set. -/
def originBad (o : Word) : Bool := fieldAt o 26 38 != 0 || fieldAt o 10 6 != 0
/-- ROWS of an extent. -/
def extentRows (e : Word) : Nat := fieldAt e 0 11
/-- COLS of an extent. -/
def extentCols (e : Word) : Nat := fieldAt e 16 10
/-- A reserved bit of an extent is set, or a count is zero. -/
def extentBad (e : Word) : Bool := fieldAt e 26 38 != 0 || fieldAt e 11 5 != 0 || extentRows e == 0 || extentCols e == 0

/-- Check the cells of an access against the thread's window (R184): the first absolute row. -/
def windowM (t : Thread) (origin : Word) (rows cols : Nat) : M Nat :=
  let w := t.window.getD ⟨0, 0⟩
  if w.rows < originRow origin + rows ∨ 512 < originCol origin + cols then trapM Cause.accWindow origin
  else pure (w.base + originRow origin)

/-- Check a pair (R187). -/
def pairM (base pitch : Word) : M Unit :=
  if fieldAt base 29 35 != 0 || fieldAt base 22 2 != 0 || fieldAt pitch 54 10 != 0 || fieldAt pitch 22 10 != 0 then
    trapM Cause.segmentLimit base
  else if pairBase base % 64 != 0 || pairTp pitch % 64 != 0 || pairRp pitch % 64 != 0 || decide (pairRp pitch < 128) then
    trapM Cause.misalignedAccess (BitVec.ofNat 64 (pairBase base))
  else pure ()

/-- Check ranges against the gang's allotment (R179, R204). -/
def rangesM (t : Thread) (rs : List (Nat × Nat)) : M Unit := do
  let s ← get
  match firstMiss (s.gangOf t) rs with
  | some o => trapM Cause.segmentLimit (BitVec.ofNat 64 o)
  | none => pure ()

/-- Check the register operands and K of an `mma` (R179, R181). -/
def regsM (f : Word) (ops : List (AnvilSrc × Nat × Nat)) : M Unit :=
  let k := fmtK f
  let odd := ops.any fun o => o.2.2 == 4 && k % 2 == 1
  let big := ops.any fun o => match o.1 with
    | .reg v _ => decide (4096 < o.2.1 * rowBytes k o.2.2) || (pairMx f && decide (512 < o.2.1 * blocks k))
        || decide (16 < v + regCount o.2.1 k o.2.2 (pairMx f))
    | .pad .. => false
  if odd then trapM Cause.misalignedAccess f else if big then trapM Cause.segmentLimit f else pure ()

/-- The pairs of an `mma`'s operands, checked (R187): that of A whole before that of B, an order the spec does not state
(DESIGN CHOICE, log entry 86). -/
def padsM : List (AnvilSrc × Nat × Nat) → M Unit
  | [] => pure ()
  | (.pad b p, _) :: rest => do
    pairM b p
    padsM rest
  | (.reg .., _) :: rest => padsM rest

/-- Ranges of the scratchpad operands of an `mma`. -/
def padRanges (f : Word) (ops : List (AnvilSrc × Nat × Nat)) : List (Nat × Nat) :=
  ops.flatMap fun o => match o.1 with
    | .pad b p => operandRanges b p o.2.1 (fmtK f) o.2.2 (pairMx f)
    | .reg .. => []

/-- The operation of an `mma` under the core's format, when every check passes (R181, R184, R187, R179). -/
def mmaOp (t : Thread) (origin : Word) (set : Bool) (a b : AnvilSrc) : M AnvilOp := do
  let s ← get
  let c := s.core t.core
  let f := c.format
  let ops := [(a, fmtM f, codeBits (fmtA f)), (b, fmtN f, codeBits (fmtB f))]
  regsM f ops
  let row ← windowM t origin (fmtM f) (fmtN f)
  if originBad origin then trapM Cause.accWindow origin
  else
    padsM ops
    rangesM t (padRanges f ops)
    return { key := t.key, core := t.core, ticket := 0, kind := .mma set a b, col := originCol origin, row := row, rows := fmtM f
             cols := fmtN f, depth := fmtK f, format := f, mask := c.zeroMask, done := 0, left := 0, entry := none
             seqMark := 0, seam := t.depth, status := 0, zeros := 0, freed := 0 }

/-- Registers named by an operand. -/
def srcRegs (f : Word) (rows bits : Nat) : AnvilSrc → List Word
  | .pad .. => []
  | .reg v _ => (List.range (regCount rows (fmtK f) bits (pairMx f))).map fun i => BitVec.ofNat 64 (v + i)

/-- Accept an operation that takes a ticket: a sequencer entry, the next ASEQ, a place in the bench's order (R187, R190). -/
def ticketM (t : Thread) (i : Instr) (w : XReg) (op : AnvilOp) (regs : List Word) : M Ending := do
  let s ← get
  let n := t.aseq + 1
  let b := s.bench t.bench
  set (s.putBench t.bench { b with anvil := b.anvil ++ [{ op with ticket := n, entry := some s.stamps, seqMark := s.stamps }] })
  acceptM ({ t with aseq := n }.setX w (BitVec.ofNat 64 n)) i false regs

/-- A free sequencer entry (R143). -/
def entryM (t : Thread) : M Unit := untilSeq (decide (t.entriesTaken < Config.seqEntries))

/-- The source an operand field names. -/
def operandSrc (t : Thread) : MOperand → AnvilSrc
  | .pad p => .pad (t.getX p) (t.getX (p + 1))
  | .reg v => .reg v.toNat none

/-- `mma` (R189). -/
def execMma (w d : XReg) (set : Bool) (a b : MOperand) (s : State) : Result :=
  runThread (.mma w d set a b) s fun t => do
    entryM t
    let op ← mmaOp t (t.getX d) set (operandSrc t a) (operandSrc t b)
    let f := op.format
    let regs := srcRegs f (fmtM f) (codeBits (fmtA f)) (operandSrc t a) ++ srcRegs f (fmtN f) (codeBits (fmtB f)) (operandSrc t b)
    ticketM t (.mma w d set a b) w op regs

/-- An operation over an extent, checked in the order of R187: the cells it touches, of which there are none with a count of 0,
reserved bits and counts, pair, allotment. Where both registers are refused TVAL has the origin: the model's choice (log entry 109). -/
def extentOp (t : Thread) (origin extent : Word) (kind : AnvilKind) (pair : Option (Word × Word)) (ranges : List (Nat × Nat)) :
    M AnvilOp := do
  let row ← if extentRows extent = 0 ∨ extentCols extent = 0 then pure 0
    else windowM t origin (extentRows extent) (extentCols extent)
  if originBad origin then trapM Cause.accWindow origin
  else if extentBad extent then trapM Cause.accWindow extent
  else
    match pair with
    | some (b, p) => pairM b p
    | none => pure ()
    rangesM t ranges
    return { key := t.key, core := t.core, ticket := 0, kind := kind, col := originCol origin, row := row
             rows := extentRows extent, cols := extentCols extent, depth := 0, format := 0, mask := 0, done := 0, left := 0
             entry := none, seqMark := 0, seam := t.depth, status := 0, zeros := 0, freed := 0 }

/-- `mzero` (R191). -/
def execMzero (w d u : XReg) (s : State) : Result :=
  runThread (.mzero w d u) s fun t => do
    entryM t
    let op ← extentOp t (t.getX d) (t.getX u) .zero none []
    ticketM t (.mzero w d u) w op []

/-- Bytes of an element of `mload` and `mcopy` (R193). -/
def tileBytes (ty : Ty) : Nat := ty.bits / 8

/-- Offset, within a row as `padByteAt` counts it, of cell column `j` (R193). -/
def tileAt (e j : Nat) : Nat := j / (128 / e) * 128 + j % (128 / e) * e

/-- Ranges of row `i` of a tile. -/
def tileRowRanges (base pitch : Word) (e cols i : Nat) : List (Nat × Nat) := rowRanges base pitch i 0 (cols * e)

/-- Ranges of a tile. -/
def tileRanges (base pitch : Word) (e rows cols : Nat) : List (Nat × Nat) :=
  (List.range rows).flatMap fun i => tileRowRanges base pitch e cols i

/-- `mload` (R193). -/
def execMload (w d p u : XReg) (ty : Ty) (s : State) : Result :=
  runThread (.mload w d p u ty) s fun t => do
    entryM t
    let b := t.getX p
    let q := t.getX (p + 1)
    let x := t.getX u
    let op ← extentOp t (t.getX d) x (.load ty b q) (some (b, q)) (tileRanges b q (tileBytes ty) (extentRows x) (extentCols x))
    ticketM t (.mload w d p u ty) w op []

/-- `mcopy` (R193). -/
def execMcopy (w d p u : XReg) (ty : Ty) (sat : Bool) (rc : RC) (s : State) : Result :=
  runThread (.mcopy w d p u ty sat rc) s fun t => do
    entryM t
    let b := t.getX p
    let q := t.getX (p + 1)
    let x := t.getX u
    let mode : BitVec 3 := match rc with
      | .rne => 0 | .rtz => 1 | .rdn => 2 | .rup => 3 | .rna => 4 | .rsr => 0
      | .dyn => if t.rm = 5 then 0 else t.rm
    let op ← extentOp t (t.getX d) x (.copy ty sat mode b q) (some (b, q)) (tileRanges b q (tileBytes ty) (extentRows x) (extentCols x))
    ticketM t (.mcopy w d p u ty sat rc) w op []

/-- The checks of `mrow` and `mwrow` and what their entry captures (R192): absolute row, column, count. -/
def rowM (t : Thread) (i : Instr) (ty : Ty) (p u : XReg) : M Ending := do
  entryM t
  let origin := t.getX p
  let n := (t.getX u).toNat
  if ty.vlmax < n ∨ 512 < originCol origin + n then trapM Cause.accWindow (t.getX u)
  else
    -- R184 checks the cells touched: with n = 0 there are none (DEDUCED, log entry 26)
    let row ← if n = 0 then pure ((t.window.getD ⟨0, 0⟩).base + originRow origin) else windowM t origin 1 n
    if originBad origin then trapM Cause.accWindow origin
    else acceptM t i false [BitVec.ofNat 64 row, BitVec.ofNat 64 (originCol origin), BitVec.ofNat 64 n]

/-- `mrow` (R192). -/
def execMrow (vd : VReg) (ty : Ty) (p u : XReg) (sat : Bool) (rc : RC) (s : State) : Result :=
  runThread (.mrow vd ty p u sat rc) s fun t => rowM t (.mrow vd ty p u sat rc) ty p u

/-- `mwrow` (R192). -/
def execMwrow (vd : VReg) (ty : Ty) (p u : XReg) (s : State) : Result :=
  runThread (.mwrow vd ty p u) s fun t => rowM t (.mwrow vd ty p u) ty p u

/-- `mfmt` (R188). -/
def execMfmt (d p : XReg) (s : State) : Result :=
  runThread (.mfmt d p) s fun t => do
    let f := t.getX p
    if fieldAt f 46 18 != 0 || fieldAt f 8 10 != 0 || !legalPair (fmtA f) (fmtB f) then putM (t.setX d 1)
    else
      modify fun s => s.putCore t.core { s.core t.core with format := f, zeroMask := 0 }
      putM (t.setX d 0)
    return .seq

/-- A window word (R183). -/
def readWindow (w : Word) : Option Window := if fieldAt w 16 11 == 0 then none else some ⟨fieldAt w 16 11, fieldAt w 0 10⟩

/-- `mfmt.win` (R188). -/
def execMfmtWin (d p q : XReg) (s : State) : Result :=
  runThread (.mfmtWin d p q) s fun t => do
    headOnly (.mfmtWin d p q) t
    let s ← get
    let c := (t.getX p).toNat
    let w := t.getX q
    let rows := fieldAt w 16 11
    let mine (r : Nat) : Bool := decide (r < 1024) && s.quarterPart (t.bench * 4 + r / 256) == some t.part
    if 15 < c ∨ (s.thread? (t.sibling c)).isNone then putM (t.setX d 1)
    else if fieldAt w 27 37 != 0 || fieldAt w 10 6 != 0 || decide (1024 < rows) then putM (t.setX d 3)
    else if (List.range rows).any fun i => !mine (fieldAt w 0 10 + i) then putM (t.setX d 2)
    else
      putM (t.setX d 0)
      modify fun s => (s.openRows t.bench (fieldAt w 0 10) rows).onThread (t.sibling c) fun u => { u with window := readWindow w }
    return .seq

/-! ### Order of a thread's accesses (R196) -/

/-- The operation writes cells. -/
def AnvilOp.writes (o : AnvilOp) : Bool := match o.kind with
  | .copy .. => false
  | _ => true

/-- Every block of an `mma` has been added: it takes no more beats and releases its rows (R190). -/
def AnvilOp.added (o : AnvilOp) : Bool := match o.kind with
  | .mma .. => o.done == blocks o.depth
  | _ => false

/-- An operation has not released an absolute row yet (R190). -/
def AnvilOp.holds (o : AnvilOp) (r : Nat) : Bool :=
  let first := match o.kind with
    | .mma .. => o.row + o.freed
    | _ => o.row + o.done
  decide (first ≤ r) && decide (r < o.row + o.rows)

/-- An operation waits for the release of row `r` by `f`, an access of its thread that comes before it (R196). The blocks of
one `mma` are added behind those of another in the order of their beats (R190). -/
def AnvilOp.waitsFor (o f : AnvilOp) (r : Nat) : Bool :=
  decide (f.seqMark < o.seqMark) && f.holds r && (f.writes || o.writes) &&
  !(f.added && match o.kind with | .mma .. => true | _ => false)

/-- Rows an operation still has to access. -/
def AnvilOp.rowsLeft (o : AnvilOp) : List Nat := match o.kind with
  | .mma .. => (List.range o.rows).map (o.row + ·)
  | _ => (List.range (o.rows - o.done)).map (o.row + o.done + ·)

/-- Follow-on commands of a thread's copies that are still to be handed over (R199). -/
def followsOf (t : Thread) : List AnvilOp :=
  t.plate.filterMap fun o => match o.status, o.kind with
    | .pending, .copy _ f => f
    | _, _ => none

/-- Absolute row of an `mrow` or `mwrow` in the sequencer, and whether it writes the row. -/
def rowAccess (e : SeqEntry) : Option (Nat × Bool) := match e.instr with
  | .mrow .. => some (((e.xs[0]?).getD 0).toNat, false)
  | .mwrow .. => some (((e.xs[0]?).getD 0).toNat, true)
  | _ => none

/-- Anvil operations of a thread that are not complete, follow-on commands to come among them. -/
def State.anvilOps (s : State) (t : Thread) : List AnvilOp :=
  ((s.bench t.bench).anvil.filter fun o => o.key == t.key) ++ followsOf t

/-- Row `r` is free for an operation of a thread: every earlier access has released it. -/
def State.rowFree (s : State) (t : Thread) (o : AnvilOp) (r : Nat) : Bool :=
  (t.seq.all fun e => match rowAccess e with
    | some (x, w) => x != r || !decide (e.num < o.seqMark) || !(o.writes || w)
    | none => true)
  && (s.anvilOps t).all fun f => !o.waitsFor f r

/-- The `mrow` or `mwrow` at place `i` may go on (R192, R196). -/
def State.rowReady (s : State) (t : Thread) (i : Nat) : Bool :=
  match t.seq[i]? with
  | none => false
  | some e =>
    match rowAccess e with
    | none => false
    | some (r, w) =>
      ((s.anvilOps t).all fun o => !(decide (o.seqMark < e.num) && o.holds r && (o.writes || w)))
      && ((t.seq.take i).all fun f => match rowAccess f with
          | some (x, w') => x != r || !(w || w')
          | none => true)
      && t.clearBefore i e 0

/-! ### ANVIL_BEAT (R177, R189 to R193) -/

/-- The thread of an operation, if it is still there. -/
def State.opThread (s : State) (o : AnvilOp) : Option Thread := s.thread? o.key

/-- The vector memory instructions of a thread accepted before a place in its order have performed their elements, those of the
iterations of a `vloop` still to come and one that a trap has stopped among them, and an earlier `vmm8` has read its matrix
(R278). -/
def Thread.forked (t : Thread) (mark : Nat) : Bool :=
  let before (e : SeqEntry) : Bool := decide (e.order < mark) && checksElements e.instr
  let reads (e : SeqEntry) : Bool := match e.instr with
    | .vmm8 .. => decide (e.order < mark) && e.entered == 0 && e.vl != 0
    | _ => false
  !(t.seq.any fun e => (before e && !e.allIn) || reads e)
  && (t.replay.all fun r => decide (mark ≤ r.order))
  && match t.vloop with
     | some l => !(decide (l.iter + 1 < l.count) && l.members.any before)
     | none => true

/-- An operation may take a beat: its rows are free, and at its first beat what it forks after is done and the producers of
its registers have delivered (R196, R278). -/
def State.beatReady (s : State) (o : AnvilOp) : Bool :=
  match s.opThread o with
  | none => true
  | some t =>
    let started := o.done != 0 || o.left != 0
    let entry := match o.entry with
      | some n => match t.seq.findIdx? fun e => e.num == n with
        | some i => match t.seq[i]? with
          | some e => t.clearBefore i e 0
          | none => false
        -- set aside in a replay record (R366)
        | none => false
      | none => true
    let entry := entry && t.forked o.seqMark
    match o.kind with
    | .mma .. => started || (entry && (List.range o.rows).all fun i => s.rowFree t o (o.row + i))
    | _ => (started || entry) && s.rowFree t o (o.row + o.done)

/-- Replace an operation of a bench; the thread and the ticket name it. -/
def Bench.setOp (b : Bench) (o : AnvilOp) : Bench :=
  { b with anvil := b.anvil.map fun p => if p.key == o.key && p.ticket == o.ticket then o else p }

/-- Anvil status bits are ORed into the status of the party of a seam that issued what set them (R195, R380). -/
def Thread.addStatus (t : Thread) (seam : Nat) (b : BitVec 5) : Thread :=
  if seam < t.depth then
    { t with frames := t.frames.modify (t.depth - 1 - seam) fun f => { f with astat := f.astat ||| b } }
  else { t with astat := t.astat ||| b }

/-- An operation leaves the bench: its entry is free, and its status bits are the thread's (R187, R195). -/
def State.leaveOp (s : State) (o : AnvilOp) : State :=
  let n := o.core / 8
  let b := s.bench n
  let s := s.putBench n { b with anvil := b.anvil.filter fun p => !(p.key == o.key && p.ticket == o.ticket) }
  let s := match s.thread? o.key with
    | some t => match t.seq.find? fun (e : SeqEntry) => some e.num == o.entry with
      | some e => s.traceCommit t e
      | none => s
    | none => s
  s.onThread o.key fun t =>
    { t.addStatus o.seam o.status with seq := t.seq.filter fun e => some e.num != o.entry }

/-- An operation completes; the mask of an `mma` is its core's prediction (R200). -/
def State.finishOp (s : State) (o : AnvilOp) : State :=
  let s := s.leaveOp o
  let s := match o.kind with
    | .mma .. => s.putCore o.core { s.core o.core with zeroMask := o.zeros }
    | _ => s
  if o.key < 2 ^ 40 then s
  else
    match s.gangs.find? fun g => g.2.worksFor o with
    | some (n, _) => s.finishGang n
    | none => s

/-- The gang whose scratchpad an operation works in. -/
def State.opGang (s : State) (o : AnvilOp) : Option (Nat × Gang) :=
  match s.opThread o with
  | some t => (s.gang? t.gang).map fun g => (t.gang, g)
  | none => s.gangs.find? fun g => g.2.worksFor o

/-- An operation works for a context that is switched out: it stands still (R197). -/
def State.opParked (s : State) (o : AnvilOp) : Bool := match s.opGang o with
  | some g => g.2.parked
  | none => false

/-- The core's operation that takes its beats: the first in order of acceptance with beats to take (R190). One that waits for a
row of a follow-on command handed over after it does not hold that command up (R196, R199; log entry 86). -/
def State.firstOp (s : State) (core : Nat) : Option AnvilOp :=
  let ops := (s.bench (core / 8)).anvil.filter fun o => o.core == core && !o.added && !s.opParked o
  ops.find? fun o => !ops.any fun f => f.key == o.key && o.rowsLeft.any (o.waitsFor f)

/-- A read of a poisoned cell: Machine Check in the thread, and the operation goes (R182, R187). -/
def State.cellCheck (s : State) (o : AnvilOp) : State :=
  let s := s.leaveOp o
  match s.opThread o with
  | some t => s.raise t.key Cause.machineCheck 0 t.pc none
  | none => s.announceFreeze o.core

/-- The operands of an `mma`; register operands are read whole at its first beat. -/
def captureSrc (t : Thread) (n : Nat) : AnvilSrc → AnvilSrc
  | .pad b p => .pad b p
  | .reg v none => .reg v (some ((List.range n).map fun i => t.getV (BitVec.ofNat 4 (v + i))))
  | .reg v d => .reg v d

/-- Context an operation works for. -/
def AnvilOp.ctx (o : AnvilOp) : Nat := o.key % 2 ^ 40 / 16384

/-- The events of a block that is added (R200, R395); the beats of a block replayed, all of them, are its replay beats (log
entry 86). -/
def State.predictionCount (s : State) (o : AnvilOp) (predicted holds zero : Bool) : State :=
  let s := s.count 2 (o.core / 8) (some o.ctx) 0x21 1
  if predicted then
    if holds then s.count 2 (o.core / 8) (some o.ctx) 0x22 1
    else (s.count 2 (o.core / 8) (some o.ctx) 0x23 1).count 2 (o.core / 8) (some o.ctx) 0x24
      (4 + blockBeats o.format (min 32 (o.depth - 32 * o.done)))
  else if zero then s.count 2 (o.core / 8) (some o.ctx) 0x25 1
  else s

/-- The block in progress of an `mma` is added to every cell of its tile. -/
def State.addBlock (s : State) (o : AnvilOp) (set : Bool) (a b : AnvilSrc) (g : Gang) : State :=
  let n := o.core / 8
  let bn := s.bench n
  let f := o.format
  let fresh := set && o.done == 0
  if !fresh && bn.badRange o.row o.rows o.col o.cols then s.cellCheck o
  else
    let x := readOperand g a o.rows o.depth (codeBits (fmtA f))
    let y := readOperand g b o.cols o.depth (codeBits (fmtB f))
    let (bn, fl) := (List.range o.rows).foldl (fun r i => blockRow f x y o fresh o.done i o.cols r) (bn, (0 : BitVec 5))
    let z : BitVec 128 := if zeroBlock f x o.done then 1#128 <<< o.done else 0
    let s := s.predictionCount o (o.mask.getLsbD o.done) (predictionHolds f x y o.done) (zeroBlock f x o.done)
    let o := { o with done := o.done + 1, left := 0, status := o.status ||| fl, zeros := o.zeros ||| z }
    s.putBench n (bn.setOp o)

/-- A beat of an `mma`. One whose operands lie in a poisoned line of the scratchpad raises Machine Check (R425). -/
def State.mmaBeat (s : State) (o : AnvilOp) (set : Bool) (a b : AnvilSrc) (g : Gang) : State :=
  let f := o.format
  if !g.bad.isEmpty && ((padRanges f [(a, o.rows, codeBits (fmtA f)), (b, o.cols, codeBits (fmtB f))]).any fun r =>
      (g.badAt r.1 r.2).isSome) then s.cellCheck o
  else
  let (a, b) := match s.opThread o with
    | some t => (captureSrc t (regCount o.rows o.depth (codeBits (fmtA f)) (pairMx f)) a,
        captureSrc t (regCount o.cols o.depth (codeBits (fmtB f)) (pairMx f)) b)
    | none => (a, b)
  let left := if o.left == 0 then
      beatsOf o (readOperand g a o.rows o.depth (codeBits (fmtA f))) (readOperand g b o.cols o.depth (codeBits (fmtB f))) o.done
    else o.left
  let o := { o with kind := .mma set a b, left := left - 1 }
  let n := o.core / 8
  let s := s.putBench n ((s.bench n).setOp o)
  if o.left == 0 then s.addBlock o set a b g else s

/-- An f32 or i32 cell as bits of an element type, or widened from it (R192, R193). -/
def widen (ty : Ty) (v : Nat) : BitVec 32 :=
  if ty.bits == 32 then BitVec.ofNat 32 v
  else match readFp ty v with
    | .nan _ => BitVec.ofNat 32 (canonNaN .f32)
    | .inf n => BitVec.ofNat 32 (encInf .f32 n)
    | .fin n m => BitVec.ofNat 32 (roundMag .f32 .rne false n m).bits

/-- A cell as an element of a type (R65, R70, R71), with the status bits. A conversion that R71 flags NV sets bit 3: the model's choice
(log entry 109). -/
def narrow (ty : Ty) (sat : Bool) (mode : RMode) (c : BitVec 32) : Nat × BitVec 5 :=
  if ty.bits == 32 then (c.toNat, 0)
  else
    let r := convertFp ty mode sat (readFp .f32 c.toNat)
    (r.bits, anvilFlags r.flags)

/-- The rounding mode of a captured code (R186). -/
def modeOf (m : BitVec 3) : RMode := match m.toNat with
  | 1 => .rtz | 2 => .rdn | 3 => .rup | 4 => .rna | _ => .rne

/-- The beat of a row of `mzero`, `mload` or `mcopy`. -/
def State.rowBeat (s : State) (o : AnvilOp) (gn : Nat) (g : Gang) : State :=
  let n := o.core / 8
  let bn := s.bench n
  let r := o.row + o.done
  let cols := List.range o.cols
  let next := { o with done := o.done + 1 }
  let go (s : State) (o : AnvilOp) : State := if o.done == o.rows then s.finishOp o else s.putBench n ((s.bench n).setOp o)
  match o.kind with
  | .zero => go (s.putBench n (cols.foldl (fun b j => b.setCell r (o.col + j) 0) bn)) next
  | .load ty base pitch =>
    let e := tileBytes ty
    let at' (j i : Nat) : Nat := (g.byteAt (padByteAt base pitch o.done (tileAt e j + i))).toNat
    let val (j : Nat) : Nat := (List.range e).foldl (fun v i => v + at' j i * 256 ^ i) 0
    let bad (j i : Nat) : Bool := (g.badAt (padByteAt base pitch o.done (tileAt e j + i)) 1).isSome
    if !g.bad.isEmpty && cols.any fun j => (List.range e).any (bad j) then s.cellCheck o
    else go (s.putBench n (cols.foldl (fun b j => b.setCell r (o.col + j) (widen ty (val j))) bn)) next
  | .copy ty sat mode base pitch =>
    if bn.badRange r 1 o.col o.cols then s.cellCheck o
    else
      let e := tileBytes ty
      let rs := cols.map fun j => narrow ty sat (modeOf mode) (bn.cell r (o.col + j))
      let g := (cols.zip rs).foldl (fun g p =>
        g.setBytes (padByteAt base pitch o.done (tileAt e p.1)) (leBytes e p.2.1)) g
      go (s.putGang gn g) { next with status := rs.foldl (fun f x => f ||| x.2) next.status }
  | .mma .. => s

/-- One beat of an operation. -/
def State.opBeat (s : State) (o : AnvilOp) : State :=
  match s.opGang o with
  | none => s.leaveOp o
  | some (gn, g) =>
    match o.kind with
    | .mma set a b => s.mmaBeat o set a b g
    | _ => s.rowBeat o gn g

/-- An `mma` whose blocks are all added releases its next row, and completes with the last (R190). -/
def State.releaseRow (s : State) (o : AnvilOp) : State :=
  let o := { o with freed := o.freed + 1 }
  if o.freed == o.rows then s.finishOp o else s.putBench (o.core / 8) ((s.bench (o.core / 8)).setOp o)

/-- The rows that a core's operations release in a core cycle. -/
def State.releaseRows (s : State) (core : Nat) : State :=
  ((s.bench (core / 8)).anvil.filter fun o => o.core == core && o.added && !s.opParked o).foldl State.releaseRow s

/-- A core has work for a beat of the anvil. -/
def State.anvilWork (s : State) (core : Nat) : Bool := match s.firstOp core with
  | some o => s.beatReady o
  | none => false

/-- Whether a beat of a bench that its partition is given falls to a core: of the partition's cores with work, it is the next in
rotation after `last`, by increasing number (R177, R214). -/
def State.beatTurn (s : State) (last : List (Nat × Nat)) (work : Nat → Bool) (core : Nat) : Bool :=
  let cs := (s.rowCores core).filter work
  match s.quarterPart (coreQuarter core) with
  | none => work core
  | some p =>
    let after := cs.filter fun c => decide (Map.getD last p 7 < c % 8)
    (after ++ cs).head? == some core

/-- The rotation of a bench's partitions once a core has taken a beat (R177, R214). -/
def State.tookBeat (s : State) (last : List (Nat × Nat)) (core : Nat) : List (Nat × Nat) :=
  match s.quarterPart (coreQuarter core) with
  | none => last
  | some p => Map.put last p (core % 8)

/-- A beat of the anvil serves an operation, and its core has had its turn. -/
def State.serveOp (s : State) (o : AnvilOp) : State :=
  let b := s.bench (o.core / 8)
  let s := s.putBench (o.core / 8) { b with anvilTurn := s.tookBeat b.anvilTurn o.core }
  (s.count 2 (o.core / 8) (some o.ctx) 0x20 1).opBeat o

/-- ANVIL_BEAT (R177, R190): a core cycle of core `ev.a`'s part of the anvil. Rows whose blocks are all added are released, and
a beat of the partition, if it falls to this core, serves its first operation. -/
def execAnvilBeat (s : State) : Result :=
  let s := s.releaseRows s.ev.a
  match s.firstOp s.ev.a with
  | none => .next s
  | some o =>
    let turn := s.beatTurn (s.bench (s.ev.a / 8)).anvilTurn s.anvilWork s.ev.a
    .next (if s.beatReady o && turn then s.serveOp o else s)

/-- What an `mrow` writes, with the status bits (R192). -/
def rowOut (bn : Bench) (e : SeqEntry) (vd : VReg) (ty : Ty) (sat : Bool) (rc : RC) : GroupOut × BitVec 5 :=
  let x (i : Nat) : Nat := ((e.xs[i]?).getD 0).toNat
  let mode := (staticMode rc e.rm false).getD .rne
  let rs := (List.range (x 2)).map fun el => (el, narrow ty sat mode (bn.cell (x 0) (x 1 + el)))
  ({ GroupOut.empty 0 with v := rs.map fun r => elemWrite vd ty r.1 r.2.1 }, rs.foldl (fun f r => f ||| r.2.2) 0)

/-- MROW_DELIVERY (R192, R196): entry `ev.b` of thread `ev.a`, an `mrow` or `mwrow`, takes effect. -/
def execMrowDelivery (s : State) : Result :=
  match s.thread? s.ev.a with
  | none => .next s
  | some t =>
    match t.seq.findIdx? fun e => e.num == s.ev.b with
    | none => .next s
    | some i =>
      match t.seq[i]? with
      | none => .next s
      | some e =>
        if !s.rowReady t i then .next s
        else
          let x (j : Nat) : Nat := ((e.xs[j]?).getD 0).toNat
          let bn := s.bench t.bench
          match e.instr with
          | .mrow vd ty _ _ sat rc =>
            if bn.badRange (x 0) 1 (x 1) (x 2) then .next (s.raise t.key Cause.machineCheck 0 t.pc none)
            else
              let (o, f) := rowOut bn e vd ty sat rc
              .next ((s.putThread { (t.applyOut o) with astat := t.astat ||| f, seq := t.seq.eraseIdx i }).traceCommit t e)
          | .mwrow vd ty _ _ =>
            let bn := (List.range (x 2)).foldl (fun b el => b.setCell (x 0) (x 1 + el) (widen ty (t.elem vd ty el))) bn
            .next (((s.putBench t.bench bn).putThread { t with seq := t.seq.eraseIdx i }).traceCommit t e)
          | _ => .next s

/-! ### Waits and status (R194, R195) -/

/-- Tickets of a thread's anvil operations that are not complete, follow-on commands among them. -/
def State.anvilTickets (s : State) (t : Thread) : List Nat :=
  (s.anvilOps t).map fun o => o.ticket

/-- `mwait` (R194). -/
def execMwait (p : XReg) (s : State) : Result :=
  runThread (.mwait p) s fun t => do
    let s ← get
    if (s.anvilTickets t).any fun n => decide (n ≤ (t.getX p).toNat) then waitM .sequencer
    else return .seq

/-- The anvil status of a thread. -/
def State.anvilStatus (s : State) (t : Thread) : Word :=
  BitVec.ofNat 64 ((s.anvilTickets t).length * 2 ^ 32 + t.astat.toNat)

/-- `mstat` (R195). -/
def execMstat (d : XReg) (s : State) : Result :=
  runThread (.mstat d) s fun t => do
    let s ← get
    putM (t.setX d (s.anvilStatus t))
    return .seq

/-- `mstat.clr` (R195). -/
def execMstatClr (d : XReg) (s : State) : Result :=
  runThread (.mstatClr d) s fun t => do
    let s ← get
    putM { t.setX d (s.anvilStatus t) with astat := 0 }
    return .seq

end Sys2Proof.Machine
end

