-- ==== Sys2Proof/Machine/Scratch.lean ====
section
/-!
DEFINITION. Circular buffers, byte-counting barriers and full/empty words: MAJ 0x68, 0x6C, 0x6D, CB_TIMEOUT and FE_TIMEOUT
(R207 to R213, R226 to R231).
-/
namespace Sys2Proof.Machine

/-! ### The gang's objects -/

/-- Change a gang. -/
def State.onGang (s : State) (n : Nat) (f : Gang → Gang) : State := match s.gang? n with
  | some g => s.putGang n (f g)
  | none => s

/-- A circular buffer of a gang. -/
def State.cb? (s : State) (gang h : Nat) : Option CircBuf := match s.gang? gang with
  | some g => Map.get? g.cbs h
  | none => none

/-- Put a circular buffer. -/
def State.putCb (s : State) (gang h : Nat) (b : CircBuf) : State :=
  s.onGang gang fun g => { g with cbs := Map.put g.cbs h b }

/-- A barrier of a gang. -/
def State.bar? (s : State) (gang n : Nat) : Option Barrier := match s.gang? gang with
  | some g => Map.get? g.bars n
  | none => none

/-- Threads of a gang. -/
def State.gangThreads (s : State) (gang : Nat) : List Thread := (s.threads.map (·.2)).filter fun t => t.gang == gang

/-- Pending drawplate operations of a gang, those of threads that have gone included. -/
def State.gangPlates (s : State) (gang : Nat) : List PlateOp :=
  let own := (s.gangThreads gang).flatMap (·.plate)
  let left := match s.gang? gang with
    | some g => g.orphans.map (·.2)
    | none => []
  (own ++ left).filter fun o => o.status == .pending

/-- The buffer a drawplate operation writes a slot of, and the barrier it counts into. -/
def PlateOp.targets (o : PlateOp) : Option Nat × Option Nat :=
  match o.kind with
  | .copy c _ => (c.buf, c.bar)
  | .red r => (none, r.bar)

/-! ### Circular buffers -/

/-- A handle, or Bad Handle (R208). -/
def handleM (t : Thread) (p : XReg) : M Nat :=
  let h := t.getX p
  if 7 < h.toNat then trapM Cause.badHandle h else pure h.toNat

/-- A defined buffer, or Bad Handle (R208). -/
def cbM (t : Thread) (h : Nat) : M CircBuf := do
  let s ← get
  match s.cb? t.gang h with
  | some b => return b
  | none => trapM Cause.badHandle (BitVec.ofNat 64 h)

/-- Requests for a slot of a side that wait and came before arrival `stamp` (R210). -/
def State.slotRequests (s : State) (gang h : Nat) (writer : Bool) (stamp : Nat) : Nat :=
  let asks (t : Thread) : Bool := match t.waitOf with
    | some w => decide (w.stamp < stamp) && w.reason == .circularBuffer && (match w.instr with
        | .cbacqW _ p => writer && (t.getX p).toNat == h
        | .cbacqR _ p => !writer && (t.getX p).toNat == h
        | _ => false)
    | none => false
  let ops := if writer then (s.gangPlates gang).filter fun o =>
      o.targets.1 == some h && o.slot.isNone && decide (o.stamp < stamp)
    else []
  ((s.gangThreads gang).filter asks).length + ops.length

/-- Take the next slot of a side (R210): its index and the buffer after. -/
def CircBuf.take (b : CircBuf) (writer : Bool) : Nat × CircBuf :=
  if writer then (b.wpos, { b with free := b.free - 1, wheld := b.wheld + 1, wpos := (b.wpos + 1) % b.slots })
  else (b.rpos, { b with filled := b.filled - 1, rheld := b.rheld + 1, rpos := (b.rpos + 1) % b.slots })

/-- `cbacq` (R210, R213). -/
def acquireM (t : Thread) (d p : XReg) (writer waits : Bool) : M Ending := do
  let h ← handleM t p
  let b ← cbM t h
  let s ← get
  let stamp := match t.waitOf with
    | some w => w.stamp
    | none => s.stamps
  let have' := if writer then b.free else b.filled
  if s.slotRequests t.gang h writer stamp < have' then
    let (i, b') := b.take writer
    set (s.putCb t.gang h b')
    putM (t.setX d (BitVec.ofNat 64 (b.base + i * b.size)))
    return .seq
  else if waits then waitM .circularBuffer t.cblimit.toNat
  else
    putM (t.setX d (BitVec.allOnes 64))
    return .seq

/-- `cbacq.w` (R210). -/
def execCbacqW (d p : XReg) (s : State) : Result := runThread (.cbacqW d p) s fun t => acquireM t d p true true
/-- `cbacq.r` (R210). -/
def execCbacqR (d p : XReg) (s : State) : Result := runThread (.cbacqR d p) s fun t => acquireM t d p false true
/-- `cbacq.w.try` (R210). -/
def execCbacqWTry (d p : XReg) (s : State) : Result := runThread (.cbacqWTry d p) s fun t => acquireM t d p true false
/-- `cbacq.r.try` (R210). -/
def execCbacqRTry (d p : XReg) (s : State) : Result := runThread (.cbacqRTry d p) s fun t => acquireM t d p false false

/-- `cbdef` (R209). -/
def execCbdef (d p q : XReg) (s : State) : Result :=
  runThread (.cbdef d p q) s fun t => do
    let h ← handleM t p
    let s ← get
    let x := t.getX q
    let busy := match s.cb? t.gang h with
      | some b => b.wheld != 0 || b.rheld != 0 || s.slotRequests t.gang h true (s.stamps + 1) != 0
          || s.slotRequests t.gang h false (s.stamps + 1) != 0 || (s.gangPlates t.gang).any fun o => o.targets.1 == some h
      | none => false
    let n := fieldAt x 48 8 + 1
    let size := (fieldAt x 32 10 + 1) * 64
    let base := fieldAt x 0 22
    if busy then putM (t.setX d 1)
    else if x = 0 then
      set (s.onGang t.gang fun g => { g with cbs := Map.del g.cbs h })
      putM (t.setX d 0)
    else if fieldAt x 56 8 != 0 || fieldAt x 42 6 != 0 || fieldAt x 22 10 != 0 || base % 64 != 0 then putM (t.setX d 2)
    else if (allotMiss (s.gangOf t) base (n * size)).isSome then putM (t.setX d 3)
    else
      set (s.putCb t.gang h ⟨base, size, n, n, 0, 0, 0, 0, 0⟩)
      putM (t.setX d 0)
    return .seq

/-- `cbrel.w` (R211, R213): a release of bench scope. -/
def execCbrelW (d p u : XReg) (s : State) : Result :=
  runThread (.cbrelW d p u) s fun t => do
    let h ← handleM t p
    let b ← cbM t h
    releaseM t
    let k := (t.getX u).toNat
    if b.wheld < k then putM (t.setX d 1)
    else
      modify fun s => s.putCb t.gang h { b with wheld := b.wheld - k, filled := b.filled + k }
      putM (t.setX d 0)
    return .seq

/-- `cbrel.r` (R211). -/
def execCbrelR (d p u : XReg) (s : State) : Result :=
  runThread (.cbrelR d p u) s fun t => do
    let h ← handleM t p
    let b ← cbM t h
    let k := (t.getX u).toNat
    if b.rheld < k then putM (t.setX d 1)
    else
      modify fun s => s.putCb t.gang h { b with rheld := b.rheld - k, free := b.free + k }
      putM (t.setX d 0)
    return .seq

/-- The layout of R212. -/
def CircBuf.word (b : CircBuf) : Word :=
  BitVec.ofNat 64 (2 ^ 63 + b.rpos * 2 ^ 44 + b.wpos * 2 ^ 36 + b.rheld * 2 ^ 27 + b.wheld * 2 ^ 18 + b.filled * 2 ^ 9 + b.free)

/-- `cbstat` (R212). -/
def execCbstat (d p : XReg) (s : State) : Result :=
  runThread (.cbstat d p) s fun t => do
    let h ← handleM t p
    let s ← get
    putM (t.setX d (match s.cb? t.gang h with | some b => b.word | none => 0))
    return .seq

/-! ### Barriers -/

/-- A barrier whose arrivals reach what it expects completes its phase (R226). -/
def Barrier.settle (b : Barrier) : Barrier :=
  if b.exp ≤ b.arr then { b with phase := b.phase + 1, arr := 0, exp := b.e0, ovr := b.ovr || decide (b.exp < b.arr) } else b

/-- Count arrivals into a barrier of a gang (R226, R227). -/
def State.arrive (s : State) (gang n k : Nat) : State :=
  s.onGang gang fun g => { g with bars := Map.modify g.bars n fun b => { b with arr := b.arr + k }.settle }

/-- A barrier number, or Bad Handle (R227). -/
def barNoM (t : Thread) (p : XReg) : M Nat :=
  let n := t.getX p
  if 15 < n.toNat then trapM Cause.badHandle n else pure n.toNat

/-- A defined barrier, or Bad Handle (R227). -/
def barM (t : Thread) (p : XReg) : M (Nat × Barrier) := do
  let n ← barNoM t p
  let s ← get
  match s.bar? t.gang n with
  | some b => return (n, b)
  | none => trapM Cause.badHandle (BitVec.ofNat 64 n)

/-- A thread of a gang waits on a barrier. -/
def State.barWaited (s : State) (gang n : Nat) : Bool :=
  (s.gangThreads gang).any fun t => match t.waitOf with
    | some w => match w.instr with
      | .barwait p _ => (t.getX p).toNat == n
      | _ => false
    | none => false

/-- `bardef` (R227). -/
def execBardef (d p q : XReg) (s : State) : Result :=
  runThread (.bardef d p q) s fun t => do
    let n ← barNoM t p
    let s ← get
    let x := t.getX q
    let busy := (s.bar? t.gang n).isSome && (s.barWaited t.gang n || (s.gangPlates t.gang).any fun o => o.targets.2 == some n)
    if busy then putM (t.setX d 1)
    else if x = 0 then
      set (s.onGang t.gang fun g => { g with bars := Map.del g.bars n })
      putM (t.setX d 0)
    else if 2 ^ 32 ≤ x.toNat then putM (t.setX d 2)
    else
      set (s.onGang t.gang fun g => { g with bars := Map.put g.bars n ⟨x.toNat, x.toNat, 0, 0, false⟩ })
      putM (t.setX d 0)
    return .seq

/-- `barexp` (R227). -/
def execBarexp (d p q : XReg) (s : State) : Result :=
  runThread (.barexp d p q) s fun t => do
    let (n, b) ← barM t p
    modify fun s => s.onGang t.gang fun g =>
      { g with bars := Map.put g.bars n { b with exp := b.exp + (t.getX q).toNat % 2 ^ 32 }.settle }
    putM (t.setX d (zx b.phase))
    return .seq

/-- `bararr` (R227): a release of bench scope. -/
def execBararr (d p q : XReg) (s : State) : Result :=
  runThread (.bararr d p q) s fun t => do
    let (n, b) ← barM t p
    releaseM t
    modify fun s => s.arrive t.gang n ((t.getX q).toNat % 2 ^ 32)
    putM (t.setX d (zx b.phase))
    return .seq

/-- `barwait` (R227). -/
def execBarwait (p q : XReg) (s : State) : Result :=
  runThread (.barwait p q) s fun t => do
    let (_, b) ← barM t p
    if b.phase.toNat = (t.getX q).toNat % 2 ^ 32 then waitM .barrier t.cblimit.toNat else return .seq

/-- CB_TIMEOUT (R210, R227): the buffer or barrier wait of thread `ev.a` reaches its limit. -/
def execCbTimeout (s : State) : Result :=
  match s.thread? s.ev.a with
  | none => .next s
  | some t =>
    match t.waitOf with
    | some w =>
      if t.parked || !w.expired then .next s
      else
        match w.instr with
        | .cbacqW _ p | .cbacqR _ p | .barwait p _ => .next (s.raiseHere t.key Cause.cbTimeout (t.getX p) t.pc none)
        | _ => .next s
    | none => .next s

/-! ### Full/empty words (R228 to R231) -/

/-- A full/empty operation. -/
inductive FeOp where
  | lde | ldf | stf
  deriving DecidableEq, Repr

/-- The word an operation acts on. -/
inductive FeWord where
  | pad (off : Nat)
  | mem (pa : Nat) (leaf : Word)

/-- A word of the shared level carries a tag (R228). -/
def State.hasTag (s : State) (pa : Nat) (leaf : Word) : Bool := pteBit leaf 6 && s.tagged pa

/-- The checked word (R229): the address x(XB) + DISP is a multiple of 8, as BASE + that is; what carries no tag raises Page
Permission with the virtual address (log entry 85). -/
def feWordM (t : Thread) (m : MAddr) (op : FeOp) : M FeWord := do
  let o := t.offset m
  let g := t.getG m.g
  let kind : Kind := if op = .stf then .write else .read
  if (g.refuses o 8 8 kind).isNone && o.toNat % 8 != 0 then trapM Cause.misalignedAccess o
  else
    let p ← accessM t g o 8 8 kind
    vectorM t p 8
    let va : Word := BitVec.ofNat 64 (g.base.toNat + o.toNat)
    match p with
    | .pad off => return .pad off
    | .peer .. => trapM Cause.pagePermission va
    | .mem pa v leaf => do
      let s ← get
      if s.hasTag pa leaf then
        homeM t pa v leaf none
        return .mem pa leaf
      else trapM Cause.pagePermission va

/-- The tag of a word. -/
def State.tagFull (s : State) (t : Thread) : FeWord → Bool
  | .pad off => match s.gangOf t with
    | some g => Map.getD g.fullTags off false
    | none => false
  | .mem pa _ => Map.getD s.fullTags pa false

/-- Set the tag of a word; an empty one is not listed. -/
def State.setTag (s : State) (t : Thread) (w : FeWord) (full : Bool) : State :=
  let upd (m : List (Nat × Bool)) (k : Nat) := if full then Map.put m k true else Map.del m k
  match w with
  | .pad off => s.onGang t.gang fun g => { g with fullTags := upd g.fullTags off }
  | .mem pa _ => { s with fullTags := upd s.fullTags pa }

/-- An operation on a word of the shared level, as an access at its home. -/
def feAccess (t : Thread) (pa : Nat) (leaf : Word) : HomeAccess := storeAccess t pa 0 (pteBit leaf 5) [] none

/-- The data of a word, read at the word by an acquire (R230, R276). -/
def feRead (t : Thread) : FeWord → M Word
  | .pad off => do
    observeM t (some .bench) (.pad off) 8
    fun s => .ok (BitVec.ofNat 64 (leNat (s.padBytes t.gang off 8)), s)
  | .mem pa leaf => do
    poisonM t pa 8
    observeM t (some .partition) (.mem pa 0 leaf) 8
    fun s =>
      let s := s.beforeAtomic (feAccess t pa leaf)
      .ok (s.doubleAt pa, s.homeRequest t.ctx pa 1 false)

/-- Write the data of a word at the word. -/
def feWrite (t : Thread) (w : FeWord) (v : Word) : M Unit :=
  match w with
  | .pad off => modify fun s => s.padPut t.gang off (leBytes 8 v.toNat)
  | .mem pa leaf => modify fun s =>
    (((s.beforeAtomic (feAccess t pa leaf)).snoop pa 8).setDouble pa v).homeRequest t.ctx pa 1 true

/-- An operation on a full/empty word (R230, R231). -/
def feM (t : Thread) (d : XReg) (m : MAddr) (op : FeOp) : M Ending := do
  let w ← feWordM t m op
  if op = .stf then releaseM t
  let s ← get
  match w with
  | .mem pa _ => if s.owesAt t.key pa 8 then waitM .load
  | .pad _ => pure ()
  let full := s.tagFull t w
  if full != (op != .stf) then waitM .fullEmpty t.felimit.toNat
  else
    match op with
    | .stf => feWrite t w (t.getX d)
    | _ => do
      let v ← feRead t w
      putM (t.setX d v)
    match op with
    | .lde => modify fun s => s.setTag t w false
    | .ldf => pure ()
    | .stf => modify fun s => s.setTag t w true
    return .seq

/-- `lde` (R230). -/
def execLde (d : XReg) (m : MAddr) (s : State) : Result := runThread (.lde d m) s fun t => feM t d m .lde
/-- `ldf` (R230). -/
def execLdf (d : XReg) (m : MAddr) (s : State) : Result := runThread (.ldf d m) s fun t => feM t d m .ldf
/-- `stf` (R230). -/
def execStf (d : XReg) (m : MAddr) (s : State) : Result := runThread (.stf d m) s fun t => feM t d m .stf

/-- FE_TIMEOUT (R230): the full/empty wait of thread `ev.a` reaches its limit. -/
def execFeTimeout (s : State) : Result :=
  match s.thread? s.ev.a with
  | none => .next s
  | some t =>
    match t.waitOf with
    | some w =>
      if t.parked || !w.expired then .next s
      else
        match w.instr with
        | .lde _ m | .ldf _ m | .stf _ m => .next (s.raiseHere t.key Cause.feTimeout (t.offset m) t.pc none)
        | _ => .next s
    | none => .next s

end Sys2Proof.Machine
end

