-- ==== Sys2Proof/Machine/Drawplate.lean ====
section
/-!
DEFINITION. The drawplate: copies, reducing copies, streams, MAJ 0x69 to 0x6B, DRAWPLATE_BEAT and STREAM_ELEMENT_ARRIVAL
(R80, R199, R214 to R225, R448).
-/
namespace Sys2Proof.Machine

/-! ### Engine accesses (R219, R262) -/

/-- What an engine's access to some bytes comes to. -/
inductive Engine (α : Type) where
  | done (s : State) (a : α)
  /-- Held on a page (R219). -/
  | held (s : State)
  /-- A cause, its value, and the virtual address the engine had asked for. -/
  | fault (s : State) (c : BitVec 8) (v : Word) (va : Nat)

/-- Who issues: the gang's first core, its context and partition, never under the not-present policy (R248). -/
def Gang.engine (s : State) (g : Gang) : Agent := ⟨g.bench * 8 + g.cores.headD 0, g.ctx, match s.ctx? g.ctx with | some c => c.part | none => 0, false⟩

/-- The checked place of an engine's access of `n` bytes of one 64-byte unit. -/
def enginePlace (s : State) (gang : Nat) (seg : Segment) (o : Word) (n : Nat) (kind : Kind) : Engine Place :=
  match s.gang? gang with
  | none => .held s
  | some g =>
    let ag := g.engine s
    let asked := seg.base.toNat + o.toNat
    match s.check ag (some g) seg o n 1 kind o with
    | (.fails c v, s) => .fault s c v asked
    | (.page _, s) => .held s
    | (.ok p, s) =>
      match p with
      | .mem pa va leaf =>
        if pteBit leaf 5 && s.homeRejects ag.part pa then .fault s Cause.frameOwner (BitVec.ofNat 64 va) va
        else
          match (if kind = .read then s.poisoned pa n else none) with
          | some l => .fault s Cause.machineCheck (BitVec.ofNat 64 l) va
          | none => .done s p
      | .pad off => match (if kind = .read then g.badAt off n else none) with
        | some a => .fault s Cause.machineCheck (BitVec.ofNat 64 a) asked
        | none => .done s p
      | p => .done s p

/-- What a peer comes to for an engine (R219, R241, R422; log entry 7): it is reached and takes part, holds the operation on a page
there, or returns the cause it raised; one that is not reached answers a read with poisoned data and drops a write. -/
def State.enginePeer (s : State) (gang dev va : Nat) (write : Bool) : Engine Unit :=
  let part := match s.gang? gang with | some g => (g.engine s).part | none => 0
  if s.peerUp part dev then
    let (f, s) := s.takeFree
    match Config.peerOutcome f with
    | 0 => .done s ()
    | 1 => .held s
    | n + 2 => .fault s (peerCause n) (BitVec.ofNat 64 va) va
  else
    let s := s.peerLost dev write
    if write then .done s () else .fault s Cause.machineCheck 0 va

/-- Bytes an engine reads from one 64-byte unit. -/
def engineGet (s : State) (gang : Nat) (seg : Segment) (o : Word) (n : Nat) : Engine (List Byte) :=
  match enginePlace s gang seg o n .read with
  | .held s => .held s
  | .fault s c v va => .fault s c v va
  | .done s (.pad off) => .done s (s.padBytes gang off n)
  | .done s (.peer dev va) =>
    match s.enginePeer gang dev va false with
    | .done s _ => .done { s with frees := s.frees + 1 } ((List.range n).map (Config.peerByte s.frees))
    | .held s => .held s
    | .fault s c v va => .fault s c v va
  | .done s (.mem pa _ _) =>
    let r := s.engineRead (match s.gang? gang with | some g => g.ctx | none => 0) pa n
    .done r.2 r.1

/-- Bytes an engine reads: at most 128, unit by unit. -/
def engineGets (s : State) (gang : Nat) (seg : Segment) (o : Word) (n : Nat) : Nat → Engine (List Byte)
  | 0 => .done s []
  | fuel + 1 =>
    if n == 0 then .done s []
    else
      let k := min n (64 - (seg.base.toNat + o.toNat) % 64)
      match engineGet s gang seg o k with
      | .done s bs =>
        match engineGets s gang seg (o + BitVec.ofNat 64 k) (n - k) fuel with
        | .done s bs' => .done s (bs ++ bs')
        | e => e
      | e => e

/-- Bytes an engine writes into one 64-byte unit. -/
def enginePut (s : State) (gang : Nat) (seg : Segment) (o : Word) (bs : List Byte) : Engine Unit :=
  match enginePlace s gang seg o bs.length .write with
  | .held s => .held s
  | .fault s c v va => .fault s c v va
  | .done s (.pad off) => .done (s.padPut gang off bs) ()
  | .done s (.peer dev va) => s.enginePeer gang dev va true
  | .done s (.mem pa _ _) => .done (s.engineWrite (match s.gang? gang with | some g => g.ctx | none => 0) pa bs) ()

/-! ### Operations of a hardware context (R214) -/

/-- Where an operation stands: with a thread, or left by one that has gone. -/
inductive PlateHome where
  | thread (key : Nat)
  | orphan (key : Nat)
  deriving DecidableEq, Repr

/-- Work of a hardware context: an operation, or the stream of a w register. -/
inductive PlateWork where
  | op (gang : Nat) (h : PlateHome) (o : PlateOp)
  | stream (key : Nat) (w : Nat) (b : Stream)
  deriving DecidableEq, Repr

/-- Place of work in the order of issue. -/
def PlateWork.stamp : PlateWork → Nat
  | .op _ _ o => o.stamp
  | .stream _ _ b => b.stamp

/-- Insert work in the order of issue. -/
def workInsert (x : PlateWork) : List PlateWork → List PlateWork
  | [] => [x]
  | y :: l => if x.stamp < y.stamp then x :: y :: l else y :: workInsert x l

/-- The work of core `core`'s hardware context, oldest first. -/
def State.plateWork (s : State) (core : Nat) : List PlateWork :=
  let ts := (s.threads.map (·.2)).filter fun t => t.core == core && !t.parked
  let own := ts.flatMap fun t => (t.plate.filter fun o => o.status == .pending).map fun o => PlateWork.op t.gang (.thread t.key) o
  let streams := ts.flatMap fun t => (List.range 8).filterMap fun i =>
    match t.w[i]? with
    | some (some b) => some (PlateWork.stream t.key i b)
    | _ => none
  let left := (s.gangs.filter fun g => !g.2.parked).flatMap fun g => (g.2.orphans.filter fun o => o.1 % 16384 / 16 == core).map fun o =>
    PlateWork.op g.1 (.orphan o.1) o.2
  (own ++ streams ++ left).foldr workInsert []

/-- Replace an operation, or take a completed one away; what is left of an operation without a thread goes. -/
def State.setPlate (s : State) (gang : Nat) (h : PlateHome) (o : PlateOp) : State :=
  match h with
  | .thread key => s.onThread key fun t =>
    { t with plate := if o.status == .complete then t.plate.filter fun p => p.ticket != o.ticket
                      else t.plate.map fun p => if p.ticket == o.ticket then o else p }
  | .orphan key =>
    let s := s.onGang gang fun g =>
      { g with orphans := if o.status == .pending then g.orphans.map fun p => if p.1 == key && p.2.ticket == o.ticket then (key, o) else p
                          else g.orphans.filter fun p => !(p.1 == key && p.2.ticket == o.ticket) }
    s.finishGang gang

/-- What the fork of a thread's operation orders before it is done (R225, R278): its earlier accesses, up to place `seqMark`
in its sequencer and number `homeMark` among those sent to the homes. -/
def State.forkClear (s : State) (key seqMark homeMark : Nat) : Bool :=
  !(s.home.any fun a => a.2.key == key && decide (a.1 < homeMark)) &&
  match s.thread? key with
  | some t => t.forked seqMark
  | none => true

/-- The core an operation's records go to, and its thread context. -/
def PlateHome.key : PlateHome → Nat
  | .thread k => k
  | .orphan k => k

/-- What the fork of an operation orders before it is done (R278). -/
def State.forkDone (s : State) (h : PlateHome) (o : PlateOp) : Bool :=
  s.forkClear h.key o.seqMark o.homeMark

/-- A writer slot that an operation holds is released as by `cbrel.w` with a count of 1 (R211, R217): nothing where no writer
holds a slot any more. With `filled` not set it is returned as free (R222). -/
def State.releaseSlot (s : State) (gang buf : Nat) (filled : Bool) : State :=
  match s.cb? gang buf with
  | some x =>
    if x.wheld = 0 then s
    else if filled then s.putCb gang buf { x with wheld := x.wheld - 1, filled := x.filled + 1 }
    else s.putCb gang buf { x with wheld := x.wheld - 1, free := x.free + 1 }
  | none => s

/-- Operations of a gang that are pending, of its threads and those that threads have left. -/
def State.gangWork (s : State) (gang : Nat) : List (PlateHome × PlateOp) :=
  ((s.gangThreads gang).flatMap fun t => (t.plate.filter fun o => o.status == .pending).map fun o => (PlateHome.thread t.key, o))
    ++ match s.gang? gang with
       | some g => g.orphans.map fun o => (PlateHome.orphan o.1, o.2)
       | none => []

/-- Bytes an operation lands. -/
def PlateOp.total (o : PlateOp) : Nat := match o.kind with
  | .copy c _ => c.rows * c.rb
  | .red r => r.n * (r.t.bits / 8)

/-- The buffer an operation holds a writer slot of, and the place of its acquisition. -/
def PlateOp.holds (o : PlateOp) : Option (Nat × Nat) := match o.targets.1, o.slot with
  | some b, some x => some (b, x.2)
  | _, _ => none

/-- A pending operation acquired its slot of a buffer before place `k` and has not completed (R443; log entry 97). -/
def State.slotBefore (s : State) (gang buf k : Nat) : Bool :=
  (s.gangWork gang).any fun p => match p.2.holds with
    | some (b, j) => b == buf && decide (j < k)
    | none => false

/-- An operation completes: its slot is filled, and its follow-on command goes to the anvil (R199, R217). -/
def State.plateComplete (s : State) (gang : Nat) (h : PlateHome) (o : PlateOp) : State :=
  let s := match o.kind, o.slot with
    | .copy { buf := some b, .. } _, some _ => s.releaseSlot gang b true
    | _, _ => s
  let s := match o.kind with
    | .copy _ (some f) =>
      let f := match h with
        | .thread _ => f
        | .orphan k => { f with key := State.orphanKey k }
      let n := f.core / 8
      s.putBench n { s.bench n with anvil := (s.bench n).anvil ++ [f] }
    | _ => s
  s.setPlate gang h { o with status := .complete }

/-- The operations on a buffer that have landed every byte complete in the order of their acquisitions, `fuel` at most (R443). -/
def State.completeSlots (s : State) (gang buf : Nat) : Nat → State
  | 0 => s
  | fuel + 1 =>
    match (s.gangWork gang).find? fun p => match p.2.holds with
        | some (b, k) => b == buf && decide (p.2.total ≤ p.2.mark) && !s.slotBefore gang buf k
        | none => false with
    | some (h, o) => (s.plateComplete gang h o).completeSlots gang buf fuel
    | none => s

/-- The operations that waited for an operation to complete go on, once it is pending no more. -/
def State.slotFreed (s : State) (gang : Nat) (o : PlateOp) : State := match o.holds with
  | some (b, _) => s.completeSlots gang b (s.gangWork gang).length
  | none => s

/-- An operation ends faulted: its status holds the cause and its value, the core's recorder the virtual address it had asked for,
and before that the physical address of poison it has met (R219, R405). -/
def State.plateFault (s : State) (gang : Nat) (h : PlateHome) (o : PlateOp) (c : BitVec 8) (v : Word) (va : Nat) : State :=
  let rec' (s : State) (kind : BitVec 8) (payload : Nat) : State :=
    s.assayFrom (0x400 + h.key % 16384 / 128) (h.key % 16384 / 16) (h.key % 16) kind payload
  let s := if c = Cause.machineCheck then rec' s 0x24 (v.toNat / 16) else s
  ((rec' s 0x23 (va / 128)).setPlate gang h { o with status := .faulted c v false }).slotFreed gang o

/-- Bytes of an operation have landed: the watermark passes them, and its barrier counts them (R217, R226). With its last byte it
completes, with a slot once the earlier operations on the buffer have (R443). -/
def State.landed (s : State) (gang : Nat) (h : PlateHome) (o : PlateOp) (n : Nat) : State :=
  let o := { o with mark := o.mark + n }
  let s := s.count 1 (h.key % 16384 / 128) (some (h.key / 16384)) 0x11 n
  let s := match o.targets.2 with
    | some b => s.arrive gang b n
    | none => s
  match o.holds with
  | some _ => (s.setPlate gang h o).slotFreed gang o
  | none => if o.total ≤ o.mark then s.plateComplete gang h o else s.setPlate gang h o

/-- Offset in the scratchpad of byte `b` of row `r` (R217). -/
def PlateCopy.pad (c : PlateCopy) (off r b : Nat) : Nat := physical c.br (off + r * c.sp + b) r

/-- Memory-side offset of byte `b` of row `r` (R217). -/
def PlateCopy.mem (c : PlateCopy) (r b : Nat) : Word := c.addr + BitVec.ofInt 64 ((r : Int) * c.mp + b)

/-- The bytes of a list of offsets outside an allotment. -/
def outside (g : Option Gang) (offs : List Nat) : Option Nat := offs.find? fun o => (allotMiss g o 1).isSome

/-- The first of some scratchpad bytes of a gang that lies in a poisoned line (R425). -/
def State.padPoison (s : State) (gang : Nat) (offs : List Nat) : Option Nat :=
  match s.gang? gang with
  | some g => offs.findSome? fun o => g.badAt o 1
  | none => none

/-- Land one unit of a copy at its watermark (R217). A slot of a buffer is known only here: bytes that its pitch carries outside
the allotment end the operation faulted with Segment Limit (log entry 102). -/
def State.copyBeat (s : State) (gang : Nat) (h : PlateHome) (o : PlateOp) (c : PlateCopy) : Engine Unit :=
  let r := o.mark / c.rb
  let b := o.mark % c.rb
  let off := (o.slot.map (·.1)).getD c.off
  let m := c.mem r b
  let side := if c.dir == 2 then m.toNat else c.seg.base.toNat + m.toNat
  let dest := if c.dir == 1 then c.seg.base.toNat + m.toNat else c.pad off r b
  let n := min (c.rb - b) (64 - dest % 64)
  let pads := (List.range n).map fun i => c.pad off r (b + i)
  let g := s.gang? gang
  match c.dir with
  | 1 =>
    match s.padPoison gang pads with
    | some a => .fault s Cause.machineCheck (BitVec.ofNat 64 a) side
    | none => match enginePut s gang c.seg m (pads.flatMap fun a => s.padBytes gang a 1) with
      | .done s _ => .done (s.landed gang h o n) ()
      | e => e
  | d =>
    match outside g pads with
    | some a => .fault s Cause.segmentLimit (BitVec.ofNat 64 a) side
    | none =>
      let got := if d == 0 then engineGets s gang c.seg m n 3
        else match s.padPoison gang ((List.range n).map (m.toNat + ·)) with
          | some a => .fault s Cause.machineCheck (BitVec.ofNat 64 a) side
          | none => .done s (s.padBytes gang m.toNat n)
      match got with
      | .held s => .held s
      | .fault s k v va => .fault s k v va
      | .done s bs =>
        let s := (pads.zip bs).foldl (fun s p => s.padPut gang p.1 [p.2]) s
        .done (s.landed gang h o n) ()

/-- Combine two elements of a reducing copy (R80, R221). -/
def redElem (op : DRedOp) (ty : Ty) (a b : Nat) : Nat :=
  match op with
  | .add => (arithElem .add ty false .rne false a b).bits
  | .min => (minmaxElem false ty false a b).bits
  | .max => (minmaxElem true ty false a b).bits

/-- Elements of a list of bytes. -/
def elemsOf (size : Nat) : Nat → List Byte → List Nat
  | 0, _ => []
  | n + 1, bs => leNat (bs.take size) :: elemsOf size n (bs.drop size)

/-- Read `k` elements of each source and combine them in order (R221). -/
def combine (s : State) (gang : Nat) (r : PlateRed) (first k : Nat) : List (Segment × Word) → Engine (Option (List Nat))
  | [] => .done s none
  | (g, o) :: rest =>
    let size := r.t.bits / 8
    -- the sources stand in reverse, so that what the recursion returns is what comes before
    match combine s gang r first k rest with
    | .done s acc =>
      match engineGets s gang g (o + BitVec.ofNat 64 (first * size)) (k * size) 3 with
      | .done s bs =>
        let es := elemsOf size k bs
        .done s (some (match acc with
          | none => es
          | some a => (a.zip es).map fun p => redElem r.op r.t p.1 p.2))
      | .held s => .held s
      | .fault s c v va => .fault s c v va
    | e => e

/-- Land one unit of a reducing copy. -/
def State.redBeat (s : State) (gang : Nat) (h : PlateHome) (o : PlateOp) (r : PlateRed) : Engine Unit :=
  let size := r.t.bits / 8
  let first := o.mark / size
  let dest := r.dst + o.mark
  let k := min (r.n - first) (max 1 ((64 - dest % 64) / size))
  match combine s gang r first k r.srcs.reverse with
  | .held s => .held s
  | .fault s c v va => .fault s c v va
  | .done s es =>
    let s := ((List.range k).zip (es.getD [])).foldl (fun s p => s.padPut gang (dest + p.1 * size) (leBytes size p.2)) s
    .done (s.landed gang h o (k * size)) ()

/-- The writer slot of a copy, acquired before its first beat in the order of requests (R210, R217). -/
def State.acquireSlot (s : State) (gang : Nat) (h : PlateHome) (o : PlateOp) (buf : Nat) : Option (State × PlateOp) :=
  match s.cb? gang buf with
  | none => none
  | some b =>
    if s.slotRequests gang buf true o.stamp < b.free then
      let (i, b') := b.take true
      let (k, s) := s.takeStamp
      let o := { o with slot := some (b.base + i * b.size, k) }
      some ((s.putCb gang buf b').setPlate gang h o, o)
    else none

/-- A beat of an operation, if it can use one: the state after, and whether it did. -/
def State.plateBeat (s : State) (gang : Nat) (h : PlateHome) (o : PlateOp) : State × Bool :=
  if !s.forkDone h o || decide (o.total ≤ o.mark) then (s, false)
  else
    let ready : Option (State × PlateOp) := match o.targets.1, o.slot with
      | some b, none => s.acquireSlot gang h o b
      | _, _ => some (s, o)
    match ready with
    | none => (s, false)
    | some (s, o) =>
      let r := match o.kind with
        | .copy c _ => s.copyBeat gang h o c
        | .red r => s.redBeat gang h o r
      match r with
      | .done s _ => (s, true)
      | .held s => (s, false)
      | .fault s c v va => (s.plateFault gang h o c v va, true)

/-! ### Streams (R223, R224, R448) -/

/-- Elements of the prefetch window: 1,024 bytes. -/
def Stream.window (b : Stream) : Nat := 1024 / (b.ty.bits / 8)

/-- Offset of element `i` of a stream. -/
def Stream.offset (b : Stream) (i : Nat) : Word := b.base + BitVec.ofNat 64 i * b.stride

/-- The next element a stream may not request. -/
def Stream.limit (b : Stream) : Nat := min b.count (b.consumed + b.window)

/-- A beat of a stream: it requests the next elements (R448). -/
def Stream.request (b : Stream) : Stream :=
  let size := b.ty.bits / 8
  let a := b.seg.base.toNat + (b.offset b.requested).toNat
  let n := if b.stride = BitVec.ofNat 64 size then (64 - a % 64 + size - 1) / size else 1
  { b with requested := min b.limit (b.requested + n) }

/-- The prefetch window of a stream is not full, and what its fork orders before it is done (R225, R278). -/
def State.streamReady (s : State) (key : Nat) (b : Stream) : Bool :=
  decide (b.requested < b.limit) && s.forkClear key b.stamp b.homeMark

/-- A beat of a stream, if it can use one: the state after, and whether it did. One whose next element to arrive, or to request,
waits on a page cannot (R214). -/
def State.streamBeat (s : State) (key w : Nat) (b : Stream) : State × Bool :=
  match s.thread? key with
  | none => (s, false)
  | some t =>
    if !s.streamReady key b then (s, false)
    else
      let get (s : State) (i : Nat) : Engine (List Byte) := engineGets s t.gang b.seg (b.offset i) (b.ty.bits / 8) 3
      match get s (b.consumed + b.arrived.length) with
      | .held s => (s, false)
      | _ => match get s b.requested with
        | .held s => (s, false)
        | _ => (s.onThread key fun t => t.setW (BitVec.ofNat 3 w) (some b.request), true)

/-- A beat of a drawplate has served a thread's operation or stream: it counts for the thread's context (R393, R395). -/
def State.beatUsed (s : State) (key : Nat) : State := s.count 1 (key % 16384 / 128) (some (key / 16384)) 0x10 1

/-- The first work of a list that can use a beat uses it: the state after, and whether there is any. -/
def serveWork : List PlateWork → State → State × Bool
  | [], s => (s, false)
  | .op g h o :: rest, s =>
    match s.plateBeat g h o with
    | (s, true) => (s.beatUsed h.key, true)
    | (s, false) => serveWork rest s
  | .stream key w b :: rest, s =>
    match s.streamBeat key w b with
    | (s, true) => (s.beatUsed key, true)
    | (s, false) => serveWork rest s

/-- A core's hardware context has work that can use a beat. -/
def State.plateReady (s : State) (core : Nat) : Bool := (serveWork (s.plateWork core) s).2

/-- A beat of the drawplate serves the hardware context of a core, which has had its turn if it used it. -/
def State.servePlate (s : State) (core : Nat) : State :=
  let (s, used) := serveWork (s.plateWork core) s
  let b := s.bench (core / 8)
  if used then s.putBench (core / 8) { b with plateTurn := s.tookBeat b.plateTurn core } else s

/-- DRAWPLATE_BEAT (R214): a beat of the partition of core `ev.a`, if it falls to this core's hardware context. -/
def execDrawplateBeat (s : State) : Result :=
  let turn := s.beatTurn (s.bench (s.ev.a / 8)).plateTurn s.plateReady s.ev.a
  .next (if turn || !s.plateReady s.ev.a then s.servePlate s.ev.a else s)

/-- The next element of a stream arrives, unless its page holds it. -/
def State.streamArrive (s : State) (t : Thread) (w : Nat) (b : Stream) : State :=
  let i := b.consumed + b.arrived.length
  if b.requested ≤ i then s
  else
    let put (s : State) (e : StreamElem) : State :=
      (s.onThread t.key fun t => t.setW (BitVec.ofNat 3 w) (some { b with arrived := b.arrived ++ [e] })).wake t.key |>.count 1 t.bench (some t.ctx) 0x12 1
    match engineGets s t.gang b.seg (b.offset i) (b.ty.bits / 8) 3 with
    | .done s bs => put s ⟨i, leNat bs, none⟩
    | .held s => s
    | .fault s c v _ => put s ⟨i, 0, some (c, v)⟩

/-- STREAM_ELEMENT_ARRIVAL (R448): the next element of the stream in register `ev.b` of thread `ev.a`. -/
def execStreamElementArrival (s : State) : Result :=
  match s.thread? s.ev.a with
  | none => .next s
  | some t =>
    match t.w[s.ev.b]? with
    | some (some b) => .next (s.streamArrive t s.ev.b b)
    | _ => .next s

/-- How many of `count` pieces of `size` bytes, the first at `a`, each `stride` from the last, lie within `lo` to `hi` before
the first that does not. -/
def piecesWithin (lo hi a size : Nat) (stride : Int) (count : Nat) : Nat :=
  if a < lo ∨ hi < a + size then 0
  else if stride = 0 then count
  else min count (if 0 < stride then (hi - size - a) / stride.natAbs + 1 else (a - lo) / stride.natAbs + 1)

/-- The first element address of a stream that its segment refuses, or that lies outside the allotment: cause and TVAL (R223,
R234, R235). -/
def streamRefusal (gang : Option Gang) (g : Segment) (base stride : Word) (size count : Nat) : Option (BitVec 8 × Word) :=
  match g.refuses base size size .read with
  | some c => some (c, base)
  | none =>
    let a := g.base.toNat + base.toNat
    let k := piecesWithin 0 g.size.toNat base.toNat size stride.toInt count
    let m := match g.type, gang with
      | .scratch, some x => piecesWithin x.spadBase (x.spadBase + x.spadSize) a size stride.toInt count
      | .scratch, none => 0
      | _, _ => count
    if m < k then
      let at' := ((a : Int) + m * stride.toInt).toNat
      some (Cause.segmentLimit, BitVec.ofNat 64 ((allotMiss gang at' size).getD at'))
    else if k < count then some (Cause.segmentLimit, base + BitVec.ofNat 64 k * stride)
    else none

/-- `dstream` (R223). -/
def execDstream (ty : Ty) (wd : WReg) (gw : GReg) (p q u : XReg) (s : State) : Result :=
  runThread (.dstream ty wd gw p q u) s fun t => do
    let size := ty.bits / 8
    let base := t.getX p
    let stride := t.getX q
    let count := t.getX u
    let g := t.getG gw
    if count = 0 then do
      modify fun s => s.streamGone t wd
      putM (t.setW wd none)
    else if base.toNat % size != 0 || stride.toNat % size != 0 then trapM Cause.misalignedAccess base
    else if 2 ^ 32 ≤ count.toNat then trapM Cause.segmentLimit count
    else
      let s ← get
      match streamRefusal (s.gangOf t) g base stride size count.toNat with
      | some (c, v) => trapM c v
      | none => do
        let (n, s) := s.takeStamp
        set (s.streamGone t wd)
        putM (t.setW wd (some ⟨ty, n, s.nextHome, g, base, stride, count.toNat, 0, 0, []⟩))
    return .seq

/-- Elements `wget` takes until one that faulted: their data, and the fault with its number. -/
def takeElems (b : Stream) : Nat → Nat → List Nat × Option (Nat × BitVec 8 × Word)
  | _, 0 => ([], none)
  | e, n + 1 =>
    match (b.arrived[e]?).map (·.fault) with
    | some (some (c, v)) => ([], some (e, c, v))
    | _ =>
      let r := takeElems b (e + 1) n
      (((b.arrived[e]?).map (·.data)).getD 0 :: r.1, r.2)

/-- `wget` (R224): the thread waits through the whole of it, so it holds no entry of its own. -/
def execWget (ty : Ty) (vd : VReg) (wp : WReg) (u : XReg) (s : State) : Result :=
  runThread (.wget ty vd wp u) s fun t => do
    match t.getW wp with
    | none => trapM Cause.badHandle (zx wp)
    | some b =>
      if ty.bits != b.ty.bits then trapM Cause.badHandle (zx wp)
      else
        untilSeq (decide (t.entriesTaken < Config.seqEntries))
        let vl := vlenOf (t.getX u) ty
        let uses := t.held.any fun e => e.shape.writes.any (·.1 == vd) || e.shape.reads.any (·.1 == vd)
        if uses then waitM .load
        else
          let need := min vl (b.count - b.consumed)
          let fault := (b.arrived.take need).any fun e => e.fault.isSome
          if decide (b.arrived.length < need) && !fault then do
            if t.asked != .elements then modify fun s => s.count 1 t.bench (some t.ctx) 0x14 1
            waitM .load 0 .elements
          else
            let (ds, stop) := takeElems b 0 need
            let got := ds.length
            let b' := { b with consumed := b.consumed + got, arrived := b.arrived.drop got }
            let zeros := if stop.isSome then [] else List.replicate (vl - need) 0
            let ws := ((List.range (got + zeros.length)).zip (ds ++ zeros)).map fun p => elemWrite vd ty p.1 p.2
            putM ((t.applyOut { GroupOut.empty 0 with v := ws }).setW wp (some b'))
            modify fun s => s.count 1 t.bench (some t.ctx) 0x13 got
            match stop with
            | some (e, c, v) => trapElem c v (some e)
            | none => return .seq

/-! ### Copies (R215 to R222) -/

/-- Operations of a thread that are outstanding (R214). -/
def Thread.outstanding (t : Thread) : Nat :=
  (t.plate.filter fun o => match o.status with
    | .pending => true
    | .faulted _ _ seen => !seen
    | _ => false).length

/-- The first byte of rows of a memory side that its segment refuses: cause and offset (R218, R234). -/
def sideRefusal (g : Segment) (kind : Kind) (rows : List (Word × Nat)) : Option (BitVec 8 × Word) :=
  rows.findSome? fun r =>
    match g.refuses r.1 r.2 1 kind with
    | none => none
    | some c => some (c, if c = Cause.segmentLimit && decide (r.1.toNat < g.size.toNat) then BitVec.ofNat 64 g.size.toNat else r.1)

/-- The first byte, outside the allotment, of `n` bytes at an offset of a memory side in a scratchpad-type segment (R204,
R234). -/
def padSide (gang : Option Gang) (g : Segment) (o : Word) (n : Nat) : Option Nat :=
  if g.type == .scratch then allotMiss gang (g.base.toNat + o.toNat) n else none

/-- The first scratchpad byte of a copy outside the allotment (R218): in each row the memory side's, where that lies in the
scratchpad, before the other's. -/
def PlateCopy.miss (c : PlateCopy) (g : Option Gang) (off : Option Nat) : Option Nat :=
  (List.range c.rows).findSome? fun r =>
    let src := if c.dir == 2 then allotMiss g (c.mem r 0).toNat c.rb else padSide g c.seg (c.mem r 0) c.rb
    let dst := match off with
      | none => none
      | some o =>
        let a := o + r * c.sp
        let units := (a % 64 + c.rb + 63) / 64
        (List.range units).findSome? fun i =>
          let lo := if i == 0 then a else (a / 64 + i) * 64
          let hi := min (a + c.rb) ((a / 64 + i + 1) * 64)
          allotMiss g (physical c.br lo r) (hi - lo)
    src.or dst

/-- The checks of a copy at issue (R216, R218) and what it captures. -/
def copyM (t : Thread) (p q u : XReg) : M PlateCopy := do
  let x := t.getX p
  let y := t.getX (p + 1)
  let z := t.getX q
  let v := t.getX u
  let gn := fieldAt y 0 3
  let dir := fieldAt y 3 2
  let br := fieldAt y 5 5
  let cbw := y.getLsbD 10
  let bar := fieldAt y 16 5
  let ben := y.getLsbD 21
  let off := fieldAt z 0 22
  let sp := fieldAt z 22 22
  let rb := fieldAt v 0 16
  let rows := fieldAt v 16 16 + 1
  let h := off % 8
  let limit (r : Word) : M PlateCopy := trapM Cause.segmentLimit r
  let s ← get
  let g := s.gangOf t
  if fieldAt y 22 42 != 0 || fieldAt y 11 5 != 0 then limit y
  else if fieldAt z 44 20 != 0 then limit z
  else if dir == 3 then limit y
  else if rb == 0 then limit v
  else if dir == 2 && gn != 0 then limit y
  else if cbw && dir == 1 then limit y
  else if cbw && off / 8 != 0 then limit z
  else if br != 0 && !cbw && off % 64 != 0 then trapM Cause.misalignedAccess (BitVec.ofNat 64 off)
  else if br != 0 && sp % 64 != 0 then trapM Cause.misalignedAccess (BitVec.ofNat 64 sp)
  else if ben && (s.bar? t.gang bar).isNone then trapM Cause.badHandle (BitVec.ofNat 64 bar)
  else
    let buffer := s.cb? t.gang h
    if cbw && buffer.isNone then trapM Cause.badHandle (BitVec.ofNat 64 h)
    else
      let c : PlateCopy := {
        dir := dir, seg := t.getG (BitVec.ofNat 3 gn), addr := x, mp := (v.extractLsb' 32 32).toInt, rows := rows, rb := rb
        br := br, off := off, sp := sp, bar := if ben then some bar else none, buf := if cbw then some h else none }
      let sides := (List.range rows).map fun r => (c.mem r 0, rb)
      match (if dir == 2 then none else sideRefusal c.seg (if dir == 0 then .read else .write) sides) with
      | some (k, o) => trapM k o
      | none =>
        match c.miss g (if cbw then none else some off) with
        | some o => trapM Cause.segmentLimit (BitVec.ofNat 64 o)
        | none =>
          match buffer with
          | some b => if cbw && decide (b.size < rows * rb) then trapM Cause.segmentLimit (BitVec.ofNat 64 b.size) else return c
          | none => return c

/-- Give a thread's operation its ticket, its place in the order of issue and the marks of its fork (R214, R278). -/
def issueM (t : Thread) (d : XReg) (kind : Nat → PlateKind) : M Ending := do
  let s ← get
  let (n, s) := s.takeStamp
  let ticket := t.dseq + 1
  set s
  let o : PlateOp := ⟨ticket, kind n, 0, none, .pending, n, n, s.nextHome⟩
  putM ({ t with dseq := ticket, plate := t.plate ++ [o] }.setX d (BitVec.ofNat 64 ticket))
  return .seq

/-- Wait until the thread may issue another operation (R214). -/
def roomM (t : Thread) : M Unit := untilSeq (decide (t.outstanding < Config.outstandingMax))

/-- `dcopy` (R216 to R218). -/
def execDcopy (d p q u : XReg) (s : State) : Result :=
  runThread (.dcopy d p q u) s fun t => do
    roomM t
    let c ← copyM t p q u
    issueM t d fun _ => .copy c none

/-- The follow-on command of a `dcopym` (R199, R220). -/
def followM (t : Thread) (w : XReg) : M AnvilOp := do
  let x := t.getX (w + 1)
  let a := fieldAt x 0 6
  let b := fieldAt x 8 6
  let bad := fun n => n == 0 || n % 2 == 1
  if fieldAt x 6 2 != 0 || fieldAt x 14 2 != 0 || fieldAt x 17 47 != 0 || bad a || bad b then trapM Cause.badHandle x
  else
    let src (n : Nat) : AnvilSrc := .pad (t.getX (BitVec.ofNat 6 n)) (t.getX (BitVec.ofNat 6 (n + 1)))
    mmaOp t (t.getX w) (x.getLsbD 16) (src a) (src b)

/-- `dcopym` (R199, R220). -/
def execDcopym (d p q u w : XReg) (s : State) : Result :=
  runThread (.dcopym d p q u w) s fun t => do
    roomM t
    let c ← copyM t p q u
    let f ← followM t w
    let n := t.aseq + 1
    issueM ({ t with aseq := n }.setX (d + 1) (BitVec.ofNat 64 n)) d fun m => .copy c (some { f with ticket := n, seqMark := m })

/-- Entries of a source list (R221): offset and segment register; none when a reserved bit is set. -/
def readSources : Nat → List Byte → Option (List (Word × Nat))
  | 0, _ => some []
  | n + 1, bs =>
    let o := BitVec.ofNat 64 (leNat (bs.take 8))
    let g := leNat ((bs.drop 8).take 8)
    if 8 ≤ g then none else (readSources n (bs.drop 16)).map fun l => (o, g) :: l

/-- Insert a source in the order of device numbers, those of equal number in list order (R80, R221). -/
def sourceInsert (own : Nat) (x : Segment × Word) : List (Segment × Word) → List (Segment × Word)
  | [] => [x]
  | y :: l =>
    let no (g : Segment) : Nat := if g.type = .peer then g.peer.toNat else own
    if no x.1 ≤ no y.1 then x :: y :: l else y :: sourceInsert own x l

/-- `dred` (R80, R218, R221): its list is read as issued, after the earlier vector stores of the thread to it (R253). -/
def execDred (op : DRedOp) (ty : Ty) (d p q u : XReg) (s : State) : Result :=
  runThread (.dred op ty d p q u) s fun t => do
    roomM t
    let x := t.getX p
    let y := t.getX q
    let n := (t.getX u).toNat
    let size := ty.bits / 8
    let list := fieldAt x 0 22
    let count := fieldAt x 22 4 + 1
    let bar := fieldAt x 32 5
    let ben := x.getLsbD 37
    let s ← get
    let g := s.gangOf t
    if fieldAt x 38 26 != 0 || fieldAt x 26 6 != 0 then trapM Cause.segmentLimit x
    else if fieldAt y 22 42 != 0 then trapM Cause.segmentLimit y
    else if n = 0 ∨ 65536 < n then trapM Cause.segmentLimit (t.getX u)
    else if list % 16 != 0 then trapM Cause.misalignedAccess (BitVec.ofNat 64 list)
    else if ben && (s.bar? t.gang bar).isNone then trapM Cause.badHandle (BitVec.ofNat 64 bar)
    else
      match allotMiss g list (16 * count) with
      | some o => trapM Cause.segmentLimit (BitVec.ofNat 64 o)
      | none =>
        vectorM t (.pad list) (16 * count)
        padCheckM t list (16 * count)
        match readSources count (s.padBytes t.gang list (16 * count)) with
        | none => trapM Cause.segmentLimit x
        | some es =>
          let srcs := es.map fun e => (t.getG (BitVec.ofNat 3 e.2), e.1)
          match srcs.findSome? fun e => sideRefusal e.1 .read [(e.2, n * size)] with
          | some (c, o) => trapM c o
          | none =>
            match (srcs.findSome? fun e => padSide g e.1 e.2 (n * size)).or (allotMiss g (fieldAt y 0 22) (n * size)) with
            | some o => trapM Cause.segmentLimit (BitVec.ofNat 64 o)
            | none =>
              let order := srcs.foldr (sourceInsert s.ownNumber) []
              issueM t d fun _ => .red ⟨op, ty, order, fieldAt y 0 22, n, if ben then some bar else none⟩

/-- A faulted operation has been observed (R222). -/
def Thread.observe (t : Thread) (ticket : Nat) : Thread :=
  { t with plate := t.plate.map fun o => if o.ticket == ticket then
      { o with status := match o.status with | .faulted c v _ => .faulted c v true | st => st } else o }

/-- `dwait` (R222). -/
def execDwait (p : XReg) (s : State) : Result :=
  runThread (.dwait p) s fun t => do
    let covered := t.plate.filter fun o => decide (o.ticket ≤ (t.getX p).toNat)
    if covered.any fun o => o.status == .pending then waitM .sequencer
    else
      match covered.findSome? fun o => match o.status with
          | .faulted c v false => some (o.ticket, c, v)
          | _ => none with
      | some (n, c, v) =>
        putM (t.observe n)
        trapM c v
      | none => return .seq

/-- The status `dtest` returns (R222). -/
def Thread.plateStatus (t : Thread) (n : Nat) : Nat :=
  if n == 0 || decide (t.dseq < n) then 4
  else
    match t.plate.find? fun o => o.ticket == n with
    | none => 1
    | some o => match o.status with
      | .pending => 0
      | .complete => 1
      | .cancelled => 2
      | .faulted .. => 3

/-- `dtest` (R222). -/
def execDtest (d p : XReg) (s : State) : Result :=
  runThread (.dtest d p) s fun t => do
    let n := (t.getX p).toNat
    putM ((t.observe n).setX d (BitVec.ofNat 64 (t.plateStatus n)))
    return .seq

/-- `dcancel` (R222). -/
def execDcancel (d p : XReg) (s : State) : Result :=
  runThread (.dcancel d p) s fun t => do
    let n := (t.getX p).toNat
    let st := t.plateStatus n
    let cancelled : Thread := { t with plate := t.plate.map fun o =>
      if o.ticket == n && o.status == .pending then { o with status := .cancelled } else o }
    match t.plate.find? fun o => o.ticket == n && o.status == .pending with
    | some ⟨_, .copy { buf := some b, .. } _, _, some _, _, _, _, _⟩ =>
      modify fun s => s.releaseSlot t.gang b false
    | _ => pure ()
    putM ((cancelled.observe n).setX d (BitVec.ofNat 64 st))
    match t.plate.find? fun o => o.ticket == n && o.status == .pending with
    | some o => modify fun s => s.slotFreed t.gang o
    | none => pure ()
    return .seq

end Sys2Proof.Machine
end

