-- ==== Sys2Proof/Machine/Images.lean ====
section
/-!
DEFINITION. The images a switch engine writes into a save area: thread records, and what a quarter record holds beside them
(R225, R355). The layout within a thread record is a firmware matter, and the spec gives none of the region at 2 MiB; both are the
model's (log entry 20).
-/
namespace Sys2Proof.Machine

/-- A number as a double. -/
def dbl (n : Nat) : Word := BitVec.ofNat 64 n

/-- Doubles of an operand of a matrix command: its pair, or its registers. -/
def AnvilSrc.doubles : AnvilSrc → List Word
  | .pad base pitch => [base, pitch]
  | .reg v _ => [dbl v, -1]

/-- Doubles of a follow-on matrix command as captured at its issue: ASEQ ticket, origin, SET, operand pairs, format word, window
rows and extent, zero-block mask (R199, R355). -/
def AnvilOp.doubles (o : AnvilOp) : List Word :=
  (match o.kind with
   | .mma set a b => dbl (1 + set.toNat) :: (a.doubles ++ b.doubles)
   | _ => [0])
  ++ [dbl o.ticket, dbl (o.row + 2 ^ 16 * o.col), dbl (o.rows + 2 ^ 16 * o.cols + 2 ^ 32 * o.depth), o.format] ++ doublesFrom 2 o.mask

/-- Doubles of an outstanding drawplate operation: ticket, watermark, slot, status, and its follow-on command. -/
def PlateOp.doubles (o : PlateOp) : List Word :=
  [dbl o.ticket, dbl o.mark, dbl (match o.slot with | some n => n.1 + 1 | none => 0),
   match o.status with
   | .pending => 0 | .complete => 1 | .cancelled => 2
   | .faulted c v seen => dbl (3 + 256 * c.toNat + 65536 * seen.toNat + 2 ^ 20 * v.toNat)]
  ++ match o.kind with
     | .copy _ (some f) => f.doubles
     | _ => []

/-- Doubles of a sequencer entry: its instruction's pc, length, progress and captured operands. -/
def SeqEntry.doubles (e : SeqEntry) : List Word :=
  [e.pc, dbl (e.vl + 2 ^ 16 * e.total + 2 ^ 32 * e.vstart), dbl (e.entered + 2 ^ 16 * e.delivered), e.seg.double 0, e.seg.double 1,
   e.seg.double 2, dbl e.xs.length] ++ e.xs.take 8

/-- The control registers of a thread. -/
def Thread.controls (t : Thread) : List Word :=
  [t.pc, zx t.vstart, dbl t.fz.toNat, zx t.rm, zx t.fflags, zx t.mxstat, zx t.srseed, zx t.lsel, zx t.lword, zx t.felimit,
   zx t.cblimit, t.tvec, t.tcause, t.tpc, t.tval, dbl t.hnd.toNat, dbl t.frames.length,
   match t.window with | some w => dbl (w.rows * 2 ^ 16 + w.base) | none => 0]

/-- The thread record (R355): its registers first, then sequencer entries and loop record, counts and status, outstanding
drawplate operations, mailbox. -/
def Thread.image (t : Thread) : List Word :=
  (t.x.toList ++ t.k.toList.flatMap (doublesFrom 8) ++ t.v.toList.flatMap (doublesFrom 64)
    ++ t.g.toList.flatMap (fun g => (List.range 4).map g.double) ++ t.w.toList.flatMap streamDoubles
    ++ t.controls ++ loopDoubles t.loops ++ [dbl t.aseq, dbl t.dseq, zx t.astat]
    ++ (match t.loopRec with | some (pc, i, m) => [pc, dbl i, dbl m] | none => [0, 0, 0])
    ++ dbl t.mailbox.length :: t.mailbox.flatMap (fun m => [m.payload, zx m.sender])
    ++ dbl t.seq.length :: t.seq.flatMap SeqEntry.doubles
    ++ (t.plate.filter fun o => o.status == .pending).flatMap PlateOp.doubles).take 2048

/-- A thread whose record something else has overwritten: what the firmware then finds in its x, k and v registers is not stated
(R355; log entry 20). -/
def Thread.overwritten (t : Thread) (bytes : List Byte) : Thread :=
  let f := Config.overwrittenDouble bytes
  { t with
    x := Vector.ofFn fun i : Fin 64 => if i.val = 0 then 0 else f i.val
    k := Vector.ofFn fun i : Fin 8 => (List.range 8).foldl (fun v j => v ||| (f (64 + 8 * i.val + j)).setWidth 512 <<< (64 * j)) 0
    v := Vector.ofFn fun i : Fin 16 => (List.range 64).foldl (fun v j => v ||| (f (128 + 64 * i.val + j)).setWidth 4096 <<< (64 * j)) 0 }

/-- A word in the layout of CLAIM (R124). -/
def Rows.word (r : Rows) : Word := dbl (r.mad + 16 * r.ld + 256 * r.st + 4096 * r.perm + 65536 * r.sfu)

/-- Format context and claims of a core. -/
def Core.image (c : Core) : List Word := c.format :: doublesFrom 2 c.zeroMask ++ [c.requests.word, dbl c.last]

/-- Circular buffers and barriers of a gang. -/
def Gang.image (g : Gang) : List Word :=
  ((List.range 8).flatMap fun h => match Map.get? g.cbs h with
    | some b => [b.base, b.size, b.slots, b.free, b.filled, b.wheld, b.rheld, b.wpos, b.rpos].map dbl
    | none => List.replicate 9 0)
  ++ (List.range 16).flatMap fun n => match Map.get? g.bars n with
    | some b => [dbl b.e0, dbl b.exp, dbl b.arr, zx b.phase, dbl b.ovr.toNat]
    | none => List.replicate 5 0

end Sys2Proof.Machine
end

