-- ==== Sys2Proof/Machine/Seams.lean ====
section
/-!
DEFINITION. Traps and seams: MAJ 0x78 to 0x7C, what the decoder answers for encodings that are not instructions, and
DEFERRED_TRAP_ENTRY (R33, R40, R248, R363 to R383, R402).
-/
namespace Sys2Proof.Machine

/-! ### Encodings that are not instructions -/

/-- ILLEGAL_INSTRUCTION (R40). -/
def execIllegalInstruction (head : BitVec 16) (tail : BitVec 48) (s : State) : Result :=
  runThread (.illegalInstruction head tail) s fun _ => trapM Cause.illegal (headTail head tail)

/-- LINE_FORMAT (R33). -/
def execLineFormat (base : Word) (s : State) : Result :=
  runThread (.lineFormat base) s fun _ => trapM Cause.lineFormat base

/-! ### Trap instructions -/

/-- `trap n` (R372). -/
def execTrap (n : BitVec 7) (s : State) : Result := runThread (.trap n) s fun _ => trapM Cause.softwareTrap (zx n)

/-- `brk n` (R374). -/
def execBrk (n : BitVec 4) (s : State) : Result :=
  runThread (.brk n) s fun t => do
    let s ← get
    if (s.debugged t).isSome then
      putM { t with debugHeld := true }
      return .stay
    else trapM Cause.breakpoint (zx n)

/-- Return from a handler to `target` (R373): the handler flag is clear when the target's check traps. -/
def returnM (t : Thread) (target : Word) (mayReplay : Bool) : M Ending := fun s =>
  match targetM t target s with
  | .error (.trap s c v e) => .error (.trap (s.onThread t.key fun t => { t with hnd := false }) c v e)
  | .error w => .error w
  | .ok (_, s) =>
    let replay := match t.replay with
      | some r => if mayReplay && r.pc == target then some { r with active := true } else none
      | none => none
    let s := if replay.isSome then s else s.dropReplay t
    .ok (.jump target, s.onThread t.key fun t => { t with hnd := false, replay := replay })

/-- `tret` (R373). -/
def execTret (s : State) : Result :=
  runThread .tret s fun t => if !t.hnd then trapM Cause.illegal (instrTval .tret) else returnM t t.tpc true

/-- `tret.next` (R373). -/
def execTretNext (s : State) : Result :=
  runThread .tretNext s fun t =>
    if !t.hnd then trapM Cause.illegal (instrTval .tretNext)
    else do
      let target ← nextM t t.tpc
      returnM t target false

/-! ### Seams -/

/-- A gate entry (R376). -/
structure Gate where
  entry : Word
  hvec : Word
  setPa : Nat
  varg : Nat
  vres : Nat
  karg : Nat
  kres : Nat
  xarg : Nat
  xres : Nat
  maxd : Nat
  acc : Bool
  sreg : Nat
  stklog : Nat
  deriving DecidableEq, Repr

/-- Read a gate entry's doubles. -/
def readGate (d : List Word) : Gate :=
  let w (i : Nat) : Word := (d[i]?).getD 0
  { entry := w 0, hvec := w 1, setPa := fieldAt (w 2) 8 44 * 256, varg := fieldAt (w 3) 48 16, vres := fieldAt (w 3) 32 16
    karg := fieldAt (w 3) 24 8, kres := fieldAt (w 3) 16 8, xarg := fieldAt (w 4) 24 6, xres := fieldAt (w 4) 16 6
    maxd := fieldAt (w 4) 8 4, acc := (w 4).getLsbD 7, sreg := fieldAt (w 4) 4 3, stklog := fieldAt (w 5) 0 5 }

/-- The descriptors of a segment set. -/
def readSet (own : Nat) (bytes : List Byte) : List (Option Segment) :=
  (List.range 8).map fun i => readDescriptor own (doublesOf 4 ((bytes.drop (32 * i)).take 32))

/-- The cause for which a seam through a gate to depth `d` makes no call, 0 for none (R379). -/
def State.seamRefusal (s : State) (t : Thread) (gt : Gate) (d : Nat) : Nat :=
  let ok (pa : Nat) : Bool := s.ownerOk t.ctx t.part pa
  if !ok gt.setPa then 0x12
  else
    let set := readSet s.ownNumber (s.bytesAt gt.setPa 256)
    let g0 := ((set[0]?).getD Option.none).getD Segment.none
    if set.any Option.isNone || g0.base.toNat % 64 != 0 then 0x04
    else
      match s.framePa t d with
      | none => 0x04
      | some pa =>
        if !ok pa then 0x04
        else
          let size := (((set[gt.sreg]?).getD Option.none).getD Segment.none).size.toNat
          if gt.sreg != 0 && decide (size < (t.tid.toNat * 16 + d + 1) * 2 ^ gt.stklog) then 0x08 else 0

/-- The caller as frame holds it (R377). -/
def frameOf (t : Thread) (gt : Gate) : SeamFrame where
  x := t.x
  k := t.k
  v := t.v
  g := t.g
  w := t.w
  tvec := t.tvec
  tcause := t.tcause
  tpc := t.tpc
  tval := t.tval
  hnd := t.hnd
  fflags := t.fflags
  mxstat := t.mxstat
  loops := t.loops
  lsel := t.lsel
  lword := t.lword
  window := t.window
  retPc := t.next
  xres := gt.xres
  vres := BitVec.ofNat 16 gt.vres
  kres := BitVec.ofNat 8 gt.kres
  felimit := t.felimit
  cblimit := t.cblimit
  vstart := t.vstart
  loopRec := t.loopRec
  astat := t.astat

/-- The thread as the callee finds it (R379); FELIMIT, CBLIMIT, VSTART, the record of a `vloop` and the anvil status, which are
not among what it shares with its caller (R380), start at 0 (log entry 87). -/
def callee (t : Thread) (gt : Gate) (set : List (Option Segment)) : Thread :=
  let d := t.depth + 1
  let seg (i : Nat) : Segment :=
    let g := ((set[i]?).getD Option.none).getD Segment.none
    if gt.sreg != 0 && i == gt.sreg then
      { g with base := g.base + BitVec.ofNat 55 ((t.tid.toNat * 16 + d) * 2 ^ gt.stklog), size := BitVec.ofNat 56 (2 ^ gt.stklog) }
    else g
  { t with
    frames := frameOf t gt :: t.frames
    g := Vector.ofFn fun i : Fin 8 => seg i.val
    x := Vector.ofFn fun i : Fin 64 => if i.val ≤ gt.xarg then t.x[i] else 0
    v := Vector.ofFn fun i : Fin 16 => if gt.varg.testBit i.val then t.v[i] else 0
    k := Vector.ofFn fun i : Fin 8 => if gt.karg.testBit i.val then t.k[i] else 0
    w := Vector.replicate 8 none, fflags := 0, mxstat := 0, tcause := 0, tpc := 0, tval := 0
    loops := [], lsel := 0, lword := 0, hnd := false, tvec := gt.hvec, window := if gt.acc then t.window else none
    line := none, felimit := 0, cblimit := 0, vstart := 0, loopRec := none, astat := 0 }

/-- `seam n` (R379). -/
def execSeam (n : BitVec 8) (s : State) : Result :=
  runThread (.seam n) s fun t => do
    let s ← get
    let gates := match s.ctx? t.ctx with | some c => c.gates | none => []
    match Map.get? gates n.toNat with
    | none => trapM Cause.badHandle (zx n)
    | some ds =>
      untilSeq t.seqEmpty
      let gt := readGate ds
      let d := t.depth + 1
      if gt.maxd < d then trapM Cause.seamDepth (zx n)
      else
        let f := s.seamRefusal t gt d
        match (if f = 0x12 then none else s.poisoned gt.setPa 256) with
        | some a => trapM Cause.machineCheck (BitVec.ofNat 64 a)
        | none =>
        if f != 0 then
          putM (t.setX 1 (BitVec.ofNat 64 (2 ^ 63 + f * 2 ^ 8 + 0x28)))
          return .seq
        else
          let t' := callee t gt (readSet s.ownNumber (s.bytesAt gt.setPa 256))
          set (s.writeFrame t d (frameOf t gt))
          targetM t' gt.entry
          putM t'
          modify fun s => (s.streamsGone t).assayThread t' 0x50 (n.toNat * 256 + d)
          return .jump gt.entry

/-- The caller after a return (R381): the frame, with the results the callee leaves. -/
def returned (t : Thread) (f : SeamFrame) (rest : List SeamFrame) : Thread :=
  let r := State.restored t f rest
  { r with
    x := Vector.ofFn fun i : Fin 64 => if 1 ≤ i.val ∧ i.val ≤ f.xres then t.x[i] else r.x[i]
    v := Vector.ofFn fun i : Fin 16 => if f.vres.getLsbD i.val then t.v[i] else r.v[i]
    k := Vector.ofFn fun i : Fin 8 => if f.kres.getLsbD i.val then t.k[i] else r.k[i] }

/-- `seamret` (R381). -/
def execSeamret (s : State) : Result :=
  runThread .seamret s fun t =>
    match t.frames with
    | [] => trapM Cause.seamFault 0
    | f :: rest => do
      untilSeq t.seqEmpty
      let s ← get
      match s.framePoison t with
      | some a => trapM Cause.machineCheck (BitVec.ofNat 64 a)
      | none =>
        let f := s.readFrame t f
        let r := returned t f rest
        targetM r f.retPc
        putM r
        modify fun s => ((s.dropReplay t).streamsGone t).assayThread r 0x51 r.depth
        return .jump f.retPc

/-! ### Deferred traps and page waits of element checks (R248, R366) -/

/-- The entry, or the loop, at whose end a waiting thread's instruction completes. -/
def Thread.waitedEntry (t : Thread) : Option Nat := match t.asked with
  | .vector n => some n
  | _ => none

/-- The thread stands at an instruction boundary: it may issue, or the instruction it waits in waits for its sequencer and
has done nothing yet. -/
def Thread.atBoundary (t : Thread) : Bool :=
  !t.parked &&
  match t.status with
  | .runnable => true
  | .waiting w =>
    match w.asked with
    | .none | .elements => (w.reason == .sequencer || w.reason == .load) && w.instr != .lineFill
    | .vector _ => true
    | _ => false
  | _ => false

/-- The group that stopped enters again, from the element it stopped at (R248). -/
def Thread.restart (t : Thread) (d : Deferred) : Thread :=
  { t.resumed with
    deferred := none
    seq := t.seq.map fun e =>
      if e.num == d.num then
        { e with stop := false, entered := e.entered - 1, delivered := e.delivered - 1, vstart := d.elem }
      else e }

/-- The thread with the faulting instruction gone from its sequencer and what was accepted after it in a replay record
(R149, R366). -/
def Thread.setAside (t : Thread) (d : Deferred) (e : SeqEntry) (after : List SeqEntry) : Thread :=
  let waited := t.waitedEntry
  let own := waited == some d.num || (e.member && t.vloop.any fun l => waited == some l.mark)
  let entries := after.filter fun f => !f.member && waited != some f.num
  let behind := ((after.reverse.takeWhile fun f => !f.member).filter fun f => waited != some f.num).length
  let memberNo := match t.vloop with
    | some l => l.members.length - (t.seq.filter fun f => f.member).length
    | none => 0
  { t.resumed with
    seq := [], vloop := none, pass := none, deferred := none, vstart := BitVec.ofNat 9 d.elem
    loopRec := if e.member then t.vloop.map fun l => (l.pc, l.iter, memberNo) else t.loopRec
    replay :=
      if own then none
      else some ⟨d.pc, t.pc, e.order, entries, if e.member then none else t.vloop, t.pass, behind, false⟩ }

/-- DEFERRED_TRAP_ENTRY (R248, R366): at the thread's next instruction boundary, once every earlier instruction is
complete, the trap is taken, or the thread waits for the page; at the wake the instruction goes on. -/
def execDeferredTrapEntry (s : State) : Result :=
  let key := s.cur.getD s.ev.a
  match s.thread? key with
  | none => .next s
  | some t =>
    match t.deferred with
    | none => .next s
    | some d =>
      match t.waitOf, t.asked with
      | some ⟨_, .deferredTrapEntry, _, _, _, _, _, woken, _⟩, .pages _ => .next (if woken then s.putThread (t.restart d) else s)
      | _, _ =>
        match t.seq with
        | [] => .next (s.putThread { t with deferred := none })
        | e :: after =>
          if e.num != d.num || (t.seq.any fun f => !f.rows.isEmpty) || !t.atBoundary then .next s
          else if d.cause = 0 then
            let t := { t with vstart := BitVec.ofNat 9 d.elem }
            let page : Asked := .pages [d.value.toNat]
            match t.waitOf, t.waitedEntry with
            | some w, some n =>
              if n == d.num then
                .next ((s.putThread { t with seq := after, deferred := none }).startWait key w.instr .page 0 page)
              else
                .next ((s.putThread { t with seq := t.seq.filter fun f => f.num != n }).startWait key .deferredTrapEntry .page 0 page)
            | _, _ => .next ((s.putThread t).startWait key .deferredTrapEntry .page 0 page)
          else
            let t := { t.setAside d e after with readyAt := max t.readyAt (s.core t.core).cycle }
            .next ((s.putThread t).raise key d.cause d.value d.pc (some d.elem))

end Sys2Proof.Machine
end

