-- ==== Sys2Proof/Machine/Observe.lean ====
section
/-!
DEFINITION. Observation: `pmark` and `cntrd`, MAJ 0x7C, counter banks as they are read, the freeze cut and the hallmark
capsule with its views, with DEBUG_STOP, FREEZE and CAPSULE_SEAL (R393 to R411).
-/
namespace Sys2Proof.Machine

/-! ### Marks (R398) -/

/-- A record of the executing thread, in its recorder and in the buffer of a session that covers it. -/
def State.mark (s : State) (t : Thread) (kind : BitVec 8) (payload : Word) : State :=
  let v := payload.toNat % 2 ^ 48
  (s.assayThread t kind v).traceRecord t (s.makeRecord t.core t.core t.context kind v)

/-- Kind of a program mark (R405). -/
def markKind (code : BitVec 6) : BitVec 8 := 0x80 ||| code.setWidth 8

/-- ENERGY of a thread's context (R129). -/
def State.energyOf (s : State) (t : Thread) : Word := match s.ctx? t.ctx with
  | some c => c.energy
  | none => 0

/-- `pmark` (R398). -/
def execPmark (p : XReg) (code : BitVec 6) (s : State) : Result :=
  runThread (.pmark p code) s fun t => do
    modify fun s => s.mark t (markKind code) (t.getX p)
    return .seq

/-- `pmark.e` (R398). -/
def execPmarkE (p : XReg) (code : BitVec 6) (s : State) : Result :=
  runThread (.pmarkE p code) s fun t => do
    modify fun s => (s.mark t (markKind code) (t.getX p)).mark t 0x61 (s.energyOf t)
    return .seq

/-! ### Counters as they are read (R394, R395, R399) -/

/-- Units of a class (R21, R395). -/
def classUnits (cls : Nat) : Nat := ([256, 128, 128, 64, 36, 8, 8][cls]?).getD 0

/-- Events of a class that the device implements: first and last (R395). -/
def classEvents (cls : Nat) : Nat × Nat :=
  ([(1, 9), (0x10, 0x15), (0x20, 0x25), (0x30, 0x33), (0x40, 0x43), (0x50, 0x53), (0x60, 0x64)][cls]?).getD (1, 0)

/-- A class of unit implements an event. -/
def implements (cls : Nat) (e : BitVec 8) : Bool :=
  decide ((classEvents cls).1 ≤ e.toNat) && decide (e.toNat ≤ (classEvents cls).2)

/-- The device implements an event. -/
def capable (e : Nat) : Bool := (List.range 7).any fun c => implements c (BitVec.ofNat 8 e)

/-- Word `i` of the capability mask (R395). -/
def capWord (i : Nat) : Word :=
  (List.range 64).foldl (fun w b => if capable (64 * i + b) then w ||| (1 <<< b) else w) 0

/-- Events whose every occurrence the model counts; the counts of the others have a free part (log entry 22). -/
def followed (e : BitVec 8) : Bool :=
  [0x06, 0x10, 0x11, 0x12, 0x13, 0x14, 0x15, 0x20, 0x21, 0x22, 0x23, 0x24, 0x25, 0x33, 0x42, 0x43, 0x50, 0x51, 0x52, 0x53, 0x60, 0x61, 0x62, 0x63, 0x64].contains e.toNat

/-- UNAV alone, as `cntrd` and CNTREAD return it. -/
def unavailable : Word := 0x8000000000000000

/-- Lines a slice holds for the contexts that a counter of a function counts, read as a level (R259, R395). -/
def State.heldLevel (s : State) (fn slice : Nat) (c : BankCounter) : Nat :=
  ((s.ctxs.filter fun x => x.2.fn == fn && (!c.cfen || x.1 == c.cfilt.toNat)).map fun x => s.linesHeld slice x.1).sum

/-- Read a counter of a function's bank: its count, or UNAV when the unit does not implement its event; with `part`, also
when it is not filtered to a context of that partition (R399). -/
def State.counterRead (s : State) (fn cls unit cnt : Nat) (part : Option Nat) : Word × State :=
  match Map.get? s.banks (State.bankKey cls unit fn cnt) with
  | none => (unavailable, s)
  | some c =>
    let filtered := match part with
      | none => true
      | some p => c.cfen && ((s.ctx? c.cfilt.toNat).map (·.part)) == some p
    if c.unav || !implements cls c.event || !filtered then (unavailable, s)
    else if c.event = 0x04 then (BitVec.ofNat 64 (s.heldLevel fn unit c), s)
    else if followed c.event then (c.count.setWidth 64, s)
    else
      let (f, s) := s.takeFree
      ((c.count + Config.eventCount f c.event.toNat).setWidth 64, s)

/-- The answer to a selector in the layout of R399. -/
def State.selected (s : State) (fn : Nat) (sel : Word) (part : Option Nat) : Word × State :=
  let cls := fieldAt sel 12 4
  let unit := fieldAt sel 3 9
  if fieldAt sel 16 48 ≠ 0 then (unavailable, s)
  else if cls = 7 then (capWord (fieldAt sel 0 2), s)
  else if classUnits cls ≤ unit then (unavailable, s)
  else s.counterRead fn cls unit (fieldAt sel 0 3) part

/-- `cntrd` (R399): the request travels to the unit. -/
def execCntrd (d p : XReg) (s : State) : Result :=
  runThread (.cntrd d p) s fun t =>
    match t.asked with
    | .data => do
      let s ← get
      let (v, s) := s.selected (s.ctxFn t.ctx) (t.getX p) (some t.part)
      set s
      putM (t.setX d v)
      return .seq
    | _ => waitM .load 0 .data

/-! ### Debug stops (R402) -/

/-- DEBUG_STOP (R402): what thread `ev.a` has accepted has committed, the members a `vloop` has captured among it (DEDUCED, log
entry 94), and it stands stopped at an instruction boundary. -/
def execDebugStop (s : State) : Result :=
  match s.thread? s.ev.a with
  | none => .next s
  | some t =>
    .next (if t.debugHeld && t.status == .runnable && t.seqEmpty then s.putThread { t with debugStopped := true } else s)

/-! ### The freeze cut (R406, R407) -/

/-- A stamp lies after another, in the 48 bits of a record. -/
def stampAfter (a b : BitVec 48) : Bool := a != b && decide ((a - b).toNat < 2 ^ 47)

/-- A core as a freeze at `stamp` leaves its recorder: records stamped after it are discarded, and a freeze record is written in its
place, which overwrites the oldest of a full ring (R387, R403, R406). -/
def cutCore (core : Nat) (c : Core) (stamp : BitVec 48) : Core :=
  let stays (r : AssayRecord) : Bool := !stampAfter r.stamp stamp
  let ring := c.ring.filter stays
  let kept := ((c.ring.take c.kept).filter stays).length
  let r : AssayRecord := ⟨stamp, BitVec.ofNat 16 core, 0x70, 0, BitVec.ofNat 4 c.switchIns, stamp⟩
  if ring.length < Config.assayRecords then { c with ring := State.fileRecord r ring, kept := kept }
  else { c with ring := State.fileRecord r (ring.drop 1), kept := kept - 1, lost := if kept = 0 then c.lost + 1 else c.lost }

/-- FREEZE (R406): 64 ns after F the recorder of core `ev.a` stops, discards records stamped after F, writes a freeze record
and holds. -/
def execFreeze (s : State) : Result :=
  match s.freeze with
  | none => .next s
  | some f =>
    let n := s.ev.a
    if f.held.contains n || 1024 ≤ n || s.gtsc.toNat < f.stamp.toNat + 64 then .next s
    else
      .next { s.putCore n (cutCore n (s.core n) (f.stamp.setWidth 48)) with freeze := some { f with held := f.held ++ [n] } }

/-! ### The hallmark capsule (R408, R409) -/

namespace State

/-- What a capsule holds of a context. -/
def ctxSummary (s : State) (n : Nat) (c : Ctx) : CtxSummary where
  entry := n
  state := c.state
  fn := c.fn
  job := counterWord (s.counter n 0)
  phases := (c.phases.filter fun p => (s.counter n p.1).state == .opened).map fun p => (p.1, (p.2.deadline, (s.counter n p.1).late))
  balance := c.energy

/-- What a capsule holds of a partition. -/
def partSummary (s : State) (n : Nat) (p : Part) : PartSummary where
  number := n
  isSealed := p.isSealed
  bound := p.bound
  quarters := p.quarters
  ctxs := (s.ctxs.filter fun c => c.2.part == n).map fun c => s.ctxSummary c.1 c.2

/-- Every frozen ring in source order; a core that has recorded nothing has its freeze record alone. -/
def frozenRings (s : State) (f : Freeze) : List FrozenRing :=
  (List.range 1024).map fun n =>
    let c := if f.held.contains n then s.core n else cutCore n (s.core n) (f.stamp.setWidth 48)
    ⟨n, c.ring, c.genTable, c.lost⟩

/-- The slot the next capsule takes: an empty one, else that of the lowest sequence number (R409). -/
def capsuleSlot (s : State) : Nat :=
  match (List.range 3).find? fun i => (Map.get? s.capsules i).isNone with
  | some i => i
  | none => (s.capsules.foldl (fun (b : Nat × Nat) c => if c.2.seq < b.2 then (c.1, c.2.seq) else b) (0, 2 ^ 64)).1

end State

/-! ### Signed bytes (R408, R409) -/

/-- Numbers of a record. -/
def AssayRecord.nums (r : AssayRecord) : List Nat :=
  [r.stamp.toNat, r.source.toNat, r.kind.toNat, r.tctx.toNat, r.gen.toNat, r.payload.toNat]

/-- Number of a context's STATE (R346). -/
def CtxState.code : CtxState → Nat
  | .idle => 1 | .ready => 2 | .restoring => 3 | .running => 4 | .saving => 5 | .faulted => 6

/-- Numbers of a context's summary; the balance is left out where it is not shown. -/
def CtxSummary.nums (c : CtxSummary) (balance : Bool) : List Nat :=
  [c.entry, c.state.code, c.fn, c.job.toNat] ++ c.phases.flatMap (fun p => [p.1, p.2.1.toNat, if p.2.2 then 1 else 0])
    ++ if balance then [c.balance.toNat] else []

/-- The part number, `HQ-M9200` (R1, R417). -/
def partNumber : Word := 0x303032394D2D5148
/-- The stepping, B0 (R1, R417). -/
def stepping : BitVec 8 := 0xB0

/-- The ML-DSA-87 signature of bytes: 4,627 bytes over their SHA3-512 (R408). -/
def signBytes (bs : List Byte) : List Byte := (List.range 4627).map (Config.signature (Config.digest bs))

/-- Numbers of a capsule's header (R408). -/
def Capsule.header (c : Capsule) : List Nat :=
  [c.part.toNat, c.stepping.toNat, c.seq, c.t0.toNat, c.stamp.toNat, c.sealedAt.toNat]
    ++ c.faults.flatMap fun f => [f.source, f.cause.toNat, f.t0.toNat]

/-- Bytes of a capsule before its signature. -/
def Capsule.body (c : Capsule) : List Byte :=
  Config.layView (c.header ++ c.rings.flatMap (fun g => [g.core, g.lost] ++ g.genTable.flatMap (fun t => [t.1, t.2.1, t.2.2])
    ++ g.records.flatMap AssayRecord.nums) ++ c.parts.flatMap fun p =>
      [p.number, if p.isSealed then 1 else 0] ++ p.quarters ++ p.ctxs.flatMap fun x => x.nums true)

/-- A capsule closed by its signature. -/
def Capsule.signed (c : Capsule) : Capsule := { c with signature := signBytes c.body }

/-- Bytes of a full capsule. -/
def Capsule.whole (c : Capsule) : List Byte := c.body ++ c.signature

namespace State

/-- Every recorder of the device resumes with its generation count raised; its records are in the capsule (R403, R407). -/
def resumeRecorders (s : State) : State :=
  { s with
    freeze := none
    cores := (List.range 1024).map fun n =>
      let c := s.core n
      (n, raiseGen { c with kept := c.ring.length } (Map.get? c.genTable (c.switchIns % 16))) }

/-- Numbers of a context in a dump, with its threads: in clear, or as the PF sees those of others, with register values
zeroed (R410, R411). -/
def dumpNums (s : State) (n : Nat) (c : Ctx) (clear : Bool) : List Nat :=
  (s.ctxSummary n c).nums true ++ ((s.threads.map (·.2)).filter fun t => t.ctx == n).flatMap fun t =>
    t.tid.toNat :: t.image.map fun w => if clear then w.toNat else 0

/-- What the dump for a function holds: its own contexts in clear; for the PF, also the others' of partitions that are not sealed
(R411). -/
def dumpFor (s : State) (fn : Nat) : List Nat :=
  s.ctxs.flatMap fun c =>
    if c.2.fn = fn then s.dumpNums c.1 c.2 true
    else
      let hidden := match Map.get? s.parts c.2.part with | some p => p.isSealed | none => false
      if fn = 0 && !hidden then s.dumpNums c.1 c.2 false else []

/-- Write a firmware dump into the buffer of each function that has given one (R411; log entry 9). -/
def writeDumps (s : State) : State :=
  s.fns.foldl (fun s p => match p.2.dump with
    | some (base, size) => (s.snoop (farBase + base) size).setBytes (farBase + base) ((Config.dumpBytes (s.dumpFor p.1)).take size)
    | none => s) s

/-- Seal a capsule: rings, faults and summaries, signed, into its slot and the non-volatile summary, signed in the same way; every
function has an event (R408, R409, R416, R418). -/
def sealCapsule (s : State) (f : Freeze) : State :=
  let (key, s) := s.takeFree
  let slot := s.capsuleSlot
  let seq := s.capsuleSeq + 1
  let faults := f.faults.map fun x => (⟨x.1, Cause.machineCheck, x.2⟩ : FaultRec)
  let parts := s.parts.map fun p => s.partSummary p.1 p.2
  let c : Capsule := ⟨partNumber, stepping, seq, f.t0, f.stamp, s.gtsc, faults, s.frozenRings f, parts, key, [], []⟩
  let s : State := { s with
    capsules := Map.put s.capsules slot c.signed, capsuleSeq := seq
    summary := some { c with faults := faults.take 64, rings := [] }.signed }
  let s := s.resumeRecorders.writeDumps
  (List.range 129).foldl (fun s n => s.postEvent n ⟨4, s.gtsc, 0, 0, BitVec.ofNat 64 seq, BitVec.ofNat 64 slot, 0⟩) s

end State

/-- CAPSULE_SEAL (R407 to R409): every recorder holds, and the rings are copied into a capsule. -/
def execCapsuleSeal (s : State) : Result :=
  match s.freeze with
  | none => .next s
  | some f => .next (if s.cores.all fun c => f.held.contains c.1 then s.sealCapsule f else s)

/-! ### Views (R410) -/

/-- Bytes of a record (R404). -/
def AssayRecord.bytes (r : AssayRecord) : List Byte := r.doubles.flatMap fun w => leBytes 8 w.toNat

/-- Context entry of a record, by its ring's generation table. -/
def FrozenRing.ctxOf (g : FrozenRing) (r : AssayRecord) : Option (Nat × Nat) := Map.get? g.genTable r.gen.toNat

/-- A context as a capsule holds it. -/
def Capsule.ctx? (c : Capsule) (n : Nat) : Option CtxSummary := (c.parts.flatMap (·.ctxs)).find? fun x => x.entry == n

/-- First `w` bits of the keyed digest of a context entry and a page (R410). -/
def pageDigest (key ctx page w : Nat) : Nat := (Config.keyedDigest key (leBytes 8 ctx ++ leBytes 8 page)).toNat / 2 ^ (512 - w)

/-- A record as the PF's view shows it: the class of its payload decides (R405, R410). -/
def redacted (key ctx : Nat) (r : AssayRecord) : AssayRecord :=
  let v := r.payload.toNat
  let pay (n : Nat) : AssayRecord := { r with payload := BitVec.ofNat 48 n }
  match r.kind.toNat with
  | 0x21 | 0x22 | 0x23 => pay (pageDigest key ctx (v / 2 ^ 9) 48)
  | 0x24 => pay (pageDigest key ctx (v / 2 ^ 12) 48)
  | 0x41 => pay (v / 2 ^ 38 * 2 ^ 38 + pageDigest key ctx (v % 2 ^ 38 / 2 ^ 16) 38)
  | 0x30 | 0x31 | 0x33 | 0x34 | 0x35 | 0x50 | 0x51 | 0x52 | 0x70 => r
  | _ => pay 0

/-- The entries of a ring in a VF's view: its own records in clear after a 0, a foreign run as 1, its length and its keyed
digest. -/
def vfEntries (key : Nat) (own : AssayRecord → Bool) : List AssayRecord → List AssayRecord → List Nat
  | [], [] => []
  | [], run => [1, run.length, (Config.keyedDigest key (run.flatMap AssayRecord.bytes)).toNat]
  | r :: rs, run =>
    if own r then
      (if run.isEmpty then [] else [1, run.length, (Config.keyedDigest key (run.flatMap AssayRecord.bytes)).toNat])
        ++ 0 :: r.nums ++ vfEntries key own rs []
    else vfEntries key own rs (run ++ [r])

/-- A capsule's partition summaries in a function's view. -/
def partNums (fn : Nat) (p : PartSummary) : List Nat :=
  if fn = 0 then
    if p.isSealed && p.bound.isSome then [p.number]
    else [p.number, if p.isSealed then 1 else 0] ++ p.quarters ++ p.ctxs.flatMap fun c => c.nums (!p.isSealed)
  else [p.number] ++ (p.ctxs.filter (·.fn == fn)).flatMap fun c => c.nums true

/-- A frozen ring in a function's view; records of a bound sealed partition are not shown to the PF. -/
def ringNums (c : Capsule) (fn : Nat) (g : FrozenRing) : List Nat :=
  let entry (r : AssayRecord) : Nat := ((g.ctxOf r).map (·.1)).getD 2048
  if fn = 0 then
    let hidden (r : AssayRecord) : Bool := match g.ctxOf r with
      | some (_, n) => c.parts.any fun p => p.number == n && p.isSealed && p.bound.isSome
      | none => false
    [g.core, g.lost] ++ (g.records.filter fun r => !hidden r).flatMap fun r => (redacted c.key (entry r) r).nums
  else
    let own (r : AssayRecord) : Bool := ((c.ctx? (entry r)).map (·.fn)) == some fn
    [g.core, g.lost] ++ vfEntries c.key own g.records []

/-- A function's view of a capsule: what it may see, the digest of the whole, and the view's signature (R410). -/
def Capsule.view (c : Capsule) (fn : Nat) : List Byte :=
  let body := Config.layView ((if c.readBy.contains fn then 1 else 0) :: c.header ++ c.rings.flatMap (ringNums c fn) ++ c.parts.flatMap (partNums fn))
    ++ leBytes 64 (Config.digest c.whole).toNat
  body ++ signBytes body

end Sys2Proof.Machine
end

