-- ==== Sys2Proof/Machine/Sprues.lean ====
section
/-!
DEFINITION. The sprue instructions, MAJ 0x38, and SPRUE_WINDOW_PUSH (R301 to R304, R414).
-/
namespace Sys2Proof.Machine

/-- A sprue that x(P) names, or Bad Handle before any effect (R301). -/
def sprueM (t : Thread) (p : XReg) : M (Nat × Sprue) := do
  let s ← get
  let h := t.getX p
  match if h.toNat < 64 then s.sprue? t.ctx h.toNat else none with
  | some q => return (h.toNat, q)
  | none => trapM Cause.badHandle h

/-- Write a status and complete. -/
def answerM (t : Thread) (d : XReg) (v : Word) : M Ending := do
  let t ← nowM t
  putM (t.setX d v)
  return .seq

/-- `qpush` and `qpush.try`, a release of partition scope (R302, R303). -/
def pushM (t : Thread) (d p q : XReg) (waits : Bool) : M Ending := do
  let (h, b) ← sprueM t p
  releaseM t
  let s ← get
  if s.sprueSealed t.ctx b then answerM t d 2
  else if b.full then
    if waits then waitM .sprue else answerM t d 1
  else
    set (s.pushEntry t.ctx h b ((List.range 4).map fun i => t.getX (q + BitVec.ofNat 6 i)))
    answerM t d 0

/-- `qpush` (R302). -/
def execQpush (d p q : XReg) (s : State) : Result := runThread (.qpush d p q) s fun t => pushM t d p q true
/-- `qpush.try` (R302). -/
def execQpushTry (d p q : XReg) (s : State) : Result := runThread (.qpushTry d p q) s fun t => pushM t d p q false

/-- `qtake` and `qtake.try`, an acquire of partition scope (R302, R303): the status is written after the entry. -/
def takeM (t : Thread) (d w p : XReg) (waits : Bool) : M Ending := do
  let (h, b) ← sprueM t p
  if b.kind = .encoder then answerM t w (BitVec.ofNat 64 (3 * 2 ^ 60))
  else
    match b.eligible t.die with
    | none => if waits then waitM .sprue else answerM t w (BitVec.ofNat 64 (2 ^ 60))
    | some e =>
      modify fun s => s.putSprue t.ctx h (b.take e t.gang)
      let x (i : Nat) : Word := (e.words[i]?).getD 0
      putM ((((t.setX d (x 0)).setX (d + 1) (x 1)).setX (d + 2) (x 2)).setX (d + 3) (x 3))
      answerM t w (zx e.seq)

/-- `qtake` (R302). -/
def execQtake (d w p : XReg) (s : State) : Result := runThread (.qtake d w p) s fun t => takeM t d w p true
/-- `qtake.try` (R302). -/
def execQtakeTry (d w p : XReg) (s : State) : Result := runThread (.qtakeTry d w p) s fun t => takeM t d w p false

/-- `qdone` (R302). -/
def execQdone (d p q : XReg) (s : State) : Result :=
  runThread (.qdone d p q) s fun t => do
    let (h, b) ← sprueM t p
    let mine := fun e : SprueEntry => zx e.seq == t.getX q && e.holder == some t.gang
    if b.taken.any mine then
      modify fun s => (s.putSprue t.ctx h { b with taken := b.taken.filter fun e => !mine e }).sprueChild t.ctx b false false
      answerM t d 0
    else answerM t d 1

/-- Number of a KIND (R297). -/
def SprueKind.code : SprueKind → Nat
  | .fifo => 0 | .sorted => 1 | .tile => 2 | .encoder => 3

/-- State of a sprue in the layout of R302. -/
def Sprue.word (q : Sprue) : Word :=
  BitVec.ofNat 64 (q.prio.toNat * 2 ^ 44 + q.kind.code * 2 ^ 40 + q.taken.length % 2 ^ 20 * 2 ^ 20 + q.entries.length % 2 ^ 20)

/-- `qstat` (R302). -/
def execQstat (d p : XReg) (s : State) : Result :=
  runThread (.qstat d p) s fun t => do
    let (_, b) ← sprueM t p
    answerM t d b.word

/-! ### Push windows (R304, R414) -/

/-- Context and handle of the window at an offset of a function's BAR2 (R414). -/
def State.windowOf (s : State) (fn off : Nat) : Option (Nat × Nat × Sprue) :=
  let slot := off / 2 ^ 18
  let h := off / 4096 % 64
  let f := s.fn fn
  let entry := if fn = 0 then some slot else if slot < min f.count 16 then some (f.first + slot) else none
  match entry with
  | none => none
  | some n =>
    match s.ctx? n, s.sprue? n h with
    | some c, some q => if c.fn = fn then some (n, h, q) else none
    | _, _ => none

/-- A host write of bytes to a push window (R304). -/
def State.windowWrite (s : State) (fn off : Nat) (bs : List Byte) : State :=
  match s.windowOf fn off with
  | none => s
  | some (ctx, h, q) =>
    let w := off % 4096
    if bs.length = 32 ∧ w % 32 = 0 ∧ w < 0xFA0 ∧ !q.full ∧ !s.sprueSealed ctx q then s.pushEntry ctx h q (doublesOf 4 bs)
    else s.putSprue ctx h { q with drops := q.drops + 1 }

/-- A host read of a push window: DROPS, FREE, 0 elsewhere (R304, R414). -/
def State.windowRead (s : State) (fn off : Nat) : Word :=
  match s.windowOf fn off with
  | none => 0
  | some (_, _, q) =>
    if off % 4096 = 0xFF0 then q.drops
    else if off % 4096 = 0xFF8 then BitVec.ofNat 64 (2 ^ q.logcap - q.entries.length)
    else 0

/-- SPRUE_WINDOW_PUSH (R304, R414): function `ev.fn` writes the bytes of `ev` at offset `ev.a` of its BAR2, or, with
`ev.flag`, reads 8 bytes there into the reply. -/
def execSprueWindowPush (s : State) : Result :=
  .next (if s.ev.flag then { s with reply := leBytes 8 (s.windowRead s.ev.fn s.ev.a).toNat, replyBad := false }
         else s.windowWrite s.ev.fn s.ev.a s.ev.data)

end Sys2Proof.Machine
end

