-- ==== Sys2Proof/Machine/Work.lean ====
section
/-!
DEFINITION. Launches, the caster, phases, `cwait` and `cancel`: MAJ 0x39 to 0x3B and 0x3D, PLACEMENT_DECISION, CWAIT_TIMEOUT
and PHASE_DEADLINE (R294, R295, R305 to R318, R392).
-/
namespace Sys2Proof.Machine

/-! ### Counters and phases -/

namespace State

/-- What is made under a counter is covered by the cancel in progress of that counter, or of the job (R317). -/
def coveredBy (s : State) (ctx parent : Nat) : Bool := (s.counter ctx parent).cancelling || (s.counter ctx 0).cancelling

/-- Open a counter: every field is cleared (R295); under a cancel in progress it is being cancelled too (R317). -/
def openCounter (s : State) (ctx n : Nat) (level : BitVec 3) (pending : Nat) (sealed' : Bool) (parent : Nat) : State :=
  match s.ctx? ctx with
  | none => s
  | some c => s.putCtx ctx { c with
      counters := Map.put c.counters n
        ⟨.opened, sealed', false, false, level, BitVec.ofNat 32 pending, parent, level != 4 && s.coveredBy ctx parent⟩
      phases := Map.del c.phases n }

/-- The phase a counter lies under, or is (R293). -/
def phaseOf (s : State) (ctx n : Nat) : Option Nat :=
  if n == noCounter then none
  else
    let c := s.counter ctx n
    if c.level == 2 then some n
    else if c.level == 1 && c.parent != noCounter then some c.parent
    else none

end State

/-- The open phases of a context, in the order of their `phase.open` (R392). -/
def Ctx.openPhases (c : Ctx) : List (Nat × Phase) :=
  let live := c.phases.filter fun p => (Map.getD c.counters p.1 Counter.fresh).state == .opened
  (live.foldl (fun m p => Map.put m p.2.order p) []).map (·.2)

/-- Numbers of the phases admitted now: `avail` is the available energy, `blocked` says that an earlier one waits (R392). -/
def admitted (throttle : Bool) : List (Nat × Phase) → Int → Bool → List Nat
  | [], _, _ => []
  | (n, p) :: rest, avail, blocked =>
    if p.admitted then admitted throttle rest avail blocked
    else if throttle || p.estimate == 0 then n :: admitted throttle rest avail blocked
    else if !blocked && decide ((p.estimate.toNat : Int) ≤ avail) then
      n :: admitted throttle rest (avail - p.estimate.toNat) blocked
    else admitted throttle rest avail true

/-- The available energy of a context: the balance less the estimates of its admitted open phases (R392). -/
def Ctx.available (c : Ctx) : Int :=
  c.energy.toInt - ((c.openPhases.filter (·.2.admitted)).map fun p => (p.2.estimate.toNat : Int)).sum

namespace State

/-- Admit what may be admitted of a context's phases (R392). -/
def admitPhases (s : State) (ctx : Nat) : State :=
  match s.ctx? ctx with
  | none => s
  | some c =>
    let ns := admitted c.throttle c.openPhases c.available false
    s.putCtx ctx { c with phases := c.phases.map fun p => if ns.contains p.1 then (p.1, { p.2 with admitted := true }) else p }

/-- Seal a counter (R315). -/
def sealCounter (s : State) (ctx n : Nat) : State := s.putCounter ctx n { s.counter ctx n with sealed := true }

end State

/-- `phase.open` (R315, R392). Status 2 comes before 1 where both apply: the model's choice (log entry 112). -/
def execPhaseOpen (d p q u : XReg) (s : State) : Result :=
  runThread (.phaseOpen d p q u) s fun t => do
    let s ← get
    let x := t.getX p
    let n := fieldAt x 0 12
    if fieldAt x 16 48 ≠ 0 ∨ n = State.noCounter then answerM t d 2
    else if n = 0 ∨ (s.counter t.ctx n).state = .opened then answerM t d 1
    else
      let (order, s) := s.takeStamp
      let s := s.openCounter t.ctx n 2 0 false State.noCounter
      let ph : Phase := ⟨x.extractLsb' 12 3, x.getLsbD 15, t.getX q, t.getX u, t.core, order, false⟩
      match s.ctx? t.ctx with
      | none => answerM t d 2
      | some c =>
        let s := (s.putCtx t.ctx { c with phases := Map.put c.phases n ph }).admitPhases t.ctx
        set s
        let ok : Bool := match s.ctx? t.ctx with
          | some c => ((Map.get? c.phases n).map (·.admitted)) == some true
          | none => false
        answerM t d (if ok then 0 else 5)

/-- `phase.graph` (R315). Where more than one status applies, 2 for x(P) comes first, then 1, then 2 for x(Q): the model's choice (log
entry 112). -/
def execPhaseGraph (d p q : XReg) (s : State) : Result :=
  runThread (.phaseGraph d p q) s fun t => do
    let s ← get
    let n := (t.getX p).toNat
    let ph := (t.getX q).toNat
    let y := s.counter t.ctx ph
    if State.noCounter ≤ n then answerM t d 2
    else if n = 0 ∨ (s.counter t.ctx n).state = .opened then answerM t d 1
    else if State.noCounter ≤ ph ∨ y.state ≠ .opened ∨ y.level ≠ 2 ∨ y.sealed then answerM t d 2
    else
      set ((s.openCounter t.ctx n 1 0 false ph).addPending t.ctx ph 1)
      answerM t d 0

/-- `phase.seal` (R315). -/
def execPhaseSeal (d p : XReg) (s : State) : Result :=
  runThread (.phaseSeal d p) s fun t => do
    let s ← get
    let n := (t.getX p).toNat
    let c := s.counter t.ctx n
    if n = 0 ∨ State.noCounter ≤ n ∨ c.state ≠ .opened ∨ c.sealed ∨ c.level = 0 then answerM t d 2
    else
      set (s.sealCounter t.ctx n)
      answerM t d 0

/-- PHASE_DEADLINE (R316): the GTSC reaches the deadline of phase `ev.b` of context `ev.a` before the phase is done. -/
def execPhaseDeadline (s : State) : Result :=
  let ctx := s.ev.a
  let n := s.ev.b
  let k := s.counter ctx n
  match (match s.ctx? ctx with | some c => Map.get? c.phases n | none => none) with
  | none => .next s
  | some ph =>
    if k.state != .opened || k.late || ph.deadline == 0 || decide (s.gtsc.toNat < ph.deadline.toNat) then .next s
    else
      let s := (s.putCounter ctx n { k with late := true }).assay ph.core 0 0x33 n
      .next (if ph.drop && !k.cancelling then s.beginCancel ctx n else s)

/-! ### `cwait`, `cancel` (R317) -/

/-- What `cwait` writes of a counter; the number that names none reads 0. -/
def State.counterValue (s : State) (ctx n : Nat) : Word := if n == State.noCounter then 0 else State.counterWord (s.counter ctx n)

/-- The counter has completed or has been cancelled. -/
def State.counterEnded (s : State) (ctx n : Nat) : Bool :=
  match (s.counter ctx n).state with
  | .done | .cancelled => true
  | _ => false

/-- `cwait` (R317). -/
def execCwait (d p u : XReg) (s : State) : Result :=
  runThread (.cwait d p u) s fun t => do
    let s ← get
    let n := (t.getX p).toNat
    if 2 ^ 12 ≤ n then answerM t d 2
    else if s.counterEnded t.ctx n then answerM t d (s.counterValue t.ctx n)
    else waitM .children (t.getX u).toNat

/-- `cwait.try` (R317). -/
def execCwaitTry (d p : XReg) (s : State) : Result :=
  runThread (.cwaitTry d p) s fun t => do
    let s ← get
    let n := (t.getX p).toNat
    answerM t d (if 2 ^ 12 ≤ n then 2 else s.counterValue t.ctx n)

/-- CWAIT_TIMEOUT (R317): the `cwait` of thread `ev.a` reaches its limit and writes the counter as it stands. -/
def execCwaitTimeout (s : State) : Result :=
  match s.thread? s.ev.a with
  | none => .next s
  | some t =>
    match t.waitOf with
    | some w =>
      if t.parked || !w.expired then .next s
      else
        match w.instr with
        | .cwait d p u => s.endWait t (.cwait d p u) fun t => answerM t d (s.counterValue t.ctx (t.getX p).toNat)
        | _ => .next s
    | none => .next s

/-- `cancel` (R317, R318): D is written once every counter affected is cancelled, unless the thread itself is stopped. -/
def execCancel (d p : XReg) (s : State) : Result :=
  runThread (.cancel d p) s fun t => do
    let s ← get
    let n := (t.getX p).toNat
    match t.asked with
    | .phase m => if (s.counter t.ctx m).cancelling then waitM .children 0 (.phase m) else answerM t d 0
    | _ =>
      if 2 ^ 12 ≤ n then answerM t d 2
      else
        let k := s.counter t.ctx n
        if k.state ≠ .opened ∨ k.cancelling then answerM t d 1
        else
          let s := s.beginCancel t.ctx n
          set s
          if (s.thread? t.key).isNone then return .stay else waitM .children 0 (.phase n)

/-! ### Launch records (R305) -/

/-- The launch record eight doubles and its eight descriptors hold, when they are as R306 asks: no reserved bit set, every
field in its range, every descriptor well formed. `own` is the device's own number. -/
def readLaunch (own : Nat) (d segs : List Word) : Option LaunchRec :=
  match d with
  | [d0, d1, d2, d3, d4, d5, d6, d7] =>
    let gs := (List.range 8).map fun i => readDescriptor own ((segs.drop (4 * i)).take 4)
    let g (i : Nat) : Segment := ((gs[i]?).getD Option.none).getD Segment.none
    let r : LaunchRec := {
      entry := BitVec.ofNat 64 (fieldAt d0 0 48), arg := d1, spad := fieldAt d3 48 7, cores := fieldAt d3 40 3 + 1
      threads := fieldAt d3 32 7 + 1, ngangs := fieldAt d3 0 32, wrows := fieldAt d4 20 11, claim := d4.setWidth 20
      frm := d5.extractLsb' 48 4, tvec := BitVec.ofNat 64 (fieldAt d5 0 48), cblimit := d6.extractLsb' 32 32
      felimit := d6.setWidth 32, quota := fieldAt d7 56 8, coop := d7.getLsbD 55, sprue := fieldAt d7 48 6
      parent := fieldAt d7 36 12, waitb := fieldAt d7 24 12, waita := fieldAt d7 12 12, own := fieldAt d7 0 12
      segs := Vector.ofFn fun i : Fin 8 => g i.val }
    let reserved := fieldAt d0 48 16 == 0 && fieldAt d2 55 9 == 0 && fieldAt d3 55 9 == 0 && fieldAt d3 43 5 == 0
      && fieldAt d3 39 1 == 0 && fieldAt d4 31 33 == 0 && fieldAt d5 52 12 == 0 && fieldAt d7 54 1 == 0
    let ranges := r.ngangs != 0 && decide (r.threads ≤ 16 * r.cores) && decide (r.wrows ≤ 1024) && decide (r.spad ≤ 64)
    if reserved && ranges && gs.all Option.isSome && (g 0).base.toNat % 64 == 0 then some r else none
  | _ => none

/-! ### Footprints (R310) -/

/-- A gang's footprint: bench, cores of it, first scratchpad unit of 64 KiB and number, first accumulator row and number. -/
structure Foot where
  bench : Nat
  cores : List Nat
  spad : Nat
  units : Nat
  row : Nat
  rows : Nat
  deriving DecidableEq, Repr

/-- The footprint a placed gang holds. -/
def Gang.foot (g : Gang) : Foot := ⟨g.bench, g.cores, g.spadBase / 65536, g.spadSize / 65536, g.rowBase, g.rows⟩

/-- The lowest range of `n` units, `per` to a quarter, inside owned quarters and clear of the ranges in use. -/
def lowRange (n per : Nat) (qs : List Nat) (used : List (Nat × Nat)) : Option Nat :=
  if n = 0 then some 0
  else (List.range (4 * per - n + 1)).find? fun a =>
    ((List.range n).all fun i => qs.contains ((a + i) / per)) && used.all fun u => u.2 == 0 || !meets a n u.1 u.2

/-- The footprint of a launch on a bench, among the quarters owned and the footprints in use; `busy` names cores, device
wide, whose contexts are not all Empty. -/
def footOn (quarters : List Nat) (busy : Nat → Bool) (used : List Foot) (r : LaunchRec) (bench : Nat) : Option Foot :=
  let qs := (quarters.filter (· / 4 == bench)).map (· % 4)
  let here := used.filter (·.bench == bench)
  let free := (qs.flatMap fun q => [2 * q, 2 * q + 1]).filter fun c =>
    !(here.any fun f => f.cores.contains c) && !busy (bench * 8 + c)
  if free.length < r.cores then none
  else
    match lowRange r.spad 16 qs (here.map fun f => (f.spad, f.units)),
      lowRange r.wrows 256 qs (here.map fun f => (f.row, f.rows)) with
    | some a, some w => some ⟨bench, free.take r.cores, a, r.spad, w, r.wrows⟩
    | _, _ => none

/-- Benches in the order a gang tries them: rising, or from the die of its index for a tile-affine sprue. -/
def benchOrder (quarters : List Nat) (tile : Bool) (idx : Nat) : List Nat :=
  let bs := (quarters.map (· / 4)).eraseDups
  if !tile then bs
  else
    let dies := (bs.map (· / 16)).eraseDups
    let k := idx % dies.length
    (dies.drop k ++ dies.take k).flatMap fun d => bs.filter (· / 16 == d)

/-- The footprint of gang `idx` of a launch. -/
def footOf (quarters : List Nat) (busy : Nat → Bool) (used : List Foot) (tile : Bool) (r : LaunchRec) (idx : Nat) : Option Foot :=
  (benchOrder quarters tile idx).findSome? (footOn quarters busy used r)

/-- Footprints of `n` gangs from index `idx` at once (R314). -/
def footsOf (quarters : List Nat) (busy : Nat → Bool) (tile : Bool) (r : LaunchRec) : Nat → Nat → List Foot → Option (List Foot)
  | 0, _, _ => some []
  | n + 1, idx, used =>
    match footOf quarters busy used tile r idx with
    | none => none
    | some f => (footsOf quarters busy tile r n (idx + 1) (f :: used)).map (f :: ·)

/-- More gangs than this fit on no partition: a gang takes a core, and there are 1,024. -/
def gangBound : Nat := 1025

/-! ### Launching (R306, R307) -/

namespace State

/-- Quarters of a partition. -/
def quartersOf (s : State) (part : Nat) : List Nat := match Map.get? s.parts part with
  | some p => p.quarters
  | none => []

/-- A launch's sprue is tile-affine (R310). -/
def tileLaunch (s : State) (ctx : Nat) (r : LaunchRec) : Bool :=
  if r.sprue == 63 then false
  else match s.sprue? ctx r.sprue with
    | some q => q.kind == .tile
    | none => false

/-- Launches of a context neither done nor cancelled. -/
def liveLaunches (s : State) (ctx : Nat) : List (Nat × Launch) := match s.ctx? ctx with
  | some c => c.launches.filter fun l => l.2.state != .done && l.2.state != .cancelled
  | none => []

/-- The status of a launch record under R306; `none` is a record that is not as it asks. -/
def launchStatus (s : State) (ctx part : Nat) (r : Option LaunchRec) : Nat :=
  match r with
  | none => 2
  | some r =>
    let qs := s.quartersOf part
    let tile := s.tileLaunch ctx r
    let par := s.counter ctx r.parent
    if r.own != noCounter && (r.own == 0 || (s.counter ctx r.own).state == .opened) then 1
    else if r.parent != noCounter && (par.state != .opened || par.sealed || par.level == 0) then 2
    else if (footOf qs (fun _ => false) [] tile r 0).isNone then 3
    else if r.coop && (footsOf qs (fun _ => false) tile r (min r.ngangs gangBound) 0 []).isNone then 3
    else if 256 ≤ (s.liveLaunches ctx).length then 4
    else 0

/-- Queue a launch that R306 accepts: OWN opens, PARENT has one child more, an Idle context becomes Ready (R347). Under a cancel
in progress it becomes Cancelled at once (R309, R317; log entry 84). -/
def queueLaunch (s : State) (ctx : Nat) (r : LaunchRec) (id : BitVec 32) : State :=
  let s := if r.own == noCounter then s else s.openCounter ctx r.own 0 r.ngangs true r.parent
  let s := s.addPending ctx r.parent 1
  match s.ctx? ctx with
  | none => s
  | some c =>
    let l : Launch := ⟨id, r, .queued, 0, 0, 0, false, false⟩
    let s := s.putCtx ctx { c with
      launches := Map.put c.launches c.nextLaunch l
      nextLaunch := c.nextLaunch + 1
      state := if c.state == .idle then .ready else c.state }
    if s.coveredBy ctx r.parent then s.cancelLaunch ctx r.parent c.nextLaunch l else s

end State

/-- `launch` (R306): the fork of its gangs, so that the thread's earlier accesses are performed first, those to untracked lines by
their write-back (log entry 105). -/
def execLaunch (d : XReg) (gp : GReg) (q : XReg) (s : State) : Result :=
  runThread (.launch d gp q) s fun t => do
    let rec' ← recordM t (t.getG gp) (t.getX q) 64 64
    let ws := doublesOf 8 rec'
    let off : Word := BitVec.ofNat 64 (fieldAt ((ws[2]?).getD 0) 0 55)
    let segs ← recordM t (t.getG gp) off 256 32
    releaseM t
    let s ← get
    let r := readLaunch s.ownNumber ws (doublesOf 32 segs)
    let st := s.launchStatus t.ctx t.part r
    match r, s.ctx? t.ctx with
    | some r, some c =>
      if st = 0 then
        let id := c.launchId + 1
        let s := s.l1Op t.bench t.ctx .wb fun _ => true
        set ((s.putCtx t.ctx { c with launchId := id }).queueLaunch t.ctx r id)
        answerM t d (zx id)
      else answerM t d (BitVec.ofNat 64 (st * 2 ^ 60))
    | _, _ => answerM t d (BitVec.ofNat 64 (st * 2 ^ 60))

/-! ### The caster (R309 to R314) -/

namespace State

/-- A counter named by WAITA or WAITB is none or done. -/
def metCounter (s : State) (ctx n : Nat) : Bool := n == noCounter || (s.counter ctx n).state == .done

/-- Residency of a context in 1/256 of its recorded set; an empty set is resident (R358). -/
def resident (s : State) (ctx : Nat) : Bool :=
  match s.ctx? ctx with
  | none => false
  | some c =>
    let near := c.recorded.filter fun va => match Map.get? c.managed va with
      | some m => m.near.isSome
      | none => false
    c.recorded.isEmpty || decide (c.rth ≤ near.length * 256 / c.recorded.length)

/-- The conditions of R311 on a launch's phase, its context's residency and WAITB. -/
def launchable (s : State) (ctx : Nat) (l : Launch) : Bool :=
  let admitted := match s.phaseOf ctx l.record.parent with
    | none => true
    | some n => match s.ctx? ctx with
      | some c => ((Map.get? c.phases n).map (·.admitted)) == some true
      | none => false
  admitted && s.resident ctx && s.metCounter ctx l.record.waitb

/-- WAITA of a launch is open, with gangs of its quota left to place (R311). -/
def mayBeEarly (s : State) (ctx : Nat) (l : Launch) : Bool :=
  (s.counter ctx l.record.waita).state == .opened && decide (l.early < l.record.quota)

/-- The state the events of R309 give a launch that is not placed, while its context runs on its partition. -/
def launchState (s : State) (ctx : Nat) (l : Launch) : LaunchState :=
  let anew : LaunchState :=
    if !s.launchable ctx l then .queued
    else if s.metCounter ctx l.record.waita then .ready
    else if s.mayBeEarly ctx l then .early
    else .queued
  match l.state with
  | .queued => anew
  | .ready => if s.resident ctx then .ready else .queued
  | .early => if s.metCounter ctx l.record.waita then anew else if s.mayBeEarly ctx l then .early else .queued
  | st => st

/-- The key of R312, smallest first: priority, deadline, `phase.open`, `launch`. A launch with no phase comes after those that have one:
the model's choice (log entry 112). -/
def launchKey (s : State) (ctx : Nat) (n : Nat) (l : Launch) : List Nat :=
  match s.ctx? ctx with
  | none => []
  | some c =>
    let ph := match s.phaseOf ctx l.record.parent with
      | some p => Map.get? c.phases p
      | none => none
    let bound := if l.record.sprue == 63 then none else s.sprue? ctx l.record.sprue
    let prio : BitVec 3 := match bound, ph with
      | some q, _ => q.prio
      | none, some p => p.prio
      | none, none => c.prio
    let last := 2 ^ 64
    let deadline := match ph with
      | some p => if p.deadline == 0 then last else p.deadline.toNat
      | none => last
    [7 - prio.toNat, deadline, match ph with | some p => p.order | none => last + s.stamps, n]

end State

/-- Lexicographic order. -/
def keyBefore : List Nat → List Nat → Bool
  | a :: as, b :: bs => decide (a < b) || (a == b && keyBefore as bs)
  | _, _ => false

/-- Insert by key. -/
def keyInsert {α : Type} (x : List Nat × α) : List (List Nat × α) → List (List Nat × α)
  | [] => [x]
  | y :: l => if keyBefore x.1 y.1 then x :: y :: l else y :: keyInsert x l

/-- The head of chosen core `k` of a gang, as the caster starts it (R310). -/
def headOf' (ctx fn part gang : Nat) (g : Gang) (idx : Nat) (l : Launch) (k core : Nat) : Thread where
  ctx := ctx
  tid := BitVec.ofNat 14 ((g.bench * 8 + core) * 16)
  fn := fn
  part := part
  gang := gang
  gangSize := BitVec.ofNat 7 (l.record.threads - 1)
  gangIndex := BitVec.ofNat 32 idx
  launch := l.id
  status := .runnable
  parked := false
  saved := false
  x := (((Vector.replicate 64 0).set 1 l.record.arg).set 2 (BitVec.ofNat 64 k)).set 3 (BitVec.ofNat 64 ((g.perCore[k]?).getD 0))
  v := Vector.replicate 16 0
  k := Vector.replicate 8 0
  g := l.record.segs
  w := Vector.replicate 8 none
  pc := l.record.entry
  line := none
  vstart := 0
  fz := l.record.frm.getLsbD 3
  rm := if 6 ≤ (l.record.frm.setWidth 3 : BitVec 3).toNat then 0 else l.record.frm.setWidth 3
  fflags := 0
  mxstat := 0
  srseed := 0
  loops := []
  lsel := 0
  lword := 0
  felimit := l.record.felimit
  cblimit := l.record.cblimit
  tvec := l.record.tvec
  tcause := 0
  tpc := 0
  tval := 0
  hnd := false
  frames := []
  window := if g.rows = 0 then none else some ⟨g.rows, g.rowBase⟩
  aseq := 0
  astat := 0
  dseq := 0
  plate := []
  mailbox := []
  gbars := 0
  issuedAt := 0
  readyAt := 0
  yielded := none
  segNext := []
  seq := []
  vloop := none
  loopRec := none
  pass := none
  replay := none
  deferred := none
  debugHeld := false
  debugStopped := false
  reply := none

namespace State

/-- Start the head of core `core`, the k-th chosen, of a gang (R85, R135, R136, R175, R310, R405). -/
def startHead (s : State) (ctx : Nat) (c : Ctx) (gang : Nat) (g : Gang) (idx : Nat) (l : Launch) (k core : Nat) : State :=
  let n := g.bench * 8 + core
  let old := s.core n
  let s := s.putCore n { old with
    last := 15, requests := readClaim (l.record.claim.setWidth 64), grants := .zero, point := true, format := 0, zeroMask := 0 }
  (s.putThread (headOf' ctx c.fn c.part gang g idx l k core)).assay n 0 0x32 l.id.toNat

/-- Place the next gang of a launch on a footprint (R310): its allotment is zero and its tags empty (R203), and its bench holds no
untracked copy that is older than the fork (R306; log entry 105). -/
def placeGang (s : State) (ctx n : Nat) (f : Foot) : State :=
  match s.ctx? ctx, s.launch? ctx n with
  | some c, some l =>
    let (num, s) := (s.l1Op f.bench ctx .wbinv fun _ => true).takeStamp
    let s := s.openRows f.bench f.row f.rows
    let nc := l.record.cores
    let per := (List.range nc).map fun k => (l.record.threads + nc - 1 - k) / nc
    let g : Gang := {
      ctx := ctx, bench := f.bench, launchSeq := n, cores := f.cores, perCore := per, spadBase := f.spad * 65536
      spadSize := f.units * 65536, rowBase := f.row, rows := f.rows, parked := false, bytes := [], fullTags := [], cbs := []
      bars := [], done := [], reaped := [], orphans := [], bad := [] }
    let s := (List.range nc).foldl (fun s k => s.startHead ctx c num g l.placed l k ((f.cores[k]?).getD 0)) (s.putGang num g)
    let early := if l.state == .early then l.early + 1 else l.early
    let placed := l.placed + 1
    s.putLaunch ctx n { l with placed := placed, early := early, state := if l.record.ngangs ≤ placed then .placed else l.state }
  | _, _ => s

/-- Footprints in use on a partition: those of the gangs of its running context (R353). -/
def usedFoots (s : State) (ctx : Nat) : List Foot :=
  (s.gangs.filter fun g => g.2.ctx == ctx && !g.2.parked).map fun g => g.2.foot

/-- A context of a core, device wide, is not Empty. -/
def coreBusy (s : State) (core : Nat) : Bool := s.threads.any fun t => t.2.core == core && !t.2.parked

/-- Producers: launches with gangs left to place whose OWN an Early launch names as WAITA (R313). -/
def producers (s : State) (ctx : Nat) : List LaunchRec :=
  let ls := (s.liveLaunches ctx).map (·.2)
  let named := (ls.filter (·.state == .early)).map (·.record.waita)
  (ls.filter fun l => l.state != .placed && l.record.own != noCounter && named.contains l.record.own).map (·.record)

/-- Room stays on a die for one footprint of each producer once `used` is taken (R313). -/
def reserveHolds (s : State) (qs : List Nat) (die : Nat) : List LaunchRec → List Foot → Bool
  | [], _ => true
  | r :: rest, used =>
    match ((benchOrder qs false 0).filter (· / 16 == die)).findSome? (footOn qs s.coreBusy used r) with
    | some f => s.reserveHolds qs die rest (f :: used)
    | none => false

/-- Some footprints of an Early launch leave the producers their reserve on every die they lie on (R313). -/
def reserveKept (s : State) (ctx : Nat) (qs : List Nat) (used fs : List Foot) : Bool :=
  ((fs.map (·.bench / 16)).eraseDups).all fun d => s.reserveHolds qs d (s.producers ctx) (fs ++ used)

/-- The footprints a launch would take: that of its next gang, or of all of them (R310, R314). -/
def placement (s : State) (ctx part : Nat) (l : Launch) : Option (List Foot) :=
  let qs := s.quartersOf part
  let used := s.usedFoots ctx
  let tile := s.tileLaunch ctx l.record
  if l.record.coop then footsOf qs s.coreBusy tile l.record (min l.record.ngangs gangBound) 0 used
  else (footOf qs s.coreBusy used tile l.record l.placed).map fun f => [f]

/-- The placement of an Early launch keeps to its quota and to the producers' reserve (R311, R313); of one whose footprint does not
fit there is none to judge. -/
def earlyKept (s : State) (ctx part : Nat) (l : Launch) : Bool :=
  (!l.record.coop || decide (l.early + l.record.ngangs ≤ l.record.quota)) &&
  match s.placement ctx part l with
  | some fs => s.reserveKept ctx (s.quartersOf part) (s.usedFoots ctx) fs
  | none => true

/-- A launch is eligible for a placement decision (R311). -/
def eligibleLaunch (s : State) (ctx part : Nat) (l : Launch) : Bool :=
  s.launchable ctx l &&
  match l.state with
  | .ready => s.metCounter ctx l.record.waita
  | .early => s.mayBeEarly ctx l && s.earlyKept ctx part l
  | _ => false

/-- The first launch of the order whose footprint fits, with its footprints; a cooperative launch that stands first and
does not fit lets none pass (R312, R314). -/
def firstPlacement (s : State) (ctx part : Nat) (first : Bool) : List (List Nat × (Nat × Launch)) → Option (Nat × List Foot)
  | [] => none
  | (_, n, l) :: rest =>
    match s.placement ctx part l with
    | some fs => some (n, fs)
    | none => if first && l.record.coop then none else s.firstPlacement ctx part false rest

/-- The context whose slice is current on a partition and runs (R311). -/
def sliceCtx (s : State) (part : Nat) : Option Nat :=
  match Map.get? s.parts part with
  | some p => match p.running with
    | some n => match s.ctx? n with
      | some c => if c.state == .running then some n else none
      | none => none
    | none => none
  | none => none

/-- The launches of a context take the states of R309 that hold now. -/
def classify (s : State) (ctx : Nat) : State :=
  match s.ctx? ctx with
  | none => s
  | some c => s.putCtx ctx { c with launches := c.launches.map fun l => (l.1, { l.2 with state := s.launchState ctx l.2 }) }

/-- The launches of a context whose slice is current and that runs take the states of R309 that hold now. -/
def reclassify (s : State) (ctx : Nat) : State :=
  match s.ctx? ctx with
  | some c => if s.sliceCtx c.part = some ctx then s.classify ctx else s
  | none => s

/-- The launches of a context that are eligible for a decision, in the order of R312. -/
def casterOrder (s : State) (ctx part : Nat) : List (List Nat × (Nat × Launch)) :=
  let cands := (s.liveLaunches ctx).filter fun l => s.eligibleLaunch ctx part l.2
  cands.foldl (fun l c => keyInsert (s.launchKey ctx c.1 c.2, c) l) []

/-- One decision of the caster of a partition (R312). -/
def decide' (s : State) (part : Nat) : State :=
  match s.sliceCtx part with
  | none => s
  | some ctx =>
    let s := (s.sweep ctx).classify ctx
    match s.firstPlacement ctx part true (s.casterOrder ctx part) with
    | none => s
    | some (n, fs) => fs.foldl (fun s f => s.placeGang ctx n f) s

end State

/-- COUNTER_COMPLETION (R295, R309, R318): counter `ev.b` of context `ev.a`, sealed with no child left, becomes done; launches that
name it are evaluated again at once. -/
def execCounterCompletion (s : State) : Result :=
  let ctx := s.ev.a
  let n := s.ev.b
  let c := s.counter ctx n
  if counterReadyNow c then .next (((s.putCounter ctx n { c with state := .done }).childDone ctx c.parent c.err).reclassify ctx)
  else .next s
where
  /-- Ready, and no cancel came first (R318). -/
  counterReadyNow (c : Counter) : Bool := State.counterReady c && !c.cancelling

/-- PLACEMENT_DECISION (R311 to R314): one decision of the caster of partition `ev.a`. -/
def execPlacementDecision (s : State) : Result := .next (s.decide' s.ev.a)

end Sys2Proof.Machine
end

