-- ==== Sys2Proof/Machine/Ladle.lean ====
section
/-!
DEFINITION. The ladle: pool frames, migrations, swap up and swap down, and what it does with hot pages (R357 to R362, R435,
R436), with SWAP_UP and MIGRATION_COPY; and the choice of the next context of a partition (R350).
-/
namespace Sys2Proof.Machine

/-! ### The choice of a context (R350) -/

namespace State

/-- The context has placed gangs or queued launches (R347). -/
def hasWork (s : State) (ctx : Nat) : Bool := s.gangs.any (·.2.ctx == ctx) || !(s.liveLaunches ctx).isEmpty

/-- The key of R350 of a context, smallest first; `run` is the running context. -/
def sliceKey (c : Ctx) (n run : Nat) : List Nat :=
  let prio := c.openPhases.foldl (fun m p => max m p.2.prio.toNat) c.prio.toNat
  let deadline := c.openPhases.foldl (fun m p => if p.2.deadline == 0 then m else min m p.2.deadline.toNat) (2 ^ 64)
  [7 - prio, deadline, (n + 2048 - run - 1) % 2048]

/-- The context a partition chooses at a tick; with `last` the running context is ranked last (R350, R351). -/
def chooseCtx (s : State) (part : Nat) (p : Part) (last : Bool) : Option Nat :=
  let run := p.running.getD 2047
  let mine := s.ctxs.filter fun c => c.2.part == part
  let ready := mine.filter fun c => c.2.state == .ready
  let busy := mine.filter fun c => some c.1 == p.running && c.2.state == .running && s.hasWork c.1
  let cands := if last then (if ready.isEmpty then busy else ready) else ready ++ busy
  ((cands.foldl (fun l c => keyInsert (sliceKey c.2 c.1 run, c.1) l) []).head?).map (·.2)

/-! ### Frames (R357) -/

/-- Where peers stand in the model's physical numbering (R243). -/
def peerBase (dev : Nat) : Nat := 2 ^ 60 * (dev + 1)

/-- Physical address of a page's unit of the swap region (R417): of a sealed partition's page the place of its plain bytes (R345). -/
def unitPa (s : State) (ctx : Nat) (c : Ctx) (unit : Nat) : Nat :=
  (if c.farloc == 2 then peerBase c.peer else if s.ctxSealed ctx then plainBase + farBase else farBase) + c.farbase + unit * frameBytes

/-- Frames of a partition's pool that hold a page or are named by a migration. -/
def poolUsed (s : State) (part : Nat) : List Nat :=
  ((s.ctxs.filter fun c => c.2.part == part).flatMap fun c => c.2.managed.filterMap (·.2.near))
    ++ s.migrations.flatMap fun m => [m.src / frameBytes, m.dst / frameBytes]

/-- Free frames of a partition's pool, rising. -/
def poolFree (s : State) (part : Nat) : List Nat :=
  match Map.get? s.parts part with
  | none => []
  | some p =>
    let used := s.poolUsed part
    (p.pool.foldl (fun m f => Map.put m f ()) []).map (·.1) |>.filter fun f => !used.contains f

/-- Cells of a frame's bytes, from its first. -/
def frameCells (m : List Host.Cell) (a : Nat) : List Host.Cell :=
  (m.filter fun c => decide (a ≤ c.1) && decide (c.1 < a + frameBytes)).map fun c => (c.1 - a, c.2)

/-- A range of memory is zeroed. -/
def zeroRange (s : State) (pa n : Nat) : State :=
  let keep (a : Nat) (m : List Host.Cell) := m.filter fun c => !(decide (a ≤ c.1) && decide (c.1 < a + n))
  if pa < farBase then { s with near := keep pa s.near } else { s with far := keep (pa - farBase) s.far }

/-- Copy a frame for a partition, its bytes, poison and tracking attribute (R357, R361); a peer's bytes are free values (log entry
7), and those of a peer that is not reached poisoned (R422). A sealed partition's page stands encrypted in its far frame (R345). -/
def copyFrame (s : State) (part src dst : Nat) : State :=
  let (f, s) := s.takeFree
  let device (a : Nat) : Nat := a / 2 ^ 60 - 1
  let lost := 2 ^ 60 ≤ src ∧ !s.peerUp part (device src)
  let s := if lost then s.peerLost (device src) false else s
  let cells :=
    if 2 ^ 60 ≤ src then (List.range frameBytes).map fun i => (i, Config.peerByte f i)
    else if src < farBase then frameCells s.near src else frameCells s.far (src - farBase)
  if 2 ^ 60 ≤ dst then (if s.peerUp part (device dst) then s else s.peerLost (device dst) true)
  else
    let inFrame (a l : Nat) : Bool := linePa l / frameBytes == a / frameBytes
    let bad := if lost then (List.range 512).map (dst / 128 + ·) else (s.poison.filter (inFrame src)).map fun l => l + dst / 128 - src / 128
    let s := if plainBase ≤ dst then s.scramble (dst - plainBase) else s
    let s := (s.snoop dst frameBytes).zeroRange dst frameBytes
    let s := cells.foldl (fun s c => s.setByte (dst + c.1) c.2) s
    let attrs := match Map.get? s.attrs (src / frameBytes) with
      | some x => Map.put s.attrs (dst / frameBytes) x
      | none => Map.del s.attrs (dst / frameBytes)
    { s with poison := s.poison.filter (fun l => !inFrame dst l) ++ bad, attrs := attrs }

/-! ### Migrations (R361) -/

/-- Block: WB is set at the leaf's home and the shootdown announced; none when the page's leaf is not there, or a claim on
its frame is in progress (R362). -/
def blockPage (s : State) (ctx va src dst : Nat) (up auto : Bool) : Option State :=
  match s.ctx? ctx, walk s ctx va with
  | some c, .leaf e _ place =>
    if s.claims.contains (src / frameBytes) then none
    else
      let s := s.putLeaf ctx place (e ||| 0x10#64)
      let m : Migration := ⟨ctx, va, src, dst, up, auto, false, s.nextRing⟩
      some { s.announce ctx (s.partBenches c.part) (.drain ctx va (src / frameBytes)) with migrations := s.migrations ++ [m] }
  | _, _ => none

/-- Begin to migrate a far page to the lowest free frame of the pool. -/
def migrateUp (s : State) (ctx va : Nat) (auto : Bool) : Option State :=
  match s.ctx? ctx with
  | none => none
  | some c =>
    match Map.get? c.managed va, s.poolFree c.part with
    | some m, f :: _ =>
      if m.near.isSome || s.migrating ctx va then none else s.blockPage ctx va (s.unitPa ctx c m.unit) (f * frameBytes) true auto
    | _, _ => none

/-- Begin to migrate a near page to its unit of the swap region. -/
def migrateDown (s : State) (ctx va : Nat) : Option State :=
  match s.ctx? ctx with
  | none => none
  | some c =>
    match Map.get? c.managed va with
    | some m => match m.near with
      | some f => if s.migrating ctx va then none else s.blockPage ctx va (f * frameBytes) (s.unitPa ctx c m.unit) false false
      | none => none
    | none => none

/-- The leaf of a page at a new place: FRAME, LOC and PEER of it, WB 0 (R361, R417). -/
def movedLeaf (c : Ctx) (e : Word) (dst : Nat) : Word :=
  let loc : Nat := if 2 ^ 60 ≤ dst then 2 else if farBase ≤ dst then 1 else 0
  let frame := dst / frameBytes % 2 ^ 36
  let kept := e &&& ~~~0x3FFFFFFFFFFF001C#64
  kept ||| BitVec.ofNat 64 (frame * 2 ^ 16 + loc * 4 + (if loc == 2 then c.peer * 2 ^ 52 else 0))

/-- What is known by the old frame of a page goes with the page (R333, R361; log entry 99): the ticket entries of its tiles with
the requests on their way to them move; its lines and tagged words are those of their objects in both frames until the old one
is left, and so are the tags and the releases (`State.leaveFrame`). -/
def carryFrame (s : State) (src dst : Nat) : State :=
  let inSrc (a : Nat) : Bool := a / frameBytes == src / frameBytes
  let moved (a : Nat) : Nat := if inSrc a then dst + a % frameBytes else a
  { s with
    tiles := s.tiles.foldl (fun m t => Map.put m (moved t.1) t.2) []
    tickets := s.tickets.map fun r => (r.1, { r.2 with tile := moved r.2.tile })
    objs := s.objs.map fun o => (o.1, { o.2 with
      lines := o.2.lines ++ (o.2.lines.filter fun l => inSrc (linePa l)).map fun l => moved (linePa l) / 128
      words := o.2.words ++ (o.2.words.filter inSrc).map moved })
    fullTags := (s.fullTags.filter fun w => inSrc w.1).foldl (fun m w => Map.put m (moved w.1) w.2) s.fullTags
    orders := s.orders ++ (s.orders.filter fun r => inSrc r.pa).map fun r => { r with pa := moved r.pa } }

/-- Copy and Swap of a migration whose Drain is over. -/
def finishCopy (s : State) (m : Migration) : State :=
  match s.ctx? m.ctx, walk s m.ctx m.va with
  | some c, .leaf e _ place =>
    let s := s.count 6 (s.ladleDie m.ctx m.va) (some m.ctx) (if m.up then 0x60 else 0x61) 1
    let s := ((s.copyFrame c.part m.src m.dst).carryFrame m.src m.dst).putLeaf m.ctx place (movedLeaf c e m.dst)
    let page (g : Managed) : Managed :=
      if m.up then { g with near := some (m.dst / frameBytes), count := 0 } else { g with near := Option.none }
    let s := match s.ctx? m.ctx with
      | some c => s.putCtx m.ctx { c with managed := Map.modify c.managed m.va page }
      | none => s
    let ann := s.nextRing
    let s := s.announce m.ctx (s.partBenches c.part) (.release m.ctx m.va (m.src / frameBytes))
    { s with migrations := s.migrations.map fun x =>
        if x.ctx == m.ctx && x.va == m.va then { x with swapped := true, ann := ann } else x }
  | _, _ => { s with migrations := s.migrations.filter fun x => !(x.ctx == m.ctx && x.va == m.va) }

/-- The copy of a migration may be made: every bench has its Block announcement, and what was on its way to the old frame has
been performed there (R361). -/
def copyReady (s : State) (m : Migration) : Bool :=
  !m.swapped && !s.ring.any (·.1 == m.ann) && !s.home.any fun h => h.2.pa / frameBytes == m.src / frameBytes

/-! ### Swap up, swap down (R358, R359) -/

/-- Recorded pages of a context that lie in the swap region and do not migrate, in record order. -/
def farRecorded (s : State) (ctx : Nat) : List Nat :=
  match s.ctx? ctx with
  | none => []
  | some c => c.recorded.filter fun va => match Map.get? c.managed va with
    | some m => m.near.isNone && !s.migrating ctx va
    | none => false

/-- The context the ladle swaps up for: the likely next one when a quarter of the slice remains, the one chosen during a
switch, and after it the one that runs. -/
def swapTarget (s : State) (part : Nat) (p : Part) : Option Nat :=
  match p.phase with
  | .saving .. => p.next
  | .restoring _ => p.running
  | .settled => if decide (p.tickAt ≤ s.gtsc.toNat + p.slice / 4) then s.chooseCtx part p false else p.running

/-- Begin every migration of a swap up that a free frame allows. -/
def swapUp (s : State) (part : Nat) : State :=
  match Map.get? s.parts part with
  | none => s
  | some p =>
    match s.swapTarget part p with
    | none => s
    | some d => (s.farRecorded d).foldl (fun s va => (s.migrateUp d va false).getD s) s

/-- Pages of a context in pool frames, in the order of swap down: outside the recorded set by rising address, then the
recorded set backwards. -/
def downOrder (c : Ctx) : List Nat :=
  let near := (c.managed.filter (·.2.near.isSome)).map (·.1)
  near.filter (fun va => !c.recorded.contains va) ++ (c.recorded.filter near.contains).reverse

/-- Migrations of a context to its swap region that have not released their frames. -/
def goingDown (s : State) (ctx : Nat) : Nat := (s.migrations.filter fun m => m.ctx == ctx && !m.up).length

/-- How many more pages of context `out` swap down for context `next` migrates: while fewer frames are free, or will be, than
`next` needs, and `out` holds more than NQUOTA (R359). -/
def downCount (s : State) (part out next nquota near : Nat) : Nat :=
  min ((s.farRecorded next).length - (s.poolFree part).length - s.goingDown out) (near - nquota)

/-- Migrate the first `n` pages of a list that can be: one that a claim keeps gives way to the next. -/
def migrateFirst (s : State) (ctx : Nat) : List Nat → Nat → State
  | [], _ => s
  | _, 0 => s
  | va :: rest, n + 1 => match s.migrateDown ctx va with
    | some s => s.migrateFirst ctx rest n
    | none => s.migrateFirst ctx rest (n + 1)

/-- Swap down of a partition, once the context that left is saved, goes on: it begins what migrations both conditions allow, and
ends when they no longer hold (R359). -/
def swapDown (s : State) (part : Nat) (p : Part) : State :=
  match p.down with
  | none => s
  | some (out, next) =>
    match s.ctx? out with
    | none => s.putPart part { p with down := none }
    | some c =>
      let order := (downOrder c).filter fun va => !s.migrating out va
      let n := s.downCount part out next c.nquota order.length
      if c.farloc == 0 || n = 0 then s.putPart part { p with down := none } else s.migrateFirst out order n

/-! ### Hot pages (R360, R436) -/

/-- The ladle acts on a page that has reached HOT: USER 1, and under AUTO a place in the queue of migrations. -/
def actOnHot (s : State) (h : Nat × Nat) : State :=
  let s := (s.count 6 (s.ladleDie h.1 h.2) (some h.1) 0x62 1).notifyPage h.1 h.2 1
  match s.ctx? h.1 with
  | some c => if c.auto then s.putCtx h.1 { c with autoQueue := c.autoQueue ++ [h.2] } else s
  | none => s

/-- The next AUTO migration of a context: one at a time, USER 3 when no frame is free; `fuel` pages. -/
def nextAuto (s : State) (ctx : Nat) : Nat → State
  | 0 => s
  | fuel + 1 =>
    match s.ctx? ctx with
    | none => s
    | some c =>
      match c.autoQueue with
      | [] => s
      | va :: rest =>
        if s.migrations.any fun m => m.ctx == ctx && m.auto then s
        else
          let popped := s.putCtx ctx { c with autoQueue := rest }
          match Map.get? c.managed va with
          | none => popped.nextAuto ctx fuel
          | some m =>
            if m.near.isSome || s.migrating ctx va then popped.nextAuto ctx fuel
            else if (s.poolFree c.part).isEmpty then (popped.notifyPage ctx va 3).nextAuto ctx fuel
            else (popped.migrateUp ctx va true).getD s

/-- Frames being withdrawn that hold a page are vacated (R357). -/
def vacate (s : State) (part : Nat) (frames : List Nat) : State :=
  let pages := (s.ctxs.filter fun c => c.2.part == part).flatMap fun c =>
    c.2.managed.filterMap fun m => match m.2.near with
      | some f => if frames.contains f && c.2.farloc != 0 then some (c.1, m.1) else Option.none
      | none => Option.none
  pages.foldl (fun s p => (s.migrateDown p.1 p.2).getD s) s

/-- What the ladle begins after a step: notifications and AUTO migrations of hot pages. -/
def ladleStep (s : State) : State :=
  let hot := s.hotPages
  let s := hot.foldl actOnHot { s with hotPages := [] }
  let s := s.parts.foldl (fun s p => s.swapDown p.1 p.2) s
  if s.ctxs.any fun c => !c.2.autoQueue.isEmpty then
    (s.ctxs.map (·.1)).foldl (fun s n => match s.ctx? n with
      | some c => s.nextAuto n c.autoQueue.length
      | none => s) s
  else s

end State

/-- SWAP_UP (R358): the ladle of partition `ev.a` begins the migrations of a swap up. -/
def execSwapUp (s : State) : Result := .next (s.swapUp s.ev.a)

/-- MIGRATION_COPY (R361): the copy of page `ev.b` of context `ev.a` completes and the leaf is swapped. -/
def execMigrationCopy (s : State) : Result :=
  match s.migrations.find? fun m => m.ctx == s.ev.a && m.va == s.ev.b with
  | none => .next s
  | some m => .next (if s.copyReady m then s.finishCopy m else s)

end Sys2Proof.Machine
end

