-- ==== Sys2Proof/Machine/Switch.lean ====
section
/-!
DEFINITION. Time slices and switches: `slicegive`, SWITCH_TICK, SLICEGIVE_CHOICE, SAVE_DONE, RESTORE_DONE,
SAVE_BUDGET_EXPIRY and SAVE_OVERRUN (R94, R142, R147, R197, R350 to R356).
-/
namespace Sys2Proof.Machine

/-- Cores of a partition, device wide. -/
def Part.cores (p : Part) : List Nat := p.quarters.flatMap fun q => [2 * q, 2 * q + 1]
/-- Dies that hold quarters of a partition. -/
def Part.dies (p : Part) : List Nat := (p.quarters.map (· / 64)).eraseDups
/-- Quarters of a partition on a die. -/
def Part.onDie (p : Part) (die : Nat) : List Nat := p.quarters.filter (· / 64 == die)

namespace State

/-- Post an event about a context to its owning function (R354, R418). -/
def ctxEvent (s : State) (ctx : Nat) (type : BitVec 16) (detail : Word) : State :=
  s.postEvent (s.ctxFn ctx) ⟨type, s.gtsc, 0, BitVec.ofNat 11 ctx, detail, 0, 0⟩

/-! ### Stop (R352) -/

/-- The threads and gangs of a context stop: nothing of theirs issues or beats. -/
def parkAll (s : State) (ctx : Nat) : State :=
  { s with
    threads := s.threads.map fun t => if t.2.ctx == ctx then (t.1, { t.2 with parked := true }) else t
    gangs := s.gangs.map fun g => if g.2.ctx == ctx then (g.1, { g.2 with parked := true }) else g }

/-- Write a record of a kind in every core of a list, about a context and a partition (R405). -/
def switchRecords (s : State) (cores : List Nat) (kind : BitVec 8) (ctx part : Nat) : State :=
  cores.foldl (fun s c => s.assay c 0 kind (ctx * 64 + part)) s

/-! ### Restore (R352, R355, R356) -/

/-- A waiting thread resumes: an access that cannot be repeated keeps its answer, anything else is reissued (R88, R352). -/
def resumedWait (w : Wait) : Wait :=
  match w.asked with
  | .home .. | .ticket .. | .ring _ | .phase _ | .vector _ => w
  | .handler .. => { w with woken := true }
  | _ => { w with asked := .none, woken := true }

/-- A thread is live again: it fetches its line anew, unless it waits in the middle of an instruction of it. -/
def unparked (t : Thread) : Thread :=
  match t.status with
  | .waiting w => { t with parked := false, status := .waiting (resumedWait w), readyAt := 0, yielded := none }
  | _ => { t with parked := false, line := none, readyAt := 0, yielded := none }

/-- A reply to a thread in Service (R367). -/
def serviceReply (s : State) (key : Nat) (r : BitVec 2) : State :=
  match s.thread? key with
  | none => s
  | some t =>
    match t.status with
    | .service f =>
      let t := { t with reply := Option.none }
      match r.toNat with
      | 0 => s.putThread (t.reissued f)
      | 1 => s.trapEntry { t with status := .runnable, readyAt := (s.core t.core).cycle } f.cause f.value f.pc (f.vec.map BitVec.toNat)
      | _ => s.faultThread t f.cause f.value f.pc
    | _ => s

/-- A core takes up a context: the generation tag and its records, the saved requests (R142, R404, R405). -/
def loadCore (s : State) (ctx part : Nat) (c : Ctx) (core : Nat) : State :=
  let k := { raiseGen (s.core core) (some (ctx, part)) with grants := .zero }
  let k := match Map.get? c.savedCores core with
    | some v => { k with requests := v.requests, format := v.format, zeroMask := v.mask, last := v.last, point := true }
    | none => { k with requests := .zero, format := 0, zeroMask := 0, last := 15, point := true }
  (s.putCore core k).assay core 0 0x30 (ctx * 64 + part)

/-- Size of the regions of a save area before its quarter records (R355). -/
def recordsAt (c : Ctx) : Nat := c.savebase + 65536 + (c.wsmax * 8 + 65535) / 65536 * 65536
/-- Size of a quarter record. -/
def quarterRecord : Nat := 2176 * 1024

/-- Physical address of the record of a quarter in a save area: the k-th of its partition's, by rising number (R355). -/
def quarterPa (c : Ctx) (p : Part) (q : Nat) : Nat := recordsAt c + (p.quarters.filter (· < q)).length * quarterRecord

/-- Physical address at which a save area holds a row of a bench (R355). -/
def rowPa (c : Ctx) (p : Part) (bench r : Nat) : Nat := quarterPa c p (bench * 4 + r / 256) + 3 * 2 ^ 19 + r % 256 * 2048

/-- Physical address of a thread's record (R355). -/
def threadPa (c : Ctx) (p : Part) (t : Thread) : Nat := quarterPa c p (t.core / 2) + (16 * (t.core % 2) + t.context) * 16384

/-- The accumulator rows of a bench for an incoming context: those saved are loaded, others of its quarters that have been
in a window are unstated (R185). -/
def loadRows (s : State) (c : Ctx) (p : Part) (bench : Nat) (quarters : List Nat) : State :=
  let b := s.bench bench
  let mine (r : Nat) : Bool := quarters.contains (bench * 4 + r / 256)
  let saved := (c.savedRows.filter fun r => r / 1024 == bench).map (· % 1024)
  let s := s.unstate bench (b.opened.filter fun r => mine r && !saved.contains r)
  let b := s.bench bench
  let put (m : List (Nat × BitVec 32)) (r : Nat) : List (Nat × BitVec 32) :=
    (List.range 512).foldl (fun m j =>
      Map.put m (r * 512 + j) (BitVec.ofNat 32 (leNat (s.bytesAt (rowPa c p bench r + 4 * j) 4)))) m
  s.putBench bench { b with
    acc := saved.foldl put b.acc
    badCells := b.badCells.filter (fun x => !saved.contains (x / 512))
      ++ (c.savedBad.filter fun x => x / 2 ^ 20 == bench).map (· % 2 ^ 20) }

/-- The scratchpad bytes and full/empty tags of a gang in quarter `q` are what the quarter's record holds (R355). -/
def loadPad (s : State) (c : Ctx) (p : Part) (q gn : Nat) : State :=
  match s.gang? gn with
  | none => s
  | some g =>
    let base := quarterPa c p q
    let lo := q % 4 * 2 ^ 20
    let mine (o : Nat) : Bool := o / 2 ^ 20 == q % 4 && decide (g.spadBase ≤ o) && decide (o < g.spadBase + g.spadSize)
    let saved (a n : Nat) : List Host.Cell := s.near.filter fun x => decide (a ≤ x.1) && decide (x.1 < a + n)
    let bytes := (saved (base + 2 ^ 19) (2 ^ 20)).foldl (fun m x =>
      let o := x.1 - (base + 2 ^ 19) + lo
      if mine o then Map.put m o x.2 else m) (g.bytes.filter fun x => !(x.1 / 2 ^ 20 == q % 4))
    let tags := (saved (base + 2112 * 1024) 16384).foldl (fun m x =>
      (List.range 8).foldl (fun m i =>
        let o := (x.1 - (base + 2112 * 1024)) * 64 + 8 * i + lo
        if x.2.getLsbD i && mine o then Map.put m o true else m) m) (g.fullTags.filter fun x => !(x.1 / 2 ^ 20 == q % 4))
    s.putGang gn { g with bytes := bytes, fullTags := tags }

/-- A thread's record is still the one the switch engine wrote, or its registers are what the firmware makes of it (R355). -/
def loadThread (s : State) (c : Ctx) (p : Part) (t : Thread) : Thread :=
  let pa := threadPa c p t
  if s.doublesAt pa t.image.length == t.image then t else t.overwritten (s.bytesAt pa 16384)

/-- A die restores a context: its cores, rows, gangs and threads, then messages and replies that came meanwhile. -/
def restoreDie (s : State) (part : Nat) (p : Part) (ctx : Nat) (die : Nat) : State :=
  match s.ctx? ctx with
  | none => s
  | some c =>
    let qs := p.onDie die
    let s : State := (qs.flatMap fun q => [2 * q, 2 * q + 1]).foldl (fun (s : State) k => s.loadCore ctx part c k) s
    let s : State := (qs.map (· / 4)).eraseDups.foldl (fun (s : State) b => s.loadRows c p b qs) s
    let here (t : Thread) : Bool := t.ctx == ctx && t.die == die
    let gs := (s.gangs.filter fun g => g.2.ctx == ctx && g.2.bench / 16 == die && g.2.parked).map (·.1)
    let s : State := qs.foldl (fun (s : State) q => gs.foldl (fun s n => match s.gang? n with
      | some g => if g.bench == q / 4 then s.loadPad c p q n else s
      | none => s) s) s
    let s : State := { s with
      gangs := s.gangs.map fun g => if g.2.ctx == ctx && g.2.bench / 16 == die then (g.1, { g.2 with parked := false }) else g
      threads := s.threads.map fun t => if here t.2 then (t.1, unparked (if t.2.saved then s.loadThread c p { t.2 with saved := false } else t.2)) else t }
    let keys := (s.threads.filter fun t => here t.2).map (·.1)
    keys.foldl (fun s k =>
      let s := s.pullRing k
      match (s.thread? k).bind (·.reply) with
      | some r => s.serviceReply k r
      | none => s) s

/-- Restore of a context begins on every die of a partition: its slice begins, and its tick falls TICK later, less what the
slice is shortened by (R350, R352, R354). -/
def beginRestore (s : State) (part : Nat) (ctx : Nat) : State :=
  match s.part? part, s.ctx? ctx with
  | some p, some c =>
    let slice := p.tick * 1000 - c.shorten
    let s := s.putPart part { p with
      running := some ctx, next := none, phase := .restoring p.dies, tickAt := s.gtsc.toNat + slice, slice := slice
      give := false, stretched := false }
    s.putCtx ctx { c with state := .restoring, shorten := 0 }
  | _, _ => s

/-! ### The switch (R350 to R352) -/

/-- A switch begins: the outgoing context goes to Saving, its recorded set is the pages reported (R357); with no context
to leave, Restore begins at once. -/
def beginSwitch (s : State) (part : Nat) (next : Option Nat) (tick : Nat) : State :=
  match s.part? part with
  | none => s
  | some p =>
    match p.running with
    | none => match next with
      | some d => s.beginRestore part d
      | none => s
    | some c =>
      match s.ctx? c with
      | none => s
      | some x =>
        let s := s.putCtx c { x with
          state := .saving, recorded := x.reported.take x.wsmax, unrecorded := x.reported.length - x.wsmax, reported := [] }
        let s := s.putPart part { p with next := next, phase := .saving c p.dies, switchAt := tick, give := false, stretched := false }
        (s.parkAll c).switchRecords p.cores 0x31 c part

/-- A choice of the next context at a tick, or with `last` after a `slicegive` (R350, R351). -/
def choice (s : State) (part : Nat) (p : Part) (last : Bool) : State :=
  let chosen := s.chooseCtx part p last
  if chosen == p.running && p.running.isSome then
    if last then s.putPart part { p with give := false }
    else p.cores.foldl rowPoint (s.putPart part { p with tickAt := p.tickAt + p.tick * 1000, slice := p.tick * 1000 })
  else if last && chosen.isNone then s.putPart part { p with give := false }
  else s.beginSwitch part chosen (if last then s.gtsc.toNat else min p.tickAt s.gtsc.toNat)

/-- The partition's tick is due, or its quarters stand empty. -/
def tickDue (s : State) (p : Part) : Bool :=
  p.phase == .settled && (p.running.isNone || decide (p.tickAt ≤ s.gtsc.toNat))

end State

/-- `slicegive` (R351): it completes, and the partition chooses within 1 µs. -/
def execSlicegive (s : State) : Result :=
  runThread .slicegive s fun t => do
    modify fun s => match s.part? t.part with
      | some p => if p.phase == .settled then s.putPart t.part { p with give := true } else s
      | none => s
    return .seq

/-- SWITCH_TICK (R350): the tick of partition `ev.a`, or a context Ready for its empty quarters. -/
def execSwitchTick (s : State) : Result :=
  match s.part? s.ev.a with
  | none => .next s
  | some p => .next (if s.tickDue p then s.choice s.ev.a p false else s)

/-- SLICEGIVE_CHOICE (R351): partition `ev.a` chooses with the running context last. -/
def execSlicegiveChoice (s : State) : Result :=
  match s.part? s.ev.a with
  | none => .next s
  | some p => .next (if p.give && p.phase == .settled then s.choice s.ev.a p true else s)

/-! ### Save (R147, R197, R352, R355) -/

namespace State

/-- The owner check refuses no frame of a context's save area (R355). -/
def saveAreaOk (s : State) (ctx : Nat) (c : Ctx) (p : Part) : Bool :=
  let n := (recordsAt c - c.savebase + p.quarters.length * quarterRecord) / frameBytes
  (List.range n).all fun i =>
    let e := s.owner (c.savebase / frameBytes + i)
    s.ownerOk ctx c.part (c.savebase + i * frameBytes) && ownerKind e != 3

/-- Groups in the rows of a thread are delivered, and its stream elements not consumed are discarded (R147, R225). -/
def stopThreadAt (s : State) (key : Nat) : State :=
  match s.thread? key with
  | none => s
  | some t =>
    let nums := t.seq.flatMap fun e => e.rows.map fun _ => e.num
    let s : State := nums.foldl (fun s n => match s.thread? key with
      | some t => s.deliverGroup t n
      | none => s) s
    (s.streamsGone t).onThread key fun t => { t with w := t.w.map rewound }

/-- The status bits of the blocks and rows an operation has committed go to its thread as it is stopped (R195). -/
def leaveStatus (s : State) (o : AnvilOp) : State :=
  let n := o.core / 8
  (s.putBench n ((s.bench n).setOp { o with status := 0 })).onThread o.key fun t => t.addStatus o.seam o.status

/-- The block in progress of an `mma` of a context is added to its tile (R197), and every operation's status bits are set
(R195). -/
def stopAnvil (s : State) (ctx bench : Nat) : State :=
  let mine (s : State) : List AnvilOp := (s.bench bench).anvil.filter fun o => o.ctx == ctx
  let s := (mine s).foldl (fun s o =>
    match o.kind, s.opGang o with
    | .mma set a b, some (_, g) => if o.left != 0 then s.addBlock o set a b g else s
    | _, _ => s) s
  (mine s).foldl leaveStatus s

/-- The rows in windows of a context's threads on a bench go to its save area (R185). -/
def saveRows (s : State) (ctx : Nat) (p : Part) (bench : Nat) : State :=
  let ts := (s.threads.map (·.2)).filter fun t => t.ctx == ctx && t.bench == bench
  let ws := ts.flatMap fun t => t.window.toList ++ t.frames.filterMap (·.window)
  let rows := (List.range 1024).filter (inWindows ws)
  let b := s.bench bench
  match s.ctx? ctx with
  | none => s
  | some c =>
    let keep (n : Nat) : Bool := n != bench
    let s : State := rows.foldl (fun s r =>
      (s.snoop (rowPa c p bench r) 2048).setBytes (rowPa c p bench r) ((List.range 512).flatMap fun j => leBytes 4 (b.cell r j).toNat)) s
    let rowsOf := c.savedRows.filter (fun r => keep (r / 1024)) ++ rows.map (bench * 1024 + ·)
    let bad := (b.badCells.filter fun x => rows.contains (x / 512)).map (bench * 2 ^ 20 + ·)
    s.putCtx ctx { c with savedRows := rowsOf, savedBad := c.savedBad.filter (fun x => keep (x / 2 ^ 20)) ++ bad }

/-- A core is saved and its rows of the pipes are free (R142, R355). -/
def saveCore (s : State) (ctx core : Nat) : State :=
  match s.ctx? ctx with
  | none => s
  | some c =>
    let k := s.core core
    let s := s.putCtx ctx { c with savedCores := Map.put c.savedCores core ⟨k.requests, k.format, k.zeroMask, k.last⟩ }
    s.putCore core { k with requests := .zero, grants := .zero, point := false }

/-- Write a byte of a save area, as a switch engine does, by its physical address. -/
def saveByte (s : State) (a : Nat) (b : Byte) : State := s.setByte a b

/-- The image of quarter `q` in a save area: thread records, scratchpad bytes, what the region at 2 MiB holds, full/empty tags
(R355); its accumulator rows are there already. -/
def saveQuarter (s : State) (ctx : Nat) (c : Ctx) (p : Part) (q : Nat) : State :=
  let base := quarterPa c p q
  let gs := (s.gangs.map (·.2)).filter fun g => g.ctx == ctx && g.bench == q / 4
  let lo := q % 4 * 2 ^ 20
  let inQ (o : Nat) : Bool := o / 2 ^ 20 == q % 4
  let s := s.zeroRange (base + 2 ^ 19) (2 ^ 20)
  let s := s.zeroRange (base + 2 ^ 21) (2 ^ 16)
  let s := s.zeroRange (base + 2112 * 1024) 65536
  let bytes := gs.flatMap fun g => g.bytes.filter fun b => inQ b.1
  let s : State := bytes.foldl (fun s b => s.saveByte (base + 2 ^ 19 + b.1 - lo) b.2) s
  let ts := (s.threads.map (·.2)).filter fun t => t.ctx == ctx && t.core / 2 == q
  let s : State := ts.foldl (fun s t => s.putDoubles (threadPa c p t) t.image) s
  let heads := gs.filter fun g => g.cores.headD 0 / 2 == q % 4
  let s := s.putDoubles (base + 2 ^ 21) ((s.core (2 * q)).image ++ (s.core (2 * q + 1)).image ++ heads.flatMap Gang.image)
  let tags := gs.flatMap fun g => g.fullTags.filter fun b => b.2 && inQ b.1
  tags.foldl (fun s b =>
    let a := base + 2112 * 1024 + (b.1 - lo) / 64
    s.saveByte a (s.byteAt a ||| BitVec.ofNat 8 (2 ^ (b.1 / 8 % 8)))) s

/-- A die saves a context; the header holds how many pages are recorded, and how many were beyond WSMAX (R357; log entry 20). -/
def saveDie (s : State) (p : Part) (ctx die : Nat) : State :=
  let qs := p.onDie die
  let keys := (s.threads.filter fun t => t.2.ctx == ctx && t.2.die == die).map (·.1)
  let s : State := keys.foldl stopThreadAt s
  let benches := (qs.map (· / 4)).eraseDups
  let s : State := benches.foldl (fun s b => (s.stopAnvil ctx b).saveRows ctx p b) s
  match s.ctx? ctx with
  | none => s
  | some c =>
    let s : State := qs.foldl (fun s q => s.saveQuarter ctx c p q) s
    let s : State := (qs.flatMap fun q => [2 * q, 2 * q + 1]).foldl (fun s k => s.saveCore ctx k) s
    let s : State := keys.foldl (fun s k => s.onThread k fun t => { t with saved := true }) s
    let s := (s.snoop c.savebase 8).setDouble c.savebase (dbl (c.recorded.length + 2 ^ 32 * c.unrecorded))
    s.putDoubles (c.savebase + 65536) (c.recorded.map dbl)

/-- Nanoseconds by which a switch has passed its save budget. -/
def overrun (s : State) (p : Part) : Nat := s.gtsc.toNat - (p.switchAt + p.savebud * 1000)

/-- The overrun of a switch is charged to the outgoing context (R354). -/
def chargeOverrun (s : State) (p : Part) (out : Nat) : State :=
  match s.ctx? out with
  | none => s
  | some c =>
    let n := s.overrun p
    if n = 0 then s
    else
      let s := s.putCtx out { c with shorten := c.shorten + n }
      let first := (c.openPhases.foldl (fun l ph => keyInsert ([if ph.2.deadline == 0 then 2 ^ 64 else ph.2.deadline.toNat], ph.2) l) []).head?
      let core := match first with
        | some ph => ph.2.core
        | none => p.cores.headD 0
      let s := s.assay core 0 0x35 n
      if c.state == .faulted then s else s.ctxEvent out 2 (BitVec.ofNat 64 n)

/-- The last die has reported: the overrun is charged, the ladle swaps down, Restore begins (R347, R352, R354, R359). -/
def saved (s : State) (part : Nat) (p : Part) (out : Nat) : State :=
  let s := s.chargeOverrun p out
  let s : State := match s.ctx? out with
    | some c =>
      if c.state == .saving then s.putCtx out { c with state := if s.hasWork out then .ready else .idle } else s
    | none => s
  match p.next with
  | some d => match s.part? part with
    | some p => (s.putPart part { p with down := some (out, d) }).beginRestore part d
    | none => s
  | none => s.putPart part { p with running := none, next := none, phase := .settled, give := false, stretched := false }

/-- A die reports. -/
def reported' (s : State) (part : Nat) (p : Part) (out die : Nat) (dies : List Nat) : State :=
  let left := dies.filter (· != die)
  let p := { p with phase := .saving out left }
  let s := s.putPart part p
  if left.isEmpty then s.saved part p out else s

/-- An access of the context's threads on a die that cannot be repeated is still on its way (R352). -/
def accessesOut (s : State) (ctx die : Nat) : Bool :=
  let here (key : Nat) : Bool := key / 16384 == ctx && key % 16384 / 2048 == die
  s.home.any (fun h => here h.2.key) || s.tickets.any (fun r => here r.2.key)
    || s.tiles.any fun t => t.2.waiting.any fun w => here w.2.1

/-- A die stops the units of a context that cannot be saved: its threads are Faulted with Save Overrun, the context too
(R354). -/
def overrunDie (s : State) (part : Nat) (p : Part) (out die : Nat) (dies : List Nat) : State :=
  let keys := (s.threads.filter fun t => t.2.ctx == out && t.2.die == die && t.2.result.isNone).map (·.1)
  let s : State := keys.foldl (fun s k => match s.thread? k with
    | some t => s.raise k Cause.saveOverrun 0 t.pc none
    | none => s) s
  let s := { s with home := s.home.filter fun h => !(h.2.ctx == out && h.2.key % 16384 / 2048 == die) }
  let s : State := match s.ctx? out with
    | some c =>
      let again := c.state == .faulted
      let s := s.putCtx out { c with state := .faulted }
      if again then s else (s.ctxEvent out 2 (BitVec.ofNat 64 (s.overrun p))).ctxEvent out 3 (zx Cause.saveOverrun)
    | none => s
  let s : State := (p.onDie die).foldl (fun s q => (s.saveCore out (2 * q)).saveCore out (2 * q + 1)) s
  s.reported' part p out die dies

end State

/-- SAVE_DONE (R352): die `ev.b` of partition `ev.a` reports its save; where the owner check refuses the save area, the die
stops the context as in R354 (R355). -/
def execSaveDone (s : State) : Result :=
  match s.part? s.ev.a with
  | none => .next s
  | some p =>
    match p.phase with
    | .saving out dies =>
      match s.ctx? out with
      | none => .next s
      | some c =>
        if !dies.contains s.ev.b || s.accessesOut out s.ev.b then .next s
        else if !s.saveAreaOk out c p then .next (s.overrunDie s.ev.a p out s.ev.b dies)
        else .next ((s.saveDie p out s.ev.b).reported' s.ev.a p out s.ev.b dies)
    | _ => .next s

/-- SAVE_BUDGET_EXPIRY (R354): SAVEBUD has passed after the tick and a die of partition `ev.a` has not reported. -/
def execSaveBudgetExpiry (s : State) : Result :=
  match s.part? s.ev.a with
  | none => .next s
  | some p =>
    match p.phase with
    | .saving .. => .next (if s.overrun p = 0 then s else s.putPart s.ev.a { p with stretched := true })
    | _ => .next s

/-- SAVE_OVERRUN (R354): 2 ms after the tick, die `ev.b` of partition `ev.a` stops the context's remaining units. -/
def execSaveOverrun (s : State) : Result :=
  match s.part? s.ev.a with
  | none => .next s
  | some p =>
    match p.phase with
    | .saving out dies =>
      if dies.contains s.ev.b && decide (p.switchAt + 2000000 ≤ s.gtsc.toNat) then
        .next (s.overrunDie s.ev.a p out s.ev.b dies)
      else .next s
    | _ => .next s

/-- RESTORE_DONE (R347, R352): die `ev.b` of partition `ev.a` has made the incoming context's threads live; the last makes it
Running. -/
def execRestoreDone (s : State) : Result :=
  match s.part? s.ev.a with
  | none => .next s
  | some p =>
    match p.phase, p.running with
    | .restoring dies, some d =>
      if !dies.contains s.ev.b then .next s
      else
        let s := s.restoreDie s.ev.a p d s.ev.b
        let left := dies.filter (· != s.ev.b)
        let s := s.putPart s.ev.a { p with phase := if left.isEmpty then .settled else .restoring left }
        if left.isEmpty then
          match s.ctx? d with
          | some c => .next (s.putCtx d { c with state := .running })
          | none => .next s
        else .next s
    | _, _ => .next s

end Sys2Proof.Machine
end

