-- ==== Sys2Proof/Machine/Temper.lean ====
section
/-!
DEFINITION. The temper: energy accounts and clock steps, CREDIT_INTERVAL, TEMPER_WINDOW, and the junction-temperature
throttle (R388 to R392, R424).
-/
namespace Sys2Proof.Machine

/-- The account a partition's interval is charged to, and whether it is credited: the running context, or the outgoing one of
a stretched switch (R354, R391). -/
def Part.account (p : Part) : Option (Nat × Bool) :=
  match p.phase with
  | .settled | .restoring _ => p.running.map (·, true)
  | .saving out _ => if p.stretched then some (out, false) else none

namespace State

/-- One interval of 1 µs of a partition (R391): the credit, the energy spent, and the admissions (R392). -/
def credit (s : State) (part : Nat) (p : Part) : State :=
  let s := s.putPart part { p with creditAt := p.creditAt + 1000 }
  match p.account with
  | none => s
  | some (n, credited) =>
    match s.ctx? n with
    | none => s
    | some c =>
      let (f, s) := s.takeFree
      let gain : Int := if credited then p.power else 0
      let cap : Int := p.power * 10 ^ 6
      let e := min (c.energy.toInt + gain - Config.energySpent f part) (max cap c.energy.toInt)
      (s.putCtx n { c with energy := BitVec.ofInt 64 e }).admitPhases n

/-- Watts of the package budget (R388). -/
def packageBudget : Nat := 2400

/-- What a partition takes of the package budget at a reading: its draw, and with LEND 0 its whole allotment, which no other may
draw (R389; log entry 8). -/
def budgetShare (f num : Nat) (p : Part) : Nat := if p.lend then Config.drawWatts f num else max p.power (Config.drawWatts f num)

/-- The package draw that is compared with the budget at a reading: the device's own and every partition's share (R388 to R390; log
entry 8). -/
def packageDraw (s : State) (f : Nat) : Nat := Config.drawWatts f 40 + (s.parts.map fun p => budgetShare f p.1 p.2).sum

/-- Watts by which a partition's draw exceeds its POWER. -/
def overPower (f num : Nat) (p : Part) : Nat := Config.drawWatts f num - p.power

/-- A number put before the first of a list that has a smaller key. -/
def insertByKey (key : Nat → Nat) (n : Nat) : List Nat → List Nat
  | [] => [n]
  | m :: rest => if key m < key n then n :: m :: rest else m :: insertByKey key n rest

/-- The unsealed partitions whose draw exceeds their POWER, the largest excess first (R390). -/
def overDrawn (s : State) (f : Nat) : List Nat :=
  let hungry := s.parts.filter fun p => !p.2.isSealed && decide (p.2.power < Config.drawWatts f p.1)
  let key (n : Nat) : Nat := match s.part? n with | some p => overPower f n p | none => 0
  hungry.foldl (fun l p => insertByKey key p.1 l) []

/-- Those of them that a window lowers: each in its turn, while the package draw, read again before it, exceeds the budget
(R390; log entry 8). -/
def loweredParts (s : State) (f : Nat) : List Nat :=
  let turns := (List.range (s.overDrawn f).length).takeWhile fun i => decide (packageBudget < s.packageDraw (f + i))
  (s.overDrawn f).take turns.length

/-- A partition's clock, in sixteenths, after a window (R390, R424): `lowered` says that its turn came, `under` that the package
draw lies 5 % or more below the budget, `hot` that a junction is at its throttle temperature. -/
def steppedClock (p : Part) (draw : Nat) (lowered under hot : Bool) : Nat :=
  let down := max 4 (p.clock - 1)
  let up := min 16 (p.clock + 1)
  if hot then down
  else if p.isSealed then (if p.power < draw then down else up)
  else if lowered then down
  else if under then up
  else p.clock

/-- One window of the temper (R390). -/
def temperWindow (s : State) : State :=
  let f := s.frees
  let lowered := s.loweredParts f
  let under := decide (s.packageDraw f * 100 ≤ packageBudget * 95)
  { s with
    frees := s.frees + 1 + lowered.length
    temperAt := s.gtsc.toNat
    parts := s.parts.map fun p =>
      (p.1, { p.2 with clock := steppedClock p.2 (Config.drawWatts f p.1) (lowered.contains p.1) under s.throttled }) }

end State

/-- CREDIT_INTERVAL (R391, R392): 1 µs of partition `ev.a` has passed. -/
def execCreditInterval (s : State) : Result :=
  match s.part? s.ev.a with
  | none => .next s
  | some p => .next (if p.creditAt + 1000 ≤ s.gtsc.toNat then s.credit s.ev.a p else s)

/-- TEMPER_WINDOW (R390): 10 µs have passed. -/
def execTemperWindow (s : State) : Result := .next (if s.temperAt + 10000 ≤ s.gtsc.toNat then s.temperWindow else s)

/-- JUNCTION_THROTTLE (R424): a junction reaches 105 °C: from now on each window lowers the clocks of every partition, sealed
included, a step towards the floor (log entry 8). -/
def execJunctionThrottle (s : State) : Result := .next { s with throttled := true }

/-- JUNCTION_THROTTLE_END (R424): the junction has cooled, and windows raise the clocks again as R390 says. -/
def execJunctionThrottleEnd (s : State) : Result := .next { s with throttled := false }

end Sys2Proof.Machine
end

