-- ==== Sys2Proof/Machine/Mailbox.lean ====
section
/-!
DEFINITION. The host mailbox: how a command runs, and the commands of the PF alone and of any function about the device and
its event ring (R343, R345, R357, R415 to R417). The function is `ev.fn`, the payload's doubles are `ev.words`.
-/
namespace Sys2Proof.Machine

/-! ### Running a command (R415) -/

/-- What a command comes to: done with its result's bytes, refused with a RESULT, or still running. -/
inductive Reply where
  | done (s : State) (bytes : List Byte)
  | refused (result : BitVec 8)
  | running (s : State) (bytes : List Byte) (w : CmdWait)

/-- Double `i` of the payload. -/
def pay (ws : List Word) (i : Nat) : Word := (ws[i]?).getD 0

/-- Bytes of doubles. -/
def wordBytes (ws : List Word) : List Byte := ws.flatMap fun w => leBytes 8 w.toNat

/-- A command done, with doubles as its result. -/
def Reply.words (s : State) (ws : List Word) : Reply := .done s (wordBytes ws)

/-- No bit of a double is set outside some fields, each its low bit and its width. -/
def within (w : Word) (fields : List (Nat × Nat)) : Bool :=
  w &&& ~~~(fields.foldl (fun m f => m ||| BitVec.ofNat 64 ((2 ^ f.2 - 1) * 2 ^ f.1)) 0) == 0

/-- Every double of a payload from number `i` is zero. -/
def clearFrom (ws : List Word) (i : Nat) : Bool := (ws.drop i).all (· == 0)

/-- The payload buffer of a function once bytes have been written from its start: 4,096 bytes, what lies past them as before (R415). -/
def Fn.written (f : Fn) (bytes : List Byte) : List Byte := (bytes ++ f.payload.drop bytes.length).take 4096

/-- Leave a command's result and STATUS in the mailbox of a function (R415). -/
def State.finishCommand (s : State) (n : Nat) (result : BitVec 8) (bytes : List Byte) : State :=
  let f := s.fn n
  s.putFn n { f with
    busy := false, rlen := BitVec.ofNat 16 bytes.length, result := result, payload := f.written bytes, waits := none }

/-- A function writes a command's payload and CMD: OP, and LEN in bytes; OVR is gone (R415, R417). -/
def State.startCommand (s : State) (n : Nat) (op : BitVec 16) (ws : List Word) : State :=
  let f := s.fn n
  s.putFn n { f with ovr := false, op := op, len := BitVec.ofNat 16 (8 * ws.length), payload := f.written (wordBytes ws) }

/-- A CMD write of an OP (R415, R416, R423): discarded while BUSY; refused while the device is held or not yet up, or to a function
that may not issue it. -/
def command (op : BitVec 16) (pf early : Bool) (body : State → Nat → List Word → Reply) (s : State) : Result :=
  let n := s.ev.fn
  let ws := s.ev.words
  let f := s.fn n
  if f.busy then .next (s.putFn n { f with ovr := true })
  else
    let s := s.startCommand n op ws
    let refuse (r : BitVec 8) : Result := .next (s.finishCommand n r [])
    if s.fwHeld then refuse 5
    else if !s.booted && !early then refuse 4
    else if pf && n != 0 then refuse 1
    else
      match body s n ws with
      | .done s bytes => .next (s.finishCommand n 0 bytes)
      | .refused r => refuse r
      | .running s bytes w =>
        let f := s.fn n
        .next (s.putFn n { f with busy := true, rlen := BitVec.ofNat 16 bytes.length, payload := f.written bytes, waits := some w })

/-- A CMD write of an OP that R416 lists: a payload of more than 4,096 bytes is malformed (R415, R417). -/
def listed (op : BitVec 16) (pf early : Bool) (body : State → Nat → List Word → Reply) : State → Result :=
  command op pf early fun s n ws => if 512 < ws.length then .refused 2 else body s n ws

namespace State

/-- A frame of a partition holds a page or is named by a migration. -/
def frameUsed (s : State) (part frame : Nat) : Bool := (s.poolUsed part).contains frame

/-- What a running command waits for has come (R415). -/
def waitOver (s : State) : CmdWait → Bool
  | .ring n => !s.ring.any (·.1 == n)
  | .vacate part frames => !frames.any (s.frameUsed part)

/-- Running commands go on: a withdrawal vacates what frames it can, and a command whose wait is over ends (R357, R415). -/
def commandStep (s : State) : State :=
  if s.fns.any fun f => f.2.waits.isSome then
    s.fns.foldl (fun s f => match f.2.waits with
      | none => s
      | some w =>
        let s := match w with
          | .vacate part frames => s.vacate part frames
          | .ring _ => s
        if s.waitOver w then s.finishCommand f.1 0 (f.2.payload.take f.2.rlen.toNat) else s) s
  else s

end State

/-- UNKNOWN_OP (R416): an OP, `ev.a`, that the table does not list. -/
def execUnknownOp (s : State) : Result := command (BitVec.ofNat 16 s.ev.a) false false (fun _ _ _ => .refused 5) s

/-- CMD_WRITE_WHILE_BUSY (R415): the write is discarded and OVR is set. -/
def execCmdWriteWhileBusy (s : State) : Result :=
  let f := s.fn s.ev.fn
  .next (if f.busy then s.putFn s.ev.fn { f with ovr := true } else s)

/-! ### The device and the event ring -/

/-- IDENTIFY (R395, R417). -/
def execIdentify (s : State) : Result :=
  listed 0x0001 false true (fun s _ ws =>
    if !clearFrom ws 0 then .refused 2
    else .words s ([partNumber, BitVec.ofNat 64 (s.ownNumber * 2 ^ 16 + stepping.toNat)] ++ (List.range 4).map capWord)) s

/-- SETEVQ (R415, R417): both indexes become 0, and the events held are written. -/
def execSetevq (s : State) : Result :=
  listed 0x0002 false false (fun s n ws =>
    let log := fieldAt (pay ws 1) 0 5
    if !within (pay ws 0) [(6, 46)] || !within (pay ws 1) [(0, 5)] || !clearFrom ws 2 || log < 4 || 16 < log then .refused 2
    else
      let s := s.putFn n { s.fn n with ringBase := (pay ws 0).toNat, ringLog := some log, evTail := 0, evHead := 0 }
      .done (s.flushEvents n 257) []) s

/-- EVHEAD (R415): the host writes `ev.a`, discarded unless it lies between EVHEAD and EVTAIL. -/
def execEvhead (s : State) : Result :=
  let n := s.ev.fn
  let f := s.fn n
  let v : BitVec 32 := BitVec.ofNat 32 s.ev.a
  .next (if (v - f.evHead).toNat ≤ (f.evTail - f.evHead).toNat then (s.putFn n { f with evHead := v }).flushEvents n 257 else s)

/-! ### Partitions (R343, R389) -/

/-- Quarters a descriptor's mask names, rising. -/
def maskQuarters (ws : List Word) : List Nat := (List.range 512).filter fun q => (pay ws (q / 64)).getLsbD (q % 64)

/-- The partition a descriptor describes, when no reserved bit is set and every field is in its range: its number, and the
partition at `now`. -/
def readPart (ws : List Word) (now : Nat) : Option (Nat × Part) :=
  let d8 := pay ws 8
  let d9 := pay ws 9
  let d10 := pay ws 10
  let p : Part := {
    quarters := maskQuarters ws, encs := fieldAt d8 48 8, hostw := fieldAt d8 40 8, wlw := fieldAt d8 32 8
    memw := fieldAt d8 24 8, slw := fieldAt d8 16 8, ways := fieldAt d8 7 6, isSealed := d8.getLsbD 6
    savebud := fieldAt d9 20 20, tick := fieldAt d9 0 20, power := fieldAt d10 16 16, lend := d10.getLsbD 0
    running := none, next := none, phase := .settled, tickAt := now, slice := 0, switchAt := now, down := none, give := false, stretched := false
    creditAt := now, pool := [], clock := 16, bound := none, tag := none }
  let num := fieldAt d8 0 6
  let is (lo hi v : Nat) : Bool := decide (lo ≤ v) && decide (v ≤ hi)
  let ok := within d8 [(48, 8), (40, 8), (32, 8), (24, 8), (16, 8), (0, 13)] && within d9 [(0, 40)] && within d10 [(16, 16), (0, 1)]
    && clearFrom ws 11 && !p.quarters.isEmpty && is 0 64 p.encs && is 1 64 p.hostw && is 0 64 p.wlw && is 1 64 p.memw
    && is 1 64 p.slw && is 1 48 p.ways && is 0 39 num && is 1 1000 p.savebud && is 10 1000000 p.tick && is 1 2000 p.power
  if ok then some (num, p) else none

namespace State

/-- A partition holds a context. -/
def holdsContext (s : State) (part : Nat) : Bool := s.ctxs.any fun c => c.2.part == part

/-- RESULT of a descriptor that R343 accepts as formed: 0 when nothing refuses it. -/
def partStatus (s : State) (num : Nat) (p : Part) : BitVec 8 :=
  let others := (s.parts.filter (·.1 != num)).map (·.2)
  let total (f : Part → Nat) : Nat := (others.map f).sum + f p
  if s.holdsContext num || others.any fun o => p.quarters.any o.quarters.contains then 4
  else if 48 < total Part.ways || 64 < total Part.slw || 64 < total Part.memw || 64 < total Part.wlw || 64 < total Part.hostw
      || 64 < total Part.encs || 2000 < total Part.power then 3
  else 0

end State

namespace State

/-- Frames a partition or a context owns by an entry of a kind. -/
def framesOf (s : State) (kind num : Nat) : List Nat :=
  (s.owners.filter fun o => ownerKind o.2 == kind && ownerNumber o.2 == num).map (·.1)

/-- The memory key of a frame comes or goes: what stands in it was written under another key or under none, and reads as free
values until it is written again (R345; log entry 90). -/
def rekey (s : State) (frame : Nat) : State :=
  (s.snoop (frame * frameBytes) frameBytes).scramble (frame * frameBytes)

/-- Frames that come under the key of a partition, if it has one. -/
def rekeyFor (s : State) (p : Part) (frames : List Nat) : State := if p.isSealed then frames.foldl rekey s else s

/-- The partition under whose key the lines of a frame with an owner entry are encrypted (R345). -/
def keyOf (s : State) (e : BitVec 16) : Option Nat :=
  let sealedPart (n : Nat) : Option Nat := match s.part? n with
    | some p => if p.isSealed then some n else none
    | none => none
  match ownerKind e with
  | 1 => sealedPart (ownerNumber e)
  | 2 => match s.ctx? (ownerNumber e) with
    | some c => sealedPart c.part
    | none => none
  | _ => none

end State

/-- PARTCFG (R343). A partition configured again keeps its pool, and stays sealed (R345). -/
def execPartcfg (s : State) : Result :=
  listed 0x0010 true false (fun s _ ws =>
    match readPart ws s.gtsc.toNat with
    | none => .refused 2
    | some (num, p) =>
      let st := s.partStatus num p
      if st != 0 then .refused st
      else
        let p := match s.part? num with
          | some o => { p with pool := o.pool, isSealed := p.isSealed || o.isSealed, bound := o.bound, tag := o.tag }
          | none => p
        let newKey := !(match s.part? num with | some o => o.isSealed | none => false)
        .done ((s.putPart num p).rekeyFor { p with isSealed := p.isSealed && newKey } (s.framesOf 1 num)) []) s

namespace State

/-- Frames are zeroed: their bytes, their poison and every copy of their lines (R345). -/
def zeroFrames (s : State) (frames : List Nat) : State :=
  let hit (pa : Nat) : Bool := frames.contains (pa / frameBytes)
  { s with
    slices := s.slices.map fun x => (x.1, x.2.filter fun l => !hit (linePa l.line))
    near := s.near.filter fun c => !hit c.1
    poison := s.poison.filter fun l => !hit (linePa l)
    benches := s.benches.map fun b => (b.1, { b.2 with
      l1 := b.2.l1.filter fun l => !hit (linePa l.line), il1 := b.2.il1.filter fun l => !hit (linePa l.line) }) }

/-- A partition is destroyed; a sealed one's frames are zeroed (R345). -/
def destroyPart (s : State) (num : Nat) (p : Part) : State :=
  let s := if p.isSealed then s.zeroFrames (s.framesOf 1 num) else s
  { s with parts := Map.del s.parts num, encoders := s.encoders.filter fun e => e.1 / 65536 != num }

end State

/-- PARTDESTROY (R343, R417). -/
def execPartdestroy (s : State) : Result :=
  listed 0x0011 true false (fun s _ ws =>
    let num := fieldAt (pay ws 0) 0 6
    if !within (pay ws 0) [(0, 6)] || !clearFrom ws 1 then .refused 2
    else match s.part? num with
      | none => .refused 2
      | some p => if s.holdsContext num then .refused 4 else .done (s.destroyPart num p) []) s

namespace State

/-- A partition is sealed and bound under TDISP (R345). -/
def boundPart (s : State) (num : Nat) : Bool := match s.part? num with
  | some p => p.isSealed && p.bound.isSome
  | none => false

/-- A frame belongs to a sealed partition bound under TDISP: by its owner entry, or by that of its context (R345). -/
def boundFrame (s : State) (frame : Nat) : Bool :=
  let e := s.owner frame
  match ownerKind e with
  | 1 => s.boundPart (ownerNumber e)
  | 2 => match s.ctx? (ownerNumber e) with
    | some c => s.boundPart c.part
    | none => false
  | _ => false

/-- Set the owner entry of a frame; its tracking attribute becomes unset, and its memory key is the new owner's (R247, R260,
R345). -/
def setOwner (s : State) (e : BitVec 16) (frame : Nat) : State :=
  let s := if s.keyOf (s.owner frame) = s.keyOf e then s else s.rekey frame
  { s with
    owners := if e = 0 then Map.del s.owners frame else Map.put s.owners frame e
    attrs := Map.del s.attrs frame }

end State

/-- An owner entry with no reserved bit set and its number in range (R247). -/
def ownerFormed (e : BitVec 16) : Bool :=
  e.extractLsb' 11 3 == 0 &&
  match State.ownerKind e with
  | 1 => decide (State.ownerNumber e ≤ 39)
  | 2 => true
  | _ => State.ownerNumber e == 0

/-- OWNERSET (R247, R345, R417). -/
def execOwnerset (s : State) : Result :=
  listed 0x0012 true false (fun s _ ws =>
    let first := fieldAt (pay ws 0) 16 36
    let n := fieldAt (pay ws 1) 0 32
    let e : BitVec 16 := (pay ws 2).setWidth 16
    if !within (pay ws 0) [(16, 36)] || !within (pay ws 1) [(0, 32)] || !within (pay ws 2) [(0, 16)] || !clearFrom ws 3
        || n == 0 || !ownerFormed e then .refused 2
    else
      let frames := (List.range (min n (Config.nearFrames - first))).map (first + ·)
      if frames.any s.boundFrame then .refused 1 else .done (frames.foldl (fun s f => s.setOwner e f) s) []) s

/-- VFRANGE (R346, R417). -/
def execVfrange (s : State) : Result :=
  listed 0x0013 true false (fun s _ ws =>
    let vf := fieldAt (pay ws 0) 0 7
    let first := fieldAt (pay ws 1) 0 11
    let n := fieldAt (pay ws 1) 16 5
    if !within (pay ws 0) [(0, 7)] || !within (pay ws 1) [(0, 11), (16, 5)] || !clearFrom ws 2 || 16 < n || 2048 < first + n then
      .refused 2
    else .done (s.putFn (vf + 1) { s.fn (vf + 1) with first := first, count := n }) []) s

/-- The frames a POOLSET names, with its partition, when it is well formed (R417). -/
def poolFrames (ws : List Word) : Option (Nat × List Nat) :=
  let first := fieldAt (pay ws 1) 16 36
  if within (pay ws 0) [(0, 6), (8, 1)] && within (pay ws 1) [(16, 36)] && within (pay ws 2) [(0, 32)] && clearFrom ws 3 then
    some (fieldAt (pay ws 0) 0 6, (List.range (min (fieldAt (pay ws 2) 0 32) (Config.nearFrames - first))).map (first + ·))
  else none

/-- Frames enter a partition's pool: every one must be the partition's, KIND 1 (R357, R417). -/
def poolAdd (s : State) (ws : List Word) (num : Nat) (frames : List Nat) (p : Part) : Reply :=
  let entry : BitVec 16 := BitVec.ofNat 16 (2 ^ 14 + num)
  if fieldAt (pay ws 2) 0 32 != frames.length || frames.any fun f => s.owner f != entry then .refused 2
  else
    let new := frames.filter fun f => !p.pool.contains f
    .words (s.putPart num { p with pool := p.pool ++ new }) [BitVec.ofNat 64 new.length]

/-- Frames leave a partition's pool: the command ends when every one is empty (R357, R417). -/
def poolWithdraw (s : State) (num : Nat) (frames : List Nat) (p : Part) : Reply :=
  let out := frames.filter p.pool.contains
  let s := s.putPart num { p with pool := p.pool.filter fun f => !out.contains f }
  let bytes := wordBytes [BitVec.ofNat 64 out.length]
  let held := out.filter (s.frameUsed num)
  if held.isEmpty then .done s bytes else .running (s.vacate num held) bytes (.vacate num held)

/-- A POOLSET: bit 8 of D0 says whether frames are added or withdrawn (R417). -/
def poolset (s : State) : Result :=
  listed 0x0014 true false (fun s _ ws =>
    match poolFrames ws with
    | none => .refused 2
    | some (num, frames) => match s.part? num with
      | none => .refused 2
      | some p => if (pay ws 0).getLsbD 8 then poolAdd s ws num frames p else poolWithdraw s num frames p) s

/-- POOLSET, add (R357, R417). -/
def execPoolsetAdd (s : State) : Result := poolset s
/-- POOLSET, withdraw (R357, R417). -/
def execPoolsetWithdraw (s : State) : Result := poolset s

end Sys2Proof.Machine
end

