-- ==== Sys2Proof/Machine/Inspect.lean ====
section
/-!
DEFINITION. Mailbox commands that observe: counter banks, trace sessions, debugging, capsules and dumps; and those of Woene
Link (R394 to R396, R400 to R402, R409 to R411, R416, R417, R421, R422).
-/
namespace Sys2Proof.Machine

/-! ### Counter banks (R394, R396, R399) -/

/-- Class, unit and counter of a selector that names a counter. -/
def selectorOf (w : Word) : Option (Nat × Nat × Nat) :=
  let cls := fieldAt w 12 4
  if cls < 7 ∧ fieldAt w 3 9 < classUnits cls then some (cls, fieldAt w 3 9, fieldAt w 0 3) else none

/-- CNTCFG (R394, R417). -/
def execCntcfg (s : State) : Result :=
  listed 0x0030 false false (fun s n ws =>
    let d1 := pay ws 1
    if !within (pay ws 0) [(0, 16)] || !within d1 [(0, 9), (16, 11), (63, 1)] || !clearFrom ws 2 then .refused 2
    else match selectorOf (pay ws 0) with
      | none => .refused 2
      | some (cls, unit, cnt) =>
        let k := State.bankKey cls unit n cnt
        let old := (Map.get? s.banks k).map (·.count)
        let c : BankCounter := ⟨d1.setWidth 8, d1.getLsbD 8, d1.extractLsb' 16 11, if d1.getLsbD 63 then 0 else old.getD 0, false⟩
        .done { s with banks := Map.put s.banks k c } []) s

/-- CNTREAD (R394, R399, R417): without the filter condition of `cntrd`. -/
def execCntread (s : State) : Result :=
  listed 0x0031 false false (fun s n ws =>
    if !within (pay ws 0) [(0, 16)] || !clearFrom ws 1 then .refused 2
    else
      let (v, s) := s.selected n (pay ws 0) none
      .words s [v]) s

/-- The selectors of a function's counters, in the order of their records: by class, unit and counter (log entry 22). -/
def selectors : List (Nat × Nat × Nat) :=
  (List.range 7).flatMap fun c => (List.range (classUnits c)).flatMap fun u => (List.range 8).map fun n => (c, u, n)

/-- A counter's record in a snapshot (R417). -/
def State.snapRecord (s : State) (fn : Nat) (p : Nat × Nat × Nat) : List Word × State :=
  let (cls, unit, cnt) := p
  let sel := cls * 4096 + unit * 8 + cnt
  match Map.get? s.banks (State.bankKey cls unit fn cnt) with
  | none => ([BitVec.ofNat 64 sel, 0], s)
  | some c =>
    let (v, s) := s.counterRead fn cls unit cnt none
    ([BitVec.ofNat 64 (c.cfilt.toNat * 2 ^ 32 + (if c.cfen then 2 ^ 24 else 0) + c.event.toNat * 2 ^ 16 + sel),
      if v == unavailable then 0 else v], s)

/-- CNTSNAP (R396, R417): at most 256 records from the first named. -/
def execCntsnap (s : State) : Result :=
  listed 0x0032 false false (fun s n ws =>
    if !within (pay ws 0) [(0, 32)] || !clearFrom ws 1 then .refused 2
    else
      let (out, s) := ((selectors.drop (pay ws 0).toNat).take 256).foldl (fun (r : List Word × State) p =>
        let (w, s) := r.2.snapRecord n p
        (r.1 ++ w, s)) ([], s)
      .words s out) s

/-- The records of a CNTLOAD, when they are formed: selector, configuration and count. -/
def loadRecords : List Word → Option (List ((Nat × Nat × Nat) × BankCounter))
  | [] => some []
  | [_] => none
  | d0 :: d1 :: rest =>
    match selectorOf d0, loadRecords rest with
    | some p, some l =>
      if within d0 [(0, 25), (32, 11)] && !d1.getLsbD 63 then
        let e : BitVec 8 := d0.extractLsb' 16 8
        let here := implements p.1 e
        some ((p, ⟨e, d0.getLsbD 24, d0.extractLsb' 32 11, if here then d1.setWidth 63 else 0, !here⟩) :: l)
      else none
    | _, _ => none

/-- CNTLOAD (R396, R417): a counter whose event the unit does not implement reads 0 with UNAV set. -/
def execCntload (s : State) : Result :=
  listed 0x0033 false false (fun s n ws =>
    match loadRecords (ws.drop 1) with
    | none => .refused 2
    | some rs =>
      if !within (pay ws 0) [(0, 32)] || 255 < rs.length then .refused 2
      else .done { s with banks := rs.foldl (fun m r => Map.put m (State.bankKey r.1.1 r.1.2.1 n r.1.2.2) r.2) s.banks } []) s

/-! ### Trace sessions (R400, R402) -/

namespace State

/-- Threads of a bench that a session holds stopped are released (R402). -/
def releaseStops (s : State) (bench : Nat) (ss : Session) : State :=
  { s with threads := s.threads.map fun p =>
      if p.2.bench == bench && s.covers ss p.2 then (p.1, { p.2 with debugHeld := false, debugStopped := false }) else p }

/-- Grant a session on a bench; a VF's session there is suspended with a record (R400). -/
def grantSession (s : State) (bench : Nat) (ss : Session) : State :=
  match (s.bench bench).trace with
  | none => s.putSession bench ss
  | some old =>
    let (old, s) := (s.releaseStops bench old).writeMark old
    s.putBench bench { s.bench bench with trace := some ss, suspended := some old }

end State

/-- TRACECLAIM (R400, R401, R417). -/
def execTraceclaim (s : State) : Result :=
  listed 0x0034 false false (fun s n ws =>
    let d3 := pay ws 3
    let bench := fieldAt (pay ws 0) 0 7
    let size := (pay ws 2).toNat
    let period := fieldAt d3 0 5
    if !within (pay ws 0) [(0, 7)] || !within (pay ws 1) [(6, 46)] || !within d3 [(0, 5), (8, 1)] || !clearFrom ws 4
        || size % 64 != 0 || period < 6 || 20 < period then .refused 2
    else
      let busy := match (s.bench bench).trace with
        | none => false
        | some ss => ss.fn == 0 || n != 0
      if busy then .refused 4
      else .done (s.grantSession bench ⟨n, (pay ws 1).toNat, size, period, d3.getLsbD 8, 0, 0, 0, [], []⟩) []) s

/-- TRACERELEASE (R400, R417): the drop count; a suspended session resumes with a record. -/
def execTracerelease (s : State) : Result :=
  listed 0x0035 false false (fun s n ws =>
    let bench := fieldAt (pay ws 0) 0 7
    if !within (pay ws 0) [(0, 7)] || !clearFrom ws 1 then .refused 2
    else
      let b := s.bench bench
      match b.trace, b.suspended with
      | some ss, old =>
        if ss.fn = n then
          let s := s.releaseStops bench ss
          match old with
          | none => .words (s.putBench bench { s.bench bench with trace := none }) [BitVec.ofNat 64 ss.drops]
          | some o =>
            let (o, s) := s.writeMark o
            .words (s.putBench bench { s.bench bench with trace := some o, suspended := none }) [BitVec.ofNat 64 ss.drops]
        else match old with
          | some o =>
            if o.fn = n then .words (s.putBench bench { b with suspended := none }) [BitVec.ofNat 64 o.drops] else .refused 1
          | none => .refused 1
      | none, _ => .refused 1) s

/-! ### Debugging (R402, R417) -/

/-- The debug session that a function holds on the bench of a thread number. -/
def State.debugSession (s : State) (fn tid : Nat) : Option Session :=
  match (s.bench (tid / 128)).trace with
  | some ss => if ss.debug && ss.fn == fn then some ss else none
  | none => none

/-- The stopped thread of a number that a session covers: the one on its core, else one parked stopped. -/
def State.stoppedThread (s : State) (ss : Session) (tid : Nat) : Option Thread :=
  let ts := (s.threads.map (·.2)).filter fun t => t.tid.toNat == tid && s.covers ss t && t.debugStopped
  (ts.find? fun t => !t.parked).or ts.head?

/-- The control registers in the order of R122. -/
def controlRegisters : List CReg :=
  [.vstart, .tid, .gang, .launch, .ctx, .part, .claim, .frm, .fflags, .mxstat, .srseed, .lstack, .ldepth, .felimit, .cblimit,
   .tvec, .tcause, .tpc, .tval, .energy, .gtsc]

/-- A chunk of a stopped thread's state (R417). -/
def State.debugChunk (s : State) (t : Thread) (chunk : Nat) : Option (List Byte) :=
  if chunk = 0 then
    some (wordBytes ((List.range 64).map (fun i => t.getX (BitVec.ofNat 6 i)) ++ t.pc :: controlRegisters.map (s.readCr t)))
  else if chunk ≤ 16 then some (leBytes 512 (t.getV (BitVec.ofNat 4 (chunk - 1))).toNat)
  else if chunk = 17 then some ((List.range 8).flatMap fun i => leBytes 64 (t.getK (BitVec.ofNat 3 i)).toNat)
  else if chunk = 18 then
    some (wordBytes ((List.range 8).flatMap fun i => (List.range 4).map fun n => (t.getG (BitVec.ofNat 3 i)).double n))
  else none

/-- A chunk of a stopped thread's state read. -/
def debugRead (s : State) (ws : List Word) (tid : Nat) (ss : Session) : Reply :=
  match s.stoppedThread ss tid with
  | none => .refused 4
  | some t => match s.debugChunk t (pay ws 2).toNat with
    | none => .refused 2
    | some bs => .done s bs

/-- A stopped thread resumed at a PC. -/
def debugResume (s : State) (ws : List Word) (tid : Nat) (ss : Session) : Reply :=
  match s.stoppedThread ss tid with
  | none => .refused 4
  | some t =>
    let line := if lineBase (pay ws 2) = lineBase t.pc then t.line else none
    .done (s.putThread { t with pc := pay ws 2, line := line, debugHeld := false, debugStopped := false }) []

/-- A comparator of the session set or cleared. -/
def debugComparator (s : State) (ws : List Word) (tid : Nat) (ss : Session) (on : Bool) : Reply :=
  let k := (pay ws 2).toNat
  .done (s.putSession (tid / 128) { ss with
    comparators := if on then Map.put ss.comparators k (pay ws 3) else Map.del ss.comparators k }) []

/-- A DEBUGSTATE: bits 2:0 of D1 name the operation; 4 to 7 name none (R402, R417). -/
def debugstate (s : State) : Result :=
  listed 0x0036 false false (fun s n ws =>
    let op := (pay ws 1).toNat
    let tid := fieldAt (pay ws 0) 0 14
    if !within (pay ws 0) [(0, 14)] || 3 < op || !within (pay ws 2) [(0, if op < 2 then 64 else 2)]
        || !clearFrom ws (if op < 2 then 3 else 4) then .refused 2
    else match s.debugSession n tid with
      | none => .refused 1
      | some ss => match op with
        | 0 => debugRead s ws tid ss
        | 1 => debugResume s ws tid ss
        | 2 => debugComparator s ws tid ss true
        | _ => debugComparator s ws tid ss false) s

/-- DEBUGSTATE, read. -/
def execDebugstateRead (s : State) : Result := debugstate s
/-- DEBUGSTATE, resume at a PC. -/
def execDebugstateResume (s : State) : Result := debugstate s
/-- DEBUGSTATE, set a comparator of the session. -/
def execDebugstateSetComparator (s : State) : Result := debugstate s
/-- DEBUGSTATE, clear a comparator. -/
def execDebugstateClearComparator (s : State) : Result := debugstate s

/-! ### Capsules and dumps (R409 to R411) -/

/-- A capsule slot, or the non-volatile summary. -/
def State.capsuleAt (s : State) (slot : Nat) : Option Capsule := if slot = 3 then s.summary else Map.get? s.capsules slot

/-- CAPSULEGET (R409, R410, R417): a chunk of the requester's view. -/
def execCapsuleget (s : State) : Result :=
  listed 0x0040 false false (fun s n ws =>
    if !within (pay ws 0) [(0, 2)] || !within (pay ws 1) [(0, 32)] || !clearFrom ws 2 then .refused 2
    else match s.capsuleAt (pay ws 0).toNat with
      | none => .done s []
      | some c => .done s (((c.view n).drop ((pay ws 1).toNat * 4096)).take 4096)) s

/-- CAPSULECLEAR (R409, R417): the PF's removes, a VF's marks as read. -/
def execCapsuleclear (s : State) : Result :=
  listed 0x0041 false false (fun s n ws =>
    if !within (pay ws 0) [(0, 2)] || !clearFrom ws 1 then .refused 2
    else
      let slot := (pay ws 0).toNat
      let marked (c : Capsule) : Capsule := { c with readBy := c.readBy.filter (· != n) ++ [n] }
      if slot = 3 then .done { s with summary := if n = 0 then none else s.summary.map marked } []
      else .done { s with capsules := if n = 0 then Map.del s.capsules slot else Map.modify s.capsules slot marked } []) s

/-- DUMPBUF (R411, R417). -/
def execDumpbuf (s : State) : Result :=
  listed 0x0042 false false (fun s n ws =>
    if !within (pay ws 0) [(6, 46)] || !clearFrom ws 2 then .refused 2
    else .done (s.putFn n { s.fn n with dump := some ((pay ws 0).toNat, (pay ws 1).toNat) }) []) s

/-! ### Woene Link (R421, R422) -/

/-- A partition bound to a domain tag, or unbound (R422). -/
def bindPart (s : State) (ws : List Word) (tag : Option Nat) : Reply :=
  let num := fieldAt (pay ws 1) 0 6
  match s.part? num with
  | none => .refused 2
  | some p => .done (s.putPart num { p with tag := tag }) []

/-- A WOENEBIND: bits 1:0 of D0 name the operation (R417, R421, R422). -/
def woenebind (s : State) : Result :=
  listed 0x0050 true false (fun s _ ws =>
    let d1 := pay ws 1
    let fields (d1f d2f : List (Nat × Nat)) : Bool := within d1 d1f && within (pay ws 2) d2f && clearFrom ws 3
    match (pay ws 0).toNat with
    | 0 => if fields [(0, 10)] [] then .done { s with ownNumber := d1.toNat } [] else .refused 2
    | 1 =>
      if fields [(0, 10)] [(0, 36)] then .done { s with routes := Map.put s.routes d1.toNat ((pay ws 2).setWidth 36) } []
      else .refused 2
    | 2 => if fields [(0, 6), (16, 16)] [] then bindPart s ws (some (fieldAt d1 16 16)) else .refused 2
    | 3 => if fields [(0, 6), (16, 16)] [] then bindPart s ws none else .refused 2
    | _ => .refused 2) s

/-- WOENEBIND, the device's own number (R421). -/
def execWoenebindOwnNumber (s : State) : Result := woenebind s
/-- WOENEBIND, a route to a destination (R421). -/
def execWoenebindRoute (s : State) : Result := woenebind s
/-- WOENEBIND, a partition bound to a domain tag (R422). -/
def execWoenebindBind (s : State) : Result := woenebind s
/-- WOENEBIND, a partition unbound (R422). -/
def execWoenebindUnbind (s : State) : Result := woenebind s

end Sys2Proof.Machine
end

