-- ==== Sys2Proof/Machine/Vector.lean ====
section
/-!
DEFINITION. The meanings of the instructions of the vector sequencer, MAJ 0x22, 0x23, 0x2C, 0x41 to 0x4A and 0x58 to 0x5D:
each is accepted into an entry (R143); what its groups do is in `runGroup`.
-/
namespace Sys2Proof.Machine

/-- Acceptance of a vector instruction. -/
def accept (i : Instr) (waits : Bool) (s : State) : Result := runThread i s fun t => acceptM t i waits

/-- `vloop` (R148). -/
def execVloop (p q u : XReg) (n : BitVec 6) (s : State) : Result := runThread (.vloop p q u n) s fun t => vloopM t p q u n

/-- `VLD` (R252). -/
def execVld (vd : VReg) (t : Ty) (m : MAddr) (l : VLen) (s : State) : Result :=
  accept (.vld vd t m l) false s
/-- `VLDS` (R252). -/
def execVlds (vd : VReg) (t : Ty) (m : MAddr) (xi : XReg) (l : VLen) (s : State) : Result :=
  accept (.vlds vd t m xi l) false s
/-- `VLDX` (R252). -/
def execVldx (vd : VReg) (t : Ty) (m : MAddr) (vi : VReg) (l : VLen) (s : State) : Result :=
  accept (.vldx vd t m vi l) false s
/-- `VLDFF` (R254). -/
def execVldff (vd : VReg) (t : Ty) (m : MAddr) (l : VLen) (s : State) : Result :=
  accept (.vldff vd t m l) true s
/-- `VST` (R252). -/
def execVst (vd : VReg) (t : Ty) (m : MAddr) (l : VLen) (s : State) : Result :=
  accept (.vst vd t m l) false s
/-- `VSTS` (R252). -/
def execVsts (vd : VReg) (t : Ty) (m : MAddr) (xi : XReg) (l : VLen) (s : State) : Result :=
  accept (.vsts vd t m xi l) false s
/-- `VSTX` (R252). -/
def execVstx (vd : VReg) (t : Ty) (m : MAddr) (vi : VReg) (l : VLen) (s : State) : Result :=
  accept (.vstx vd t m vi l) false s
/-- `VAMO` (R287). -/
def execVamo (op : AmoOp) (vd : VReg) (t : Ty) (g : GReg) (xb : XReg) (disp : BitVec 12) (vi : VReg) (l : VLen) (s : State) : Result :=
  accept (.vamo op vd t g xb disp vi l) false s
/-- `VADD` (R152 to R154). -/
def execVadd (o : VBin) (s : State) : Result :=
  accept (.vadd o) false s
/-- `VSUB` (R152 to R154). -/
def execVsub (o : VBin) (s : State) : Result :=
  accept (.vsub o) false s
/-- `VMUL` (R152 to R154). -/
def execVmul (o : VBin) (s : State) : Result :=
  accept (.vmul o) false s
/-- `VMIN` (R152 to R154). -/
def execVmin (o : VPair) (s : State) : Result :=
  accept (.vmin o) false s
/-- `VMAX` (R152 to R154). -/
def execVmax (o : VPair) (s : State) : Result :=
  accept (.vmax o) false s
/-- `VABS` (R152 to R154). -/
def execVabs (o : VUn) (s : State) : Result :=
  accept (.vabs o) false s
/-- `VNEG` (R152 to R154). -/
def execVneg (o : VUn) (s : State) : Result :=
  accept (.vneg o) false s
/-- `VAND` (R152 to R154). -/
def execVand (o : VPair) (s : State) : Result :=
  accept (.vand o) false s
/-- `VOR` (R152 to R154). -/
def execVor (o : VPair) (s : State) : Result :=
  accept (.vor o) false s
/-- `VXOR` (R152 to R154). -/
def execVxor (o : VPair) (s : State) : Result :=
  accept (.vxor o) false s
/-- `VSHL` (R152 to R154). -/
def execVshl (o : VPair) (s : State) : Result :=
  accept (.vshl o) false s
/-- `VSHR` (R152 to R154). -/
def execVshr (o : VPair) (s : State) : Result :=
  accept (.vshr o) false s
/-- `VSRA` (R152 to R154). -/
def execVsra (o : VPair) (s : State) : Result :=
  accept (.vsra o) false s
/-- `VMAD` (R152 to R154). -/
def execVmad (o : VTer) (s : State) : Result :=
  accept (.vmad o) false s
/-- `VMSB` (R152 to R154). -/
def execVmsb (o : VTer) (s : State) : Result :=
  accept (.vmsb o) false s
/-- `VDOT4` (R155). -/
def execVdot4 (vd : VReg) (a b c : VSrc) (signed ua ub sat : Bool) (l : VLen) (s : State) : Result :=
  accept (.vdot4 vd a b c signed ua ub sat l) false s
/-- `VCMP` (R156). -/
def execVcmp (kd : KReg) (c : VCond) (a : VSrc) (b : VArg) (t : Ty) (l : VLen) (s : State) : Result :=
  accept (.vcmp kd c a b t l) false s
/-- `VSEL` (R157). -/
def execVsel (vd : VReg) (a b : VSrc) (ks : KReg) (t : Ty) (l : VLen) (s : State) : Result :=
  accept (.vsel vd a b ks t l) false s
/-- `VMOV` (R157). -/
def execVmov (vd : VReg) (a : VSrc) (t : Ty) (l : VLen) (s : State) : Result :=
  accept (.vmov vd a t l) false s
/-- `VBCAST` (R157). -/
def execVbcast (vd : VReg) (xs : XReg) (t : Ty) (l : VLen) (s : State) : Result :=
  accept (.vbcast vd xs t l) false s
/-- `VEXT` (R158). -/
def execVext (xd : XReg) (a : VSrc) (xi : XReg) (t : Ty) (l : VLen) (s : State) : Result :=
  accept (.vext xd a xi t l) true s
/-- `VINS` (R158). -/
def execVins (vd : VReg) (xs xi : XReg) (t : Ty) (l : VLen) (s : State) : Result :=
  accept (.vins vd xs xi t l) false s
/-- `VIOTA` (R157). -/
def execViota (vd : VReg) (t : Ty) (l : VLen) (s : State) : Result :=
  accept (.viota vd t l) false s
/-- `VRED` (R159). -/
def execVred (op : RedOp) (vd : VReg) (a : VSrc) (t : Ty) (sat : Bool) (rc : RC) (l : VLen) (s : State) : Result :=
  accept (.vred op vd a t sat rc l) false s
/-- `VSCAN` (R159). -/
def execVscan (op : RedOp) (vd : VReg) (a : VSrc) (t : Ty) (sat : Bool) (rc : RC) (l : VLen) (s : State) : Result :=
  accept (.vscan op vd a t sat rc l) false s
/-- `VPERM` (R160). -/
def execVperm (vd va vb : VReg) (t : Ty) (l : VLen) (s : State) : Result :=
  accept (.vperm vd va vb t l) false s
/-- `VSLIDE_DOWN` (R160). -/
def execVslideDown (vd va : VReg) (xs : XReg) (t : Ty) (l : VLen) (s : State) : Result :=
  accept (.vslideDown vd va xs t l) false s
/-- `VSLIDE_UP` (R160). -/
def execVslideUp (vd va : VReg) (xs : XReg) (t : Ty) (l : VLen) (s : State) : Result :=
  accept (.vslideUp vd va xs t l) false s
/-- `VCOMPRESS` (R161). -/
def execVcompress (vd va : VReg) (t : Ty) (l : VLen) (s : State) : Result :=
  accept (.vcompress vd va t l) false s
/-- `VEXPAND` (R161). -/
def execVexpand (vd va : VReg) (t : Ty) (l : VLen) (s : State) : Result :=
  accept (.vexpand vd va t l) false s
/-- `VZIP` (R160). -/
def execVzip (hi : Bool) (vd va vb : VReg) (t : Ty) (l : VLen) (s : State) : Result :=
  accept (.vzip hi vd va vb t l) false s
/-- `VUNZIP` (R160). -/
def execVunzip (odd : Bool) (vd va vb : VReg) (t : Ty) (l : VLen) (s : State) : Result :=
  accept (.vunzip odd vd va vb t l) false s
/-- `KAND` (R162). -/
def execKand (d p q : KReg) (s : State) : Result :=
  accept (.kand d p q) false s
/-- `KOR` (R162). -/
def execKor (d p q : KReg) (s : State) : Result :=
  accept (.kor d p q) false s
/-- `KXOR` (R162). -/
def execKxor (d p q : KReg) (s : State) : Result :=
  accept (.kxor d p q) false s
/-- `KNOT` (R162). -/
def execKnot (d p : KReg) (s : State) : Result :=
  accept (.knot d p) false s
/-- `KMOV` (R162). -/
def execKmov (d p : KReg) (s : State) : Result :=
  accept (.kmov d p) false s
/-- `KPOP` (R162). -/
def execKpop (d : XReg) (p : KReg) (u : XReg) (s : State) : Result :=
  accept (.kpop d p u) true s
/-- `KFIRST` (R162). -/
def execKfirst (d : XReg) (p : KReg) (u : XReg) (s : State) : Result :=
  accept (.kfirst d p u) true s
/-- `KSET` (R162). -/
def execKset (d : KReg) (u : XReg) (s : State) : Result :=
  accept (.kset d u) false s
/-- `VCVT` (R166). -/
def execVcvt (o : VCv) (s : State) : Result :=
  accept (.vcvt o) false s
/-- `VPACK` (R166). -/
def execVpack (o : VCv) (s : State) : Result :=
  accept (.vpack o) false s
/-- `VUNPACK` (R166). -/
def execVunpack (o : VCv) (s : State) : Result :=
  accept (.vunpack o) false s
/-- `VAMAX` (R167). -/
def execVamax (o : VMono) (s : State) : Result :=
  accept (.vamax o) false s
/-- `VQUANT` (R168). -/
def execVquant (vd vs : VReg) (a : VSrc) (t src : Ty) (part : BitVec 3) (rc : RC) (l : VLen) (s : State) : Result :=
  accept (.vquant vd vs a t src part rc l) false s
/-- `VDEQUANT` (R169). -/
def execVdequant (vd : VReg) (a b : VSrc) (t src : Ty) (part : BitVec 3) (rc : RC) (l : VLen) (s : State) : Result :=
  accept (.vdequant vd a b t src part rc l) false s
/-- `VHAD` (R170). -/
def execVhad (vd : VReg) (a : VSrc) (t : Ty) (stage : BitVec 3) (rc : RC) (l : VLen) (s : State) : Result :=
  accept (.vhad vd a t stage rc l) false s
/-- `VHAD_PASS` (R171). -/
def execVhadPass (vd : VReg) (a : VSrc) (t : Ty) (stage : BitVec 3) (rc : RC) (l : VLen) (s : State) : Result :=
  accept (.vhadPass vd a t stage rc l) false s
/-- `VSFU_RCP` (R172, R173). -/
def execVsfuRcp (o : VMono) (s : State) : Result :=
  accept (.vsfuRcp o) false s
/-- `VSFU_RSQ` (R172, R173). -/
def execVsfuRsq (o : VMono) (s : State) : Result :=
  accept (.vsfuRsq o) false s
/-- `VSFU_SQRT` (R172, R173). -/
def execVsfuSqrt (o : VMono) (s : State) : Result :=
  accept (.vsfuSqrt o) false s
/-- `VSFU_EXP2` (R172, R173). -/
def execVsfuExp2 (o : VMono) (s : State) : Result :=
  accept (.vsfuExp2 o) false s
/-- `VSFU_LOG2` (R172, R173). -/
def execVsfuLog2 (o : VMono) (s : State) : Result :=
  accept (.vsfuLog2 o) false s
/-- `VSFU_SIN` (R172, R173). -/
def execVsfuSin (o : VMono) (s : State) : Result :=
  accept (.vsfuSin o) false s
/-- `VSFU_COS` (R172, R173). -/
def execVsfuCos (o : VMono) (s : State) : Result :=
  accept (.vsfuCos o) false s
/-- `VSFU_TANH` (R172, R173). -/
def execVsfuTanh (o : VMono) (s : State) : Result :=
  accept (.vsfuTanh o) false s
/-- `VSFU_SIGMOID` (R172, R173). -/
def execVsfuSigmoid (o : VMono) (s : State) : Result :=
  accept (.vsfuSigmoid o) false s
/-- `VSFU_GELU` (R172, R173). -/
def execVsfuGelu (o : VMono) (s : State) : Result :=
  accept (.vsfuGelu o) false s
/-- `VSFU_SILU` (R172, R173). -/
def execVsfuSilu (o : VMono) (s : State) : Result :=
  accept (.vsfuSilu o) false s

end Sys2Proof.Machine
end

