-- ==== Sys2Proof/Machine/Screen.lean ====
section
/-!
DEFINITION. Screen tiles, rays, textures, tickets and encoders: MAJ 0x70 to 0x74, TICKET_REQUEST_AT_TILE_HOME and
ENCODER_FRAME (R320 to R340). What the groups of the vector members compute is in Rays and Texture.
-/
namespace Sys2Proof.Machine

/-! ### Vector members -/

/-- `boxt` (R323). -/
def execBoxt (vd va vb : VReg) (l : VLen) (s : State) : Result := accept (.boxt vd va vb l) false s
/-- `trit` (R324). -/
def execTrit (vd va vb : VReg) (l : VLen) (s : State) : Result := accept (.trit vd va vb l) false s

/-- The instruction being accepted has an active element (R54, R236), known once no earlier one has its guard still to write. -/
def anyActiveM (t : Thread) (i : Instr) : M Bool := do
  match shapeOf i with
  | none => return false
  | some sh =>
    match sh.l with
    | none => return false
    | some l =>
      untilSeq (l.kg = 0 || !t.held.any fun e => e.shape.kwrites.any (·.1 == l.kg))
      return (List.range (vlAt t i sh)).any (t.active l.kg)

/-- The descriptor of a texture instruction at x(R), read and checked (R327). -/
def descriptorM (t : Thread) (g : GReg) (xr : XReg) : M (List Word) := do
  let o := t.getX xr
  if ((t.getG g).refuses o 64 1 .read).isNone && o.toNat % 64 != 0 then trapM Cause.misalignedAccess o
  else
    let d := doublesOf 8 (← recordM t (t.getG g) o 64 64)
    if (readTex d).isNone then trapM Cause.badHandle o else return d

/-- Acceptance of a texture instruction: its descriptor is held in the entry (R327). With no active element it makes no access
(R236). -/
def acceptTex (i : Instr) (g : GReg) (xr : XReg) (s : State) : Result :=
  runThread i s fun t => do
    let active ← anyActiveM t i
    let d ← if active then descriptorM t g xr else pure (List.replicate 8 0)
    acceptM t i false d

/-- `tsamp.grad` (R327). -/
def execTsampGrad (vd va vb : VReg) (g : GReg) (xr : XReg) (l : VLen) (s : State) : Result :=
  acceptTex (.tsampGrad vd va vb g xr l) g xr s
/-- `tsamp.lod` (R327). -/
def execTsampLod (vd va : VReg) (g : GReg) (xr : XReg) (l : VLen) (s : State) : Result :=
  acceptTex (.tsampLod vd va g xr l) g xr s
/-- `tsamp.base` (R327). -/
def execTsampBase (vd va : VReg) (g : GReg) (xr : XReg) (l : VLen) (s : State) : Result :=
  acceptTex (.tsampBase vd va g xr l) g xr s
/-- `tfetch` (R327, R330). -/
def execTfetch (vd va : VReg) (g : GReg) (xr : XReg) (l : VLen) (s : State) : Result := acceptTex (.tfetch vd va g xr l) g xr s

/-- `vmm8` (R332): the checks of the matrix are made at acceptance, with an active element (R236). -/
def execVmm8 (e5 : Bool) (vd : VReg) (a c : VSrc) (xr : XReg) (l : VLen) (s : State) : Result :=
  runThread (.vmm8 e5 vd a c xr l) s fun t => do
    let o := t.getX xr
    let active ← anyActiveM t (.vmm8 e5 vd a c xr l)
    if !active then acceptM t (.vmm8 e5 vd a c xr l) false
    else if o.toNat % 64 ≠ 0 then trapM Cause.misalignedAccess o
    else
      let s ← get
      match allotMiss (s.gangOf t) o.toNat 1056 with
      | some m => trapM Cause.segmentLimit (BitVec.ofNat 64 m)
      | none =>
        padCheckM t o.toNat 1056
        acceptM t (.vmm8 e5 vd a c xr l) false

/-! ### Blends (R337, R338) -/

/-- A colour channel of a blend: mode, source and its alpha, old value. -/
def blendColour (op s sa d : Nat) : Nat :=
  match op with
  | 0 => s
  | 1 => (s * sa + d * (255 - sa) + 127) / 255
  | 2 => min 255 (s + d)
  | 3 => (s * d + 127) / 255
  | 4 => min 255 (s + (d * (255 - sa) + 127) / 255)
  | 5 => min s d
  | _ => max s d

/-- The alpha channel of a blend. -/
def blendAlpha (op sa da : Nat) : Nat :=
  match op with
  | 0 => sa
  | 1 | 4 => sa + (da * (255 - sa) + 127) / 255
  | 2 => min 255 (sa + da)
  | 3 => (sa * da + 127) / 255
  | 5 => min sa da
  | _ => max sa da

/-- Byte `i` of a tile after a commit, from its old bytes. -/
def blendByte (c : Commit) (old : List Byte) (i : Nat) : Byte :=
  let at' (l : List Byte) (j : Nat) : Nat := ((l[j]?).getD 0).toNat
  let sa := at' c.src (i / 4 * 4 + 3)
  if !c.mask.getLsbD (i / 4) || c.retire then BitVec.ofNat 8 (at' old i)
  else if i % 4 = 3 then BitVec.ofNat 8 (blendAlpha c.op sa (at' old i))
  else BitVec.ofNat 8 (blendColour c.op (at' c.src i) sa (at' old i))

namespace State

/-- Apply a commit to the tile at a physical address: an engine operation at the homes of its two lines, of which every holder
writes back and discards its copies first, and whose poison stays (R338). -/
def blend (s : State) (ctx pa : Nat) (c : Commit) : State :=
  if c.retire then s
  else
    let s := s.eachLine pa 256 State.settleWrite
    let old := s.bytesAt pa 256
    s.engineWrite ctx pa ((List.range 256).map (blendByte c old))

/-! ### Tile homes (R333 to R336) -/

/-- Put a tile's entry; it is released once APPLIED = TAKEN and nothing is buffered. -/
def putTile (s : State) (pa : Nat) (e : Tile) : State :=
  if e.applied == e.taken && e.commits.isEmpty && e.waiting.isEmpty then { s with tiles := Map.del s.tiles pa }
  else { s with tiles := Map.put s.tiles pa e }

/-- The answer to ticket request `n` of a thread. -/
def answerTicket (s : State) (n key : Nat) (a : Word) : State :=
  s.onThread key fun t =>
    match t.status with
    | .waiting w =>
      if w.asked == .ticket n none then { t with status := .waiting { w with asked := .ticket n (some a), woken := true } } else t
    | _ => t

end State

/-- Ticket `k` is outstanding (R333). -/
def Tile.outstanding (e : Tile) (k : BitVec 32) : Bool :=
  decide ((k - e.applied).toNat < (e.taken - e.applied).toNat) && !e.commits.any fun c => c.ticket == k

/-- Buffered commits a tile may hold. -/
def commitRoom : Nat := 64

namespace State

/-- Take a commit into the buffer of a tile, answer it with 2, or say that it finds no room (R336). -/
def takeCommit (s : State) (n key : Nat) (e : Tile) (c : Commit) : Option (State × Tile) :=
  if !e.outstanding c.ticket then some (s.answerTicket n key 2, e)
  else if c.ticket != e.applied && decide (commitRoom ≤ e.commits.length) then none
  else some (s.answerTicket n key 0, { e with commits := e.commits ++ [c] })

/-- Apply what is next, then take the first waiting commit that can be, until nothing moves: `fuel` moves. One of ticket APPLIED
never waits, whatever stands before it (R336, R337). -/
def chase (s : State) (pa : Nat) (e : Tile) : Nat → State × Tile
  | 0 => (s, e)
  | fuel + 1 =>
    match e.commits.find? fun c => c.ticket == e.applied with
    | some c =>
      (s.blend e.ctx pa c).chase pa { e with applied := e.applied + 1, commits := e.commits.filter fun d => d.ticket != c.ticket } fuel
    | none =>
      match e.waiting.find? fun w => (s.takeCommit w.1 w.2.1 e w.2.2).isSome with
      | none => (s, e)
      | some w =>
        match s.takeCommit w.1 w.2.1 e w.2.2 with
        | some (s, e) => s.chase pa { e with waiting := e.waiting.filter fun x => x.1 != w.1 } fuel
        | none => (s, e)

/-- A ticket request reaches its tile home (R335, R336). -/
def serveTicket (s : State) (n : Nat) : State :=
  match Map.get? s.tickets n with
  | none => s
  | some r =>
    let s := { s with tickets := Map.del s.tickets n }
    let entry := Map.get? s.tiles r.tile
    match r.op with
    | .peek =>
      s.answerTicket n r.key (match entry with
        | some e => BitVec.ofNat 64 (e.taken.toNat * 2 ^ 32 + e.applied.toNat)
        | none => 0)
    | .get =>
      match entry with
      | none =>
        if !s.pinFits r.part r.tile then s.answerTicket n r.key (BitVec.ofNat 64 (2 ^ 60))
        else ((s.putTile r.tile ⟨r.ctx, r.part, 1, 0, [], []⟩).pinTile r.part r.tile).answerTicket n r.key 0
      | some e =>
        if (e.taken - e.applied).toNat = 2 ^ 31 then s.answerTicket n r.key (BitVec.ofNat 64 (2 * 2 ^ 60))
        else (s.putTile r.tile { e with taken := e.taken + 1 }).answerTicket n r.key (zx e.taken)
    | .commit c once =>
      match entry with
      | none => s.answerTicket n r.key 2
      | some e =>
        match s.takeCommit n r.key e c with
        | some (s, e) =>
          let (s, e) := s.chase r.tile e (2 * (e.commits.length + e.waiting.length) + 1)
          s.putTile r.tile e
        | none =>
          if once then s.answerTicket n r.key 1
          else s.putTile r.tile { e with waiting := e.waiting ++ [(n, r.key, c)] }

end State

/-- TICKET_REQUEST_AT_TILE_HOME (R335, R336): request `ev.a` reaches its tile home. -/
def execTicketRequestAtTileHome (s : State) : Result := .next (s.serveTicket s.ev.a)

/-! ### Ticket instructions (R334) -/

/-- The physical address of a tile, checked as 256 bytes of kind atomic (R334). -/
def tileM (t : Thread) (g : Segment) (o : Word) : M Nat := do
  if g.type = .scratch ∨ g.type = .peer then trapM Cause.segmentRights o
  else
    let p ← accessM t g o 256 256 .atomic
    let s ← get
    match p with
    | .mem pa va leaf =>
      if s.sharedFrame pa then trapM Cause.pagePermission (BitVec.ofNat 64 va)
      else
        homeM t pa va leaf none
        return pa
    | .peer _ va => trapM Cause.pagePermission (BitVec.ofNat 64 va)
    | .pad _ => trapM Cause.segmentRights o

/-- Send a request to a tile home and wait for its answer. -/
def ticketAnswer (t : Thread) (r : Reason) (pa : Nat) (op : TicketOp) : M Ending := do
  let s ← get
  let req : TicketReq := ⟨t.key, t.ctx, t.part, pa, op⟩
  set { s with tickets := s.tickets ++ [(s.nextTicket, req)], nextTicket := s.nextTicket + 1 }
  waitM r 0 (.ticket s.nextTicket none)

/-- A ticket instruction: its answer once it has come, else its request, made by `ask`. -/
def ticketM' (t : Thread) (d : XReg) (r : Reason) (ask : M Ending) : M Ending :=
  match t.asked with
  | .ticket _ (some a) => answerM t d a
  | .ticket n none => waitM r 0 (.ticket n none)
  | _ => ask

/-- `tkget` (R335). -/
def execTkget (d : XReg) (gp : GReg) (q : XReg) (s : State) : Result :=
  runThread (.tkget d gp q) s fun t => ticketM' t d .load do
    let pa ← tileM t (t.getG gp) (t.getX q)
    ticketAnswer t .load pa .get

/-- `tkget.peek` (R335). -/
def execTkgetPeek (d : XReg) (gp : GReg) (q : XReg) (s : State) : Result :=
  runThread (.tkgetPeek d gp q) s fun t => ticketM' t d .load do
    let pa ← tileM t (t.getG gp) (t.getX q)
    ticketAnswer t .load pa .peek

/-- The registers the sequencer has still to write. -/
def Thread.owesReg (t : Thread) (v : VReg) : Bool :=
  t.held.any fun e => e.shape.writes.any (·.1 == v)

/-- `tkcommit` and `tkcommit.try` (R336): a fork, so that the thread's earlier accesses are performed first (R338). -/
def commitM (t : Thread) (d : XReg) (gp : GReg) (q u : XReg) (vw : VReg) (once : Bool) : M Ending :=
  ticketM' t d .sequencer do
    let pa ← tileM t (t.getG gp) (t.getX q)
    let x := t.getX u
    if fieldAt x 36 28 ≠ 0 ∨ 7 ≤ fieldAt x 32 4 then answerM t d 3
    else
      untilSeq (decide (t.entriesTaken < Config.seqEntries) && !t.owesReg vw && t.memoryClear)
      let s ← get
      if s.owes t.key then waitM .sequencer
      else
        let v := t.getV vw
        let src := (List.range 256).map fun i => v.extractLsb' (8 * i) 8
        ticketAnswer t .sequencer pa (.commit ⟨t.key, x.setWidth 32, fieldAt x 32 4, t.getX (u + 1), src, false⟩ once)

/-- `tkcommit` (R336). -/
def execTkcommit (d : XReg) (gp : GReg) (q u : XReg) (vw : VReg) (s : State) : Result :=
  runThread (.tkcommit d gp q u vw) s fun t => commitM t d gp q u vw false
/-- `tkcommit.try` (R336). -/
def execTkcommitTry (d : XReg) (gp : GReg) (q u : XReg) (vw : VReg) (s : State) : Result :=
  runThread (.tkcommitTry d gp q u vw) s fun t => commitM t d gp q u vw true

/-- `tkretire` (R336): a commit that changes no pixel; OP has no meaning. -/
def execTkretire (d : XReg) (gp : GReg) (q u : XReg) (s : State) : Result :=
  runThread (.tkretire d gp q u) s fun t => ticketM' t d .load do
    let pa ← tileM t (t.getG gp) (t.getX q)
    let x := t.getX u
    if fieldAt x 36 28 ≠ 0 then answerM t d 3
    else ticketAnswer t .load pa (.commit ⟨t.key, x.setWidth 32, 0, 0, [], true⟩ false)

/-! ### Encoders (R340) -/

/-- What an encoder finds at a tile of a frame. -/
inductive TileRead where
  | ok (pa : Option Nat)
  | absent
  | bad (kind : BitVec 8) (payload : Nat)
  deriving DecidableEq, Repr

namespace State

/-- The tile of a frame at a virtual address, through the tables of the pushing context. -/
def frameTile (s : State) (ctx part va : Nat) : TileRead :=
  match walk s ctx va with
  | .absent => .absent
  | .refused _ => .bad 0x23 (va / 128)
  | .poisoned p => .bad 0x24 (p / 16)
  | .leaf e size _ =>
    let pa := s.leafPa ctx va e size
    if !leafPermits e .read then .bad 0x23 (va / 128)
    else if pteLoc e == 2 then .ok none
    else if !s.ownerOk ctx part pa then .bad 0x23 (va / 128)
    else match s.poisoned pa 256 with
      | some p => .bad 0x24 (p / 16)
      | none => .ok (some pa)

/-- Write bytes into an encoder's output ring in host memory; copies of tracked lines of it give way (R262, R268). -/
def putOutput (s : State) (base size : Nat) : Nat → List Byte → State
  | _, [] => s
  | i, b :: bs =>
    let a := farBase + base + i % size
    (if size = 0 then s else (s.settleWrite a).setByte a b).putOutput base size (i + 1) bs

/-- Write the bitstream of a frame of a stream. -/
def encode' (s : State) (ctx : Option Nat) (n : Nat) (e : EncStream) (last : Bool) : State :=
  let (f, s) := s.takeFree
  let bs := Config.bitstream f n
  let s := s.putOutput e.base e.size e.written bs
  let u := e.engine
  let s := ((s.count 5 u ctx 0x50 1).count 5 u ctx 0x51 (e.width * e.height)).count 5 u ctx 0x52 bs.length
  { s with encoders := Map.put s.encoders n { e with written := e.written + bs.length, ended := e.ended || last } }

/-- The virtual addresses of the tiles of a frame. -/
def frameVas (e : EncStream) (arg : Word) (stride : Word) : List Nat :=
  (List.range (e.width * e.height)).map fun i => (arg + BitVec.ofNat 64 i * stride).toNat

/-- An encoder serves the oldest entry of an encoder sprue: the frame waits for absent pages, is dropped at a fault or
poison, else is read at its homes and encoded. -/
def serveFrame (s : State) (ctx h : Nat) : State :=
  match s.ctx? ctx, s.sprue? ctx h with
  | some c, some q =>
    let n := c.part * 65536 + fieldAt q.enc 0 16
    match q.kind, q.entries, Map.get? s.encoders n with
    | .encoder, entry :: rest, some e =>
      let tiles := (frameVas e ((entry.words[1]?).getD 0) q.tstride).map (s.frameTile ctx c.part)
      let popped := s.putSprue ctx h { q with entries := rest }
      match tiles.find? fun r => match r with | .ok _ => false | _ => true with
      | some .absent => s
      | some (.bad kind v) =>
        let qs := match Map.get? s.parts c.part with | some p => p.quarters | none => []
        let core := qs.headD 0 / 4 * 8
        ((popped.count 5 e.engine (some ctx) 0x53 1).assayFrom (0x668 + e.engine) core 0 kind v).sprueChild ctx q false true
      | _ =>
        let read := tiles.foldl (fun s r => match r with
          | .ok (some pa) => ((s.observeOutside pa 256).engineRead ctx pa 256).2
          | _ => s) popped
        (read.encode' (some ctx) n e (((entry.words[3]?).getD 0).getLsbD 8)).sprueChild ctx q false false
    | _, _, _ => s
  | _, _ => s

end State

/-- ENCODER_FRAME (R340): an encoder serves the oldest entry of sprue `ev.b` of context `ev.a`. -/
def execEncoderFrame (s : State) : Result := .next (s.serveFrame s.ev.a s.ev.b)

end Sys2Proof.Machine
end

