-- ==== Sys2Proof/Machine/Owner.lean ====
section
/-!
DEFINITION. Mailbox commands about a context, issued by its owning function or the PF (R297, R299, R307, R340, R346, R347,
R357, R367, R375, R377, R392, R416, R417).
-/
namespace Sys2Proof.Machine

/-! ### The entry a command names (R416, R417) -/

namespace State

/-- An entry lies in the range of a function, and is Free or the function's own (R346, R416). -/
def mayName (s : State) (fn entry : Nat) : Bool :=
  fn == 0 ||
  (let f := s.fn fn
   decide (f.first ≤ entry) && decide (entry < f.first + f.count)
     && match s.ctx? entry with
        | some c => c.fn == fn
        | none => true)

end State

/-- A command about the context whose entry is in bits `lo` + 10:`lo` of D0: refused for an entry out of range, Free, or, for
any command but destruction, Faulted (R347). -/
def contextCommand (op : BitVec 16) (lo : Nat) (formed : List Word → Bool) (faulted : Bool)
    (body : State → Nat → List Word → Nat → Ctx → Reply) (s : State) : Result :=
  listed op false false (fun s n ws =>
    let entry := fieldAt (pay ws 0) lo 11
    if !formed ws then .refused 2
    else if !s.mayName n entry then .refused 1
    else match s.ctx? entry with
      | none => .refused 2
      | some c => if c.state == .faulted && !faulted then .refused 1 else body s n ws entry c) s

/-- D0 names an entry and nothing else. -/
def entryOnly (ws : List Word) : Bool := within (pay ws 0) [(0, 11)]

/-! ### Creation and destruction (R346, R347) -/

/-- The context that an entry of R346 describes, when no reserved bit is set and its fields are as R346 asks. -/
def readCtx (ws : List Word) : Option Ctx :=
  let d (i : Nat) : Word := pay ws (i + 1)
  let addr (w : Word) : Nat := fieldAt w 16 36 * 65536
  let c : Ctx := {
    fn := fieldAt (d 0) 16 8, part := fieldAt (d 0) 0 6, state := .idle, auto := (d 0).getLsbD 28, nptrap := (d 0).getLsbD 27
    prio := (d 0).extractLsb' 24 3, root := addr (d 1), savebase := addr (d 2), nsprue := fieldAt (d 3) 56 6
    hot := fieldAt (d 3) 40 16, rth := fieldAt (d 3) 32 8, softlim := fieldAt (d 3) 0 32, wsmax := fieldAt (d 4) 32 32
    nquota := fieldAt (d 4) 0 32, farbase := addr (d 5), farloc := fieldAt (d 6) 32 2, peer := fieldAt (d 6) 34 10
    farsize := fieldAt (d 6) 0 32, throttle := false, gates := [], seamRegion := none, energy := 0
    counters := [(0, { Counter.fresh with state := .opened, level := 3 })], phases := [], sprues := [], launches := []
    nextLaunch := 0, launchId := 0, managed := [], reported := [], recorded := [], unrecorded := 0, ringMsgs := [], savedRows := []
    savedBad := [], savedCores := [], shorten := 0, autoQueue := [] }
  let ok := within (d 0) [(27, 2), (24, 3), (16, 8), (0, 6)] && within (d 1) [(16, 36)] && within (d 2) [(16, 36)]
    && within (d 3) [(56, 6), (40, 16), (0, 40)] && within (d 5) [(16, 36)] && within (d 6) [(0, 44)] && d 7 == 0
    && decide (c.fn ≤ 128) && c.farloc != 3
    && (c.farloc != 0 || (c.farbase == 0 && c.farsize == 0 && c.peer == 0))
  if ok then some c else none

/-- Contexts that a function owns (R25). -/
def State.ownedBy (s : State) (fn : Nat) : Nat := (s.ctxs.filter fun c => c.2.fn == fn).length

/-- CTXCREATE (R25, R258, R345 to R347, R417): a VF owns 16 contexts at most, and the counter blocks are pinned (log entry 98). -/
def execCtxcreate (s : State) : Result :=
  listed 0x0020 false false (fun s n ws =>
    let entry := fieldAt (pay ws 0) 0 11
    if !entryOnly ws || !clearFrom ws 9 then .refused 2
    else if !s.mayName n entry then .refused 1
    else match readCtx ws with
      | none => .refused 2
      | some c => match s.part? c.part with
        | none => .refused 2
        | some p =>
          if n != 0 && c.fn != n then .refused 1
          else if p.isSealed && c.farloc == 2 then .refused 2
          else if (s.ctx? entry).isSome then .refused 4
          else if c.fn ≠ 0 ∧ 16 ≤ s.ownedBy c.fn then .refused 3
          else if !(s.putCtx entry c).pinsHold c.part then .refused 3
          else .done ((s.putCtx entry c).rekeyFor p (s.framesOf 2 entry)) []) s

namespace State

/-- A partition's quarters stand empty: its cores hold no request and no grant (R352). -/
def emptyQuarters (s : State) (part : Nat) (p : Part) : State :=
  let s := s.putPart part { p with running := none, next := none, phase := .settled, give := false, stretched := false }
  p.cores.foldl (fun s k => s.putCore k { s.core k with requests := .zero, grants := .zero, point := false }) s

/-- A partition lets go of a context that is destroyed. -/
def leavePart (s : State) (part n : Nat) : State :=
  match s.part? part with
  | none => s
  | some p =>
    let out := match p.phase with | .saving c _ => c == n | _ => false
    if out || p.running == some n then s.emptyQuarters part p
    else if p.next == some n then s.putPart part { p with next := none }
    else s

/-- Caches, slices and TLBs give up what they hold under an entry: lines leave as by an eviction, which may happen at any time
(log entry 24). -/
def purge (s : State) (n : Nat) : State :=
  let s : State := (s.benches.foldl (fun (s : State) b => s.evictAll b.1 (·.ctx == n)) s).dropSlices n
  { s with
    dieTlbs := s.dieTlbs.map fun d => (d.1, d.2.filter (·.ctx != n))
    benches := s.benches.map fun b => (b.1, { b.2 with
      il1 := b.2.il1.filter (·.ctx != n), tlb := b.2.tlb.filter (·.ctx != n) }) }

/-- Number of frames of a context's save area. -/
def saveLength (s : State) (c : Ctx) : Nat :=
  let q := match s.part? c.part with | some p => p.quarters.length | none => 0
  (recordsAt c - c.savebase + q * quarterRecord) / frameBytes

/-- Frames of a context's save area. -/
def saveFrames (s : State) (c : Ctx) : List Nat := (List.range (s.saveLength c)).map (c.savebase / frameBytes + ·)

/-- A context is destroyed: its job counter is cancelled, its objects dropped, its ticket entries released, its migrations
ended and its pool frames returned; what a sealed partition's context owned or saved is zeroed (R264, R317, R339, R345, R347,
R362). -/
def destroyCtx (s : State) (n : Nat) : State :=
  match s.ctx? n with
  | none => s
  | some c =>
    let s := s.beginCancel n 0
    let gone := s.threads.filter (·.2.ctx == n)
    let s : State := gone.foldl (fun (s : State) t => s.stopThread 0 t.2) s
    let objs := (s.objs.filter (·.2.ctx == n)).map (·.1)
    let s : State := objs.foldl (fun (s : State) o => s.dropObject o) s
    let s := if objs.isEmpty then s else s.announce n (s.partBenches c.part) .object
    let s : State := { s.purge n with
      gangs := s.gangs.filter (·.2.ctx != n), tiles := s.tiles.filter (·.2.ctx != n), tickets := s.tickets.filter (·.2.ctx != n)
      migrations := s.migrations.filter (·.ctx != n), hotPages := s.hotPages.filter (·.1 != n), ctxs := Map.del s.ctxs n }
    let s := s.leavePart c.part n
    let isSealed := match s.part? c.part with | some p => p.isSealed | none => false
    if isSealed then
      s.zeroFrames ((s.framesOf 2 n) ++ (s.saveFrames c).filter fun f =>
        let e := s.owner f
        (ownerKind e == 1 && ownerNumber e == c.part) || (ownerKind e == 2 && ownerNumber e == n))
    else s

end State

/-- CTXDESTROY (R347). -/
def execCtxdestroy (s : State) : Result :=
  contextCommand 0x0021 0 (fun ws => entryOnly ws && clearFrom ws 1) true (fun s _ _ n _ => .done (s.destroyCtx n) []) s

/-- CTXPOLICY (R392). -/
def execCtxpolicy (s : State) : Result :=
  contextCommand 0x0022 0 (fun ws => entryOnly ws && within (pay ws 1) [(0, 1)] && clearFrom ws 2) false (fun s _ ws n c =>
    .done ((s.putCtx n { c with throttle := (pay ws 1).getLsbD 0 }).admitPhases n) []) s

/-! ### Pages (R245, R357) -/

namespace State

/-- The threads of a context that wait for a page of a range are woken: the function that makes pages present sends the wake
(R248). -/
def wakeRange (s : State) (ctx va n : Nat) : State :=
  let pages := s.threads.flatMap fun t => match t.2.waitOf with
    | some w => if t.2.ctx == ctx then (match w.asked with
        | .pages vas => vas
        | .handler _ vas => vas
        | _ => []) else []
    | none => []
  (pages.filter fun a => decide (va ≤ a / frameBytes * frameBytes) && decide (a < va + n)).eraseDups.foldl
    (fun s a => s.wakePage ctx a) s

end State

/-- SHOOTDOWN (R245, R417): the command ends when the announcement has reached every bench. -/
def execShootdown (s : State) : Result :=
  contextCommand 0x0023 0 (fun ws => entryOnly ws && within (pay ws 1) [(16, 39)] && within (pay ws 2) [(0, 32)] && clearFrom ws 3)
    false (fun s _ ws n c =>
      let count := fieldAt (pay ws 2) 0 32
      let va := if count = 0 then 0 else (pay ws 1).toNat
      let len := if count = 0 then 2 ^ 55 else count * frameBytes
      let s := (s.wakeRange n va len).announce n (s.partBenches c.part) (.shootdown n va len)
      .running s [] (.ring (s.nextRing - 1))) s

/-- Address of the level-3 entry of a page of a context, when its tables are there, formed and owned (R243, R247). -/
def leafPlace (s : State) (n : Nat) (c : Ctx) (va : Nat) : Option Nat :=
  if 2 ^ 55 ≤ va then none
  else
    let rec go (table : Nat) : List Nat → Option Nat
      | [] => if s.ownerOk n c.part (table + 8 * pageIndex 3 va) then some (table + 8 * pageIndex 3 va) else none
      | lvl :: rest =>
        let a := table + 8 * pageIndex lvl va
        let e := s.doubleAt a
        if !s.ownerOk n c.part a || !pteBit e 0 || pteMalformed lvl e || pteBit e 1 then none else go (pteFrame e) rest
    go c.root [1, 2]

/-- Level-3 entries of some pages, when all have theirs. -/
def leafPlaces (s : State) (n : Nat) (c : Ctx) : List Nat → Option (List (Nat × Nat))
  | [] => some []
  | va :: rest =>
    match leafPlace s n c va, leafPlaces s n c rest with
    | some a, some l => some ((va, a) :: l)
    | _, _ => none

/-- A LADLEMAP payload is well formed (R417). -/
def ladleFormed (ws : List Word) : Bool :=
  within (pay ws 0) [(0, 11), (16, 1)] && within (pay ws 1) [(16, 39)] && within (pay ws 2) [(0, 32)]
    && within (pay ws 3) [(0, 35)] && clearFrom ws 4

/-- Virtual addresses of a LADLEMAP's pages. -/
def ladlePages (ws : List Word) : List Nat := (List.range (fieldAt (pay ws 2) 0 32)).map fun i => (pay ws 1).toNat + i * frameBytes

/-- The leaf the ladle writes for a page in a unit of the swap region (R417). -/
def farLeaf (c : Ctx) (unit : Nat) (t w x : Bool) : Word :=
  BitVec.ofNat 64 ((if c.farloc == 2 then c.peer * 2 ^ 52 else 0) + (c.farbase / frameBytes + unit) % 2 ^ 36 * 2 ^ 16
    + (if x then 512 else 0) + (if w then 256 else 0) + 128 + (if t then 32 else 0) + c.farloc * 4 + 3)

namespace State

/-- A page is managed no more: its migration ends, and its pool frame is free (R357, R362). -/
def dropPage (s : State) (n va : Nat) : State :=
  match s.ctx? n with
  | none => s
  | some c => { s.putCtx n { c with managed := Map.del c.managed va } with
      migrations := s.migrations.filter fun m => !(m.ctx == n && m.va == va) }

/-- Enter a page in a unit of the swap region, with its leaf at `place` (R357, R417); a sealed partition's key makes free values of
what the host has left there (R345; log entry 90). -/
def mapPage (s : State) (n : Nat) (unit : Nat) (t w x : Bool) (va place : Nat) : State :=
  let s := s.dropPage n va
  match s.ctx? n with
  | none => s
  | some c =>
    let s := (s.putCtx n { c with managed := Map.put c.managed va ⟨unit, none, 0, t, w, x⟩ }).putLeaf n place (farLeaf c unit t w x)
    let pa := s.unitPa n c unit
    let s := if s.ctxSealed n then s.scramble pa else s
    { s with attrs := Map.del s.attrs (pa / frameBytes) }.wakePage n va

end State

/-- What LADLEMAP checks for every page before it writes any leaf: the context has far memory, every unit lies below FARSIZE, and
every leaf has its tables (R417). -/
def ladleChecked (s : State) (fn : Nat) (ws : List Word) (n : Nat) (c : Ctx) : Except (BitVec 8) (List (Nat × Nat)) :=
  let pages := ladlePages ws
  if fn = 0 ∧ s.boundPart c.part then .error 1
  else if c.farloc = 0 ∨ (pages ≠ [] ∧ c.farsize < fieldAt (pay ws 3) 0 32 + pages.length) then .error 3
  else match leafPlaces s n c pages with
    | none => .error 2
    | some ps => .ok ps

/-- Pages withdrawn: P is cleared in each leaf, a pool frame comes back, and a shootdown is announced (R417). -/
def ladleUnmap (s : State) (ws : List Word) (n : Nat) (c : Ctx) (ps : List (Nat × Nat)) : Reply :=
  let s : State := ps.foldl (fun (s : State) p => (s.putLeaf n p.2 (s.doubleAt p.2 &&& ~~~1)).dropPage n p.1) s
  let s := s.announce n (s.partBenches c.part) (.shootdown n (pay ws 1).toNat (ps.length * frameBytes))
  .running s [] (.ring (s.nextRing - 1))

/-- Pages entered (R357, R417). -/
def ladleMap (s : State) (ws : List Word) (n : Nat) (ps : List (Nat × Nat)) : Reply :=
  let bit (i : Nat) : Bool := (pay ws 3).getLsbD i
  .done (((List.range ps.length).zip ps).foldl (fun s p =>
    s.mapPage n (fieldAt (pay ws 3) 0 32 + p.1) (bit 32) (bit 33) (bit 34) p.2.1 p.2.2) s) []

/-- A LADLEMAP: bit 16 of D0 says whether its pages are withdrawn (R357, R417). -/
def ladlemap (s : State) : Result :=
  contextCommand 0x0024 0 ladleFormed false (fun s fn ws n c =>
    match ladleChecked s fn ws n c with
    | .error r => .refused r
    | .ok ps => if (pay ws 0).getLsbD 16 then ladleUnmap s ws n c ps else ladleMap s ws n ps) s

/-- LADLEMAP, pages entered (R357, R417). -/
def execLadlemap (s : State) : Result := ladlemap s
/-- LADLEMAP with bit 16, pages withdrawn (R357, R417). -/
def execLadlemapUnmap (s : State) : Result := ladlemap s

/-! ### Sprues (R297, R299, R307) -/

/-- The sprue a descriptor describes, when no reserved bit is set and every field is in its range (R297, R340). -/
def readSprue (ws : List Word) : Option Sprue :=
  let d (i : Nat) : Word := pay ws (i + 2)
  let kind : SprueKind := match fieldAt (d 0) 0 2 with | 0 => .fifo | 1 => .sorted | 2 => .tile | _ => .encoder
  let q : Sprue := ⟨kind, (d 0).extractLsb' 4 3, fieldAt (d 0) 16 5, fieldAt (d 0) 32 12, d 1, (d 2).toNat, d 3, [], [], 0, 0⟩
  let ok := within (d 0) [(32, 12), (16, 5), (4, 3), (0, 2)] && within (d 2) [(0, 55)] && within (d 3) [(0, 16)] && clearFrom ws 6
    && decide (4 ≤ q.logcap) && decide (q.logcap ≤ 16) && (d 1).toNat % 256 == 0
    && (d 1 == 0 || kind == .tile || kind == .encoder) && (d 2 == 0 || kind == .tile) && (d 3 == 0 || kind == .encoder)
  if ok then some q else none

/-- SPRUECREATE (R258, R297, R299): its storage is pinned, and DONEC opens as the sprue's counter (log entry 98). -/
def execSpruecreate (s : State) : Result :=
  contextCommand 0x0025 0 (fun ws => entryOnly ws && within (pay ws 1) [(0, 6)] && (readSprue ws).isSome) false (fun s _ ws n c =>
    let h := (pay ws 1).toNat
    match readSprue ws with
    | none => .refused 2
    | some q =>
      if (Map.get? c.sprues h).isSome then .refused 4
      else if !(s.putSprue n h q).pinsHold c.part then .refused 3
      else if q.donec = State.noCounter then .done (s.putSprue n h q) []
      else if q.donec = 0 ∨ (s.counter n q.donec).state = .opened then .refused 4
      else .done ((s.openCounter n q.donec 4 0 false State.noCounter).putSprue n h q) []) s

/-- SPRUEDESTROY (R299): entries left are discarded with ERR and STATE 3; without any, the counter is sealed. -/
def execSpruedestroy (s : State) : Result :=
  contextCommand 0x0026 0 (fun ws => entryOnly ws && within (pay ws 1) [(0, 6)] && clearFrom ws 2) false (fun s _ ws n c =>
    let h := (pay ws 1).toNat
    match Map.get? c.sprues h with
    | none => .refused 2
    | some q =>
      let s := s.putCtx n { c with sprues := Map.del c.sprues h }
      let k := s.counter n q.donec
      if q.donec = State.noCounter then .done s []
      else if q.entries.isEmpty && q.taken.isEmpty then .done (s.sealCounter n q.donec) []
      else
        let k := { k with err := true, sealed := true, state := .cancelled, cancelling := false }
        .done ((s.putCounter n q.donec k).sweep n) []) s

/-- CTXSTART (R307): the launch record and its descriptors lie in the payload. -/
def execCtxstart (s : State) : Result :=
  contextCommand 0x002B 0 (fun ws => entryOnly ws && ((ws.drop 1).take 7).all (· == 0) && clearFrom ws 48) false (fun s _ ws n c =>
    if s.hasWork n then .refused 4
    else
      let d := (List.range 8).map fun i => pay ws (8 + i)
      let r := readLaunch s.ownNumber d ((List.range 32).map fun i => pay ws (16 + i))
      let formed := match r with
        | some r => if fieldAt (pay ws 10) 0 55 = 0 ∧ r.parent = State.noCounter then some r else none
        | none => none
      let st := s.launchStatus n c.part formed
      match formed with
      | some r => .words (if st = 0 then s.queueLaunch n r 0 else s) [BitVec.ofNat 64 (st * 2 ^ 60)]
      | none => .words s [BitVec.ofNat 64 (st * 2 ^ 60)]) s

/-! ### Seams and faults (R367, R375 to R377) -/

/-- A gate entry has no reserved bit set (R376). -/
def gateClear (d : List Word) : Bool :=
  let w (i : Nat) : Word := (d[i]?).getD 0
  within (w 0) [(0, 48)] && within (w 1) [(0, 48)] && within (w 2) [(8, 44)] && within (w 3) [(16, 48)]
    && within (w 4) [(24, 6), (16, 6), (4, 8)] && within (w 5) [(0, 5)] && w 6 == 0 && w 7 == 0

/-- A gate entry has no reserved bit set and every field in its range (R375, R376). -/
def gateFormed (d : List Word) : Bool :=
  let g := readGate d
  gateClear d && g.xres != 0 && g.maxd != 0
    && (if g.sreg = 0 then g.stklog == 0 else decide (12 ≤ g.stklog) && decide (g.stklog ≤ 30))

/-- D1 of a GATEWRITE names a gate. -/
def gateNamed (ws : List Word) : Bool := entryOnly ws && within (pay ws 1) [(0, 9)] && clearFrom ws 10

/-- A GATEWRITE: the entry is replaced whole or, by bit 8 of D1, withdrawn; the fields of one that is withdrawn need be in no range
(R375, R376, R417). -/
def gatewrite (s : State) : Result :=
  contextCommand 0x0027 0 gateNamed false (fun s _ ws n c =>
    let d := (List.range 8).map fun i => pay ws (2 + i)
    let gate := fieldAt (pay ws 1) 0 8
    if (pay ws 1).getLsbD 8 then
      if gateClear d then .done (s.putCtx n { c with gates := Map.del c.gates gate }) [] else .refused 2
    else if gateFormed d then .done (s.putCtx n { c with gates := Map.put c.gates gate d }) []
    else .refused 2) s

/-- GATEWRITE, an entry written (R375, R376, R417). -/
def execGatewrite (s : State) : Result := gatewrite s
/-- GATEWRITE with bit 8, a gate withdrawn (R375, R417). -/
def execGatewriteWithdraw (s : State) : Result := gatewrite s

/-- SEAMREGION (R377, R417). -/
def execSeamregion (s : State) : Result :=
  contextCommand 0x0028 0 (fun ws => entryOnly ws && within (pay ws 1) [(16, 36)] && clearFrom ws 3) false (fun s _ ws n c =>
    if (pay ws 2).toNat < (s.quartersOf c.part).length * (7680 * 1024) then .refused 3
    else .done (s.putCtx n { c with seamRegion := some (pay ws 1).toNat }) []) s

/-- A FAULTREPLY, whose reply bits 1:0 of D1 name; 3 names none. A reply to a parked thread takes effect at its switch-in (R367,
R417). -/
def faultReply (s : State) : Result :=
  let formed (ws : List Word) : Bool :=
    within (pay ws 0) [(0, 14), (16, 11)] && within (pay ws 1) [(0, 2)] && pay ws 1 != 3 && clearFrom ws 2
  contextCommand 0x0029 16 formed false (fun s _ ws n _ =>
    let key := n * 16384 + fieldAt (pay ws 0) 0 14
    let r : BitVec 2 := (pay ws 1).setWidth 2
    match s.thread? key with
    | none => .refused 4
    | some t => match t.status with
      | .service _ => .done (if t.parked then s.putThread { t with reply := some r } else s.serviceReply key r) []
      | _ => .refused 4) s

/-- FAULTREPLY, resume (R367). -/
def execFaultreplyResume (s : State) : Result := faultReply s
/-- FAULTREPLY, deliver (R367). -/
def execFaultreplyDeliver (s : State) : Result := faultReply s
/-- FAULTREPLY, stop (R367). -/
def execFaultreplyStop (s : State) : Result := faultReply s

/-! ### Encoder streams (R340, R341) -/

/-- A stream's share of the encoders, in 1080p60 units, by its pixel rate (log entry 21). -/
def encUnits (width height rate : Nat) : Nat := (width * height * rate + 1944000000 - 1) / 1944000000

/-- Units of the streams that an engine carries, beside the stream of key `k` (R341). -/
def State.engineUnits (s : State) (k engine : Nat) : Nat :=
  ((s.encoders.filter fun x => x.2.engine == engine && x.1 != k).map fun x => encUnits x.2.width x.2.height x.2.rate).sum

/-- The engines with room for a stream of `units`: each carries 8 units, 8 streams of 1080p60 or 2 of 2160p60 (R341). -/
def State.roomyEngines (s : State) (k units : Nat) : List Nat :=
  (List.range 8).filter fun e => decide (s.engineUnits k e + units ≤ 8)

/-- A codec, its profile, 10-bit output and RGB10A2 input are a row of R341. -/
def codecOk (codec profile : Nat) (ten rgb10 : Bool) : Bool :=
  (!ten || rgb10) &&
  match codec, profile with
  | 0, 0 => true
  | 1, 0 => !ten
  | 1, 1 => true
  | 2, 2 => !ten
  | _, _ => false

/-- The function may configure streams of a partition: the PF, or one that owns a context of it (R340, R416). -/
def State.mayEncode (s : State) (fn part : Nat) : Bool :=
  (s.part? part).isSome && (fn == 0 || s.ctxs.any fun c => c.2.part == part && c.2.fn == fn)

/-- Key of the stream a payload names. -/
def streamKey (ws : List Word) : Nat := fieldAt (pay ws 0) 16 6 * 65536 + fieldAt (pay ws 0) 0 16

/-- An ENCSTREAM payload has no reserved bit set (R417). -/
def streamClear (ws : List Word) : Bool :=
  within (pay ws 0) [(0, 22), (32, 1)] && within (pay ws 1) [(0, 7)] && within (pay ws 2) [(0, 32)] && within (pay ws 4) [(0, 52)]
    && clearFrom ws 6

/-- A stream of the partition's encoder share, on an engine with room for it (R340, R341, R417). -/
def streamAdd (s : State) (fn : Nat) (ws : List Word) : Reply :=
  let part := fieldAt (pay ws 0) 16 6
  let k := streamKey ws
  let d1 := pay ws 1
  let e : EncStream := ⟨fn, d1, fieldAt (pay ws 2) 0 16, fieldAt (pay ws 2) 16 16, fieldAt (pay ws 3) 0 32,
    fieldAt (pay ws 3) 32 32, (pay ws 4).toNat, (pay ws 5).toNat, 0, false, 0⟩
  let formed := codecOk (fieldAt d1 0 2) (fieldAt d1 2 2) (d1.getLsbD 4) (d1.getLsbD 5) && e.width != 0 && e.height != 0 && e.rate != 0
  let other := match Map.get? s.encoders k with | some o => fn != 0 && o.fn != fn | none => false
  if !formed then .refused 2
  else if !s.mayEncode fn part || other then .refused 1
  else
    let used := ((s.encoders.filter fun x => x.1 / 65536 == part && x.1 != k).map fun x =>
      encUnits x.2.width x.2.height x.2.rate).sum
    let share := match s.part? part with | some p => p.encs | none => 0
    if share < used + encUnits e.width e.height e.rate then .refused 3
    else match s.roomyEngines k (encUnits e.width e.height e.rate) with
      | [] => .refused 3
      | engines =>
        let (f, s) := s.takeFree
        let engine := (engines[Config.encoderOf f % engines.length]?).getD 0
        .done { s with encoders := Map.put s.encoders k { e with engine := engine } } []

/-- A stream withdrawn (R417). -/
def streamDrop (s : State) (fn : Nat) (ws : List Word) : Reply :=
  let k := streamKey ws
  match Map.get? s.encoders k with
  | none => .refused 2
  | some e => if fn != 0 && e.fn != fn then .refused 1 else .done { s with encoders := Map.del s.encoders k } []

/-- An ENCSTREAM: bit 32 of D0 says whether its stream is withdrawn (R340, R417). -/
def encstream (s : State) : Result :=
  listed 0x002A false false (fun s fn ws =>
    if !streamClear ws then .refused 2
    else if (pay ws 0).getLsbD 32 then streamDrop s fn ws
    else streamAdd s fn ws) s

/-- ENCSTREAM, a stream configured (R340, R341, R417). -/
def execEncstream (s : State) : Result := encstream s
/-- ENCSTREAM with bit 32, a stream withdrawn (R417). -/
def execEncstreamWithdraw (s : State) : Result := encstream s

end Sys2Proof.Machine
end

