-- ==== Sys2Proof/Machine/Outside.lean ====
section
/-!
DEFINITION. What the world outside does to the device: accesses through HDM, Woene Link, attestation, reset, power and errors
(R345, R407, R409, R412, R413, R419 to R425).
-/
namespace Sys2Proof.Machine

/-! ### Accesses of the host (R413) -/

namespace State

/-- The verdict of R413 on a function's access to a frame. -/
def hdmOk (s : State) (fn frame : Nat) : Bool :=
  let e := s.owner frame
  let bound (part : Nat) : Option Nat := match s.part? part with
    | some p => if p.isSealed then p.bound else none
    | none => none
  if Config.nearFrames ≤ frame then false
  else match ownerKind e with
    | 1 => match bound (ownerNumber e) with
      | some b => fn == b
      | none => fn == 0 || s.ctxs.any fun c => c.2.part == ownerNumber e && c.2.fn == fn
    | 2 => match s.ctx? (ownerNumber e) with
      | some c => match bound c.part with
        | some b => fn == b
        | none => fn == 0 || c.fn == fn
      | none => fn == 0
    | _ => fn == 0

/-- A function may read what the save areas of contexts hold (R349): another function's never, and the PF none of a sealed
partition, bound or not. -/
def saveOk (s : State) (fn frame : Nat) : Bool :=
  s.ctxs.all fun x =>
    let c := x.2
    if c.savebase / frameBytes ≤ frame ∧ frame < c.savebase / frameBytes + s.saveLength c then
      (if fn = 0 then (match s.part? c.part with | some p => !p.isSealed | none => true) else c.fn == fn)
    else true

/-- Lines of 128 bytes a range touches. -/
def linesOf (pa n : Nat) : List Nat := if n = 0 then [] else (List.range ((pa + n - 1) / 128 - pa / 128 + 1)).map (pa / 128 + ·)

/-- Answer an access from outside. -/
def answer (s : State) (bytes : List Byte) (bad : Bool) : State := { s with reply := bytes, replyBad := bad }

/-- A host read: the bytes at their home, or poisoned data where the verdict or a poisoned line says so; with `keep`, a host
agent holds the lines from then on. -/
def hdmRead (s : State) (fn pa n : Nat) (keep : Bool) : State :=
  let lines := linesOf pa n
  if lines.any fun l => !(s.hdmOk fn (linePa l / frameBytes) && s.saveOk fn (linePa l / frameBytes)) then { s with reply := [], replyBad := true }
  else
    let s : State := lines.foldl (fun s l => s.settleRead (linePa l)) (s.observeOutside pa n)
    let held := if keep then lines.filter fun l => !s.hostLines.contains l else []
    if (s.poisoned pa n).isSome then { s with reply := [], replyBad := true }
    else { s with reply := s.bytesAt pa n, replyBad := false, hostLines := s.hostLines ++ held }

/-- A host write of bytes, each of a frame that the verdict allows. -/
def hdmWrite (s : State) (fn pa : Nat) : List Byte → State
  | [] => s
  | b :: bs =>
    let s := if s.hdmOk fn (pa / frameBytes) then (s.settleWrite pa).setByte pa b else s
    s.hdmWrite fn (pa + 1) bs

end State

/-- HOST_HDM_ACCESS (R413): function `ev.fn` writes the bytes of `ev` at `ev.a`, or, with `ev.flag`, reads `ev.b` bytes there,
and with `ev.c` not 0 holds their lines. Before CXL.mem is enabled, at the last step of a reset, the device takes no part (R423; log
entry 76). -/
def execHostHdmAccess (s : State) : Result :=
  .next (if s.fwHeld || !s.booted then s.answer [] true else if s.ev.flag then s.hdmRead s.ev.fn s.ev.a s.ev.b (s.ev.c != 0) else s.hdmWrite s.ev.fn s.ev.a s.ev.data)

/-- BACK_INVALIDATE_RESPONSE (R413): the host has given up line `ev.a`. -/
def execBackInvalidateResponse (s : State) : Result :=
  .next { s with hostLines := s.hostLines.filter (· != s.ev.a), snoops := s.snoops.filter (· != s.ev.a) }

/-! ### Woene Link (R420 to R422) -/

/-- What a peer asks of this device. -/
inductive PeerOp where
  | load (n : Nat)
  | store (bytes : List Byte)
  | atomic (op : HomeOp)
  | reduce (op : AmoOp) (t : Ty) (bytes : List Byte)

/-- Operations and types by the numbers an event gives them. -/
def amoOps : List AmoOp := [.add, .and, .or, .xor, .min, .max, .minN, .maxN, .swap, .fadd]
/-- Types of atomics by number. -/
def amoTypes : List Ty := [.i32, .n32, .i64, .n64, .f32]

/-- The transaction of an event: `ev.nums` holds the partition tag, the type (0 load, 1 store or bulk, 2 atomic, 3 compare and
swap, 4 reduce), the operation and the element type. -/
def peerOp (e : Ev) : PeerOp :=
  let num (i : Nat) : Nat := (e.nums[i]?).getD 0
  let op := (amoOps[num 2]?).getD .add
  let t := (amoTypes[num 3]?).getD .n32
  let w := t.bits / 8
  match num 1 with
  | 0 => .load e.b
  | 1 => .store e.data
  | 2 => .atomic (.amo op t (leNat (e.data.take w)))
  | 3 => .atomic (.cas t (leNat (e.data.take w)) (leNat ((e.data.drop w).take w)))
  | _ => .reduce op t e.data

/-- Bytes and kind of a transaction. -/
def PeerOp.extent : PeerOp → Nat × Kind
  | .load n => (n, .read)
  | .store bs => (bs.length, .write)
  | .atomic (.cas t _ _) => (t.bits / 8, .atomic)
  | .atomic op => (op.size, .atomic)
  | .reduce _ _ bs => (bs.length, .atomic)

namespace State

/-- A peer's transaction performed at its home, for a context; a reduce counts at the port it came by (R395). -/
def performPeer (s : State) (ctx port pa : Nat) : PeerOp → State
  | .load n => match s.poisoned pa n with
    | some _ => s.answer [] true
    | none =>
      let r := s.engineRead ctx pa n
      r.2.answer r.1 false
  | .store bs => (s.engineWrite ctx pa bs).answer [] false
  | .atomic op => match s.poisoned pa op.size with
    | some _ => s.answer [] true
    | none =>
      let r := s.engineAtomic ctx pa op.size op.newBits
      r.2.answer r.1 false
  | .reduce op t bs => match s.poisoned pa bs.length with
    | some _ => s.answer [] true
    | none =>
      let w := t.bits / 8
      let n := if w = 0 then 0 else bs.length / w
      let s := s.count 4 (port % 36) (some ctx) 0x43 1
      let s := (List.range n).foldl (fun (s : State) i =>
        (s.engineAtomic ctx (pa + i * w) w fun old => some (amoValue op t old (leNat ((bs.drop (i * w)).take w)))).2) s
      s.answer [] false

/-- The partition bound to a domain tag (R422). -/
def tagPart (s : State) (tag : Nat) : Option (Nat × Part) := s.parts.find? fun p => p.2.tag == some tag

/-- A transaction from a peer (R422): without a binding it returns Frame Owner; otherwise it is translated and checked for the
context that runs on the bound partition (log entry 25), page by page of 64 KiB at most one; a page not present holds it. -/
def peerAccess (s : State) (e : Ev) : State :=
  let op := peerOp e
  match s.tagPart ((e.nums[0]?).getD 0) with
  | none => s.answer [Cause.frameOwner] true
  | some (num, p) => match p.running with
    | none => s
    | some ctx =>
      let core := p.quarters.headD 0 * 2
      match s.translate ⟨core, ctx, num, false⟩ e.a op.extent.2 with
      | (.fails c _, s) => s.answer [c] true
      | (.page _, s) => s
      | (.ok (.mem pa _ leaf), s) =>
        if pteBit leaf 5 && s.homeRejects num pa then s.answer [Cause.frameOwner] true
        else (s.observeOutside pa op.extent.1).performPeer ctx e.c pa op
      | (.ok _, s) => s.answer [Cause.frameOwner] true

end State

/-- WOENE_TRANSACTION (R241, R422): with `ev.flag`, a transaction arrives from a peer by port `ev.c` for the virtual address `ev.a`; without
it, a peer answers the access of thread `ev.a` with cause `ev.b`, whose value is `ev.c`. -/
def execWoeneTransaction (s : State) : Result :=
  if s.ev.flag then .next (s.peerAccess s.ev)
  else match s.thread? s.ev.a with
    | none => .next s
    | some t => match t.asked with
      | .peer _ => .next (if t.parked then s else s.raiseWaiting t (BitVec.ofNat 8 s.ev.b) (BitVec.ofNat 64 s.ev.c))
      | _ => .next s

/-- The peer device a waiting thread has asked. -/
def askedPeer (t : Thread) : Option Nat := match t.asked with
  | .peer dev => some dev
  | .line pa => if 2 ^ 60 ≤ pa then some (pa / 2 ^ 60 - 1) else none
  | .handler (some pa) _ => if 2 ^ 60 ≤ pa then some (pa / 2 ^ 60 - 1) else none
  | _ => none

/-- PEER_UNREACHABLE (R422): the peer of thread `ev.a` has not been reached within 100 µs: its data are poisoned, and the PF
has a link-change event. -/
def execPeerUnreachable (s : State) : Result :=
  match s.thread? s.ev.a with
  | none => .next s
  | some t => match t.waitOf, askedPeer t with
    | some w, some dev =>
      if t.parked || w.elapsed < 100000 then .next s
      else .next ((s.peerLost dev false).raiseWaiting t Cause.machineCheck 0)
    | _, _ => .next s

/-- Ports of the two hub dies, numbered 0 to 35 (R18, R21). -/
def portCount : Nat := 36

/-- WOENE_LINK_CHANGE (R21, R418, R423): port `ev.a` goes up or, without `ev.flag`, down. -/
def execWoeneLinkChange (s : State) : Result :=
  let port := s.ev.a % portCount
  let others := s.portsDown.filter (· != port)
  .next ({ s with portsDown := if s.ev.flag then others else others ++ [port] }.linkEvent port s.ev.flag)

/-- FLIT_REPLAY (R420): a flit of port `ev.a` fails its CRC, is replayed and counted, for context `ev.b` where `ev.flag`
says so. -/
def execFlitReplay (s : State) : Result := .next (s.count 4 (s.ev.a % portCount) (if s.ev.flag then some s.ev.b else none) 0x42 1)

/-! ### Attestation (R345, R419) -/

/-- The measurements of R419 for a function, as numbers: the two firmwares, the configuration of the partitions that hold its contexts,
the stepping with the fuses. -/
def State.measurements (s : State) (fn : Nat) : List (List Nat) :=
  let owns (n : Nat) : Bool := s.ctxs.any fun c => c.2.part == n && c.2.fn == fn
  let config (x : Nat × Part) : List Nat :=
    let p := x.2
    [x.1, p.isSealed.toNat, p.ways, p.slw, p.memw, p.wlw, p.hostw, p.encs, p.tick, p.savebud, p.power, p.lend.toNat] ++ p.quarters
  [[Config.measured 1], [Config.measured 2], (s.parts.filter fun p => owns p.1).flatMap config, [stepping.toNat, Config.measured 4]]

/-- SPDM_REQUEST (R419): the answer to the message of `ev` for function `ev.fn`, which the measurements for that function decide (log
entry 9). -/
def execSpdmRequest (s : State) : Result :=
  let (f, s) := s.takeFree
  .next { s with spdm := Map.put s.spdm s.ev.fn (Config.spdmAnswer f (s.measurements s.ev.fn) s.ev.data) }

/-- TDISP_RUN (R345, R419): the interface of VF function `ev.fn` moves to RUN, and the sealed partitions that own its contexts are
bound to it. The PF is no interface. -/
def execTdispRun (s : State) : Result :=
  let owns (n : Nat) : Bool := s.ctxs.any fun c => c.2.part == n && c.2.fn == s.ev.fn
  .next (if s.ev.fn = 0 then s else { s with parts := s.parts.map fun p =>
    if (p.2.isSealed && owns p.1) = true then (p.1, { p.2 with bound := some s.ev.fn }) else p })

/-- Every context of a function is destroyed. -/
def State.destroyAll (s : State) (fn : Nat) : State :=
  ((s.ctxs.filter (·.2.fn == fn)).map (·.1)).foldl (fun s n => s.destroyCtx n) s

/-- TDISP_ERROR (R419): the interface of VF function `ev.fn` is in ERROR, and its contexts are stopped as by CTXDESTROY. -/
def execTdispError (s : State) : Result := .next (if s.ev.fn = 0 then s else s.destroyAll s.ev.fn)

/-! ### Reset and power (R409, R423, R424) -/

/-- The state of the device after the steps of R423: what is not the device's own stays, and the non-volatile summary; `ports`
are the ports that did not train, `held` says that the firmware failed its verification: then no step after the first is made, so no
frame is zeroed, no owner entry cleared and no port trained. -/
def State.restart (s : State) (ports : List Nat) (held : Bool) : State :=
  { State.reset with
    sched := s.sched, steps := s.steps, frees := s.frees, stamps := s.stamps, far := s.far, summary := s.summary
    capsuleSeq := s.capsuleSeq, portsDown := if held then List.range portCount else ports.filter (· < portCount)
    fwHeld := held, booted := !held, near := if held then s.near else State.reset.near
    owners := if held then s.owners else State.reset.owners, poison := if held then s.poison else State.reset.poison }

/-- COLD_RESET (R423): `ev.nums` names the untrained ports, `ev.flag` says that a firmware signature fails. -/
def execColdReset (s : State) : Result := .next (s.restart s.ev.nums s.ev.flag)

/-- WARM_RESET (R409, R423): the capsule region is kept too. -/
def execWarmReset (s : State) : Result := .next { s.restart s.ev.nums s.ev.flag with capsules := s.capsules }

/-- FUNCTION_LEVEL_RESET (R423): the contexts of VF function `ev.fn` are destroyed, and nothing else changes. -/
def execFunctionLevelReset (s : State) : Result := .next (if s.ev.fn = 0 then s else s.destroyAll s.ev.fn)

/-- The device without power: only host memory and the non-volatile summary are left (R409). -/
def State.powerOff (s : State) : State := { s.restart [] false with booted := false }

/-- POWER_LOSS (R409). -/
def execPowerLoss (s : State) : Result := .next s.powerOff

/-- A Machine Check that cannot be confined to a partition: a freeze is announced and every partition stops (R348, R406,
R407). -/
def State.deviceCheck (s : State) (source : Nat) : State := { s.announceFreeze source with stopped := true }

/-- JUNCTION_SHUTDOWN (R424): Machine Check, and at its next step, power-off. -/
def execJunctionShutdown (s : State) : Result := .next (if s.stopped then s.powerOff else s.deviceCheck 0x680)

/-! ### Errors (R182, R425) -/

/-- Source numbers that a unit has; the others are reserved and appear in no record (R386). -/
def sourceListed (n : Nat) : Bool :=
  decide (n < 0x640) || (decide (0x640 ≤ n) && decide (n ≤ 0x663)) || (decide (0x668 ≤ n) && decide (n ≤ 0x683))
    || (decide (0x690 ≤ n) && decide (n ≤ 0x693))

/-- UNCORRECTABLE_ERROR (R182, R386, R425): the line of `ev.a` is poisoned, and one of a near frame counted at the controller
that serves the frame's device (R21, R257); with `ev.nums` a bench and a cell, an accumulator cell is; with a gang, the line of
offset `ev.a` of its scratchpad; with a bench, a context and a line, that line of the bench's L1; with `ev.flag`, the error lies in
a shared structure of the unit with source number `ev.c`. -/
def execUncorrectableError (s : State) : Result :=
  if s.ev.flag then .next (if sourceListed s.ev.c then s.deviceCheck s.ev.c else s)
  else match s.ev.nums with
    | [bench, cell] =>
      let b := s.bench bench
      .next (s.putBench bench { b with badCells := if b.badCells.contains cell then b.badCells else b.badCells ++ [cell] })
    | [gang] => .next (s.onGang gang fun g => { g with bad := if g.bad.contains (s.ev.a / 128) then g.bad else g.bad ++ [s.ev.a / 128] })
    | [bench, ctx, line] =>
      let b := s.bench bench
      let held := (b.l1Find ctx line).isSome && !b.badLines.contains (ctx, line)
      .next (if held then s.putBench bench { b with badLines := b.badLines ++ [(ctx, line)] } else s)
    | _ =>
      let l := s.ev.a / 128
      let frame := s.ev.a / frameBytes
      let s := { s with poison := if s.poison.contains l then s.poison else s.poison ++ [l] }
      .next (if frame < Config.nearFrames then s.count 3 (frameController frame) none 0x33 1 else s)

/-- PATROL_SCRUB (R425): every frame is read; controller `ev.b` has corrected `ev.a` errors. -/
def execPatrolScrub (s : State) : Result := .next (s.count 3 (s.ev.b % 64) none 0x32 s.ev.a)

end Sys2Proof.Machine
end

