-- ==== Sys2Proof/Machine/ScalarFloat.lean ====
section
/-!
DEFINITION. Scalar floating point, MAJ 0x10 to 0x13 (R116 to R121).
-/
namespace Sys2Proof.Machine

/-- The mode of an instruction that is not a narrowing conversion (R66). -/
def plainMode (rc : RC) (rm : BitVec 3) : RMode := (staticMode rc rm false).getD .rne

/-- Write a rounded result and its flags (R46, R72). -/
def Thread.setFloat (t : Thread) (d : XReg) (ty : Ty) (r : Rounded) : Thread := (t.setTy d ty r.bits).addFlags r.flags

/-- A source under FZ (R67). -/
def Thread.src (t : Thread) (i : XReg) (ty : Ty) : Fp := readFz t.fz ty (t.low i ty)

/-- A two-source instruction that rounds (R117). -/
def floatBin (d p q : XReg) (ty : Ty) (rc : RC) (f : Ty → RMode → Bool → Fp → Fp → Rounded) (s : State) : Result :=
  simple s fun t => t.setFloat d ty (f ty (plainMode rc t.rm) t.fz (t.src p ty) (t.src q ty))

/-- `fadd` (R117). -/
def execFadd (d p q : XReg) (ty : Ty) (rc : RC) (s : State) : Result := floatBin d p q ty rc addFp s
/-- `fsub` (R117). -/
def execFsub (d p q : XReg) (ty : Ty) (rc : RC) (s : State) : Result :=
  floatBin d p q ty rc (fun ty m fz a b => addFp ty m fz a b.flip) s
/-- `fmul` (R117). -/
def execFmul (d p q : XReg) (ty : Ty) (rc : RC) (s : State) : Result := floatBin d p q ty rc mulFp s
/-- `fdiv` (R117). -/
def execFdiv (d p q : XReg) (ty : Ty) (rc : RC) (s : State) : Result := floatBin d p q ty rc divFp s
/-- `fsqrt` (R117). -/
def execFsqrt (d p : XReg) (ty : Ty) (rc : RC) (s : State) : Result :=
  simple s fun t => t.setFloat d ty (sqrtFp ty (plainMode rc t.rm) t.fz (t.src p ty))
/-- `fmin` (R118). -/
def execFmin (d p q : XReg) (ty : Ty) (s : State) : Result :=
  simple s fun t => t.setFloat d ty (minmaxBits ty t.fz false (t.low p ty) (t.low q ty))
/-- `fmax` (R118). -/
def execFmax (d p q : XReg) (ty : Ty) (s : State) : Result :=
  simple s fun t => t.setFloat d ty (minmaxBits ty t.fz true (t.low p ty) (t.low q ty))
/-- `fclass` (R119). -/
def execFclass (d p : XReg) (ty : Ty) (s : State) : Result :=
  simple s fun t => t.setX d (BitVec.ofNat 64 (classify ty (t.low p ty)))
/-- `ffma` (R120). -/
def execFfma (d p q u : XReg) (ty : Ty) (rc : RC) (s : State) : Result :=
  simple s fun t => t.setFloat d ty (fmaFp ty (plainMode rc t.rm) t.fz (t.src p ty) (t.src q ty) (t.src u ty))
/-- `fcmp` (R120). -/
def execFcmp (c : FCond) (d p q : XReg) (ty : Ty) (s : State) : Result :=
  simple s fun t =>
    let r := compareFp c (t.src p ty) (t.src q ty)
    (t.setX d (if r.1 then 1 else 0)).addFlags r.2

/-- The rounding rule of a narrowing conversion, with the draw made for it (R66, R69). -/
def Thread.drawnMode (t : Thread) (rc : RC) (narrow : Bool) : RMode × Thread :=
  match staticMode rc t.rm narrow with
  | some m => (m, t)
  | none =>
    let r := draw t.srseed
    (.sr r.2, { t with srseed := r.1 })

/-- `fcvt` (R121). A draw waits for the draws of earlier vector instructions (R69; log entry 16). -/
def execFcvt (d p : XReg) (dst src : Ty) (sat : Bool) (rc : RC) (s : State) : Result :=
  runThread (.fcvt d p dst src sat rc) s fun t => do
    let narrow := dst.narrowing src
    untilSeq ((staticMode rc t.rm narrow).isSome || !t.owesDraws)
    let (m, t) := t.drawnMode rc narrow
    putM (t.setFloat d dst (convert dst src m sat t.fz (t.low p src)))
    return .seq

end Sys2Proof.Machine
end

