-- ==== Sys2Proof/Machine/VWait.lean ====
section
/-!
DEFINITION. `vwait`, MAJ 0x3C, with VWAIT_RECHECK and VWAIT_TIMEOUT (R319). It takes no sequencer entry: it waits until the
sequencer is empty and an LD row is granted, then reads its flags at their homes.
-/
namespace Sys2Proof.Machine

/-- A flag meets its condition (R319). -/
def waitCond (c : WCond) (signed : Bool) (a b : Nat) : Bool :=
  let ty : Ty := if signed then .i32 else .n32
  match c with
  | .eq => a == b
  | .ne => a != b
  | .ge => decide (readInt ty b ≤ readInt ty a)

/-- Read a flag at its home: no L1 takes part, but the owner of a tracked line is brought up to date first (R262). -/
def flagM (t : Thread) (g : Segment) (va : VReg) (el : Nat) : M Nat := do
  let p ← accessM t g (BitVec.ofNat 64 (t.elem va .n32 el)) 4 4 .read (some el)
  match p with
  | .pad off => do
    let s ← get
    return leNat (s.padBytes t.gang off 4)
  | .peer dev va => return leNat (← peerNow t dev va 4 (some el))
  | .mem pa v leaf => do
    modify fun s => s.flushOwn t.key pa 4
    homeM t pa v leaf (some el)
    poisonM t pa 4
    modify fun s => (if pteBit leaf 5 then s.settleRead pa else s).homeRequest t.ctx pa 1 false
    let s ← get
    return leNat (s.bytesAt pa 4)

/-- The mask of unmet flags of some elements, in increasing order. -/
def unmetM (t : Thread) (c : WCond) (va vb : VReg) (signed : Bool) (g : Segment) : List Nat → M KData
  | [] => return 0
  | el :: rest => do
    let v ← flagM t g va el
    let k ← unmetM t c va vb signed g rest
    return if waitCond c signed v (t.elem vb .n32 el) then k else k ||| (1 <<< el)

/-- Elements a `vwait` checks. -/
def waitEls (t : Thread) (signed : Bool) (l : VLen) : List Nat :=
  (List.range (min (vlenOf (t.getX l.xl) (if signed then .i32 else .n32)) 128)).filter fun el => t.active l.kg el

/-- A wait for a page within `vwait` keeps its reason and its limit (R319). -/
def sleeping {α : Type} (limit : Nat) (m : M α) : M α := fun s =>
  match m s with
  | .error (.wait s _ _ a) => .error (.wait s .sleep limit a)
  | r => r

/-- The flags of some elements have been read as met: an acquire of partition scope (R319). -/
def State.acquireFlags (s : State) (t : Thread) (va : VReg) (g : Segment) (els : List Nat) : State :=
  els.foldl (fun s el => match s.whereIs t g (BitVec.ofNat 64 (t.elem va .n32 el)) with
    | some a => s.observe t.key t.part (some .partition) a 4
    | none => s) s

/-- The flags of a `vwait`, read once: the mask when all are met or the limit has run, else the wait goes on. -/
def vwaitPass (t : Thread) (kd : KReg) (c : WCond) (va vb : VReg) (signed : Bool) (g : GReg) (l : VLen) (limit : Nat)
    (late : Bool) : M Ending := do
  let k ← sleeping limit (unmetM t c va vb signed (t.getG g) (waitEls t signed l))
  if k = 0 then modify fun s => s.acquireFlags t va (t.getG g) (waitEls t signed l)
  if k = 0 ∨ late then
    let t ← nowM t
    putM (t.setK kd k)
    return .seq
  else waitM .sleep limit .data

/-- What x(U) held at acceptance. -/
def vwaitLimit (t : Thread) (u : XReg) : Nat := match t.waitOf with
  | some w => w.limit
  | none => (t.getX u).toNat

/-- An LD row is granted to the thread's core, or none is needed; asking for one is an implicit request (R138). -/
def ldRowM (t : Thread) (limit : Nat) (needed : Bool) : M Unit := fun s =>
  let c := s.core t.core
  if !needed || decide (0 < c.grants.ld) then .ok ((), s)
  else
    let s := if c.requests.ld = 0 then s.putCore t.core { c with requests := { c.requests with ld := 1 }, point := true } else s
    .error (.wait s .sleep limit .none)

/-- `vwait` (R319). -/
def execVwait (kd : KReg) (c : WCond) (va vb : VSrc) (signed : Bool) (g : GReg) (u : XReg) (l : VLen) (s : State) : Result :=
  runThread (.vwait kd c va vb signed g u l) s fun t => do
    let limit := vwaitLimit t u
    if !t.seqEmpty then waitM .sleep limit
    else
      ldRowM t limit (!(waitEls t signed l).isEmpty)
      vwaitPass t kd c va.reg vb.reg signed g l limit false

/-- VWAIT_RECHECK (R319): a write to a line of an unmet flag has been performed, or 1,024 core cycles have passed: thread
`ev.a` reads its flags again. -/
def execVwaitRecheck (s : State) : Result :=
  match s.thread? s.ev.a with
  | none => .next s
  | some t =>
    match t.waitOf with
    | some w => match w.instr, w.asked with
      | .vwait .., .data => .next (if t.parked then s else s.wake t.key)
      | _, _ => .next s
    | none => .next s

/-- VWAIT_TIMEOUT (R319): the elapsed cycles of the `vwait` of thread `ev.a` reach x(U): the unmet mask is returned. -/
def execVwaitTimeout (s : State) : Result :=
  match s.thread? s.ev.a with
  | none => .next s
  | some t =>
    match t.waitOf with
    | some w =>
      if t.parked || !w.expired || !t.seqEmpty then .next s
      else match w.instr, w.asked with
        | .vwait kd c va vb signed g u l, .data =>
          s.endWait t (.vwait kd c va vb signed g u l) fun t => vwaitPass t kd c va.reg vb.reg signed g l w.limit true
        | _, _ => .next s
    | none => .next s

end Sys2Proof.Machine
end

