-- ==== Sys2Proof/Machine/Dispatch.lean ====
section
/-!
DEFINITION. One arm for each constructor of `Instr`: a direct call of its meaning.
-/
namespace Sys2Proof.Machine

/-- The meaning of an instruction or of a step of an agent. -/
def exec (i : Instr) (s : State) : Host.Outcome State Fault Refusal :=
  match i with
  | .li d imm => Sys2Proof.Machine.execLi d imm s
  | .liN d imm => Sys2Proof.Machine.execLiN d imm s
  | .add d a b => Sys2Proof.Machine.execAdd d a b s
  | .sub d a b => Sys2Proof.Machine.execSub d a b s
  | .and d a b => Sys2Proof.Machine.execAnd d a b s
  | .or d a b => Sys2Proof.Machine.execOr d a b s
  | .xor d a b => Sys2Proof.Machine.execXor d a b s
  | .shl d a b => Sys2Proof.Machine.execShl d a b s
  | .shr d a b => Sys2Proof.Machine.execShr d a b s
  | .sra d a b => Sys2Proof.Machine.execSra d a b s
  | .slt d a b => Sys2Proof.Machine.execSlt d a b s
  | .sltN d a b => Sys2Proof.Machine.execSltN d a b s
  | .min d a b => Sys2Proof.Machine.execMin d a b s
  | .minN d a b => Sys2Proof.Machine.execMinN d a b s
  | .max d a b => Sys2Proof.Machine.execMax d a b s
  | .maxN d a b => Sys2Proof.Machine.execMaxN d a b s
  | .mov d a => Sys2Proof.Machine.execMov d a s
  | .mul d a b => Sys2Proof.Machine.execMul d a b s
  | .mulh d a b => Sys2Proof.Machine.execMulh d a b s
  | .mulhN d a b => Sys2Proof.Machine.execMulhN d a b s
  | .div d a b => Sys2Proof.Machine.execDiv d a b s
  | .divN d a b => Sys2Proof.Machine.execDivN d a b s
  | .rem d a b => Sys2Proof.Machine.execRem d a b s
  | .remN d a b => Sys2Proof.Machine.execRemN d a b s
  | .clz d a => Sys2Proof.Machine.execClz d a s
  | .ctz d a => Sys2Proof.Machine.execCtz d a s
  | .popc d a => Sys2Proof.Machine.execPopc d a s
  | .brev d a => Sys2Proof.Machine.execBrev d a s
  | .sel d p q u => Sys2Proof.Machine.execSel d p q u s
  | .bfx d p lsb wm1 => Sys2Proof.Machine.execBfx d p lsb wm1 s
  | .bfxN d p lsb wm1 => Sys2Proof.Machine.execBfxN d p lsb wm1 s
  | .bfi d p lsb wm1 => Sys2Proof.Machine.execBfi d p lsb wm1 s
  | .addi d a imm => Sys2Proof.Machine.execAddi d a imm s
  | .andi d a imm => Sys2Proof.Machine.execAndi d a imm s
  | .ori d a imm => Sys2Proof.Machine.execOri d a imm s
  | .xori d a imm => Sys2Proof.Machine.execXori d a imm s
  | .shli d a sh => Sys2Proof.Machine.execShli d a sh s
  | .shri d a sh => Sys2Proof.Machine.execShri d a sh s
  | .srai d a sh => Sys2Proof.Machine.execSrai d a sh s
  | .slti d a imm => Sys2Proof.Machine.execSlti d a imm s
  | .sltiN d a imm => Sys2Proof.Machine.execSltiN d a imm s
  | .fadd d p q t rc => Sys2Proof.Machine.execFadd d p q t rc s
  | .fsub d p q t rc => Sys2Proof.Machine.execFsub d p q t rc s
  | .fmul d p q t rc => Sys2Proof.Machine.execFmul d p q t rc s
  | .fdiv d p q t rc => Sys2Proof.Machine.execFdiv d p q t rc s
  | .fsqrt d p t rc => Sys2Proof.Machine.execFsqrt d p t rc s
  | .fmin d p q t => Sys2Proof.Machine.execFmin d p q t s
  | .fmax d p q t => Sys2Proof.Machine.execFmax d p q t s
  | .fclass d p t => Sys2Proof.Machine.execFclass d p t s
  | .ffma d p q u t rc => Sys2Proof.Machine.execFfma d p q u t rc s
  | .fcmp c d p q t => Sys2Proof.Machine.execFcmp c d p q t s
  | .fcvt d p dst src sat rc => Sys2Proof.Machine.execFcvt d p dst src sat rc s
  | .jmp off => Sys2Proof.Machine.execJmp off s
  | .jal link off => Sys2Proof.Machine.execJal link off s
  | .jalr d a imm => Sys2Proof.Machine.execJalr d a imm s
  | .beq a b off => Sys2Proof.Machine.execBeq a b off s
  | .bne a b off => Sys2Proof.Machine.execBne a b off s
  | .blt a b off => Sys2Proof.Machine.execBlt a b off s
  | .bltN a b off => Sys2Proof.Machine.execBltN a b off s
  | .bge a b off => Sys2Proof.Machine.execBge a b off s
  | .bgeN a b off => Sys2Proof.Machine.execBgeN a b off s
  | .loop count off => Sys2Proof.Machine.execLoop count off s
  | .loopi count off => Sys2Proof.Machine.execLoopi count off s
  | .crrd d r => Sys2Proof.Machine.execCrrd d r s
  | .crwr d r a => Sys2Proof.Machine.execCrwr d r a s
  | .crset d r a => Sys2Proof.Machine.execCrset d r a s
  | .crclr d r a => Sys2Proof.Machine.execCrclr d r a s
  | .ld d t m => Sys2Proof.Machine.execLd d t m s
  | .st d t m => Sys2Proof.Machine.execSt d t m s
  | .vld vd t m l => Sys2Proof.Machine.execVld vd t m l s
  | .vlds vd t m xi l => Sys2Proof.Machine.execVlds vd t m xi l s
  | .vldx vd t m vi l => Sys2Proof.Machine.execVldx vd t m vi l s
  | .vldff vd t m l => Sys2Proof.Machine.execVldff vd t m l s
  | .vst vd t m l => Sys2Proof.Machine.execVst vd t m l s
  | .vsts vd t m xi l => Sys2Proof.Machine.execVsts vd t m xi l s
  | .vstx vd t m vi l => Sys2Proof.Machine.execVstx vd t m vi l s
  | .pref sl m xi => Sys2Proof.Machine.execPref sl m xi s
  | .segld d p gu q => Sys2Proof.Machine.execSegld d p gu q s
  | .segnarrow d gp gq u w rights => Sys2Proof.Machine.execSegnarrow d gp gq u w rights s
  | .segrd d gp n => Sys2Proof.Machine.execSegrd d gp n s
  | .fence sc insns e src l => Sys2Proof.Machine.execFence sc insns e src l s
  | .ldacq d t m sc => Sys2Proof.Machine.execLdacq d t m sc s
  | .strel d t m sc => Sys2Proof.Machine.execStrel d t m sc s
  | .amoAdd o => Sys2Proof.Machine.execAmoAdd o s
  | .amoAnd o => Sys2Proof.Machine.execAmoAnd o s
  | .amoOr o => Sys2Proof.Machine.execAmoOr o s
  | .amoXor o => Sys2Proof.Machine.execAmoXor o s
  | .amoMin o => Sys2Proof.Machine.execAmoMin o s
  | .amoMax o => Sys2Proof.Machine.execAmoMax o s
  | .amoMinN o => Sys2Proof.Machine.execAmoMinN o s
  | .amoMaxN o => Sys2Proof.Machine.execAmoMaxN o s
  | .amoSwap o => Sys2Proof.Machine.execAmoSwap o s
  | .amoFadd o => Sys2Proof.Machine.execAmoFadd o s
  | .cas o => Sys2Proof.Machine.execCas o s
  | .vamo op vd t g xb disp vi l => Sys2Proof.Machine.execVamo op vd t g xb disp vi l s
  | .objdecl d gp q => Sys2Proof.Machine.execObjdecl d gp q s
  | .objdrop d p => Sys2Proof.Machine.execObjdrop d p s
  | .track d gp q u => Sys2Proof.Machine.execTrack d gp q u s
  | .wb gp q u => Sys2Proof.Machine.execWb gp q u s
  | .inv gp q u => Sys2Proof.Machine.execInv gp q u s
  | .wbinv gp q u => Sys2Proof.Machine.execWbinv gp q u s
  | .icinv sc gp q u => Sys2Proof.Machine.execIcinv sc gp q u s
  | .spawn w p q u => Sys2Proof.Machine.execSpawn w p q u s
  | .reap w p => Sys2Proof.Machine.execReap w p s
  | .reapTry w p => Sys2Proof.Machine.execReapTry w p s
  | .haltX a => Sys2Proof.Machine.execHaltX a s
  | .sleep d a => Sys2Proof.Machine.execSleep d a s
  | .msend w p q u => Sys2Proof.Machine.execMsend w p q u s
  | .msendTry w p q u => Sys2Proof.Machine.execMsendTry w p q u s
  | .mrecv w p u => Sys2Proof.Machine.execMrecv w p u s
  | .mrecvTry w p u => Sys2Proof.Machine.execMrecvTry w p u s
  | .qpush d p q => Sys2Proof.Machine.execQpush d p q s
  | .qpushTry d p q => Sys2Proof.Machine.execQpushTry d p q s
  | .qtake d w p => Sys2Proof.Machine.execQtake d w p s
  | .qtakeTry d w p => Sys2Proof.Machine.execQtakeTry d w p s
  | .qdone d p q => Sys2Proof.Machine.execQdone d p q s
  | .qstat d p => Sys2Proof.Machine.execQstat d p s
  | .launch d gp q => Sys2Proof.Machine.execLaunch d gp q s
  | .cwait d p u => Sys2Proof.Machine.execCwait d p u s
  | .cwaitTry d p => Sys2Proof.Machine.execCwaitTry d p s
  | .cancel d p => Sys2Proof.Machine.execCancel d p s
  | .vwait kd c va vb signed g u l => Sys2Proof.Machine.execVwait kd c va vb signed g u l s
  | .phaseOpen d p q u => Sys2Proof.Machine.execPhaseOpen d p q u s
  | .phaseGraph d p q => Sys2Proof.Machine.execPhaseGraph d p q s
  | .phaseSeal d p => Sys2Proof.Machine.execPhaseSeal d p s
  | .vclaim d p => Sys2Proof.Machine.execVclaim d p s
  | .vrelease d p => Sys2Proof.Machine.execVrelease d p s
  | .vloop p q u n => Sys2Proof.Machine.execVloop p q u n s
  | .vadd o => Sys2Proof.Machine.execVadd o s
  | .vsub o => Sys2Proof.Machine.execVsub o s
  | .vmul o => Sys2Proof.Machine.execVmul o s
  | .vmin o => Sys2Proof.Machine.execVmin o s
  | .vmax o => Sys2Proof.Machine.execVmax o s
  | .vabs o => Sys2Proof.Machine.execVabs o s
  | .vneg o => Sys2Proof.Machine.execVneg o s
  | .vand o => Sys2Proof.Machine.execVand o s
  | .vor o => Sys2Proof.Machine.execVor o s
  | .vxor o => Sys2Proof.Machine.execVxor o s
  | .vshl o => Sys2Proof.Machine.execVshl o s
  | .vshr o => Sys2Proof.Machine.execVshr o s
  | .vsra o => Sys2Proof.Machine.execVsra o s
  | .vmad o => Sys2Proof.Machine.execVmad o s
  | .vmsb o => Sys2Proof.Machine.execVmsb o s
  | .vdot4 vd a b c signed ua ub sat l => Sys2Proof.Machine.execVdot4 vd a b c signed ua ub sat l s
  | .vcmp kd c a b t l => Sys2Proof.Machine.execVcmp kd c a b t l s
  | .vsel vd a b ks t l => Sys2Proof.Machine.execVsel vd a b ks t l s
  | .vmov vd a t l => Sys2Proof.Machine.execVmov vd a t l s
  | .vbcast vd xs t l => Sys2Proof.Machine.execVbcast vd xs t l s
  | .vext xd a xi t l => Sys2Proof.Machine.execVext xd a xi t l s
  | .vins vd xs xi t l => Sys2Proof.Machine.execVins vd xs xi t l s
  | .viota vd t l => Sys2Proof.Machine.execViota vd t l s
  | .vred op vd a t sat rc l => Sys2Proof.Machine.execVred op vd a t sat rc l s
  | .vscan op vd a t sat rc l => Sys2Proof.Machine.execVscan op vd a t sat rc l s
  | .vperm vd va vb t l => Sys2Proof.Machine.execVperm vd va vb t l s
  | .vslideDown vd va xs t l => Sys2Proof.Machine.execVslideDown vd va xs t l s
  | .vslideUp vd va xs t l => Sys2Proof.Machine.execVslideUp vd va xs t l s
  | .vcompress vd va t l => Sys2Proof.Machine.execVcompress vd va t l s
  | .vexpand vd va t l => Sys2Proof.Machine.execVexpand vd va t l s
  | .vzip hi vd va vb t l => Sys2Proof.Machine.execVzip hi vd va vb t l s
  | .vunzip odd vd va vb t l => Sys2Proof.Machine.execVunzip odd vd va vb t l s
  | .kand d p q => Sys2Proof.Machine.execKand d p q s
  | .kor d p q => Sys2Proof.Machine.execKor d p q s
  | .kxor d p q => Sys2Proof.Machine.execKxor d p q s
  | .knot d p => Sys2Proof.Machine.execKnot d p s
  | .kmov d p => Sys2Proof.Machine.execKmov d p s
  | .kpop d p u => Sys2Proof.Machine.execKpop d p u s
  | .kfirst d p u => Sys2Proof.Machine.execKfirst d p u s
  | .kset d u => Sys2Proof.Machine.execKset d u s
  | .vcvt o => Sys2Proof.Machine.execVcvt o s
  | .vpack o => Sys2Proof.Machine.execVpack o s
  | .vunpack o => Sys2Proof.Machine.execVunpack o s
  | .vamax o => Sys2Proof.Machine.execVamax o s
  | .vquant vd vs a t src part rc l => Sys2Proof.Machine.execVquant vd vs a t src part rc l s
  | .vdequant vd a b t src part rc l => Sys2Proof.Machine.execVdequant vd a b t src part rc l s
  | .vhad vd a t stage rc l => Sys2Proof.Machine.execVhad vd a t stage rc l s
  | .vhadPass vd a t stage rc l => Sys2Proof.Machine.execVhadPass vd a t stage rc l s
  | .vsfuRcp o => Sys2Proof.Machine.execVsfuRcp o s
  | .vsfuRsq o => Sys2Proof.Machine.execVsfuRsq o s
  | .vsfuSqrt o => Sys2Proof.Machine.execVsfuSqrt o s
  | .vsfuExp2 o => Sys2Proof.Machine.execVsfuExp2 o s
  | .vsfuLog2 o => Sys2Proof.Machine.execVsfuLog2 o s
  | .vsfuSin o => Sys2Proof.Machine.execVsfuSin o s
  | .vsfuCos o => Sys2Proof.Machine.execVsfuCos o s
  | .vsfuTanh o => Sys2Proof.Machine.execVsfuTanh o s
  | .vsfuSigmoid o => Sys2Proof.Machine.execVsfuSigmoid o s
  | .vsfuGelu o => Sys2Proof.Machine.execVsfuGelu o s
  | .vsfuSilu o => Sys2Proof.Machine.execVsfuSilu o s
  | .mfmt d p => Sys2Proof.Machine.execMfmt d p s
  | .mfmtWin d p q => Sys2Proof.Machine.execMfmtWin d p q s
  | .mzero w d u => Sys2Proof.Machine.execMzero w d u s
  | .mma w d set a b => Sys2Proof.Machine.execMma w d set a b s
  | .mrow vd t p u sat rc => Sys2Proof.Machine.execMrow vd t p u sat rc s
  | .mwrow vd t p u => Sys2Proof.Machine.execMwrow vd t p u s
  | .mload w d p u t => Sys2Proof.Machine.execMload w d p u t s
  | .mcopy w d p u t sat rc => Sys2Proof.Machine.execMcopy w d p u t sat rc s
  | .mwait p => Sys2Proof.Machine.execMwait p s
  | .mstat d => Sys2Proof.Machine.execMstat d s
  | .mstatClr d => Sys2Proof.Machine.execMstatClr d s
  | .cbdef d p q => Sys2Proof.Machine.execCbdef d p q s
  | .cbacqW d p => Sys2Proof.Machine.execCbacqW d p s
  | .cbacqR d p => Sys2Proof.Machine.execCbacqR d p s
  | .cbacqWTry d p => Sys2Proof.Machine.execCbacqWTry d p s
  | .cbacqRTry d p => Sys2Proof.Machine.execCbacqRTry d p s
  | .cbrelW d p u => Sys2Proof.Machine.execCbrelW d p u s
  | .cbrelR d p u => Sys2Proof.Machine.execCbrelR d p u s
  | .cbstat d p => Sys2Proof.Machine.execCbstat d p s
  | .dcopy d p q u => Sys2Proof.Machine.execDcopy d p q u s
  | .dcopym d p q u w => Sys2Proof.Machine.execDcopym d p q u w s
  | .dred op t d p q u => Sys2Proof.Machine.execDred op t d p q u s
  | .dwait p => Sys2Proof.Machine.execDwait p s
  | .dtest d p => Sys2Proof.Machine.execDtest d p s
  | .dcancel d p => Sys2Proof.Machine.execDcancel d p s
  | .dstream t wd gw p q u => Sys2Proof.Machine.execDstream t wd gw p q u s
  | .wget t vd wp u => Sys2Proof.Machine.execWget t vd wp u s
  | .bardef d p q => Sys2Proof.Machine.execBardef d p q s
  | .barexp d p q => Sys2Proof.Machine.execBarexp d p q s
  | .bararr d p q => Sys2Proof.Machine.execBararr d p q s
  | .barwait p q => Sys2Proof.Machine.execBarwait p q s
  | .lde d m => Sys2Proof.Machine.execLde d m s
  | .ldf d m => Sys2Proof.Machine.execLdf d m s
  | .stf d m => Sys2Proof.Machine.execStf d m s
  | .boxt vd va vb l => Sys2Proof.Machine.execBoxt vd va vb l s
  | .trit vd va vb l => Sys2Proof.Machine.execTrit vd va vb l s
  | .tsampGrad vd va vb g xr l => Sys2Proof.Machine.execTsampGrad vd va vb g xr l s
  | .tsampLod vd va g xr l => Sys2Proof.Machine.execTsampLod vd va g xr l s
  | .tsampBase vd va g xr l => Sys2Proof.Machine.execTsampBase vd va g xr l s
  | .tfetch vd va g xr l => Sys2Proof.Machine.execTfetch vd va g xr l s
  | .vmm8 e5 vd a c xr l => Sys2Proof.Machine.execVmm8 e5 vd a c xr l s
  | .tkget d gp q => Sys2Proof.Machine.execTkget d gp q s
  | .tkgetPeek d gp q => Sys2Proof.Machine.execTkgetPeek d gp q s
  | .tkcommit d gp q u vw => Sys2Proof.Machine.execTkcommit d gp q u vw s
  | .tkcommitTry d gp q u vw => Sys2Proof.Machine.execTkcommitTry d gp q u vw s
  | .tkretire d gp q u => Sys2Proof.Machine.execTkretire d gp q u s
  | .trap n => Sys2Proof.Machine.execTrap n s
  | .brk n => Sys2Proof.Machine.execBrk n s
  | .seam n => Sys2Proof.Machine.execSeam n s
  | .pmark p code => Sys2Proof.Machine.execPmark p code s
  | .pmarkE p code => Sys2Proof.Machine.execPmarkE p code s
  | .cntrd d p => Sys2Proof.Machine.execCntrd d p s
  | .illegalInstruction head tail => Sys2Proof.Machine.execIllegalInstruction head tail s
  | .lineFormat base => Sys2Proof.Machine.execLineFormat base s
  | .lbrk => Sys2Proof.Machine.execLbrk s
  | .wbAll => Sys2Proof.Machine.execWbAll s
  | .invAll => Sys2Proof.Machine.execInvAll s
  | .wbinvAll => Sys2Proof.Machine.execWbinvAll s
  | .ifence => Sys2Proof.Machine.execIfence s
  | .halt => Sys2Proof.Machine.execHalt s
  | .yield => Sys2Proof.Machine.execYield s
  | .gbar => Sys2Proof.Machine.execGbar s
  | .slicegive => Sys2Proof.Machine.execSlicegive s
  | .tret => Sys2Proof.Machine.execTret s
  | .tretNext => Sys2Proof.Machine.execTretNext s
  | .seamret => Sys2Proof.Machine.execSeamret s
  | .ticketRequestAtTileHome => Sys2Proof.Machine.execTicketRequestAtTileHome s
  | .deferredTrapEntry => Sys2Proof.Machine.execDeferredTrapEntry s
  | .lineFill => Sys2Proof.Machine.execLineFill s
  | .loadDataArrival => Sys2Proof.Machine.execLoadDataArrival s
  | .accessAtHome => Sys2Proof.Machine.execAccessAtHome s
  | .l1Eviction => Sys2Proof.Machine.execL1Eviction s
  | .objectHomeRequest => Sys2Proof.Machine.execObjectHomeRequest s
  | .ringAnnouncement => Sys2Proof.Machine.execRingAnnouncement s
  | .pageWalk => Sys2Proof.Machine.execPageWalk s
  | .pageWake => Sys2Proof.Machine.execPageWake s
  | .vectorGroupEntry => Sys2Proof.Machine.execVectorGroupEntry s
  | .vectorGroupDelivery => Sys2Proof.Machine.execVectorGroupDelivery s
  | .renegotiation => Sys2Proof.Machine.execRenegotiation s
  | .freeRowGrant => Sys2Proof.Machine.execFreeRowGrant s
  | .anvilBeat => Sys2Proof.Machine.execAnvilBeat s
  | .mrowDelivery => Sys2Proof.Machine.execMrowDelivery s
  | .drawplateBeat => Sys2Proof.Machine.execDrawplateBeat s
  | .streamElementArrival => Sys2Proof.Machine.execStreamElementArrival s
  | .messageTimeout => Sys2Proof.Machine.execMessageTimeout s
  | .feTimeout => Sys2Proof.Machine.execFeTimeout s
  | .cbTimeout => Sys2Proof.Machine.execCbTimeout s
  | .cwaitTimeout => Sys2Proof.Machine.execCwaitTimeout s
  | .vwaitRecheck => Sys2Proof.Machine.execVwaitRecheck s
  | .vwaitTimeout => Sys2Proof.Machine.execVwaitTimeout s
  | .sleepDeadline => Sys2Proof.Machine.execSleepDeadline s
  | .placementDecision => Sys2Proof.Machine.execPlacementDecision s
  | .counterCompletion => Sys2Proof.Machine.execCounterCompletion s
  | .cancelComplete => Sys2Proof.Machine.execCancelComplete s
  | .phaseDeadline => Sys2Proof.Machine.execPhaseDeadline s
  | .switchTick => Sys2Proof.Machine.execSwitchTick s
  | .slicegiveChoice => Sys2Proof.Machine.execSlicegiveChoice s
  | .saveDone => Sys2Proof.Machine.execSaveDone s
  | .restoreDone => Sys2Proof.Machine.execRestoreDone s
  | .saveBudgetExpiry => Sys2Proof.Machine.execSaveBudgetExpiry s
  | .saveOverrun => Sys2Proof.Machine.execSaveOverrun s
  | .swapUp => Sys2Proof.Machine.execSwapUp s
  | .migrationCopy => Sys2Proof.Machine.execMigrationCopy s
  | .temperWindow => Sys2Proof.Machine.execTemperWindow s
  | .creditInterval => Sys2Proof.Machine.execCreditInterval s
  | .encoderFrame => Sys2Proof.Machine.execEncoderFrame s
  | .sprueWindowPush => Sys2Proof.Machine.execSprueWindowPush s
  | .hostHdmAccess => Sys2Proof.Machine.execHostHdmAccess s
  | .backInvalidateResponse => Sys2Proof.Machine.execBackInvalidateResponse s
  | .evhead => Sys2Proof.Machine.execEvhead s
  | .identify => Sys2Proof.Machine.execIdentify s
  | .setevq => Sys2Proof.Machine.execSetevq s
  | .partcfg => Sys2Proof.Machine.execPartcfg s
  | .partdestroy => Sys2Proof.Machine.execPartdestroy s
  | .ownerset => Sys2Proof.Machine.execOwnerset s
  | .vfrange => Sys2Proof.Machine.execVfrange s
  | .poolsetAdd => Sys2Proof.Machine.execPoolsetAdd s
  | .poolsetWithdraw => Sys2Proof.Machine.execPoolsetWithdraw s
  | .ctxcreate => Sys2Proof.Machine.execCtxcreate s
  | .ctxdestroy => Sys2Proof.Machine.execCtxdestroy s
  | .ctxpolicy => Sys2Proof.Machine.execCtxpolicy s
  | .shootdown => Sys2Proof.Machine.execShootdown s
  | .ladlemap => Sys2Proof.Machine.execLadlemap s
  | .ladlemapUnmap => Sys2Proof.Machine.execLadlemapUnmap s
  | .spruecreate => Sys2Proof.Machine.execSpruecreate s
  | .spruedestroy => Sys2Proof.Machine.execSpruedestroy s
  | .gatewrite => Sys2Proof.Machine.execGatewrite s
  | .gatewriteWithdraw => Sys2Proof.Machine.execGatewriteWithdraw s
  | .seamregion => Sys2Proof.Machine.execSeamregion s
  | .faultreplyResume => Sys2Proof.Machine.execFaultreplyResume s
  | .faultreplyDeliver => Sys2Proof.Machine.execFaultreplyDeliver s
  | .faultreplyStop => Sys2Proof.Machine.execFaultreplyStop s
  | .encstream => Sys2Proof.Machine.execEncstream s
  | .encstreamWithdraw => Sys2Proof.Machine.execEncstreamWithdraw s
  | .ctxstart => Sys2Proof.Machine.execCtxstart s
  | .cntcfg => Sys2Proof.Machine.execCntcfg s
  | .cntread => Sys2Proof.Machine.execCntread s
  | .cntsnap => Sys2Proof.Machine.execCntsnap s
  | .cntload => Sys2Proof.Machine.execCntload s
  | .traceclaim => Sys2Proof.Machine.execTraceclaim s
  | .tracerelease => Sys2Proof.Machine.execTracerelease s
  | .debugstateRead => Sys2Proof.Machine.execDebugstateRead s
  | .debugstateResume => Sys2Proof.Machine.execDebugstateResume s
  | .debugstateSetComparator => Sys2Proof.Machine.execDebugstateSetComparator s
  | .debugstateClearComparator => Sys2Proof.Machine.execDebugstateClearComparator s
  | .debugStop => Sys2Proof.Machine.execDebugStop s
  | .capsuleget => Sys2Proof.Machine.execCapsuleget s
  | .capsuleclear => Sys2Proof.Machine.execCapsuleclear s
  | .dumpbuf => Sys2Proof.Machine.execDumpbuf s
  | .woenebindOwnNumber => Sys2Proof.Machine.execWoenebindOwnNumber s
  | .woenebindRoute => Sys2Proof.Machine.execWoenebindRoute s
  | .woenebindBind => Sys2Proof.Machine.execWoenebindBind s
  | .woenebindUnbind => Sys2Proof.Machine.execWoenebindUnbind s
  | .woeneTransaction => Sys2Proof.Machine.execWoeneTransaction s
  | .peerUnreachable => Sys2Proof.Machine.execPeerUnreachable s
  | .woeneLinkChange => Sys2Proof.Machine.execWoeneLinkChange s
  | .spdmRequest => Sys2Proof.Machine.execSpdmRequest s
  | .tdispRun => Sys2Proof.Machine.execTdispRun s
  | .tdispError => Sys2Proof.Machine.execTdispError s
  | .coldReset => Sys2Proof.Machine.execColdReset s
  | .warmReset => Sys2Proof.Machine.execWarmReset s
  | .functionLevelReset => Sys2Proof.Machine.execFunctionLevelReset s
  | .powerLoss => Sys2Proof.Machine.execPowerLoss s
  | .junctionThrottle => Sys2Proof.Machine.execJunctionThrottle s
  | .junctionShutdown => Sys2Proof.Machine.execJunctionShutdown s
  | .uncorrectableError => Sys2Proof.Machine.execUncorrectableError s
  | .patrolScrub => Sys2Proof.Machine.execPatrolScrub s
  | .freeze => Sys2Proof.Machine.execFreeze s
  | .capsuleSeal => Sys2Proof.Machine.execCapsuleSeal s
  | .unknownOp => Sys2Proof.Machine.execUnknownOp s
  | .cmdWriteWhileBusy => Sys2Proof.Machine.execCmdWriteWhileBusy s
  | .flitReplay => Sys2Proof.Machine.execFlitReplay s
  | .junctionThrottleEnd => Sys2Proof.Machine.execJunctionThrottleEnd s

end Sys2Proof.Machine
end

