-- ==== Sys2Proof/Machine/Settle.lean ====
section
/-!
DEFINITION. What follows a step at once: waiting instructions whose condition holds complete, in order of arrival (R87,
R231; log entry 1).
-/
namespace Sys2Proof.Machine

/-- A waiting thread is tried again: always when it waits for a condition of the state, otherwise when its event has
reached it. -/
def Thread.retries (t : Thread) : Bool :=
  !t.parked &&
  match t.waitOf with
  | none => false
  | some w =>
    w.woken ||
    match w.asked with
    | .none | .vector _ | .phase _ => w.instr != .lineFill
    | .home _ (some _) | .ticket _ (some _) => true
    | _ => false

/-- The wait a thread is in, when it is of the instruction that was tried again. -/
def sameWait (s : State) (key : Nat) (w : Wait) : Option Wait :=
  match s.thread? key with
  | some t => t.waitOf.filter fun w' => w'.instr == w.instr
  | none => none

/-- Try a waiting thread again: the state after, and whether the wait has ended. A wait that goes on leaves the state as it
was, unless its event had come or it now waits for something else. The instruction runs with the segment registers it was issued with,
whatever a sibling has loaded meanwhile: the model's choice (log entry 110). -/
def State.retry (s : State) (t : Thread) (w : Wait) : State × Bool :=
  let t := s.readyAfter t w.instr
  let s' : State :=
    match w.asked with
    | .handler .. => s.enterHandler t
    | _ =>
      if w.instr = .lineFill then s.putThread { t with status := .runnable }
      else
        match exec w.instr { s.putThread t with cur := some t.key, ev := .empty } with
        | .next s' => s'
        | _ => s
  match sameWait s' t.key w with
  | some w' => (if w.woken || w'.asked != w.asked || w'.reason != w.reason then s' else s, false)
  | none => (s', true)

/-- Threads to try again, oldest wait first. -/
def State.waiters (s : State) : List Nat :=
  let ws := s.threads.filterMap fun p => if p.2.retries then p.2.waitOf.map fun w => (w.stamp, p.1) else none
  (ws.foldl (fun m w => Map.put m w.1 w.2) []).map (·.2)

/-- One pass over waiting threads: it stops at the first whose wait ends. -/
def settlePass : List Nat → State → State × Bool
  | [], s => (s, false)
  | k :: ks, s =>
    match s.thread? k with
    | none => settlePass ks s
    | some t =>
      match t.waitOf with
      | none => settlePass ks s
      | some w =>
        if !t.retries then settlePass ks s
        else
          match s.retry t w with
          | (s, true) => (s, true)
          | (s, false) => settlePass ks s

/-- Passes until no wait ends: `fuel` at most. -/
def settleLoop : Nat → State → State
  | 0, s => s
  | n + 1, s =>
    match settlePass s.waiters s with
    | (s, true) => settleLoop n s
    | (s, false) => s

/-- The state once every wait whose condition holds has ended. -/
def settle (s : State) : State := settleLoop (s.threads.length + 1) s

end Sys2Proof.Machine
end

