-- ==== Sys2Proof/Machine/Agents.lean ====
section
/-!
DEFINITION. The steps that agents have to take in a state, from which the default order takes its next (log entry 1).
-/
namespace Sys2Proof.Machine

/-- An agent's step with its operands. -/
def agent (i : Instr) (a b c : Nat) : Act := .agent i { Ev.empty with a := a, b := b, c := c }

/-- A step when a condition holds. -/
def actIf (c : Bool) (i : Instr) (a b : Nat) : List Act := if c then [agent i a b 0] else []

namespace State

/-! ### What is on its way -/

/-- Announcements: the oldest, to a bench it has yet to reach (R266). -/
def ringActs (s : State) : List Act :=
  match s.ring with
  | [] => []
  | (_, (left, _)) :: _ => [agent .ringAnnouncement (left.headD 0) 0 0]

/-- Requests and accesses on their way to a home; answers to snoops. -/
def homeActs (s : State) : List Act :=
  s.snoops.map (fun l => agent .backInvalidateResponse l 0 0) ++ actIf (!s.objReqs.isEmpty) .objectHomeRequest 0 0
    ++ s.home.map (fun h => agent .accessAtHome h.1 0 0) ++ s.tickets.map fun r => agent .ticketRequestAtTileHome r.1 0 0

/-- The end of a wait by its limit. -/
def limitActs (t : Thread) (w : Wait) : List Act :=
  if !w.expired then []
  else match w.instr with
    | .msend .. | .mrecv .. => [agent .messageTimeout t.key 0 0]
    | .lde .. | .ldf .. | .stf .. => [agent .feTimeout t.key 0 0]
    | .cbacqW .. | .cbacqR .. | .barwait .. => [agent .cbTimeout t.key 0 0]
    | .cwait .. => [agent .cwaitTimeout t.key 0 0]
    | .vwait .. => [agent .vwaitTimeout t.key 0 0]
    | _ => []

/-- What a waiting thread has asked for. -/
def askedActs (s : State) (t : Thread) (w : Wait) : List Act :=
  let peer (pa : Nat) : Bool := decide (pa < 2 ^ 60) || s.peerUp t.part (pa / 2 ^ 60 - 1)
  match w.asked with
  | .data => match w.instr with
    | .vwait .. => [agent .vwaitRecheck t.key 0 0]
    | _ => [agent .loadDataArrival t.key 0 0]
  | .line pa | .handler (some pa) _ =>
    if peer pa then [agent .lineFill t.key 0 0] else actIf (decide (100000 ≤ w.elapsed)) .peerUnreachable t.key 0
  | .peer dev =>
    if s.peerUp t.part dev then [agent .loadDataArrival t.key 0 0] else actIf (decide (100000 ≤ w.elapsed)) .peerUnreachable t.key 0
  | _ => []

/-- The steps for a waiting thread. -/
def waitActs (s : State) (t : Thread) : List Act :=
  match t.waitOf with
  | some w => if t.parked || w.woken then [] else askedActs s t w ++ limitActs t w
  | none => []

/-! ### Engines of the benches -/

/-- The steps for the sequencer of a thread. -/
def sequencerActs (t : Thread) : List Act :=
  if t.parked then []
  else
    actIf (t.deferred.isSome && t.status != .runnable && t.atBoundary) .deferredTrapEntry t.key 0
      ++ actIf (t.debugHeld && !t.debugStopped && t.status == .runnable && t.seqEmpty) .debugStop t.key 0
      ++ t.seq.flatMap fun e => match e.instr with
        | .mrow .. | .mwrow .. => [agent .mrowDelivery t.key e.num 0]
        | _ => actIf (!e.rows.isEmpty) .vectorGroupDelivery t.key e.num

/-- Stream elements that a thread has requested. -/
def streamActs (t : Thread) : List Act :=
  if t.parked then []
  else (List.range 8).flatMap fun i => match t.w[i]? with
    | some (some b) => actIf (decide (b.consumed + b.arrived.length < b.requested)) .streamElementArrival t.key i
    | _ => []

/-- The steps of a core's engines. -/
def coreActs (s : State) (core : Nat) : List Act :=
  let c := s.core core
  let ts := (s.threads.map (·.2)).filter fun t => t.core == core && !t.parked
  actIf (ts.any fun t => !t.seq.isEmpty) .vectorGroupEntry core 0 ++ actIf c.point .renegotiation core 0
    ++ (List.range 5).flatMap (fun i => actIf (s.rowTaker core (pipeOf i)).isSome .freeRowGrant core i)
    ++ actIf ((s.bench (core / 8)).anvil.any (·.core == core)) .anvilBeat core 0
    ++ actIf (!(s.plateWork core).isEmpty) .drawplateBeat core 0

/-! ### Contexts and partitions -/

/-- The steps of a context's counters, phases and encoder sprues. -/
def ctxActs (s : State) (n : Nat) (c : Ctx) : List Act :=
  c.counters.flatMap (fun k =>
      actIf (counterReady k.2 && !k.2.cancelling) .counterCompletion n k.1
        ++ actIf (k.2.cancelling && !((s.counter n k.2.parent).cancelling && k.2.parent != noCounter)
            && (k.1 == 0 || !(s.counter n 0).cancelling)) .cancelComplete n k.1)
    ++ c.phases.flatMap (fun p => actIf ((s.counter n p.1).state == .opened && !(s.counter n p.1).late && p.2.deadline != 0
        && decide (p.2.deadline.toNat ≤ s.gtsc.toNat)) .phaseDeadline n p.1)
    ++ c.sprues.flatMap fun q => actIf (q.2.kind == .encoder && !q.2.entries.isEmpty) .encoderFrame n q.1

/-- The steps of a partition's caster, switch agent, ladle and account. -/
def partActs (s : State) (n : Nat) (p : Part) : List Act :=
  let casts := match s.sliceCtx n with
    | some ctx => (s.liveLaunches ctx).any fun l => l.2.state != .placed
    | none => false
  let dies := match p.phase with
    | .settled => []
    | .saving _ ds => ds.map fun d => agent .saveDone n d 0
    | .restoring ds => ds.map fun d => agent .restoreDone n d 0
  let late := match p.phase with
    | .saving _ ds =>
      actIf (!p.stretched && s.overrun p != 0) .saveBudgetExpiry n 0
        ++ if p.switchAt + 2000000 ≤ s.gtsc.toNat then ds.map fun d => agent .saveOverrun n d 0 else []
    | _ => []
  let up := match s.swapTarget n p with
    | some d => !(s.farRecorded d).isEmpty && !(s.poolFree n).isEmpty
    | none => false
  let due := s.tickDue p && (p.running.isSome || (s.chooseCtx n p false).isSome)
  actIf casts .placementDecision n 0 ++ actIf due .switchTick n 0
    ++ actIf (p.give && p.phase == .settled) .slicegiveChoice n 0 ++ late ++ dies ++ actIf up .swapUp n 0
    ++ actIf (decide (p.creditAt + 1000 ≤ s.gtsc.toNat)) .creditInterval n 0

/-- The steps of the ladle's migrations and of the temper. -/
def deviceActs (s : State) : List Act :=
  s.migrations.flatMap (fun m => actIf (s.copyReady m) .migrationCopy m.ctx m.va)
    ++ actIf (!s.parts.isEmpty && decide (s.temperAt + 10000 ≤ s.gtsc.toNat)) .temperWindow 0 0

/-- The steps of a freeze (R406, R407). -/
def freezeActs (s : State) : List Act :=
  match s.freeze with
  | none => []
  | some f =>
    if s.gtsc.toNat < f.stamp.toNat + 64 then []
    else
      let left := (s.cores.map (·.1)).filter fun n => !f.held.contains n
      if left.isEmpty then [agent .capsuleSeal 0 0 0] else left.map fun n => agent .freeze n 0 0

/-- Cores with a thread, or whose bench has an anvil operation. -/
def busyCores (s : State) : List Nat :=
  let own : List Nat := s.threads.map fun t => t.2.core
  let anvils : List Nat := s.benches.flatMap fun b => b.2.anvil.map (·.core)
  let left : List Nat := s.gangs.flatMap fun g => g.2.orphans.map fun o => o.1 % 16384 / 16
  (own ++ anvils ++ left).eraseDups

/-- Every step that an agent has to take now. -/
def agentActs (s : State) : List Act :=
  s.freezeActs ++
  if s.stopped then []
  else
    s.ringActs ++ s.homeActs ++ s.threads.flatMap (fun t => s.waitActs t.2 ++ sequencerActs t.2 ++ streamActs t.2)
      ++ s.busyCores.flatMap s.coreActs ++ s.ctxs.flatMap (fun c => s.ctxActs c.1 c.2) ++ s.parts.flatMap (fun p => s.partActs p.1 p.2)
      ++ s.deviceActs

end State

/-- An agent's step that belongs to a partition, whose part of the device a Machine Check may stop (R407). -/
def ofPartition : Instr → Bool
  | .ticketRequestAtTileHome | .deferredTrapEntry | .lineFill | .loadDataArrival | .accessAtHome | .l1Eviction
  | .objectHomeRequest | .ringAnnouncement | .pageWalk | .pageWake | .vectorGroupEntry | .vectorGroupDelivery
  | .renegotiation | .freeRowGrant | .anvilBeat | .mrowDelivery | .drawplateBeat | .streamElementArrival | .messageTimeout
  | .feTimeout | .cbTimeout | .cwaitTimeout | .vwaitRecheck | .vwaitTimeout | .sleepDeadline | .placementDecision
  | .counterCompletion | .cancelComplete | .phaseDeadline | .switchTick | .slicegiveChoice | .saveDone | .restoreDone
  | .saveBudgetExpiry | .saveOverrun | .swapUp | .migrationCopy | .creditInterval | .encoderFrame | .peerUnreachable => true
  | _ => false

end Sys2Proof.Machine
end

