-- ==== Sys2Proof/Machine/Schedule.lean ====
section
/-!
DEFINITION. Who moves: the issue of a thread's next instruction (R33, R36, R37, R82), the passing of time, and the default
order of the agents when the schedule names none (log entry 1).
-/
namespace Sys2Proof.Machine

/-! ### Issue -/

/-- The slot of a core cycle is a thread's: contexts that have yielded and are eligible again in that cycle wait for no other
any longer (R82, R96), and the rotation goes on after the thread. -/
def State.slotUsed (s : State) (t : Thread) (cycle : Nat) : State :=
  let ts := s.liveOn t.core
  let s := (ts.filter fun u => u.key != t.key && u.yielded.isSome && u.eligible ts cycle).foldl
    (fun s u => s.onThread u.key fun u => { u with yielded := none }) s
  s.putCore t.core { s.core t.core with last := t.context, cycle := cycle + 1 }

/-- Bookkeeping of an issue in a core cycle: its slot, the cycle the context is eligible from again, the retire sample of the
core and the bench's trace unit (R82, R96, R401, R405). -/
def State.issued (s : State) (t : Thread) (i : Instr) (cycle : Nat) : State :=
  let s := s.slotUsed t cycle
  let c := s.core t.core
  let s := s.putCore t.core { c with issues := (c.issues + 1) % 4096 }
  let s := if c.issues + 1 = 4096 then s.assayThread t 0x10 t.pc.toNat else s
  let s := s.traceIssue t (t.convoyOf i)
  s.onThread t.key fun t => { t with issuedAt := cycle, readyAt := cycle + latency t i, yielded := none }

/-- What the fetch of a thread's next head finds (R33, R36, R38, R40). -/
inductive Head where
  | run (i : Instr)
  | trap (c : BitVec 8) (v : Word)
  | wait (r : Reason) (a : Asked)
  deriving DecidableEq, Repr

/-- The instruction at a pc of a line that has been fetched: the line's checks, then the head's (R33, R40). A pc that is no head of the
line any more, since another image has taken its place, raises Misaligned Target with the pc as TPC and TVAL: the model's choice (log
entry 106). -/
def headOf (img : List Byte) (pc : Word) : Head :=
  if !isHead img pc then .trap Cause.misalignedTarget pc
  else if !lineOk img then .run (.lineFormat (lineBase pc))
  else
    let i := headIndex pc
    let head := lineHead img i
    let tail := lineTail img i
    match decode head tail with
    | .ok instr => .run instr
    | .error _ => .run (.illegalInstruction head tail)

/-- Fetch the next head of a thread (R36): the line it has, or its line through g0. -/
def State.fetchHead (s : State) (t : Thread) : Head × State :=
  match s.fetchLine t t.pc false true with
  | (.ok img, s) => (headOf img t.pc, s.onThread t.key fun t => { t with line := some (lineBase t.pc, img) })
  | (.fails c v, s) => (.trap c v, s)
  | (.page va, s) => (.wait .page (.pages [va]), s)
  | (.line pa, s) => (.wait .load (.line pa), s)

/-- What a thread has pending that its next instruction, or a trap of its fetch, ends: the results of a pass form, and a `vloop`
that captures (R148, R171; log entry 94). -/
def Thread.dropPending (t : Thread) : Thread :=
  { t with pass := none, vloop := if t.capturing then none else t.vloop }

/-- The next instruction may follow what the thread has pending: it takes the results of a pass form, and a `vloop` that
captures may hold it (R148, R171). -/
def Thread.fits (t : Thread) (i : Instr) : Bool :=
  (match t.pass with
   | some (vd, ty, _) => takesPass i vd ty
   | none => true)
  && (!t.capturing || mayMember i)

/-- The instruction is what the decoder answers for an encoding that is none. -/
def isBadEncoding : Instr → Bool
  | .illegalInstruction .. | .lineFormat .. => true
  | _ => false

/-- Execute the instruction at the head of a thread (R148, R171). -/
def State.runHead (s : State) (t : Thread) (i : Instr) : Result :=
  if t.fits i then exec i { s with cur := some t.key, ev := .empty }
  else
    let s := s.onThread t.key Thread.dropPending
    if isBadEncoding i then exec i { s with cur := some t.key, ev := .empty }
    else .next (s.raiseHere t.key Cause.illegal (instrTval i) t.pc none)

/-- A debug stop for a comparator that names the PC of an issue (R402). -/
def State.comparator (s : State) (t : Thread) (r : Result) : Result :=
  match s.debugged t with
  | some ss =>
    if ss.comparators.any (·.2 == t.pc) then
      match r with
      | .next s => .next (s.onThread t.key fun t => { t with debugHeld := true })
      | r => r
    else r
  | none => r

/-- The instruction of a thread and of a core cycle is issued (R36, R82); Frame Owner of an access that its home has refused since
comes in its place (R247, R269; log entry 101). -/
def State.issueAt (s : State) (t : Thread) (cycle : Nat) : Result :=
  match Map.get? s.strays t.key with
  | some v =>
    let s := { (s.slotUsed t cycle).onThread t.key Thread.dropPending with strays := Map.del s.strays t.key }
    .next (s.raiseHere t.key Cause.frameOwner v t.pc none)
  | none =>
  match s.fetchHead t with
  | (.run i, s) =>
    let s' := s.issued t i cycle
    s.comparator t (s'.loopCheck ((s'.thread? t.key).getD t) (s'.runHead t i))
  | (.trap c v, s) => .next (((s.slotUsed t cycle).onThread t.key Thread.dropPending).raiseHere t.key c v t.pc none)
  | (.wait r a, s) => .next (s.startWait t.key .lineFill r 0 a)

/-- Issue the next instruction of a thread, when it is its turn; the entry of a deferred trap takes no turn (R82, R85). -/
def State.issue (s : State) (key : Nat) : Result :=
  match s.thread? key with
  | none => .next s
  | some t =>
    if !t.mayIssue || s.stopped then .next s
    else if t.deferred.isSome then exec .deferredTrapEntry { s with cur := some key, ev := { Ev.empty with a := key } }
    else
      match s.turnOf t.core with
      | some (u, cycle) => if u.key = key then (s.putThread t.boundary).issueAt t.boundary cycle else .next s
      | none => .next s

/-! ### Time -/

/-- Nanoseconds pass: the GTSC counts them, and so do the limits of waits of threads that are not parked (R88, R385). -/
def State.pass (s : State) (ns : Nat) : State :=
  { s with
    steps := s.steps + 1
    gtsc := s.gtsc + BitVec.ofNat 64 ns
    threads := s.threads.map fun p =>
      match p.2.status with
      | .waiting w =>
        if p.2.parked then p
        else (p.1, { p.2 with status := .waiting { w with
          elapsed := w.elapsed + ns, cycles := w.cycles + cycles32 ns (s.clockOf p.2.part) } })
      | _ => p }

/-- The time after a step (log entry 2). -/
def State.tick (s : State) : State := s.pass (Config.elapsedNs s.steps)

/-! ### The default order -/

/-- The next thread to issue: cores with a thread that may issue take turns by the number of the step. -/
def State.nextThread (s : State) : Option Nat :=
  let ready := (s.threads.map (·.2)).filter Thread.mayIssue
  let cores := (ready.map Thread.core).eraseDups
  match cores[s.steps % cores.length]? with
  | none => none
  | some c => (s.turnOf c).map fun p => p.1.key

/-- The default order: threads and agents take turns, and agents among themselves, by the number of the step. -/
def State.defaultAct (s : State) : Option Act :=
  let acts := s.agentActs
  let agents := acts[s.steps / 2 % acts.length]?
  let thread := if s.stopped then none else s.nextThread.map Act.issue
  if s.steps % 2 = 0 then agents.or thread else thread.or agents

/-- Do what an entry of the schedule says. -/
def State.act (s : State) : Act → Result
  | .issue key => s.issue key
  | .agent i ev => if s.stopped && ofPartition i then .next s else exec i { s with cur := none, ev := ev }

/-- The next act and the schedule left: the schedule's first entry, or the default order; none lets time pass. -/
def State.choose (s : State) : Option Act × State :=
  match s.sched with
  | a :: rest => (some a, { s with sched := rest })
  | [] => (s.defaultAct, s)

/-- What follows every act: time, what the ladle and the mailbox begin or end at once, and the waits that end. -/
def State.after (s : State) : State :=
  let s := { s with cur := none, ev := .empty }.tick
  if s.stopped then s else settle s.ladleStep.commandStep.finishGangs

/-- One step of the machine. -/
def State.advance (s : State) : Result :=
  match s.choose with
  | (none, s) => .next s.after
  | (some a, s) =>
    match s.act a with
    | .next s => .next s.after
    | .fault r => .fault r
    | .refused r => .refused r

/-! ### A program placed from outside -/

/-- A context whose table and save area lie in the frames of its own number (R346). -/
def Ctx.plain (fn part root : Nat) : Ctx where
  fn := fn
  part := part
  state := .running
  auto := false
  nptrap := false
  prio := 0
  root := root
  savebase := 0
  nsprue := 63
  hot := 0
  rth := 0
  softlim := 0
  wsmax := 0
  nquota := 0
  farbase := 0
  farloc := 0
  peer := 0
  farsize := 0
  throttle := false
  gates := []
  seamRegion := none
  energy := 0
  counters := [(0, { Counter.fresh with state := .opened, level := 3 })]
  phases := []
  sprues := []
  launches := []
  nextLaunch := 0
  launchId := 0
  managed := []
  reported := []
  recorded := []
  unrecorded := 0
  ringMsgs := []
  savedRows := []
  savedBad := []
  savedCores := []
  shorten := 0
  autoQueue := []

/-- A partition that owns the four quarters of bench 0. -/
def Part.oneBench : Part where
  quarters := [0, 1, 2, 3]
  encs := 0
  hostw := 1
  wlw := 0
  memw := 1
  slw := 1
  ways := 1
  isSealed := false
  savebud := 1
  tick := 10
  power := 0
  lend := false
  running := some 0
  next := none
  phase := .settled
  tickAt := 0
  slice := 0
  switchAt := 0
  give := false
  stretched := false
  creditAt := 0
  down := none
  pool := []
  clock := 16
  bound := none
  tag := none

/-- A gang of one thread on core 0 of bench 0, with a whole quarter of scratchpad. -/
def Gang.single : Gang where
  ctx := 0
  bench := 0
  launchSeq := 0
  cores := [0]
  perCore := [1]
  spadBase := 0
  spadSize := 0x100000
  rowBase := 0
  rows := 256
  parked := false
  bytes := []
  fullTags := []
  cbs := []
  bars := []
  done := []
  reaped := []
  orphans := []
  bad := []

/-- The head of core 0 of bench 0, at the first head of the line at offset 0 of g0, which covers the whole address space. -/
def Thread.placed : Thread where
  ctx := 0
  tid := 0
  fn := 0
  part := 0
  gang := 0
  gangSize := 0
  gangIndex := 0
  launch := 0
  status := .runnable
  parked := false
  saved := false
  x := Vector.replicate 64 0
  v := Vector.replicate 16 0
  k := Vector.replicate 8 0
  g := (Vector.replicate 8 Segment.none).set 0 ⟨.global, 0, 0x80000000000000, true, true, true, true, 0⟩
  w := Vector.replicate 8 none
  pc := 2
  line := none
  vstart := 0
  fz := false
  rm := 0
  fflags := 0
  mxstat := 0
  srseed := 0
  loops := []
  lsel := 0
  lword := 0
  felimit := 0
  cblimit := 0
  tvec := 0
  tcause := 0
  tpc := 0
  tval := 0
  hnd := false
  frames := []
  window := some ⟨256, 0⟩
  aseq := 0
  astat := 0
  dseq := 0
  plate := []
  mailbox := []
  gbars := 0
  issuedAt := 0
  readyAt := 0
  yielded := none
  segNext := []
  seq := []
  vloop := none
  loopRec := none
  pass := none
  replay := none
  deferred := none
  debugHeld := false
  debugStopped := false
  reply := none

/-- A context of one thread placed from outside, with `img` as the line its next step fetches: in frame 0, mapped at
virtual address 0 in the bench's TLB, and in its L1 instruction cache. -/
def State.withLine (s : State) (img : List Byte) : State :=
  let leaf : Word := 0x783
  let s := { s with
    sched := .issue 0 :: s.sched
    owners := Map.put s.owners 0 0x8000
    ctxs := Map.put s.ctxs 0 (Ctx.plain 0 0 0)
    parts := Map.put s.parts 0 Part.oneBench
    gangs := Map.put s.gangs 0 Gang.single
    threads := Map.put s.threads 0 Thread.placed }
  let s := s.setBytes 0 img
  s.putBench 0 { s.bench 0 with il1 := [⟨0, 0, 0, img⟩], tlb := [⟨0, 0, 0, frameBytes, leaf, 0⟩] }

end Sys2Proof.Machine
end

