-- ==== Sys2Proof/Machine/Step.lean ====
section
/-!
DEFINITION. The step of the machine, and a state whose next step runs a given instruction.
-/
namespace Sys2Proof.Machine

/-- One step: the next act of the schedule, then what follows it at once. -/
def step (s : State) : Host.Outcome State Fault Refusal := s.advance

/-- `s` with the instruction whose bits are `w` as the only head of the line its next step fetches, in a context of one
thread placed from outside (log entry 17). -/
def State.withFetchWord (s : State) (nbits w : Nat) : State :=
  s.withLine (oneLine (BitVec.ofNat 16 (w >>> (nbits - 16))) (BitVec.ofNat 48 (w % 2 ^ (nbits - 16))))

end Sys2Proof.Machine
end

