-- ==== Sys2Proof/Safety.lean ====
section
/-!
DEFINITION. The words statements are made of: what it is to execute an instruction of a thread, what an instruction
leaves unchanged, and the invariants a step keeps.
-/
namespace Sys2Proof.Machine

/-! ### Executing an instruction of a thread -/

/-- The machine executes an instruction of thread `t`, as it stands. -/
abbrev Executing (s : State) (t : Thread) : Prop := s.cur = some t.key ∧ s.thread? t.key = some t

/-- From `t` to `u`: x register `d` holds `v`, a write to x0 is discarded, and nothing else of the thread changes. -/
def Writes (t u : Thread) (d : XReg) (v : Word) : Prop :=
  (∀ r : XReg, u.getX r = if r = d ∧ r ≠ 0 then v else t.getX r) ∧ u = { t with x := u.x }

/-- `i` completes: it writes `v` to x register `d`, its thread goes on by the loop step, and the rest of the machine is
as in `s'`. -/
def YieldsIn (s s' : State) (t : Thread) (i : Instr) (d : XReg) (v : Word) : Prop :=
  ∃ u, Writes t u d v ∧ exec i s = .next (s'.putThread u.completed)

/-- `i` completes: it writes `v` to x register `d`, its thread goes on by the loop step, and nothing else of the machine
changes. -/
def Yields (s : State) (t : Thread) (i : Instr) (d : XReg) (v : Word) : Prop := YieldsIn s s t i d v

/-- `i` waits: its thread is Waiting with the reason, the limit and what it asked for, in the machine `s'`. -/
def Waits (s s' : State) (t : Thread) (i : Instr) (r : Reason) (limit : Nat) (asked : Asked) : Prop :=
  exec i s = .next (s'.startWait t.key i r limit asked)

/-- `i` completes with a change of its thread alone, which is `u` before the loop step. -/
def Leaves (s : State) (i : Instr) (u : Thread) : Prop := exec i s = .next (s.putThread u.completed)

/-- `i` completes with a floating-point result: its bits go to x register `d` as a scalar of type `ty` does, its flags are
ORed into FFLAGS, and nothing else changes. -/
def FloatYields (s : State) (t : Thread) (i : Instr) (d : XReg) (ty : Ty) (r : Rounded) : Prop :=
  ∃ u, Writes t u d (extendBy ty r.bits) ∧
    exec i s = .next (s.putThread { u with fflags := u.fflags ||| r.flags }.completed)

/-- Magnitude of a rational. -/
def magnitude (v : Rat) : Rat := if v < 0 then -v else v

/-- The line of `target` can be read through g0 without a wait or a fault: its bytes, and the state the reading leaves. -/
abbrev LineOf (s : State) (t : Thread) (target : Word) (img : List Byte) (s' : State) : Prop :=
  s.fetchLine t target true true = (.ok img, s')

/-- `i` transfers to `target` with x register `link` holding the address after it: no loop step, nothing else changes. -/
def Transfers (s s' : State) (t : Thread) (i : Instr) (target : Word) (link : XReg) : Prop :=
  ∃ u, Writes t u link t.next ∧ exec i s = .next (s'.putThread { u.resumed with pc := target })

/-- `i` raises a cause with its own pc in TPC, after a trap deferred from an earlier instruction if there is one (R369). -/
def Raises (s s' : State) (t : Thread) (i : Instr) (c : BitVec 8) (v : Word) : Prop :=
  exec i s = .next (s'.raiseHere t.key c v t.pc none)

/-- The bits of a control register that hold state (R66, R72, R73, R122, R126, R128). -/
def crMask : CReg → Word
  | .vstart => 0x1FF
  | .frm => 0xF
  | .fflags => 0x1F
  | .mxstat => 0x3
  | .srseed | .felimit | .cblimit => 0xFFFFFFFF
  | .ldepth => 0x30707
  | .tcause => 0x7FEFF
  | _ => 0xFFFFFFFFFFFFFFFF

/-! ### Accesses to memory -/

/-- A scalar access of `n` bytes by a thread passes every check: its place, and the state the checks leave. -/
abbrev Granted (s s' : State) (t : Thread) (m : MAddr) (n : Nat) (kind : Kind) (p : Place) : Prop :=
  s.check t.agent (s.gangOf t) (t.getG m.g) (t.offset m) n n kind (t.offset m) = (.ok p, s') ∧ s'.vectorClear t p n

/-- `n` bytes of the scratchpad lie in the allotment of a thread's gang and none of them is poisoned: a read of them passes (R204,
R425). -/
abbrev State.padReadable (s : State) (t : Thread) (off n : Nat) : Prop :=
  allotMiss (s.gangOf t) off n = none ∧ (s.gangOf t).bind (·.badAt off n) = none

/-- The machine once a thread has read `n` bytes of a place by an acquire of a scope, if of any: the stores that a release write of
them follows, in a scope that the thread is within and of a thread within the acquire's, have been performed (R276; log entry 95). -/
abbrev State.acquired (s : State) (t : Thread) (acq : Option Scope) (p : Place) (n : Nat) : State :=
  s.observe t.key t.part acq (placeKey t.gang p) n

/-- A line of a context enters the L1 of a core's bench and none has to leave it: the bench has no other context's copy of it,
and it has this one or a free way of the core's quarter (R261, R342). -/
abbrev State.hasRoom (s : State) (core ctx line : Nat) : Prop :=
  (∀ l ∈ (s.bench (core / 8)).l1, l.line = line → l.ctx = ctx) ∧
  (((s.bench (core / 8)).l1Find ctx line).isSome ∨
    ((s.bench (core / 8)).l1.filter fun l => l.quarter == wayQuarter core && l.line % 1024 == line % 1024).length < 2)

/-- A thread in a wait. -/
def Thread.waitingAs (t : Thread) (w : Wait) : Thread := { t with status := .waiting w }

/-- The ten atomic instructions by their operation. -/
def amoInstr (op : AmoOp) (o : Amo) : Instr :=
  match op with
  | .add => .amoAdd o | .and => .amoAnd o | .or => .amoOr o | .xor => .amoXor o | .min => .amoMin o
  | .max => .amoMax o | .minN => .amoMinN o | .maxN => .amoMaxN o | .swap => .amoSwap o | .fadd => .amoFadd o

/-! ### The vector sequencer -/

/-- The instructions an entry of the vector sequencer is made of at once (R143): MAJ 0x22, 0x23, 0x2C, 0x42 to 0x4A, 0x58 to
0x5D, and the ray tests. -/
def entersSequencer : Instr → Bool
  | .vld .. | .vlds .. | .vldx .. | .vldff .. | .vst .. | .vsts .. | .vstx .. | .vamo .. => true
  | .vadd _ | .vsub _ | .vmul _ | .vmin _ | .vmax _ | .vabs _ | .vneg _ | .vand _ | .vor _ | .vxor _ | .vshl _ | .vshr _
  | .vsra _ | .vmad _ | .vmsb _ | .vdot4 .. | .vcmp .. => true
  | .vsel .. | .vmov .. | .vbcast .. | .vext .. | .vins .. | .viota .. | .vred .. | .vscan .. => true
  | .vperm .. | .vslideDown .. | .vslideUp .. | .vcompress .. | .vexpand .. | .vzip .. | .vunzip .. => true
  | .kand .. | .kor .. | .kxor .. | .knot .. | .kmov .. | .kpop .. | .kfirst .. | .kset .. => true
  | .vcvt _ | .vpack _ | .vunpack _ | .vamax _ | .vquant .. | .vdequant .. | .vhad .. | .vhadPass .. => true
  | .vsfuRcp _ | .vsfuRsq _ | .vsfuSqrt _ | .vsfuExp2 _ | .vsfuLog2 _ | .vsfuSin _ | .vsfuCos _ | .vsfuTanh _
  | .vsfuSigmoid _ | .vsfuGelu _ | .vsfuSilu _ => true
  | .boxt .. | .trit .. => true
  | _ => false

/-- Those that hold their thread until their entry is gone: they write an x register or may trim a length (R130, R254). -/
def answersScalar : Instr → Bool
  | .vldff .. | .vext .. | .kpop .. | .kfirst .. => true
  | _ => false

/-- The entry `i` is accepted into, and what its pass leaves for the next entry (R143, R171). -/
def acceptedEntry (s : State) (t : Thread) (i : Instr) (more : List Word) : SeqEntry :=
  match t.pass with
  | some (_, _, some r) => { newEntry t s.stamps i more with passIn := r }
  | some (_, _, none) =>
    { newEntry t s.stamps i more with passWait := true, passIn := (t.seq.getLast?.map (·.passOut)).getD [] }
  | none => newEntry t s.stamps i more

/-- A thread that has accepted an entry. -/
def Thread.withEntry (t : Thread) (i : Instr) (e : SeqEntry) : Thread :=
  { t with seq := t.seq ++ [e]
           pass := match i with
             | .vhadPass vd _ ty _ _ _ => some (vd, ty, none)
             | _ => none }

/-- The machine after one more arrival. -/
def State.stamped (s : State) : State := { s with stamps := s.stamps + 1 }

/-- A thread free to accept an instruction outside a `vloop`: no wait for an entry, a free entry, no loop, no replay. -/
abbrev Thread.accepts (t : Thread) : Prop :=
  (∀ n, t.asked ≠ .vector n) ∧ t.entriesTaken < 16 ∧ t.vloop = none ∧ t.replay = none

/-- Group `j` of an entry writes one element for each of `els`, in order, of register `vd` as type `ty`, each with a value
that `f` allows for it. -/
def Produces (t : Thread) (e : SeqEntry) (j : Nat) (els : List Nat) (vd : VReg) (ty : Ty) (f : Nat → Nat → Prop) : Prop :=
  (computeGroup t e j els).out.v.length = els.length ∧
  ∀ k, (h : k < els.length) → ∃ v, (computeGroup t e j els).out.v[k]? = some ⟨vd, els[k] * ty.bits, ty.bits, v⟩ ∧ f els[k] v

/-- A group leaves flags, predicates, x registers, pass results and SRSEED alone. -/
def Silent (t : Thread) (e : SeqEntry) (j : Nat) (els : List Nat) : Prop :=
  let c := computeGroup t e j els
  c.out.flags = 0 ∧ c.out.mx = 0 ∧ c.out.k = [] ∧ c.out.x = [] ∧ c.out.pass = [] ∧ c.seed = t.srseed

/-- `v` is the integer `n` as a result of type `ty`: wrapped, or saturated (R54, R64, R154). -/
def IntElem (ty : Ty) (sat : Bool) (n : Int) (v : Nat) : Prop :=
  v < 2 ^ ty.bits ∧ (sat = false → (v : Int) % 2 ^ ty.bits = n % 2 ^ ty.bits) ∧
  (sat = true → readInt ty v = max (intMin ty) (min (intMax ty) n))

/-- A pair of scratchpad operands is as R187 asks: no reserved bit, base and pitches multiples of 64, rows at least 128 bytes
apart. -/
def PairClean (base pitch : Word) : Prop :=
  base.extractLsb' 29 35 = 0 ∧ base.extractLsb' 22 2 = 0 ∧ pitch.extractLsb' 54 10 = 0 ∧ pitch.extractLsb' 22 10 = 0 ∧
  (base.extractLsb' 0 22).toNat % 64 = 0 ∧ (pitch.extractLsb' 32 22).toNat % 64 = 0 ∧
  (pitch.extractLsb' 0 22).toNat % 64 = 0 ∧ 128 ≤ (pitch.extractLsb' 0 22).toNat

/-- An operand of `rows` rows under a format passes the checks of R179, R181 and R187. -/
def OperandClean (s : State) (t : Thread) (f : Word) (rows bits : Nat) : AnvilSrc → Prop
  | .pad base pitch => PairClean base pitch ∧
      firstMiss (s.gangOf t) (operandRanges base pitch rows (fmtK f) bits (pairMx f)) = none
  | .reg v _ => rows * rowBytes (fmtK f) bits ≤ 4096 ∧ (pairMx f = true → rows * blocks (fmtK f) ≤ 512) ∧
      v + regCount rows (fmtK f) bits (pairMx f) ≤ 16

/-- An `mma` of two operands at an origin passes every check under the format of its thread's core (R179, R181, R184, R187). -/
def MmaClean (s : State) (t : Thread) (origin : Word) (a b : AnvilSrc) : Prop :=
  let f := (s.core t.core).format
  (codeBits (fmtA f) = 4 ∨ codeBits (fmtB f) = 4 → fmtK f % 2 = 0) ∧
  OperandClean s t f (fmtM f) (codeBits (fmtA f)) a ∧ OperandClean s t f (fmtN f) (codeBits (fmtB f)) b ∧
  (origin.extractLsb' 0 10).toNat + fmtM f ≤ (t.window.getD ⟨0, 0⟩).rows ∧ (origin.extractLsb' 16 10).toNat + fmtN f ≤ 512 ∧
  origin.extractLsb' 26 38 = 0 ∧ origin.extractLsb' 10 6 = 0

/-- Every byte of memory, every scratchpad and every register of other threads is the same in two states. -/
def SameElsewhere (s s' : State) (key : Nat) : Prop :=
  (∀ a, s'.byteAt a = s.byteAt a) ∧ s'.gangs = s.gangs ∧ ∀ k, k ≠ key → s'.thread? k = s.thread? k

/-! ### The mailbox (R415 to R417) -/

/-- The mailbox of the issuing function takes a command: none is running, the device is up, and LEN is in its range. -/
abbrev State.mayCommand (s : State) : Prop :=
  (s.fn s.ev.fn).busy = false ∧ s.fwHeld = false ∧ s.booted = true ∧ s.ev.words.length ≤ 512

/-- The OP of a mailbox command (R416). -/
def State.opOf (s : State) : Instr → BitVec 16
  | .identify => 0x0001 | .setevq => 0x0002 | .partcfg => 0x0010 | .partdestroy => 0x0011 | .ownerset => 0x0012
  | .vfrange => 0x0013 | .poolsetAdd | .poolsetWithdraw => 0x0014 | .ctxcreate => 0x0020 | .ctxdestroy => 0x0021
  | .ctxpolicy => 0x0022 | .shootdown => 0x0023 | .ladlemap | .ladlemapUnmap => 0x0024 | .spruecreate => 0x0025
  | .spruedestroy => 0x0026 | .gatewrite | .gatewriteWithdraw => 0x0027 | .seamregion => 0x0028
  | .faultreplyResume | .faultreplyDeliver | .faultreplyStop => 0x0029 | .encstream | .encstreamWithdraw => 0x002A
  | .ctxstart => 0x002B | .cntcfg => 0x0030 | .cntread => 0x0031 | .cntsnap => 0x0032 | .cntload => 0x0033
  | .traceclaim => 0x0034 | .tracerelease => 0x0035
  | .debugstateRead | .debugstateResume | .debugstateSetComparator | .debugstateClearComparator => 0x0036
  | .capsuleget => 0x0040 | .capsuleclear => 0x0041 | .dumpbuf => 0x0042
  | .woenebindOwnNumber | .woenebindRoute | .woenebindBind | .woenebindUnbind => 0x0050
  | _ => BitVec.ofNat 16 s.ev.a

/-- The machine with a command taken: OP and LEN stand in CMD, the payload in the buffer, and OVR is clear (R415). -/
def State.taken (s : State) (i : Instr) : State := s.startCommand s.ev.fn (s.opOf i) s.ev.words

/-- A command ends with a RESULT and the bytes of its result, and leaves the machine as in `s'` but for the mailbox. -/
def Answers (s s' : State) (i : Instr) (result : BitVec 8) (bytes : List Byte) : Prop :=
  exec i s = .next (s'.finishCommand s.ev.fn result bytes)

/-- A command is refused with a RESULT: it changes nothing but its mailbox. -/
def Refuses (s : State) (i : Instr) (result : BitVec 8) : Prop := Answers s (s.taken i) i result []

/-- The command is running: BUSY is set until what it waits for has come. -/
def Runs (s s' : State) (i : Instr) (bytes : List Byte) (w : CmdWait) : Prop :=
  exec i s = .next (s'.putFn s.ev.fn { s'.fn s.ev.fn with
    busy := true, rlen := BitVec.ofNat 16 bytes.length, payload := (s'.fn s.ev.fn).written bytes, waits := some w })

/-- The commands of the host mailbox that R416 lists. -/
def mailboxCommands : List Instr :=
  [.identify, .setevq, .partcfg, .partdestroy, .ownerset, .vfrange, .poolsetAdd, .poolsetWithdraw, .ctxcreate, .ctxdestroy,
   .ctxpolicy, .shootdown, .ladlemap, .ladlemapUnmap, .spruecreate, .spruedestroy, .gatewrite, .gatewriteWithdraw,
   .seamregion, .faultreplyResume, .faultreplyDeliver, .faultreplyStop, .encstream, .encstreamWithdraw, .ctxstart, .cntcfg,
   .cntread, .cntsnap, .cntload, .traceclaim, .tracerelease, .debugstateRead, .debugstateResume,
   .debugstateSetComparator, .debugstateClearComparator, .capsuleget, .capsuleclear, .dumpbuf, .woenebindOwnNumber,
   .woenebindRoute, .woenebindBind, .woenebindUnbind]

/-- The commands that the PF alone may issue (R416). -/
def pfCommands : List Instr :=
  [.partcfg, .partdestroy, .ownerset, .vfrange, .poolsetAdd, .poolsetWithdraw, .woenebindOwnNumber, .woenebindRoute,
   .woenebindBind, .woenebindUnbind]

/-- Commands whose payload names a context entry in bits 10:0 of D0, all but CTXCREATE (R417). -/
def entryCommands : List Instr :=
  [.ctxdestroy, .ctxpolicy, .shootdown, .ladlemap, .ladlemapUnmap, .spruecreate, .spruedestroy, .gatewrite,
   .gatewriteWithdraw, .seamregion, .ctxstart]

/-- The payload of such a command has no reserved bit set, and the descriptor of a sprue its fields in their ranges (R297, R417). -/
def payloadClear (ws : List Word) : Instr → Bool
  | .ctxdestroy => within (pay ws 0) [(0, 11)] && clearFrom ws 1
  | .ctxpolicy => within (pay ws 0) [(0, 11)] && within (pay ws 1) [(0, 1)] && clearFrom ws 2
  | .shootdown => within (pay ws 0) [(0, 11)] && within (pay ws 1) [(16, 39)] && within (pay ws 2) [(0, 32)] && clearFrom ws 3
  | .ladlemap | .ladlemapUnmap => within (pay ws 0) [(0, 11), (16, 1)] && within (pay ws 1) [(16, 39)] &&
      within (pay ws 2) [(0, 32)] && within (pay ws 3) [(0, 35)] && clearFrom ws 4
  | .spruecreate => within (pay ws 0) [(0, 11)] && within (pay ws 1) [(0, 6)] && (readSprue ws).isSome
  | .spruedestroy => within (pay ws 0) [(0, 11)] && within (pay ws 1) [(0, 6)] && clearFrom ws 2
  | .gatewrite | .gatewriteWithdraw => within (pay ws 0) [(0, 11)] && within (pay ws 1) [(0, 9)] && clearFrom ws 10
  | .seamregion => within (pay ws 0) [(0, 11)] && within (pay ws 1) [(16, 36)] && clearFrom ws 3
  | .ctxstart => within (pay ws 0) [(0, 11)] && ((ws.drop 1).take 7).all (· == 0) && clearFrom ws 48
  | _ => false

end Sys2Proof.Machine
end

