-- ==== Sys2Proof/Certificates/Slice0/Obligations.lean ====
section
/-!
DEFINITION. The statements about the machine. Each is for every state that meets its hypotheses, whether a run reaches it
or not.
-/

open Sys2Proof Sys2Proof.Machine

/-! ### Scalar integers (R107 to R115) -/

/-- The sums and products of R109, R110 and R115 in exact arithmetic. Comparisons, minima, maxima and the selection, by
the operands' numbers (R110, R113, R115). Bit counts and bit fields, bit by bit (R110, R114). -/
def Obligations.IntegerResults : Prop :=
  (∀ (s : State) (t : Thread), Executing s t → ∀ (d a b : XReg) (c48 : BitVec 48) (c22 : BitVec 22),
    Yields s t (.li d c48) d (BitVec.ofInt 64 c48.toInt) ∧
    Yields s t (.liN d c48) d (BitVec.ofNat 64 c48.toNat) ∧
    Yields s t (.mov d a) d (t.getX a) ∧
    Yields s t (.add d a b) d (BitVec.ofNat 64 ((t.getX a).toNat + (t.getX b).toNat)) ∧
    Yields s t (.addi d a c22) d (BitVec.ofInt 64 ((t.getX a).toInt + c22.toInt)) ∧
    Yields s t (.sub d a b) d (BitVec.ofInt 64 ((t.getX a).toInt - (t.getX b).toInt)) ∧
    Yields s t (.mul d a b) d (BitVec.ofInt 64 ((t.getX a).toInt * (t.getX b).toInt)) ∧
    (∃ h : Word, Yields s t (.mulh d a b) d h ∧
      ∃ lo : Nat, lo < 2 ^ 64 ∧ (t.getX a).toInt * (t.getX b).toInt = h.toInt * 2 ^ 64 + lo) ∧
    (∃ h : Word, Yields s t (.mulhN d a b) d h ∧
      ∃ lo : Nat, lo < 2 ^ 64 ∧ (t.getX a).toNat * (t.getX b).toNat = h.toNat * 2 ^ 64 + lo)) ∧
  (∀ (s : State) (t : Thread), Executing s t → ∀ (d a b c : XReg) (c22 : BitVec 22),
    Yields s t (.slt d a b) d (if (t.getX a).toInt < (t.getX b).toInt then 1 else 0) ∧
    Yields s t (.sltN d a b) d (if (t.getX a).toNat < (t.getX b).toNat then 1 else 0) ∧
    Yields s t (.slti d a c22) d (if (t.getX a).toInt < c22.toInt then 1 else 0) ∧
    Yields s t (.sltiN d a c22) d (if (t.getX a).toNat < (c22.signExtend 64).toNat then 1 else 0) ∧
    (∃ v : Word, Yields s t (.min d a b) d v ∧ v.toInt = min (t.getX a).toInt (t.getX b).toInt) ∧
    (∃ v : Word, Yields s t (.max d a b) d v ∧ v.toInt = max (t.getX a).toInt (t.getX b).toInt) ∧
    (∃ v : Word, Yields s t (.minN d a b) d v ∧ v.toNat = min (t.getX a).toNat (t.getX b).toNat) ∧
    (∃ v : Word, Yields s t (.maxN d a b) d v ∧ v.toNat = max (t.getX a).toNat (t.getX b).toNat) ∧
    Yields s t (.sel d a b c) d (if t.getX a = 0 then t.getX c else t.getX b)) ∧
  (∀ (s : State) (t : Thread), Executing s t → ∀ (d a : XReg) (lsb wm1 : BitVec 6),
    (∃ n : Nat, Yields s t (.clz d a) d (BitVec.ofNat 64 n) ∧ n ≤ 64 ∧ (t.getX a).toNat < 2 ^ (64 - n) ∧
      (n < 64 → (t.getX a).getLsbD (63 - n))) ∧
    (∃ n : Nat, Yields s t (.ctz d a) d (BitVec.ofNat 64 n) ∧ n ≤ 64 ∧ (∀ k < n, (t.getX a).getLsbD k = false) ∧
      (n < 64 → (t.getX a).getLsbD n)) ∧
    Yields s t (.popc d a) d (BitVec.ofNat 64 ((List.range 64).countP fun k => (t.getX a).getLsbD k)) ∧
    (∃ v : Word, Yields s t (.brev d a) d v ∧ ∀ k < 64, v.getLsbD k = (t.getX a).getLsbD (63 - k)) ∧
    (lsb.toNat + wm1.toNat ≤ 63 →
      (∃ v : Word, Yields s t (.bfx d a lsb wm1) d v ∧
        ∀ k < 64, v.getLsbD k = (t.getX a).getLsbD (lsb.toNat + min k wm1.toNat)) ∧
      (∃ v : Word, Yields s t (.bfxN d a lsb wm1) d v ∧
        ∀ k < 64, v.getLsbD k = (decide (k ≤ wm1.toNat) && (t.getX a).getLsbD (lsb.toNat + k))) ∧
      (∃ v : Word, Yields s t (.bfi d a lsb wm1) d v ∧
        ∀ k < 64, v.getLsbD k = if lsb.toNat ≤ k ∧ k ≤ lsb.toNat + wm1.toNat then (t.getX a).getLsbD (k - lsb.toNat)
          else (t.getX d).getLsbD k)))

/-- The bitwise operations bit by bit, and the shifts as products and quotients by a power of two, whatever the amount
(R110, R111, R115). -/
def Obligations.LogicShiftResults : Prop :=
  ∀ (s : State) (t : Thread), Executing s t → ∀ (d a b : XReg) (c22 : BitVec 22) (sh : BitVec 6),
    (∃ v : Word, Yields s t (.and d a b) d v ∧
      ∀ n < 64, v.getLsbD n = ((t.getX a).getLsbD n && (t.getX b).getLsbD n)) ∧
    (∃ v : Word, Yields s t (.or d a b) d v ∧
      ∀ n < 64, v.getLsbD n = ((t.getX a).getLsbD n || (t.getX b).getLsbD n)) ∧
    (∃ v : Word, Yields s t (.xor d a b) d v ∧
      ∀ n < 64, v.getLsbD n = ((t.getX a).getLsbD n != (t.getX b).getLsbD n)) ∧
    (∃ v : Word, Yields s t (.andi d a c22) d v ∧
      ∀ n < 64, v.getLsbD n = ((t.getX a).getLsbD n && c22.getLsbD (min n 21))) ∧
    (∃ v : Word, Yields s t (.ori d a c22) d v ∧
      ∀ n < 64, v.getLsbD n = ((t.getX a).getLsbD n || c22.getLsbD (min n 21))) ∧
    (∃ v : Word, Yields s t (.xori d a c22) d v ∧
      ∀ n < 64, v.getLsbD n = ((t.getX a).getLsbD n != c22.getLsbD (min n 21))) ∧
    (∃ v : Word, Yields s t (.shl d a b) d v ∧
      v.toNat = (t.getX a).toNat * 2 ^ (t.getX b).toNat % 2 ^ 64) ∧
    (∃ v : Word, Yields s t (.shr d a b) d v ∧ v.toNat = (t.getX a).toNat / 2 ^ (t.getX b).toNat) ∧
    (∃ v : Word, Yields s t (.sra d a b) d v ∧ v.toInt = (t.getX a).toInt / 2 ^ (t.getX b).toNat) ∧
    (∃ v : Word, Yields s t (.shli d a sh) d v ∧ v.toNat = (t.getX a).toNat * 2 ^ sh.toNat % 2 ^ 64) ∧
    (∃ v : Word, Yields s t (.shri d a sh) d v ∧ v.toNat = (t.getX a).toNat / 2 ^ sh.toNat) ∧
    (∃ v : Word, Yields s t (.srai d a sh) d v ∧ v.toInt = (t.getX a).toInt / 2 ^ sh.toNat)

/-- Division as R112 states it: never a trap, the rule for a zero divisor, truncation toward zero, and the signed
overflow that gives −2^63 and 0. -/
def Obligations.DivisionResults : Prop :=
  ∀ (s : State) (t : Thread), Executing s t → ∀ (d a b : XReg),
    (t.getX b = 0 →
      Yields s t (.div d a b) d (BitVec.allOnes 64) ∧ Yields s t (.divN d a b) d (BitVec.allOnes 64) ∧
      Yields s t (.rem d a b) d (t.getX a) ∧ Yields s t (.remN d a b) d (t.getX a)) ∧
    (t.getX b ≠ 0 →
      (∃ q r : Word, Yields s t (.divN d a b) d q ∧ Yields s t (.remN d a b) d r ∧
        (t.getX a).toNat = q.toNat * (t.getX b).toNat + r.toNat ∧ r.toNat < (t.getX b).toNat) ∧
      (∃ q r : Word, Yields s t (.div d a b) d q ∧ Yields s t (.rem d a b) d r ∧
        (((t.getX a).toInt = -2 ^ 63 ∧ (t.getX b).toInt = -1) → q.toInt = -2 ^ 63 ∧ r = 0) ∧
        (¬((t.getX a).toInt = -2 ^ 63 ∧ (t.getX b).toInt = -1) →
          (t.getX a).toInt = q.toInt * (t.getX b).toInt + r.toInt ∧ r.toInt.natAbs < (t.getX b).toInt.natAbs ∧
          (r.toInt = 0 ∨ (r.toInt < 0 ↔ (t.getX a).toInt < 0)))))

/-! ### Scalar floating point (R65 to R70, R117 to R121) -/

/-- The scalar floating-point instructions complete whatever their operands: result and flags are those of the shared
operation on the operands' values under FZ, rounded by the instruction's code or by FRM (R66, R67, R117 to R121). NaN,
infinity and zero operands of the arithmetic operations (R56, R65, R76, R117, R120), and what the sum, product,
quotient and fused sum of finite operands are rounded from: the exact value, once. -/
def Obligations.FloatResults : Prop :=
  (∀ (s : State) (t : Thread), Executing s t → ∀ (d p q u : XReg) (ty : Ty) (rc : RC) (c : FCond),
    let m := plainMode rc t.rm
    let a := t.src p ty
    let b := t.src q ty
    FloatYields s t (.fadd d p q ty rc) d ty (addFp ty m t.fz a b) ∧
    FloatYields s t (.fsub d p q ty rc) d ty (addFp ty m t.fz a b.flip) ∧
    FloatYields s t (.fmul d p q ty rc) d ty (mulFp ty m t.fz a b) ∧
    FloatYields s t (.fdiv d p q ty rc) d ty (divFp ty m t.fz a b) ∧
    FloatYields s t (.fsqrt d p ty rc) d ty (sqrtFp ty m t.fz a) ∧
    FloatYields s t (.ffma d p q u ty rc) d ty (fmaFp ty m t.fz a b (t.src u ty)) ∧
    FloatYields s t (.fmin d p q ty) d ty (minmaxBits ty t.fz false (t.low p ty) (t.low q ty)) ∧
    FloatYields s t (.fmax d p q ty) d ty (minmaxBits ty t.fz true (t.low p ty) (t.low q ty)) ∧
    (∃ w, Writes t w d (if (compareFp c a b).1 then 1 else 0) ∧
      exec (.fcmp c d p q ty) s =
        .next (s.putThread { w with fflags := w.fflags ||| (compareFp c a b).2 }.completed)) ∧
    (∃ n : Nat, n < 10 ∧ Yields s t (.fclass d p ty) d (BitVec.ofNat 64 (2 ^ n))) ∧
    (∀ (src : Ty) (sat : Bool),
      (∀ m', staticMode rc t.rm (ty.narrowing src) = some m' →
        FloatYields s t (.fcvt d p ty src sat rc) d ty (convert ty src m' sat t.fz (t.low p src))) ∧
      (staticMode rc t.rm (ty.narrowing src) = none → t.owesDraws = false →
        ∃ w, Writes t w d (extendBy ty (convert ty src (.sr (draw t.srseed).2) sat t.fz (t.low p src)).bits) ∧
          exec (.fcvt d p ty src sat rc) s = .next (s.putThread
            { w with srseed := (draw t.srseed).1,
                     fflags := w.fflags ||| (convert ty src (.sr (draw t.srseed).2) sat t.fz (t.low p src)).flags
              }.completed)))) ∧
  (∀ (ty : Ty) (m : RMode) (fz : Bool) (a b c : Fp),
    (a.isNaN ∨ b.isNaN →
      addFp ty m fz a b = nanResult ty (a.isSig || b.isSig) ∧ mulFp ty m fz a b = nanResult ty (a.isSig || b.isSig) ∧
      divFp ty m fz a b = nanResult ty (a.isSig || b.isSig)) ∧
    (a.isNaN → sqrtFp ty m fz a = nanResult ty a.isSig) ∧
    (∀ x, addFp ty m fz (.inf x) (.inf !x) = nanResult ty true ∧ addFp ty m fz (.inf x) (.inf x) = ⟨encInf ty x, 0⟩) ∧
    (∀ x y, mulFp ty m fz (.inf x) (.fin y 0) = nanResult ty true ∧
      mulFp ty m fz (.fin y 0) (.inf x) = nanResult ty true ∧ divFp ty m fz (.inf x) (.inf y) = nanResult ty true ∧
      divFp ty m fz (.fin x 0) (.fin y 0) = nanResult ty true ∧
      fmaFp ty m fz (.inf x) (.fin y 0) c = nanResult ty true) ∧
    (∀ x y n, n ≠ 0 → divFp ty m fz (.fin x n) (.fin y 0) = ⟨encInf ty (x != y), flagDZ⟩) ∧
    (sqrtFp ty m fz (.fin true 0) = ⟨encZero ty true, 0⟩ ∧ sqrtFp ty m fz (.inf true) = nanResult ty true ∧
      ∀ n, n ≠ 0 → sqrtFp ty m fz (.fin true n) = nanResult ty true) ∧
    (∀ x n y k, a = .fin x n → b = .fin y k → c.isNaN = false →
      (a.toRat + b.toRat ≠ 0 → addFp ty m fz a b =
        flushResult fz ty (roundMag ty m false (decide (a.toRat + b.toRat < 0)) (magnitude (a.toRat + b.toRat)))) ∧
      (a.toRat + b.toRat = 0 → addFp ty m fz a b =
        ⟨encZero ty (if x = y then x else decide (m = .rdn)), 0⟩) ∧
      (a.toRat * b.toRat ≠ 0 → mulFp ty m fz a b =
        flushResult fz ty (roundMag ty m false (decide (a.toRat * b.toRat < 0)) (magnitude (a.toRat * b.toRat)))) ∧
      (a.toRat / b.toRat ≠ 0 → divFp ty m fz a b =
        flushResult fz ty (roundMag ty m false (decide (a.toRat / b.toRat < 0)) (magnitude (a.toRat / b.toRat)))) ∧
      (∀ z w, c = .fin z w → a.toRat * b.toRat + c.toRat ≠ 0 → fmaFp ty m fz a b c =
        flushResult fz ty (roundMag ty m false (decide (a.toRat * b.toRat + c.toRat < 0))
          (magnitude (a.toRat * b.toRat + c.toRat))))))

/-- Rounding to whole units obeys its mode (R65): the result is one of the two neighbours, RTZ takes the lower, RUP and
RDN go by the sign, RNE and RNA take the nearer, a tie going to the even and to the greater one. A value its format
represents rounds to itself, in every mode and with no flag (R54, R65, R69, R72). -/
def Obligations.RoundingRules : Prop :=
  (∀ (neg : Bool) (n : Rat), 0 ≤ n →
    (∀ m : RMode, (roundUnits m neg n : Rat) < n + 1 ∧ n < (roundUnits m neg n : Rat) + 1) ∧
    (roundUnits .rtz neg n : Rat) ≤ n ∧
    (if neg then (roundUnits .rup neg n : Rat) ≤ n else n ≤ (roundUnits .rup neg n : Rat)) ∧
    (if neg then n ≤ (roundUnits .rdn neg n : Rat) else (roundUnits .rdn neg n : Rat) ≤ n) ∧
    (magnitude ((roundUnits .rne neg n : Rat) - n) ≤ 1 / 2 ∧
      (magnitude ((roundUnits .rne neg n : Rat) - n) = 1 / 2 → roundUnits .rne neg n % 2 = 0)) ∧
    (magnitude ((roundUnits .rna neg n : Rat) - n) ≤ 1 / 2 ∧
      (magnitude ((roundUnits .rna neg n : Rat) - n) = 1 / 2 → n < (roundUnits .rna neg n : Rat)))) ∧
  (∀ (ty : Ty) (m : RMode) (sat neg : Bool) (mag : Rat) (b : Nat),
    ty ∈ [Ty.f64, .f32, .f16, .bf16, .fp8e4, .fp8e5, .fp4] → b < 2 ^ ty.bits → readFp ty b = .fin neg mag → mag ≠ 0 →
    roundMag ty m sat neg mag = ⟨b, 0⟩)

/-! ### Control transfer and control registers (R37, R38, R102 to R106, R122 to R128) -/

/-- Jumps and branches (R102): a taken transfer to a head, and the completion of a branch that is not taken. A target that
is no head raises Misaligned Target with the target as TVAL, and nothing is written before (R38, R102). -/
def Obligations.TransferResults : Prop :=
  (∀ (s s' : State) (t : Thread), Executing s t → ∀ (a b d : XReg) (off imm : BitVec 22) (img : List Byte),
    (LineOf s t (t.pc + off.signExtend 64) img s' → isHead img (t.pc + off.signExtend 64) →
      Transfers s s' t (.jmp off) (t.pc + off.signExtend 64) 0 ∧
      Transfers s s' t (.jal a off) (t.pc + off.signExtend 64) a ∧
      (t.getX a = t.getX b → Transfers s s' t (.beq a b off) (t.pc + off.signExtend 64) 0) ∧
      (t.getX a ≠ t.getX b → Transfers s s' t (.bne a b off) (t.pc + off.signExtend 64) 0) ∧
      ((t.getX a).toInt < (t.getX b).toInt → Transfers s s' t (.blt a b off) (t.pc + off.signExtend 64) 0) ∧
      ((t.getX a).toNat < (t.getX b).toNat → Transfers s s' t (.bltN a b off) (t.pc + off.signExtend 64) 0) ∧
      ((t.getX b).toInt ≤ (t.getX a).toInt → Transfers s s' t (.bge a b off) (t.pc + off.signExtend 64) 0) ∧
      ((t.getX b).toNat ≤ (t.getX a).toNat → Transfers s s' t (.bgeN a b off) (t.pc + off.signExtend 64) 0)) ∧
    (LineOf s t (t.getX a + imm.signExtend 64) img s' → isHead img (t.getX a + imm.signExtend 64) →
      Transfers s s' t (.jalr d a imm) (t.getX a + imm.signExtend 64) d) ∧
    (t.getX a ≠ t.getX b → Leaves s (.beq a b off) t) ∧
    (t.getX a = t.getX b → Leaves s (.bne a b off) t) ∧
    (¬ (t.getX a).toInt < (t.getX b).toInt → Leaves s (.blt a b off) t) ∧
    (¬ (t.getX a).toNat < (t.getX b).toNat → Leaves s (.bltN a b off) t) ∧
    (¬ (t.getX b).toInt ≤ (t.getX a).toInt → Leaves s (.bge a b off) t) ∧
    (¬ (t.getX b).toNat ≤ (t.getX a).toNat → Leaves s (.bgeN a b off) t)) ∧
  (∀ (s s' : State) (t : Thread), Executing s t → ∀ (a b d : XReg) (off imm : BitVec 22) (img : List Byte),
    (LineOf s t (t.pc + off.signExtend 64) img s' → isHead img (t.pc + off.signExtend 64) = false →
      Raises s s' t (.jmp off) Cause.misalignedTarget (t.pc + off.signExtend 64) ∧
      Raises s s' t (.jal a off) Cause.misalignedTarget (t.pc + off.signExtend 64) ∧
      (t.getX a = t.getX b → Raises s s' t (.beq a b off) Cause.misalignedTarget (t.pc + off.signExtend 64)) ∧
      (t.getX a ≠ t.getX b → Raises s s' t (.bne a b off) Cause.misalignedTarget (t.pc + off.signExtend 64)) ∧
      ((t.getX a).toInt < (t.getX b).toInt →
        Raises s s' t (.blt a b off) Cause.misalignedTarget (t.pc + off.signExtend 64)) ∧
      ((t.getX a).toNat < (t.getX b).toNat →
        Raises s s' t (.bltN a b off) Cause.misalignedTarget (t.pc + off.signExtend 64)) ∧
      ((t.getX b).toInt ≤ (t.getX a).toInt →
        Raises s s' t (.bge a b off) Cause.misalignedTarget (t.pc + off.signExtend 64)) ∧
      ((t.getX b).toNat ≤ (t.getX a).toNat →
        Raises s s' t (.bgeN a b off) Cause.misalignedTarget (t.pc + off.signExtend 64))) ∧
    (LineOf s t (t.getX a + imm.signExtend 64) img s' → isHead img (t.getX a + imm.signExtend 64) = false →
      Raises s s' t (.jalr d a imm) Cause.misalignedTarget (t.getX a + imm.signExtend 64)))

/-- `loop`, `loopi` and `lbrk` (R38, R104, R106): an entry pushed, a body skipped, an entry popped, and the traps of a full
and of an empty stack and of a transfer to what is no head. The loop step of a completion (R105): the entries that end at the
completed instruction and have no iteration left are popped; then the top entry goes to its START if it ends there too, and
else the pc is the sequential successor. -/
def Obligations.LoopResults : Prop :=
  (∀ (s s1 s2 s3 s4 : State) (t : Thread), Executing s t →
  ∀ (a : XReg) (count : BitVec 26) (off : BitVec 22) (i1 i2 i3 i4 : List Byte),
    let start := t.next
    let last := t.pc + off.signExtend 64
    let skip := nextPc (lineH i3) last
    (LineOf s t start i1 s1 → isHead i1 start → LineOf s1 t last i2 s2 → isHead i2 last →
      (t.loops.length < 6 →
        (t.getX a ≠ 0 → exec (.loop a off) s =
          .next (s2.putThread { t with loops := ⟨start, last, t.getX a, 0⟩ :: t.loops }.completed)) ∧
        (count ≠ 0 → exec (.loopi count off) s =
          .next (s2.putThread { t with loops := ⟨start, last, count.setWidth 64, 0⟩ :: t.loops }.completed))) ∧
      (6 ≤ t.loops.length →
        (t.getX a ≠ 0 → Raises s s2 t (.loop a off) Cause.illegal (instrTval (.loop a off))) ∧
        (count ≠ 0 → Raises s s2 t (.loopi count off) Cause.illegal (instrTval (.loopi count off)))) ∧
      (LineOf s2 t last i3 s3 → LineOf s3 t skip i4 s4 →
        (isHead i4 skip →
          (t.getX a = 0 → exec (.loop a off) s = .next (s4.putThread { t.resumed with pc := skip })) ∧
          (count = 0 → exec (.loopi count off) s = .next (s4.putThread { t.resumed with pc := skip }))) ∧
        (isHead i4 skip = false →
          (t.getX a = 0 → Raises s s4 t (.loop a off) Cause.misalignedTarget skip) ∧
          (count = 0 → Raises s s4 t (.loopi count off) Cause.misalignedTarget skip)))) ∧
    (t.loops = [] → Raises s s t .lbrk Cause.illegal (instrTval .lbrk)) ∧
    (∀ e es, t.loops = e :: es → LineOf s t e.last i1 s1 → LineOf s1 t (nextPc (lineH i1) e.last) i2 s2 →
      (isHead i2 (nextPc (lineH i1) e.last) →
        exec .lbrk s = .next (s2.putThread { t.resumed with loops := es, pc := nextPc (lineH i1) e.last })) ∧
      (isHead i2 (nextPc (lineH i1) e.last) = false →
        Raises s s2 t .lbrk Cause.misalignedTarget (nextPc (lineH i1) e.last)))) ∧
  (∀ t : Thread, ∃ gone rest : List LoopEntry, t.loops = gone ++ rest ∧
    (∀ e ∈ gone, e.last = t.pc ∧ e.count ≤ e.index + 1) ∧
    ((t.completed.loops = rest ∧ t.completed.pc = t.next ∧ (∀ e ∈ rest.head?, e.last ≠ t.pc)) ∨
      (∃ e es, rest = e :: es ∧ e.last = t.pc ∧ e.index + 1 < e.count ∧
        t.completed.loops = { e with index := e.index + 1 } :: es ∧ t.completed.pc = e.start)) ∧
    t.completed = { t with status := t.completed.status, loops := t.completed.loops, pc := t.completed.pc })

/-- Reading and writing control registers (R122, R123, R66, R126): the old value goes to D, the new one is formed from it,
reserved bits are discarded, and a read-only register raises Privilege. -/
def Obligations.ControlRegisterResults : Prop :=
  ∀ (s : State) (t : Thread), Executing s t → ∀ (d a : XReg) (r : CReg),
    (t.crReady r → Yields s t (.crrd d r) d (s.readCr t r)) ∧
    (readOnly r → Raises s s t (.crwr d r a) Cause.privilege (instrTval (.crwr d r a)) ∧
      Raises s s t (.crset d r a) Cause.privilege (instrTval (.crset d r a)) ∧
      Raises s s t (.crclr d r a) Cause.privilege (instrTval (.crclr d r a))) ∧
    (t.crReady r → readOnly r = false →
      ∀ (i : Instr) (v : Word),
        (i = .crwr d r a ∧ v = t.getX a) ∨ (i = .crset d r a ∧ v = s.readCr t r ||| t.getX a) ∨
          (i = .crclr d r a ∧ v = s.readCr t r &&& ~~~(t.getX a)) →
        ∃ u : Thread, exec i s = .next (s.putThread u.completed) ∧
          (∀ q : XReg, u.getX q = if q = d ∧ q ≠ 0 then s.readCr t r else t.getX q) ∧
          (r ≠ .frm → r ≠ .lstack → r ≠ .ldepth → s.readCr u r = v &&& crMask r) ∧
          (r = .frm → s.readCr u .frm =
            if v &&& 7 = 6 ∨ v &&& 7 = 7 then (v &&& 8) ||| t.rm.setWidth 64 else v &&& 0xF) ∧
          (r = .lstack → s.readCr u .lstack = if t.lsel.toNat < t.loops.length then v else 0) ∧
          (r = .ldepth → s.readCr u .ldepth =
            if v &&& 7 = 7 then BitVec.ofNat 64 ((v &&& 0x30700).toNat + t.loops.length) else v &&& 0x30707) ∧
          (∀ q : CReg, q ≠ r → ¬ (q = .lstack ∧ r = .ldepth) → s.readCr u q = s.readCr t q) ∧
          u = { t with
            x := u.x, vstart := u.vstart, fz := u.fz, rm := u.rm, fflags := u.fflags, mxstat := u.mxstat,
            srseed := u.srseed, loops := u.loops, lsel := u.lsel, lword := u.lword, felimit := u.felimit,
            cblimit := u.cblimit, tvec := u.tvec, tcause := u.tcause, tpc := u.tpc, tval := u.tval })

/-! ### Memory (R228 to R292) -/

/-- Loads (R241, R251, R275, R276, R284, R425): of an acquire, what a release of the bytes follows is performed first; then the bytes
come from the scratchpad, from the bench's L1, from the data that have arrived, from the home of a shared frame, or from a peer,
which may answer with a wait or a cause of its own; poisoned data raise Machine Check. A fill of an L1 brings the home's bytes and
leaves bytes written before as they are; what it makes readable is what the bench saw (R261). When the stores behind a release are
performed is the model's choice (log entry 95), and so are the free values a peer answers with (log entry 7). -/
def Obligations.LoadResults : Prop :=
  (∀ (s s' : State) (t : Thread), Executing s t → ∀ (d : XReg) (ty : Ty) (m : MAddr) (sc : Scope) (p : Place) (i : Instr)
    (acq : Option Scope), (i = .ld d ty m ∧ acq = none) ∨ (i = .ldacq d ty m sc ∧ acq = beyond sc) →
    Granted s s' t m (ty.bits / 8) .read p →
    let n := ty.bits / 8
    let o := s'.acquired t acq p n
    let clean (pa : Nat) : Prop := o.poisoned pa n = none ∧ o.l1Poisoned t.bench t.ctx pa n = none
    (∀ off, p = .pad off → YieldsIn s o t i d (extendBy ty (leNat (o.padBytes t.gang off n)))) ∧
    (∀ dev va, p = .peer dev va → t.asked = .peer dev →
      match Config.peerOutcome o.frees with
      | 0 => YieldsIn s { o with frees := o.frees + 2 } t i d
          (extendBy ty (leNat ((List.range n).map (Config.peerByte (o.frees + 1)))))
      | 1 => Waits s { o with frees := o.frees + 1 } t i .page 0 (.pages [va])
      | k + 2 => Raises s { o with frees := o.frees + 1 } t i (peerCause k) (BitVec.ofNat 64 va)) ∧
    (∀ dev va, p = .peer dev va → t.asked ≠ .peer dev → Waits s o t i .load 0 (.peer dev)) ∧
    (∀ pa va leaf, p = .mem pa va leaf → o.owesAt t.key pa n = false →
      (∀ bs, o.mayRead t.bench pa leaf → o.readL1 t.bench t.ctx pa n = some bs →
        (o.l1Poisoned t.bench t.ctx pa n = none → YieldsIn s o t i d (extendBy ty (leNat bs))) ∧
        (∀ q, o.l1Poisoned t.bench t.ctx pa n = some q →
          Raises s (o.poisonRecord t q) t i Cause.machineCheck (BitVec.ofNat 64 q))) ∧
      (o.mayRead t.bench pa leaf → o.readL1 t.bench t.ctx pa n = none → clean pa → t.asked = .data →
        YieldsIn s (o.fillL1 t.core t.ctx pa) t i d (extendBy ty
          (leNat ((o.fillL1 t.core t.ctx pa).cachedBytes t.bench t.ctx pa n)))) ∧
      (o.sharedFrame pa → clean pa → t.asked = .data →
        YieldsIn s (o.homeRequest t.ctx pa 1 false) t i d (extendBy ty (leNat (o.bytesAt pa n)))) ∧
      (o.mayRead t.bench pa leaf → o.readL1 t.bench t.ctx pa n = none → t.asked ≠ .data →
        pteBit leaf 5 = false → Waits s o t i .load 0 .data))) ∧
  (∀ (s : State) (core ctx pa n : Nat), pa < 2 ^ 52 → pa % 128 + n ≤ 128 → s.hasRoom core ctx (pa / 128) →
    (∀ k < n, s.tagged (pa + k) = false) →
    (∀ k < n, ∀ l c, (s.bench (core / 8)).l1Find ctx (pa / 128) = some l → Map.get? l.bytes ((pa + k) % 128) = some c →
      c.2 = false → c.1 = s.byteAt (pa + k)) →
    (s.fillL1 core ctx pa).readL1 (core / 8) ctx pa n =
      some ((List.range n).map fun k => s.cachedByte (core / 8) ctx (pa + k)) ∧
    (∀ a, (s.fillL1 core ctx pa).byteAt a = s.byteAt a))

/-- Stores (R241, R251, R261, R265, R269, R270, R275, R284): the bytes of the register's low bits go to the scratchpad, into the
bench's L1 where the bench may write, towards the home, or to a peer; where a tracked line may not be written yet its object home
is asked, which may reject the request. `strel` waits for the thread's vector accesses, and its write, a release of its scope,
stands behind what the thread has sent: that order is log entry 95. The peer's free outcomes are log entry 7 and the port of the
link event of an unreachable one log entry 72: both the model's choices. The frame of a store: the bytes stored are read at their
place, and every other byte a bench or a gang sees is as before (R206, R251, R261). -/
def Obligations.StoreResults : Prop :=
  ((∀ (s : State) (t : Thread), Executing s t → ∀ (d : XReg) (ty : Ty) (m : MAddr) (sc : Scope) (n : Nat),
    t.asked = .home n none → Map.get? s.home n = none → Leaves s (.strel d ty m sc) t) ∧
  ∀ (s s' : State) (t : Thread), Executing s t →
  ∀ (d : XReg) (ty : Ty) (m : MAddr) (sc : Scope) (p : Place) (i : Instr) (rel : Option Scope),
    (i = .st d ty m ∧ rel = none) ∨
      (i = .strel d ty m sc ∧ rel = beyond sc ∧ (∀ k a, t.asked ≠ .home k a) ∧ t.memoryClear) →
    Granted s s' t m (ty.bits / 8) .write p →
    let n := ty.bits / 8
    let bs := leBytes n ((t.getX d).toNat % 2 ^ ty.bits)
    let done (u : State) : Prop := exec i s = .next (u.onThread t.key Thread.completed)
    let sent (u : State) : Prop := if i = .st d ty m then done u else Waits s u t i .load 0 (.home s'.nextHome none)
    (∀ off, p = .pad off → done ((s'.padPut t.gang off bs).releases t rel p bs.length)) ∧
    (∀ dev va, p = .peer dev va → rel ≠ none → s'.owes t.key → Waits s s' t i .load 0 .none) ∧
    (∀ dev va, p = .peer dev va → rel = none ∨ s'.owes t.key = false →
      (s'.peerUp t.part dev = false → done (s'.peerLost dev true)) ∧
      (s'.peerUp t.part dev →
        match Config.peerOutcome s'.frees with
        | 0 => done { s' with frees := s'.frees + 1 }
        | 1 => Waits s { s' with frees := s'.frees + 1 } t i .page 0 (.pages [va])
        | k + 2 => Raises s { s' with frees := s'.frees + 1 } t i (peerCause k) (BitVec.ofNat 64 va))) ∧
    (∀ pa va leaf, p = .mem pa va leaf →
      (s'.sharedFrame pa = false → pteBit leaf 5 = false →
        done ((s'.storeL1 t.core t.ctx pa bs).releases t rel p bs.length)) ∧
      (s'.sharedFrame pa = false → pteBit leaf 5 →
        ((s'.objState (s'.objOf pa)).mayWrite t.bench → s'.owesAt t.key pa bs.length = false →
          done ((s'.storeL1 t.core t.ctx pa bs).releases t rel p bs.length)) ∧
        ((s'.objState (s'.objOf pa)).mayWrite t.bench = false ∨ s'.owesAt t.key pa bs.length →
          (s'.homeRejects t.part pa → Raises s s' t i Cause.frameOwner (BitVec.ofNat 64 va)) ∧
          (s'.homeRejects t.part pa = false →
            sent ((s'.ask ⟨t.bench, t.ctx, t.part, s'.objOf pa, true⟩).send (storeAccess t pa va true bs rel))))) ∧
      (s'.sharedFrame pa → sent (s'.send (storeAccess t pa va false bs rel))))) ∧
  (∀ (s : State) (bs : List Byte),
    (∀ (core ctx pa : Nat), pa % 128 + bs.length ≤ 128 → s.tagged pa = false → s.hasRoom core ctx (pa / 128) →
      (∀ k, (h : k < bs.length) → (s.storeL1 core ctx pa bs).cachedByte (core / 8) ctx (pa + k) = bs[k]) ∧
      (∀ c x a, ¬ (c = core / 8 ∧ x = ctx ∧ pa ≤ a ∧ a < pa + bs.length) →
        (s.storeL1 core ctx pa bs).cachedByte c x a = s.cachedByte c x a) ∧
      (∀ a, (s.storeL1 core ctx pa bs).byteAt a = s.byteAt a)) ∧
    (∀ (core ctx pa : Nat), s.tagged pa →
      (∀ k, (h : k < bs.length) → (s.storeL1 core ctx pa bs).byteAt (pa + k) = bs[k]) ∧
      (∀ a, ¬ (pa ≤ a ∧ a < pa + bs.length) → (s.storeL1 core ctx pa bs).byteAt a = s.byteAt a)) ∧
    (∀ (n off : Nat) (g : Gang), s.gang? n = some g →
      ∃ g', (s.padPut n off bs).gang? n = some g' ∧
        (∀ k, (h : k < bs.length) → g'.byteAt (off + k) = bs[k]) ∧
        (∀ a, ¬ (off ≤ a ∧ a < off + bs.length) → g'.byteAt a = g.byteAt a) ∧ g' = { g with bytes := g'.bytes } ∧
        ∀ m, m ≠ n → (s.padPut n off bs).gang? m = s.gang? m) ∧
    (∀ (pa : Nat),
      (∀ k, (h : k < bs.length) → (s.setBytes pa bs).byteAt (pa + k) = bs[k]) ∧
      (∀ a, ¬ (pa ≤ a ∧ a < pa + bs.length) → (s.setBytes pa bs).byteAt a = s.byteAt a) ∧
      s.setBytes pa bs = { s with near := (s.setBytes pa bs).near, far := (s.setBytes pa bs).far }))

/-- The check of an access in its order (R234, R235): null segment, rights, limit, alignment; the first that fails is
raised by a load or a store, with the offset as TVAL and no effect. What checking an access can change: bits 10 and 11 (A and D) of
the leaf that a TLB or the walk gives for its address, the TLBs, what the shared level holds and counts, the requests of far pages,
the attribute of a frame accessed for the first time, and the list of pages reported; no register, no scratchpad byte, and no byte
of memory outside the leaf but one of which an L1 held a dirty copy, which comes home before the walk reads its line, or before the
leaf is written (R234, R244, R245, R260, R262, R268, R357; log entry 15). An L1 keeps its lines as they were or cleaned, or loses
them. -/
def Obligations.AccessChecks : Prop :=
  (∀ (s : State) (t : Thread), Executing s t →
  ∀ (d : XReg) (ty : Ty) (m : MAddr) (sc : Scope) (kind : Kind) (i : Instr),
    (kind = .read ∧ (i = .ld d ty m ∨ i = .ldacq d ty m sc)) ∨
      (kind = .write ∧ (i = .st d ty m ∨ (t.asked = .none ∧ i = .strel d ty m sc))) →
    let g := t.getG m.g
    let o := t.getX m.xb + m.disp.signExtend 64
    let n := ty.bits / 8
    (g.type = .null → Raises s s t i Cause.nullSegment o) ∧
    (g.type ≠ .null → (kind = .read ∧ g.r = false ∨ kind = .write ∧ g.w = false) →
      Raises s s t i Cause.segmentRights o) ∧
    (g.type ≠ .null → (kind = .read ∧ g.r = true ∨ kind = .write ∧ g.w = true) →
      (g.size.toNat < o.toNat + n → Raises s s t i Cause.segmentLimit o) ∧
      (o.toNat + n ≤ g.size.toNat → (g.base.toNat + o.toNat) % n ≠ 0 → Raises s s t i Cause.misalignedAccess o))) ∧
  (∀ (s : State) (a : Agent) (gang : Option Gang) (g : Segment) (o : Word) (n al : Nat) (kind : Kind) (tv : Word),
    let s' := (s.check a gang g o n al kind tv).2
    s' = { s with
      near := s'.near, far := s'.far, benches := s'.benches, attrs := s'.attrs, ctxs := s'.ctxs, dieTlbs := s'.dieTlbs
      slices := s'.slices, banks := s'.banks, frees := s'.frees, objs := s'.objs, pageObjs := s'.pageObjs
      strays := s'.strays, poison := s'.poison, hostLines := s'.hostLines, snoops := s'.snoops, hotPages := s'.hotPages } ∧
    (let va := g.base.toNat + o.toNat
      let held := (tlbFind (s.bench (a.core / 8)) a.ctx va).orElse fun _ => tlbLookup (s.dieTlb (coreDie a.core)) a.ctx va
      let place := match held with
        | some e => some e.place
        | none => match walk (s.walkReads a.ctx va) a.ctx va with
          | .leaf _ _ p => some p
          | _ => none
      let settled (pa : Nat) : Prop :=
        ∀ b, ∀ l ∈ (s.bench b).l1, ∀ c ∈ l.bytes, c.2.2 → linePa l.line + c.1 ≠ pa
      (∀ pa, settled pa → (∀ p, place = some p → ¬ (p ≤ pa ∧ pa < p + 8)) → s'.byteAt pa = s.byteAt pa) ∧
      (∀ p, place = some p → (∀ k, k < 8 → settled (p + k)) →
        ∃ m ∈ [0x000#64, 0x400#64, 0x800#64, 0xC00#64], s'.doubleAt p = s.doubleAt p ||| m)) ∧
    (∀ b, s'.bench b = { s.bench b with
        tlb := (s'.bench b).tlb, l1 := (s'.bench b).l1, badLines := (s'.bench b).badLines } ∧
      ∀ l ∈ (s'.bench b).l1, ∃ l0 ∈ (s.bench b).l1, l = l0 ∨ l = l0.clean) ∧
    (∀ c x', s'.ctx? c = some x' → ∃ x, s.ctx? c = some x ∧
      x' = { x with reported := x'.reported, managed := x'.managed } ∧
      (Map.rising x.managed → ∀ p, (Map.get? x'.managed p).map (fun m => { m with count := 0 }) =
        (Map.get? x.managed p).map fun m => { m with count := 0 })) ∧
    (∀ f v, Map.get? s.attrs f = some v → Map.get? s'.attrs f = some v))

/-- Atomics (R269, R275, R280, R285, R286): on a scratchpad word at once; on memory by an access at the home, whose answer, the old
value, completes the instruction; a compare-and-swap writes only where the old value is the expected one, and is no release where
it does not. One with release order waits for the thread's vector accesses and, where it goes to a peer, for what the thread has
sent; a peer answers with a free value (log entry 7). The order of releases and acquires (R274 to R276): a release write that is
performed while its thread has earlier stores on their way is held as an order of them, and an acquire of the written place finds
the untracked ones performed where each thread lies within the other's scope: log entry 95, the model's choice of when. -/
def Obligations.AtomicResults : Prop :=
  (∀ (s s' : State) (t : Thread), Executing s t → ∀ (op : AmoOp) (o : Amo),
    let n := o.t.bits / 8
    let releasing : Prop := o.ord = .rel ∨ o.ord = .ar
    let rel := if releasing then beyond o.sc else none
    let acq := if o.ord = .acq ∨ o.ord = .ar then beyond o.sc else none
    let fresh : Prop := (∀ k a, t.asked ≠ .home k a) ∧ (releasing → t.memoryClear)
    (∀ off, fresh → Granted s s' t o.m n .atomic (.pad off) →
      let u := s'.acquired t acq (.pad off) n
      let old := leNat (u.padBytes t.gang off n)
      let wrote (v : Nat) : State := (u.padPut t.gang off (leBytes n v)).releases t rel (.pad off) n
      YieldsIn s (wrote (amoValue op o.t old (t.low o.xi o.t))) t (amoInstr op o) o.d (extendBy o.t old) ∧
      YieldsIn s (if old = t.low o.d o.t then wrote (t.low o.xi o.t) else u) t (.cas o) o.d (extendBy o.t old)) ∧
    (∀ pa va leaf, fresh → Granted s s' t o.m n .atomic (.mem pa va leaf) →
      let sent (h : HomeOp) : State := s'.send ⟨t.key, t.bench, t.ctx, t.part, pa, va, pteBit leaf 5, h, rel, acq⟩
      (pteBit leaf 5 = false ∨ s'.homeRejects t.part pa = false →
        Waits s (sent (.amo op o.t (t.low o.xi o.t))) t (amoInstr op o) .load 0 (.home s'.nextHome none) ∧
        Waits s (sent (.cas o.t (t.low o.d o.t) (t.low o.xi o.t))) t (.cas o) .load 0 (.home s'.nextHome none)) ∧
      (pteBit leaf 5 → s'.homeRejects t.part pa → ∀ i, i = amoInstr op o ∨ i = .cas o →
        Raises s s' t i Cause.frameOwner (BitVec.ofNat 64 va))) ∧
    (∀ dev va, fresh → Granted s s' t o.m n .atomic (.peer dev va) → ∀ i, i = amoInstr op o ∨ i = .cas o →
      (rel ≠ none → s'.owes t.key → Waits s s' t i .load 0 .none) ∧
      (rel = none ∨ s'.owes t.key = false → (t.asked ≠ .peer dev → Waits s s' t i .load 0 (.peer dev)) ∧
        (t.asked = .peer dev → Config.peerOutcome s'.frees = 0 →
          YieldsIn s { s' with frees := s'.frees + 2 } t i o.d
            (extendBy o.t (leNat ((List.range n).map (Config.peerByte (s'.frees + 1)))))))) ∧
    (∀ k old, t.asked = .home k (some [old]) →
      Yields s t (amoInstr op o) o.d (extendBy o.t old.toNat) ∧ Yields s t (.cas o) o.d (extendBy o.t old.toNat))) ∧
  (∀ (s : State) (t : Thread) (sc : Scope) (p : Place) (n : Nat), s.pendingBelow t.key s.nextHome →
    ⟨t.key, t.part, sc, s.nextHome, placeKey t.gang p, n⟩ ∈ (s.releases t (some sc) p n).orders) ∧
  (∀ (s : State) (r : Ordered) (y : Thread) (sc : Scope) (p : Place) (n : Nat), r ∈ s.orders → r.key ≠ y.key →
    meets r.pa r.n (placeKey y.gang p) n → inScope r.scope r.key r.part y.key y.part → inScope sc y.key y.part r.key r.part →
    ∀ h ∈ (s.acquired y (some sc) p n).home, h.2.key = r.key → h.1 < r.mark → (∃ bs, h.2.op = .store bs) → h.2.tracked)

/-- ACCESS_AT_HOME and L1_EVICTION (R247, R261, R269, R272, R280, R285, R286): the bytes of the access, or the dirty bytes of the
line, are written at their home and no others; a compare-and-swap that finds another value writes nothing; the thread that waits has
its answer; the line leaves the cache. A store that its home refuses is dropped, and its thread's next instruction raises Frame
Owner (log entry 101). That an L1 powers down as one more case of this step is the model's choice (log entry 24).
OBJECT_HOME_REQUEST (R267): the state of the object and who keeps copies, by the table of the rule. -/
def Obligations.HomeSteps : Prop :=
  (∀ s : State,
    (∀ h, Map.get? s.home s.ev.a = some h → s.blocked s.ev.a h = false →
      s.hostLines.contains (h.pa / 128) = false → h.tracked = false → s.refused h = false →
      (∀ bs, h.op = .store bs → ∃ s', exec .accessAtHome s = .next s' ∧ Map.get? s'.home s.ev.a = none ∧
        (∀ k, (hk : k < bs.length) → s'.byteAt (h.pa + k) = bs[k]) ∧
        (∀ a, ¬ (h.pa ≤ a ∧ a < h.pa + bs.length) → s'.byteAt a = s.byteAt a)) ∧
      (∀ (ty : Ty) (v : Nat),
        let old := leNat (s.bytesAt h.pa (ty.bits / 8))
        (∃ op w, h.op = .amo op ty w ∧ v = amoValue op ty old w) ∨
          (∃ exp w, h.op = .cas ty exp w ∧ v = if old = exp then w else old) →
        s.poisoned h.pa (ty.bits / 8) = none → (s.bench h.bench).l1Find h.ctx (h.pa / 128) = none → s.orders = [] →
        ∃ s', exec .accessAtHome s = .next s' ∧ Map.get? s'.home s.ev.a = none ∧
          s'.bytesAt h.pa (ty.bits / 8) = leBytes (ty.bits / 8) v ∧
          (∀ a, ¬ (h.pa ≤ a ∧ a < h.pa + ty.bits / 8) → s'.byteAt a = s.byteAt a) ∧
          (∀ t w, s.thread? h.key = some t → t.status = .waiting w → w.asked = .home s.ev.a none →
            s'.thread? h.key = some (t.waitingAs
              { w with asked := .home s.ev.a (some [BitVec.ofNat 64 old]), woken := true })))) ∧
    (∀ h bs t, Map.get? s.home s.ev.a = some h → s.blocked s.ev.a h = false → h.op = .store bs → s.refused h →
      s.thread? h.key = some t → t.asked ≠ .home s.ev.a none →
      ∃ s', exec .accessAtHome s = .next s' ∧ Map.get? s'.home s.ev.a = none ∧ (∀ a, s'.byteAt a = s.byteAt a) ∧
        Map.get? s'.strays h.key = some (BitVec.ofNat 64 h.va)) ∧
    (s.ev.flag = false → ∀ l, (s.bench s.ev.a).l1Find s.ev.b s.ev.c = some l → Map.rising l.bytes → (∀ c ∈ l.bytes, c.1 < 128) →
      (∀ c, s.ctx? l.ctx = some c → s.ownerOk l.ctx c.part (linePa l.line) ∧ s.homeRejects c.part (linePa l.line) = false) →
      ∃ s', exec .l1Eviction s = .next s' ∧ (s'.bench s.ev.a).l1Find s.ev.b s.ev.c = none ∧
        (∀ a, s'.byteAt a = match (if a / 128 = l.line then Map.get? l.bytes (a % 128) else none) with
          | some (b, true) => b
          | _ => s.byteAt a)) ∧
    (s.ev.flag = true → ∃ s', exec .l1Eviction s = .next s' ∧ (s'.bench s.ev.a).l1 = [])) ∧
  (∀ (s : State) (r : ObjReq) (rest : List ObjReq) (o : ObjId),
    s.objReqs = r :: rest → s.ev.a = 0 → r.obj = o → (∀ n, o = .declared n → (Map.get? s.objs n).isSome) →
    ∃ s', exec .objectHomeRequest s = .next s' ∧ s'.objReqs = rest ∧
      s'.objState o = (match s.objState o, r.write with
        | .invalid, false => .shared [r.bench]
        | .shared m, false => .shared (if m.contains r.bench then m else m ++ [r.bench])
        | .exclusive c, false => if c = r.bench then .exclusive c else .shared [c, r.bench]
        | _, true => .exclusive r.bench) ∧
      (∀ c, r.write = true → c ≠ r.bench →
        (∀ m, s.objState o = .shared m → c ∈ m →
          ∀ l ∈ (s'.bench c).l1, s.inObj o l.line = false) ∧
        (s.objState o = .exclusive c → ∀ l ∈ (s'.bench c).l1, s.inObj o l.line = false)))

/-- Translation, instruction lines and wakes (R244, R245, R248, R251, R281, R447): a walk sets A in the entry and the TLB
holds it, a filled line is in the bench's instruction cache and its thread is woken, an arrival and a page wake reach
the threads that wait for them. RING_ANNOUNCEMENT (R245, R266, R292): a shootdown takes the translations of its range
out of a bench's TLB and out of its die's, an `icinv` its lines out of the bench's instruction cache, and an announcement the
last holder has received ends. -/
def Obligations.WalkWakeAndRingSteps : Prop :=
  (∀ s : State,
    (∀ va e size place, s.ev.nums = [va] → tlbFind (s.bench s.ev.a) s.ev.b va = none →
      tlbLookup (s.dieTlb (coreDie (8 * s.ev.a + s.ev.c % 8))) s.ev.b va = none → 0 < size →
      walk s s.ev.b va = .leaf e size place →
      ∃ s' x, exec .pageWalk s = .next s' ∧ tlbFind (s'.bench s.ev.a) s.ev.b va = some x ∧ x.leaf = e ||| 0x400#64 ∧
        x.size = size ∧ x.place = place ∧ (pteBit e 10 = false → s'.doubleAt place = e ||| 0x400#64) ∧
        (pteBit e 10 = true → ∀ a, s'.byteAt a = s.byteAt a)) ∧
    (∀ t w pa, s.thread? s.ev.a = some t → t.key = s.ev.a → t.status = .waiting w → w.asked = .line pa → pa < 2 ^ 60 →
      s.poisoned pa 64 = none →
      ∃ s', exec .lineFill s = .next s' ∧ (s'.bench t.bench).il1Find t.ctx pa = some (s.bytesAt pa 64) ∧
        s'.thread? t.key = some (t.waitingAs { w with woken := true })) ∧
    (∀ t w, s.thread? s.ev.a = some t → t.status = .waiting w → w.asked = .data →
      exec .loadDataArrival s = .next (s.onThread s.ev.a fun t => t.waitingAs { w with woken := true })) ∧
    (∀ t w vas, s.thread? t.key = some t → t.ctx = s.ev.a → t.status = .waiting w → w.asked = .pages vas →
      w.woken = false → (∃ va ∈ vas, va / 65536 = s.ev.b / 65536) → Map.rising s.threads →
      ∃ s', exec .pageWake s = .next s' ∧ s'.thread? t.key = some (t.waitingAs { w with woken := true }))) ∧
  (∀ (s : State) (n : Nat) (left : List Nat) (rest : List (Nat × (List Nat × Announce))) (a : Announce),
    s.ring = (n, (left, a)) :: rest → s.ev.a ∈ left →
    ∃ s', exec .ringAnnouncement s = .next s' ∧
      (∀ ctx va k, a = .shootdown ctx va k →
        (∀ x ∈ (s'.bench s.ev.a).tlb, ¬ (x.ctx = ctx ∧ x.va < va + k ∧ va < x.va + x.size)) ∧
        (∀ x ∈ s'.dieTlb (s.ev.a / 16), ¬ (x.ctx = ctx ∧ x.va < va + k ∧ va < x.va + x.size))) ∧
      (∀ ctx lines, a = .icinv ctx lines →
        ∀ x ∈ (s'.bench s.ev.a).il1, ¬ (x.ctx = ctx ∧ x.line / 64 ∈ lines)) ∧
      ((∃ b ∈ left, b ≠ s.ev.a) → (∃ ctx va k, a = .shootdown ctx va k) →
        s'.ring.head? = some (n, (left.filter (· != s.ev.a), a))) ∧
      ((∀ b ∈ left, b = s.ev.a) → (∃ ctx va k, a = .shootdown ctx va k) →
        ∀ r ∈ s'.ring, r.1 ≠ n))

/-- Segment registers (R238 to R240): `segrd` in the layout of R233, `segnarrow` with its refusals, and `segld` of the
executing thread's own register, and of another thread's, which is loaded at that thread's next boundary. A descriptor is
read as R233 states: the fields in their places when it is well formed, nothing otherwise; reading a segment register back
gives the descriptor's first three doubles. -/
def Obligations.SegmentResults : Prop :=
  (∀ (s : State) (t : Thread), Executing s t → ∀ (d p u w q : XReg) (gp gq gu : GReg) (rights : BitVec 4) (n : BitVec 2),
    Yields s t (.segrd d gp n) d (match n.toNat with
      | 0 => (t.getG gp).base.setWidth 64
      | 1 => (t.getG gp).size.setWidth 64
      | 2 => BitVec.ofNat 64 ((t.getG gp).peer.toNat * 65536 + (if (t.getG gp).r then 128 else 0)
          + (if (t.getG gp).w then 64 else 0) + (if (t.getG gp).x then 32 else 0) + (if (t.getG gp).a then 16 else 0)
          + (match (t.getG gp).type with | .null => 0 | .global => 1 | .scratch => 2 | .peer => 3))
      | _ => 0) ∧
    (gp = 0 → Yields s t (.segnarrow d gp gq u w rights) d 3) ∧
    (gp ≠ 0 → (t.getG gq).type = .null → Yields s t (.segnarrow d gp gq u w rights) d 2) ∧
    (gp ≠ 0 → (t.getG gq).type ≠ .null → (t.getG gq).size.toNat < (t.getX u).toNat + (t.getX w).toNat →
      Yields s t (.segnarrow d gp gq u w rights) d 1) ∧
    (gp ≠ 0 → (t.getG gq).type ≠ .null → (t.getX u).toNat + (t.getX w).toNat ≤ (t.getG gq).size.toNat →
      ∃ z, Writes t z d 0 ∧ exec (.segnarrow d gp gq u w rights) s = .next (s.putThread (z.setG gp
        { t.getG gq with
          base := BitVec.ofNat 55 ((t.getG gq).base.toNat + (t.getX u).toNat), size := BitVec.ofNat 56 (t.getX w).toNat,
          r := (t.getG gq).r && rights.getLsbD 3, w := (t.getG gq).w && rights.getLsbD 2,
          x := (t.getG gq).x && rights.getLsbD 1, a := (t.getG gq).a && rights.getLsbD 0 }).completed)) ∧
    (t.isHead = false → t.depth = 0 → Raises s s t (.segld d p gu q) Cause.privilege (instrTval (.segld d p gu q))) ∧
    (∀ off g, (t.isHead ∨ 0 < t.depth) → (t.getG gu).type = .scratch →
      (t.getG gu).refuses (t.getX q) 32 32 .read = none → off = (t.getG gu).base.toNat + (t.getX q).toNat →
      s.padReadable t off 32 → s.vectorClear t (.pad off) 32 → t.status = .runnable →
      (t.getX p).extractLsb' 11 53 = 0 → (t.getX p).extractLsb' 4 4 = 0 →
      ((t.getX p).extractLsb' 0 4).toNat = t.context →
      (readDescriptor s.ownNumber (doublesOf 4 (s.padBytes t.gang off 32)) = none →
        Yields s t (.segld d p gu q) d 2) ∧
      (readDescriptor s.ownNumber (doublesOf 4 (s.padBytes t.gang off 32)) = some g →
        (t.getX p).extractLsb' 8 3 = 0 ∧ g.base.toNat % 64 ≠ 0 → Yields s t (.segld d p gu q) d 3) ∧
      (readDescriptor s.ownNumber (doublesOf 4 (s.padBytes t.gang off 32)) = some g →
        ¬ ((t.getX p).extractLsb' 8 3 = 0 ∧ g.base.toNat % 64 ≠ 0) →
        ∃ z, Writes t z d 0 ∧ exec (.segld d p gu q) s =
          .next (s.putThread ((z.setG ((t.getX p).extractLsb' 8 3) g).completed.refetchIf ((t.getX p).extractLsb' 8 3))))) ∧
    (∀ off g v c, t.isHead → (t.getG gu).type = .scratch → (t.getG gu).refuses (t.getX q) 32 32 .read = none →
      off = (t.getG gu).base.toNat + (t.getX q).toNat → s.padReadable t off 32 →
      s.vectorClear t (.pad off) 32 →
      (t.getX p).extractLsb' 11 53 = 0 → (t.getX p).extractLsb' 4 4 = 0 → c = ((t.getX p).extractLsb' 0 4).toNat →
      t.ctx * 16384 + t.core * 16 + c ≠ t.key → s.thread? (t.ctx * 16384 + t.core * 16 + c) = some v → v.open →
      readDescriptor s.ownNumber (doublesOf 4 (s.padBytes t.gang off 32)) = some g →
      ¬ ((t.getX p).extractLsb' 8 3 = 0 ∧ g.base.toNat % 64 ≠ 0) →
      ∃ z, Writes t z d 0 ∧ exec (.segld d p gu q) s = .next (((s.putThread z).onThread (t.ctx * 16384 + t.core * 16 + c)
        fun u => { u with segNext := ((t.getX p).extractLsb' 8 3, g) :: u.segNext }).onThread t.key Thread.completed))) ∧
  (∀ (t : Thread) (n : GReg) (g : Segment), t.segNext = [(n, g)] →
    t.boundary.segNext = [] ∧ (∀ m : GReg, t.boundary.getG m = if m = n then g else t.getG m) ∧
    t.boundary = { t with g := t.boundary.g, line := t.boundary.line, segNext := [] }) ∧
  (∀ (own : Nat) (d0 d1 d2 d3 : Word) (g : Segment), readDescriptor own [d0, d1, d2, d3] = some g →
    g.double 0 = d0 ∧ g.double 1 = d1 ∧ g.double 2 = d2 ∧ d3 = 0 ∧
    (g.type ≠ .scratch → g.base.toNat + g.size.toNat ≤ 2 ^ 55) ∧
    (g.type = .scratch → g.base.toNat + g.size.toNat ≤ 2 ^ 22) ∧
    (g.type = .scratch ∨ g.type = .peer → g.x = false) ∧ (g.type = .peer → g.peer.toNat ≠ own))

/-- Fences and cache instructions (R255, R277, R283, R291, R292): a fence waits while what its kinds order is not performed, and else
completes; a write-back of a region leaves its lines clean, an invalidation drops them, both all that the bench holds of the context
in the `.all` forms; `icinv` takes the region's lines out of the instruction cache, of the bench at once, of a die or partition by
the ring; `pref` fills the line of an offset that passes its check and is never more than a completion. That an empty region is not
checked is the model's choice (log entry 111); that a fence of the thread's own scope waits for no store is log entry 95, that `pref`
is one step log entry 57, and that it settles no attribute log entry 103. -/
def Obligations.FenceAndCacheResults : Prop :=
  (∀ (s : State) (t : Thread), Executing s t →
  ∀ (sc : Scope) (i e st l sl : Bool) (m : MAddr) (xi q u : XReg) (gp : GReg),
    let waits : Prop := ((l || st) = true ∧ t.memoryClear = false) ∨
      (st = true ∧ sc ≠ .thread ∧ s.owes t.key = true) ∨ (e = true ∧ t.engines s = true)
    (¬ waits → exec (.fence sc i e st l) s = .next (s.onThread t.key fun u => if i then { u.completed with line := none } else u.completed)) ∧
    (waits → Waits s s t (.fence sc i e st l) .load 0 .none) ∧
    exec .ifence s = .next (s.putThread { t.completed with line := none }) ∧
    (t.memoryClear = true → ∀ (op : LineOp) (ins all : Instr) (kind : Kind),
      (op = .wb ∧ ins = .wb gp q u ∧ all = .wbAll ∧ kind = .read) ∨
        (op = .inv ∧ ins = .inv gp q u ∧ all = .invAll ∧ kind = .write) ∨
        (op = .wbinv ∧ ins = .wbinv gp q u ∧ all = .wbinvAll ∧ kind = .write) →
      let va := (t.getG gp).base.toNat + (t.getX q).toNat
      let n := (t.getX u).toNat
      exec all s = .next ((s.l1Op t.bench t.ctx op fun _ => true).onThread t.key Thread.completed) ∧
      (n = 0 → Leaves s ins t) ∧
      ((t.getG gp).type = .peer → (t.getG gp).refuses (t.getX q) n 1 kind = none → Leaves s ins t) ∧
      ((t.getG gp).type = .scratch → (t.getG gp).refuses (t.getX q) n 1 kind = none →
        allotMiss (s.gangOf t) va n = none → Leaves s ins t) ∧
      (∀ ps s2, n ≠ 0 → (t.getG gp).type = .global → (t.getG gp).refuses (t.getX q) n 1 kind = none →
        regionPages t kind (pieces va n) s = .ok (ps, s2) →
        exec ins s = .next ((s2.l1Op t.bench t.ctx op (regionHas s2 ps)).onThread t.key Thread.completed))) ∧
    (∃ s' : State, exec (.pref sl m xi) s = .next (s'.onThread t.key Thread.completed) ∧
      s'.thread? t.key = some t ∧ s'.gangs = s.gangs ∧ s'.attrs = s.attrs) ∧
    (∀ pa va leaf s2, let g := t.getG m.g
      let o := t.offset m
      let n := min (t.getX xi).toNat 65536
      prefCount g o n = 1 →
      s.check t.agent (s.gangOf t) g o (max n 1) 1 .read o = (.ok (.mem pa va leaf), s2) →
      let v := { s2 with attrs := s.attrs }
      let w := if pteBit leaf 5 then v.objTransition t.part t.bench (v.objOf pa) false else v
      v.sharedFrame pa = false → (pteBit leaf 5 → v.homeRejects t.part pa = false) →
      (sl = true → exec (.pref sl m xi) s =
        .next ((v.touchLine t.ctx (pa / 128) false true).onThread t.key Thread.completed)) ∧
      (sl = false → w.readL1 t.bench t.ctx (linePa (pa / 128)) 128 = none →
        exec (.pref sl m xi) s = .next ((w.fillL1 t.core t.ctx pa).onThread t.key Thread.completed)) ∧
      (∀ bs, sl = false → w.readL1 t.bench t.ctx (linePa (pa / 128)) 128 = some bs →
        exec (.pref sl m xi) s = .next (w.onThread t.key Thread.completed))) ∧
    (∀ ps s2, let va := (t.getG gp).base.toNat + (t.getX q).toNat
      let n := (t.getX u).toNat
      (∀ k, t.asked ≠ .ring k) →
      (n = 0 ∧ ps = [] ∧ s2 = s) ∨
        ((t.getG gp).type = .global ∧ n ≠ 0 ∧ (t.getG gp).refuses (t.getX q) n 1 .fetch = none ∧
          regionPages t .fetch (pieces va n) s = .ok (ps, s2)) →
      (sc ≠ .die → sc ≠ .partition → exec (.icinv sc gp q u) s =
        .next ((s2.receive t.bench (.icinv t.ctx (regionCode ps))).onThread t.key Thread.completed)) ∧
      (sc = .die → Waits s (s2.announce t.ctx ((s2.partBenches t.part).filter fun b => decide (b / 16 = t.die))
        (.icinv t.ctx (regionCode ps))) t (.icinv sc gp q u) .load 0 (.ring s2.nextRing)) ∧
      (sc = .partition → Waits s (s2.announce t.ctx (s2.partBenches t.part) (.icinv t.ctx (regionCode ps))) t
        (.icinv sc gp q u) .load 0 (.ring s2.nextRing))) ∧
    (∀ n, t.asked = .ring n → Leaves s (.icinv sc gp q u) t)) ∧
  (∀ (s : State) (bench ctx : Nat) (p : Nat → Bool),
    (∀ c ∈ ((s.l1Op bench ctx .wb p).bench bench).l1, c.ctx = ctx → p c.line → s.lineTracked bench c.line = false →
      ∀ b ∈ c.bytes, b.2.2 = false) ∧
    (∀ op, op = .inv ∨ op = .wbinv →
      ∀ c ∈ ((s.l1Op bench ctx op p).bench bench).l1, c ∈ (s.bench bench).l1 ∧
        ¬ (c.ctx = ctx ∧ p c.line ∧ s.lineTracked bench c.line = false)) ∧
    (∀ a, (s.l1Op bench ctx .inv p).byteAt a = s.byteAt a))

/-- Coherence objects and claims (R282, R288 to R290): `objdrop` of a number that is not the context's answers 1 and
changes nothing; of its own, the object is gone, its words lose their tags, and the instruction waits for the ring;
`objdecl` and `track` complete when their announcements have gone round, and refuse as their rules state: `objdecl` with status 2 a
record or a page that does not fit, 3 a line of another object, 1 a full table; `track` with 2 a page that maps with T = 0 or at a
peer. A `track` claims the untracked frames of its region, one announcement each, and waits for them. That a page of `objdecl` is
asked for no right is R263's list; that `track` answers 1 before it translates a page is the model's choice (log entry 111). -/
def Obligations.ObjectResults : Prop :=
  ∀ (s : State) (t : Thread), Executing s t → ∀ (d p q u : XReg) (gp : GReg),
    (∀ n, t.asked = .ring n →
      Leaves s (.objdecl d gp q) t ∧ Leaves s (.objdrop d p) t ∧ Leaves s (.track d gp q u) t) ∧
    (t.asked = .none →
      ((∀ o, Map.get? s.objs (t.part * 2 ^ 19 + (t.getX p).toNat) = some o → o.ctx ≠ t.ctx) →
        Yields s t (.objdrop d p) d 1) ∧
      (∀ o, (t.getX p).toNat < 2 ^ 19 → Map.get? s.objs (t.part * 2 ^ 19 + (t.getX p).toNat) = some o → o.ctx = t.ctx →
        ∃ (s' : State) (z : Thread), Writes t z d 0 ∧ Waits s (s'.putThread z) t (.objdrop d p) .load 0 (.ring s.nextRing) ∧
          Map.get? s'.objs (t.part * 2 ^ 19 + (t.getX p).toNat) = none ∧
          (∀ w ∈ o.words, Map.get? s'.fullTags w = none) ∧ s'.nextRing = s.nextRing + 1) ∧
      ((t.getG gp).type = .scratch → (t.getG gp).refuses (t.getX q) (t.getX u).toNat 1 .write = none →
        allotMiss (s.gangOf t) ((t.getG gp).base.toNat + (t.getX q).toNat) (t.getX u).toNat = none →
        Yields s t (.track d gp q u) d 2) ∧
      ((t.getG gp).type = .global ∨ (t.getG gp).type = .peer → (t.getG gp).refuses (t.getX q) (t.getX u).toNat 1 .write = none →
        ((t.getX u).toNat = 0 ∨ ((t.getG gp).base.toNat + (t.getX q).toNat) % 65536 ≠ 0 ∨ (t.getX u).toNat % 65536 ≠ 0) →
        Yields s t (.track d gp q u) d 1) ∧
      ((t.getG gp).type = .peer → (t.getG gp).refuses (t.getX q) (t.getX u).toNat 1 .write = none →
        0 < (t.getX u).toNat → (t.getX u).toNat % 65536 = 0 → ((t.getG gp).base.toNat + (t.getX q).toNat) % 65536 = 0 →
        Yields s t (.track d gp q u) d 2) ∧
      (∀ fs s2, (t.getG gp).type = .global → (t.getG gp).refuses (t.getX q) (t.getX u).toNat 1 .write = none →
        0 < (t.getX u).toNat → (t.getX u).toNat % 65536 = 0 → ((t.getG gp).base.toNat + (t.getX q).toNat) % 65536 = 0 →
        (∀ p ∈ pieces ((t.getG gp).base.toNat + (t.getX q).toNat) (t.getX u).toNat, s.migrating t.ctx p.1 = false) →
        trackFrames t (pieces ((t.getG gp).base.toNat + (t.getX q).toNat) (t.getX u).toNat) s = .ok (some fs, s2) →
        (∀ f ∈ fs, f ∉ s2.claims) →
        let todo := fs.eraseDups.filter fun f => Map.get? s2.attrs f == some .untracked
        (todo = [] → YieldsIn s s2 t (.track d gp q u) d 0) ∧
        (todo ≠ [] → ∃ (s' : State) (z : Thread), Writes t z d 0 ∧
          Waits s (s'.putThread z) t (.track d gp q u) .load 0 (.ring (s2.nextRing + todo.length - 1)) ∧
          s'.claims = s2.claims ++ todo ∧ s'.attrs = s2.attrs ∧
          s'.ring.map (·.2) = s2.ring.map (·.2) ++ todo.map fun f => (s2.partBenches t.part, Announce.claim f))) ∧
      (∀ s2, (t.getG gp).type = .global → (t.getG gp).refuses (t.getX q) (t.getX u).toNat 1 .write = none →
        0 < (t.getX u).toNat → (t.getX u).toNat % 65536 = 0 → ((t.getG gp).base.toNat + (t.getX q).toNat) % 65536 = 0 →
        (∀ p ∈ pieces ((t.getG gp).base.toNat + (t.getX q).toNat) (t.getX u).toNat, s.migrating t.ctx p.1 = false) →
        trackFrames t (pieces ((t.getG gp).base.toNat + (t.getX q).toNat) (t.getX u).toNat) s = .ok (none, s2) →
        YieldsIn s s2 t (.track d gp q u) d 2) ∧
      (∀ va n rest leaf s2 r s3, (∃ pa, s.regionPage t va (some .write) = (.mem pa leaf, s2) ∧ pteBit leaf 5 = false) ∨
          (∃ dev a, s.regionPage t va (some .write) = (.peer dev a, s2)) →
        trackFrames t rest s2 = .ok (r, s3) → trackFrames t ((va, n) :: rest) s = .ok (none, s3)) ∧
      (∀ fe page rest r s2, page * 65536 < 2 ^ 55 → s.regionPage t (page * 65536) none = (r, s2) →
        (∃ c v, r = .fails c v) ∨ (∃ dev a, r = .peer dev a) ∨
          (∃ pa leaf, r = .mem pa leaf ∧ (pteBit leaf 5 = false ∨ (fe = true ∧ pteBit leaf 6 = false) ∨
            (pa < farBase ∧ State.ownerKind (s2.owner (pa / 65536)) ≠ 1 ∧ State.ownerKind (s2.owner (pa / 65536)) ≠ 2))) →
        shapePages t fe (page :: rest) s = .ok (none, s2)) ∧
      (∀ off, (t.getG gp).type = .scratch → (t.getG gp).refuses (t.getX q) 64 64 .read = none →
        off = (t.getG gp).base.toNat + (t.getX q).toNat → s.padReadable t off 64 →
        s.vectorClear t (.pad off) 64 →
        (readShape (doublesOf 8 (s.padBytes t.gang off 64)) = none →
          Yields s t (.objdecl d gp q) d 0xA000000000000000) ∧
        (∀ h ps s2 n, readShape (doublesOf 8 (s.padBytes t.gang off 64)) = some h →
          shapePages t h.fe (h.units 65536) s = .ok (some ps, s2) →
          let lines := ((h.units 128).map fun u => pageAt ps (u * 128) / 128).eraseDups
          ((∃ o ∈ s2.objs, ∃ l ∈ o.2.lines, l ∈ lines) → YieldsIn s s2 t (.objdecl d gp q) d 0xB000000000000000) ∧
          ((∀ o ∈ s2.objs, ∀ l ∈ o.2.lines, l ∉ lines) → s2.freeObject t.part = none →
            YieldsIn s s2 t (.objdecl d gp q) d 0x9000000000000000) ∧
          ((∀ o ∈ s2.objs, ∀ l ∈ o.2.lines, l ∉ lines) → s2.freeObject t.part = some n →
          ∃ (s' : State) (z : Thread), Writes t z d (BitVec.ofNat 64 n) ∧
            Waits s (s'.putThread z) t (.objdecl d gp q) .load 0 (.ring s2.nextRing) ∧
            (∃ o, Map.get? s'.objs (t.part * 2 ^ 19 + n) = some o ∧ o.ctx = t.ctx ∧ o.part = t.part ∧ o.lines = lines ∧
              o.state = .invalid ∧ ∀ w ∈ o.words, Map.get? s'.fullTags w = none))) ∧
        (∀ h s2, readShape (doublesOf 8 (s.padBytes t.gang off 64)) = some h →
          shapePages t h.fe (h.units 65536) s = .ok (none, s2) → YieldsIn s s2 t (.objdecl d gp q) d 0xA000000000000000)))

/-! ### Threads (R86 to R101, R136, R141) -/

/-- `spawn` (R89, R92): Privilege outside a head, the two refusals, the trap of an entry that is no head, and the child:
its registers zero but for x1, the head's segments, FRM, TVEC, limits and identity, Runnable at the entry. -/
def Obligations.SpawnResults : Prop :=
  ∀ (s : State) (t : Thread), Executing s t → ∀ (w p q u : XReg),
    (t.isHead = false → Raises s s t (.spawn w p q u) Cause.privilege (instrTval (.spawn w p q u))) ∧
    (t.isHead = true →
      ((t.getX p).toNat < 1 ∨ 15 < (t.getX p).toNat → Yields s t (.spawn w p q u) w 2) ∧
      (1 ≤ (t.getX p).toNat → (t.getX p).toNat ≤ 15 →
        ((∃ v, s.thread? (t.sibling (t.getX p).toNat) = some v) → Yields s t (.spawn w p q u) w 1) ∧
        (s.thread? (t.sibling (t.getX p).toNat) = none → ∀ img s', LineOf s t (t.getX q) img s' →
          (isHead img (t.getX q) = false →
            Raises s s' t (.spawn w p q u) Cause.misalignedTarget (t.getX q)) ∧
          (isHead img (t.getX q) = true → ∃ (s2 : State) (z c : Thread),
            exec (.spawn w p q u) s = .next s2 ∧ Writes t z w 0 ∧ s2.thread? t.key = some z.completed ∧
            s2.thread? (t.sibling (t.getX p).toNat) = some c ∧
            c.status = .runnable ∧ c.pc = t.getX q ∧ c.getX 1 = t.getX u ∧ (∀ r : XReg, r ≠ 1 → c.getX r = 0) ∧
            (∀ r : VReg, c.getV r = 0) ∧ (∀ r : KReg, c.getK r = 0) ∧ (∀ r : WReg, c.getW r = none) ∧ c.g = t.g ∧
            c.tvec = t.tvec ∧ c.fz = t.fz ∧ c.rm = t.rm ∧ c.felimit = t.felimit ∧ c.cblimit = t.cblimit ∧
            c.gangSize = t.gangSize ∧ c.gangIndex = t.gangIndex ∧ c.launch = t.launch ∧ c.ctx = t.ctx ∧ c.fn = t.fn ∧
            c.part = t.part ∧ c.gang = t.gang ∧ c.fflags = 0 ∧ c.mxstat = 0 ∧ c.vstart = 0 ∧ c.loops = [] ∧
            c.srseed = BitVec.ofNat 32 (c.tid.toNat * 0x9E3779B9) ∧ c.mailbox = [] ∧ c.window = none ∧
            c.tid.toNat = t.tid.toNat - t.context + (t.getX p).toNat))))

/-- `reap`, `reap.try`, `halt` (R90, R91): the result's layout, a context made Empty, the wait for a running sibling, a
sibling Halted with its exit value, a head gone with its siblings. -/
def Obligations.ThreadEnds : Prop :=
  ∀ (s : State) (t : Thread), Executing s t → ∀ (w p a : XReg),
    (t.isHead = false → Raises s s t (.reap w p) Cause.privilege (instrTval (.reap w p)) ∧
      Raises s s t (.reapTry w p) Cause.privilege (instrTval (.reapTry w p))) ∧
    (t.isHead = true →
      ((t.getX p).toNat < 1 ∨ 15 < (t.getX p).toNat ∨ s.thread? (t.sibling (t.getX p).toNat) = none →
        Yields s t (.reap w p) w 0xC000000000000000 ∧ Yields s t (.reapTry w p) w 0xC000000000000000) ∧
      (1 ≤ (t.getX p).toNat → (t.getX p).toNat ≤ 15 → ∀ v, s.thread? (t.sibling (t.getX p).toNat) = some v →
        v.key = t.sibling (t.getX p).toNat →
        (∀ r : Word, (∃ e, v.status = .halted e ∧ r = e.setWidth 64) ∨
            (∃ c, v.status = .faulted c ∧ r = 0x4000000000000000 ||| (c.setWidth 64 <<< 32) ||| (v.pc.setWidth 32).setWidth 64) →
          ∀ i, i = .reap w p ∨ i = .reapTry w p →
            ∃ (s2 : State) (z : Thread), exec i s = .next s2 ∧ Writes t z w r ∧ s2.thread? t.key = some z.completed ∧
              s2.thread? (t.sibling (t.getX p).toNat) = none) ∧
        ((∀ e, v.status ≠ .halted e) → (∀ c, v.status ≠ .faulted c) →
          Waits s s t (.reap w p) .children 0 .none ∧ Yields s t (.reapTry w p) w 0x8000000000000000))) ∧
    (∀ (i : Instr) (e : BitVec 32), (i = .halt ∧ e = 0) ∨ (i = .haltX a ∧ e = (t.getX a).setWidth 32) →
      (t.seqEmpty = false → Waits s s t i .sequencer 0 .none) ∧
      (t.seqEmpty = true → t.isHead = false → exec i s = .next (s.putThread { t with status := .halted e })) ∧
      (t.seqEmpty = true → t.isHead = true →
        (∀ v ∈ s.coreThreads t.ctx t.core, v.key = t.key ∨ v.result.isSome = true) →
        ∃ s2, exec i s = .next s2 ∧ s2.thread? t.key = none ∧
          ∀ v ∈ s.coreThreads t.ctx t.core, s2.thread? v.key = none) ∧
      (t.seqEmpty = true → t.isHead = true →
        (∃ v ∈ s.coreThreads t.ctx t.core, v.key ≠ t.key ∧ v.result = none) → Waits s s t i .children 0 .none))

/-- `yield`, `sleep`, SLEEP_DEADLINE and `gbar` (R96, R97, R100, R101, R136): a turn forfeited; a sleep ended by its deadline or
a message; a barrier counted once and passed when every member has reached it, a re-negotiation point of every core the gang
has a thread on. The rotation of a core (R82, R96): the first cycle that has an eligible context, and of those eligible in it
the first after the one that issued last; a context that has yielded is eligible once no other is that has yet to issue
since, or after 16 cycles. The cycles are those the model counts, and a context whose own `yield` lasts is not waited for: log entry
33, the model's choice. -/
def Obligations.TurnResults : Prop :=
  (∀ (s : State) (t : Thread), Executing s t → ∀ (d a : XReg),
    Leaves s .yield { t with yielded := some t.readyAt } ∧
    (s.gtsc.toNat < (t.getX a).toNat → t.mailbox = [] → Waits s s t (.sleep d a) .sleep 0 .none) ∧
    (t.mailbox ≠ [] → Yields s t (.sleep d a) d 1) ∧
    ((t.getX a).toNat ≤ s.gtsc.toNat → t.mailbox = [] → Yields s t (.sleep d a) d 0) ∧
    (∀ w, s.ev.a = t.key → t.status = .waiting w → w.reason = .sleep → w.instr = .sleep d a → t.parked = false →
      (t.getX a).toNat ≤ s.gtsc.toNat → t.mailbox = [] →
      ∃ z, Writes { t with readyAt := max (t.issuedAt + 4) (s.core t.core).cycle } z d 0 ∧
        exec .sleepDeadline s = .next (s.putThread z.completed)) ∧
    (t.memoryClear = false ∨ s.owes t.key = true → (∀ n, t.asked ≠ .phase n) → Waits s s t .gbar .load 0 .none) ∧
    (t.memoryClear = true → s.owes t.key = false → (∀ n, t.asked ≠ .phase n) → ∀ g, s.gang? t.gang = some g →
      let u := { t with gbars := t.gbars + 1 }
      ((s.putThread u).gangReached g (t.gbars + 1) = true →
        ∃ s', exec .gbar s = .next s' ∧ s'.thread? t.key = some u.completed ∧
          ∀ c ∈ g.cores, c ∉ g.done → (s'.core (g.bench * 8 + c)).point = true) ∧
      ((s.putThread u).gangReached g (t.gbars + 1) = false →
        Waits s (s.putThread u) t .gbar .barrier 0 (.phase (t.gbars + 1)))) ∧
    (∀ n g, t.asked = .phase n → s.gang? t.gang = some g →
      (s.gangReached g n = true →
        ∃ s', exec .gbar s = .next s' ∧ s'.thread? t.key = some t.completed ∧
          ∀ c ∈ g.cores, c ∉ g.done → (s'.core (g.bench * 8 + c)).point = true) ∧
      (s.gangReached g n = false → Waits s s t .gbar .barrier 0 (.phase n)))) ∧
  (∀ (ts : List Thread) (last cycle : Nat), last < 16 →
    (turn ts last cycle = none ↔ ∀ u ∈ ts, u.mayIssue = false) ∧
    (∀ t c, turn ts last cycle = some (t, c) →
      t ∈ ts ∧ t.eligible ts c = true ∧ cycle ≤ c ∧
      (∀ u ∈ ts, u.eligible ts c = true → (t.context + 15 - last) % 16 ≤ (u.context + 15 - last) % 16) ∧
      ∀ n, cycle ≤ n → n < c → ∀ u ∈ ts, u.eligible ts n = false)) ∧
  (∀ (t : Thread) (ts : List Thread) (cycle y : Nat), t.mayIssue = true → t.readyAt ≤ cycle →
    (t.yielded = none → t.eligible ts cycle = true) ∧
    (t.yielded = some y → y + 16 ≤ cycle → t.eligible ts cycle = true) ∧
    (t.yielded = some y → cycle < y + 16 → (t.eligible ts cycle = false ↔
      ∃ u ∈ ts, u.key ≠ t.key ∧ u.mayIssue = true ∧ u.readyAt ≤ cycle ∧ u.issuedAt < y ∧
        ∀ z, u.yielded = some z → z + 16 ≤ cycle)))

/-- Messages (R98, R99, R356): appended behind the receiver's others with the sender's number, taken oldest first,
refused or waited for when there is no room or none to take, and their time limits. -/
def Obligations.MessageResults : Prop :=
  ∀ (s : State) (t : Thread), Executing s t → ∀ (w p q u : XReg),
    ((2 ^ 14 ≤ (t.getX p).toNat ∨ s.thread? (t.ctx * 16384 + (t.getX p).toNat) = none) →
      Yields s t (.msend w p q u) w 2 ∧ Yields s t (.msendTry w p q u) w 2) ∧
    (∀ r, (t.getX p).toNat < 2 ^ 14 → s.thread? (t.ctx * 16384 + (t.getX p).toNat) = some r →
      r.key = t.ctx * 16384 + (t.getX p).toNat → s.ctx? r.ctx = none ∨ r.parked = false →
      (r.mailbox.length < 8 → ∀ i, i = .msend w p q u ∨ i = .msendTry w p q u →
        ∃ (s2 : State) (r' t' z : Thread), exec i s = .next s2 ∧ s2.thread? r.key = some r' ∧ s2.thread? t.key = some t' ∧
          r'.mailbox = r.mailbox ++ [⟨t.getX q, t.tid⟩] ∧ Writes t z w 0 ∧ t'.x = z.x ∧
          (r.key ≠ t.key → r' = { r with mailbox := r'.mailbox } ∧ t' = z.completed)) ∧
      (8 ≤ r.mailbox.length →
        Waits s s t (.msend w p q u) .mailboxSpace (t.getX u).toNat .none ∧ Yields s t (.msendTry w p q u) w 1)) ∧
    (∀ m rest, t.mailbox = m :: rest →
      (∀ c, s.ctx? t.ctx = some c → ∀ x ∈ c.ringMsgs, x.receiver ≠ t.tid.toNat) →
      ∀ i, i = .mrecv w p u ∨ i = .mrecvTry w p u →
        ∃ z z', Writes { t with mailbox := rest } z w m.payload ∧ Writes z z' p (m.sender.setWidth 64) ∧ Leaves s i z') ∧
    (t.mailbox = [] →
      Waits s s t (.mrecv w p u) .message (t.getX u).toNat .none ∧
      ∃ z z', Writes t z w 0 ∧ Writes z z' p (BitVec.allOnes 64) ∧ Leaves s (.mrecvTry w p u) z') ∧
    (∀ v, s.ev.a = t.key → t.status = .waiting v → t.parked = false → v.limit ≠ 0 → v.limit * 32 ≤ v.cycles →
      (v.instr = .msend w p q u →
        exec .messageTimeout s = .next (s.raiseHere t.key Cause.messageTimeout (t.getX p) t.pc none)) ∧
      (v.instr = .mrecv w p u → exec .messageTimeout s = .next (s.raiseHere t.key Cause.messageTimeout 0 t.pc none)))

/-- Lane rows (R124, R136 to R138, R141): `vclaim` raises the requests of the thread's core and returns its new grants,
`vrelease` lowers both, only in a head; a point's change takes effect once, by R137's formula over the cores of the partition on the
bench; a free row goes to a core with none. No grant exceeds its request. -/
def Obligations.RowResults : Prop :=
  ∀ (s : State) (t : Thread), Executing s t → ∀ (d p : XReg),
    (∃ s', YieldsIn s s' t (.vclaim d p) d (claimWord (s'.core t.core).grants) ∧
      (∀ q, (s'.core t.core).requests.get q = max ((s.core t.core).requests.get q) ((readClaim (t.getX p)).get q)) ∧
      (∀ q, (s'.core t.core).grants.get q ≤ (s'.core t.core).requests.get q) ∧
      (∀ n, n ≠ t.core → s'.core n = s.core n)) ∧
    (t.isHead = false → Raises s s t (.vrelease d p) Cause.privilege (instrTval (.vrelease d p))) ∧
    (t.isHead = true → ∃ s', YieldsIn s s' t (.vrelease d p) d (claimWord (s'.core t.core).grants) ∧
      (∀ q, (s'.core t.core).requests.get q = min ((s.core t.core).requests.get q) ((readClaim (t.getX p)).get q)) ∧
      (∀ q, (s'.core t.core).grants.get q ≤ (s'.core t.core).requests.get q) ∧
      (∀ n, n ≠ t.core → s'.core n = s.core n)) ∧
    (∀ c d, c ∈ s.rowCores d ↔ c / 8 = d / 8 ∧ ∃ p, s.quarterPart (coreQuarter d) = some p ∧ s.quarterPart (coreQuarter c) = some p) ∧
    ((s.core s.ev.a).point = true → ∃ s', exec .renegotiation s = .next s' ∧ (s'.core s.ev.a).point = false ∧
      (∀ q, let c := s.core s.ev.a
        let ds := (s.rowCores s.ev.a).filter fun d => decide (d ≠ s.ev.a)
        let others := (ds.map fun d => (s.core d).grants.get q).sum
        let owed := (ds.filter fun d => decide (0 < (s.core d).requests.get q ∧ (s.core d).grants.get q = 0)).length
        (s'.core s.ev.a).grants.get q =
          min (c.requests.get q) (max ((s.rowCores s.ev.a).length - others - owed) (min (c.grants.get q) 1)) ∧
        (s'.core s.ev.a).grants.get q ≤ (s'.core s.ev.a).requests.get q) ∧
      (s'.core s.ev.a).requests = (s.core s.ev.a).requests ∧ ∀ n, n ≠ s.ev.a → s'.core n = s.core n) ∧
    (∀ c, s.rowTaker s.ev.a (pipeOf s.ev.b) = some c → ∃ s', exec .freeRowGrant s = .next s' ∧
      (s'.core c).grants.get (pipeOf s.ev.b) = 1 ∧ 0 < (s.core c).requests.get (pipeOf s.ev.b) ∧
      (∀ q, q ≠ pipeOf s.ev.b → (s'.core c).grants.get q = (s.core c).grants.get q) ∧ ∀ n, n ≠ c → s'.core n = s.core n)

/-! ### Sprues, launches, phases, counters (R293 to R318) -/

/-- The sprue instructions (R301 to R303): a push behind the others with the next SEQ, a take of the eligible entry, its
release; the refusals and waits; Bad Handle for a number that names no sprue. What a take returns (R300): the first
entry of a fifo, the smallest key of the 256 oldest of a sorted sprue and the oldest of equals, the oldest of the
taker's die of a tile-affine one. -/
def Obligations.SprueResults : Prop :=
  (∀ (s : State) (t : Thread), Executing s t → ∀ (d w p q : XReg),
    ((64 ≤ (t.getX p).toNat ∨ s.sprue? t.ctx (t.getX p).toNat = none) →
      ∀ i, i = .qpush d p q ∨ i = .qpushTry d p q ∨ i = .qtake d w p ∨ i = .qtakeTry d w p ∨ i = .qdone d p q ∨
          i = .qstat d p → Raises s s t i Cause.badHandle (t.getX p)) ∧
    (∀ b, (t.getX p).toNat < 64 → s.sprue? t.ctx (t.getX p).toNat = some b →
      Yields s t (.qstat d p) d b.word ∧
      (t.memoryClear = true → s.owes t.key = false →
        (s.sprueSealed t.ctx b = true → Yields s t (.qpush d p q) d 2 ∧ Yields s t (.qpushTry d p q) d 2) ∧
        (s.sprueSealed t.ctx b = false → b.full = true →
          Waits s s t (.qpush d p q) .sprue 0 .none ∧ Yields s t (.qpushTry d p q) d 1) ∧
        (s.sprueSealed t.ctx b = false → b.full = false → ∀ i, i = .qpush d p q ∨ i = .qpushTry d p q →
          ∃ s' e, YieldsIn s s' t i d 0 ∧
            s'.sprue? t.ctx (t.getX p).toNat = some { b with entries := b.entries ++ [e], next := b.next + 1 } ∧
            e.seq = b.next ∧ e.holder = none ∧
            e.words = [t.getX q, t.getX (q + 1), t.getX (q + 2), t.getX (q + 3)] ∧
            (b.donec ≠ 0xFFF →
              (s'.counter t.ctx b.donec).pending = (s.counter t.ctx b.donec).pending + 1))) ∧
      (b.kind = .encoder → Yields s t (.qtake d w p) w 0x3000000000000000 ∧
        Yields s t (.qtakeTry d w p) w 0x3000000000000000) ∧
      (b.kind ≠ .encoder → b.eligible t.die = none →
        Waits s s t (.qtake d w p) .sprue 0 .none ∧ Yields s t (.qtakeTry d w p) w 0x1000000000000000) ∧
      (b.kind ≠ .encoder → ∀ e, b.eligible t.die = some e → ∀ i, i = .qtake d w p ∨ i = .qtakeTry d w p →
        ∃ s' z0 z1 z2 z3 z4, Writes t z0 d ((e.words[0]?).getD 0) ∧ Writes z0 z1 (d + 1) ((e.words[1]?).getD 0) ∧
          Writes z1 z2 (d + 2) ((e.words[2]?).getD 0) ∧ Writes z2 z3 (d + 3) ((e.words[3]?).getD 0) ∧
          Writes z3 z4 w (e.seq.setWidth 64) ∧ exec i s = .next (State.putThread s' z4.completed) ∧
          s'.sprue? t.ctx (t.getX p).toNat = some { b with
            entries := b.entries.filter (·.seq != e.seq), taken := b.taken ++ [{ e with holder := some t.gang }] }) ∧
      ((∀ e ∈ b.taken, ¬ (e.seq.setWidth 64 = t.getX q ∧ e.holder = some t.gang)) → Yields s t (.qdone d p q) d 1) ∧
      ((∃ e ∈ b.taken, e.seq.setWidth 64 = t.getX q ∧ e.holder = some t.gang) →
        ∃ s' b', YieldsIn s s' t (.qdone d p q) d 0 ∧ s'.sprue? t.ctx (t.getX p).toNat = some b' ∧
          (∀ e, e ∈ b'.taken ↔ e ∈ b.taken ∧ ¬ (e.seq.setWidth 64 = t.getX q ∧ e.holder = some t.gang)) ∧
          b'.entries = b.entries ∧ b'.next = b.next ∧
          (b.donec ≠ 0xFFF →
            (s'.counter t.ctx b.donec).pending = (s.counter t.ctx b.donec).pending - 1)))) ∧
  (∀ (b : Sprue) (die : Nat),
    (b.kind = .fifo → b.eligible die = b.entries.head?) ∧
    (b.kind = .sorted → (b.eligible die = none ↔ b.entries = []) ∧
      ∀ e, b.eligible die = some e → ∃ front back, b.entries.take 256 = front ++ e :: back ∧
        (∀ x ∈ front, entryKey e.words < entryKey x.words) ∧ ∀ x ∈ back, entryKey e.words ≤ entryKey x.words) ∧
    (b.kind = .tile → ∀ e, b.eligible die = some e → ∃ front back, b.entries = front ++ e :: back ∧ e.die = die ∧
      ∀ x ∈ front, x.die ≠ die))

/-- Phases, graphs and seals (R293, R295, R315, R392): the statuses of the rule, and the counter opened or sealed. Which status wins
where two apply is the model's choice (log entry 112), and so is that one opened under a cancel in progress is being cancelled too (log
entry 84). -/
def Obligations.PhaseResults : Prop :=
  ∀ (s : State) (t : Thread), Executing s t → ∀ (d p q u : XReg),
    ((t.getX p).toNat / 65536 ≠ 0 ∨ (t.getX p).toNat % 4096 = 0xFFF → Yields s t (.phaseOpen d p q u) d 2) ∧
    ((t.getX p).toNat < 65536 → (t.getX p).toNat % 4096 ≠ 0xFFF →
      ((t.getX p).toNat % 4096 = 0 ∨ (s.counter t.ctx ((t.getX p).toNat % 4096)).state = .opened →
        Yields s t (.phaseOpen d p q u) d 1) ∧
      ((t.getX p).toNat % 4096 ≠ 0 → (s.counter t.ctx ((t.getX p).toNat % 4096)).state ≠ .opened →
        ∀ c, s.ctx? t.ctx = some c → ∃ s' v ph, YieldsIn s s' t (.phaseOpen d p q u) d v ∧
          s'.counter t.ctx ((t.getX p).toNat % 4096) = ⟨.opened, false, false, false, 2, 0, 0xFFF, s.coveredBy t.ctx 0xFFF⟩ ∧
          (∃ c', s'.ctx? t.ctx = some c' ∧ Map.get? c'.phases ((t.getX p).toNat % 4096) = some ph) ∧
          ph.prio = (t.getX p).extractLsb' 12 3 ∧ ph.drop = (t.getX p).getLsbD 15 ∧ ph.deadline = t.getX q ∧
          ph.estimate = t.getX u ∧ v = (if ph.admitted then 0 else 5))) ∧
    (0xFFF ≤ (t.getX p).toNat → Yields s t (.phaseGraph d p q) d 2) ∧
    ((t.getX p).toNat < 0xFFF →
      ((t.getX p).toNat = 0 ∨ (s.counter t.ctx (t.getX p).toNat).state = .opened → Yields s t (.phaseGraph d p q) d 1) ∧
      ((t.getX p).toNat ≠ 0 → (s.counter t.ctx (t.getX p).toNat).state ≠ .opened →
        (0xFFF ≤ (t.getX q).toNat ∨ (s.counter t.ctx (t.getX q).toNat).state ≠ .opened ∨
            (s.counter t.ctx (t.getX q).toNat).level ≠ 2 ∨ (s.counter t.ctx (t.getX q).toNat).sealed = true →
          Yields s t (.phaseGraph d p q) d 2) ∧
        (∀ c, (t.getX q).toNat < 0xFFF → (s.counter t.ctx (t.getX q).toNat).state = .opened →
          (s.counter t.ctx (t.getX q).toNat).level = 2 → (s.counter t.ctx (t.getX q).toNat).sealed = false →
          s.ctx? t.ctx = some c →
          ∃ s', YieldsIn s s' t (.phaseGraph d p q) d 0 ∧
            s'.counter t.ctx (t.getX p).toNat = ⟨.opened, false, false, false, 1, 0, (t.getX q).toNat,
              s.coveredBy t.ctx (t.getX q).toNat⟩ ∧
            s'.counter t.ctx (t.getX q).toNat = { s.counter t.ctx (t.getX q).toNat with
              pending := (s.counter t.ctx (t.getX q).toNat).pending + 1 }))) ∧
    ((t.getX p).toNat = 0 ∨ 0xFFF ≤ (t.getX p).toNat ∨ (s.counter t.ctx (t.getX p).toNat).state ≠ .opened ∨
        (s.counter t.ctx (t.getX p).toNat).sealed = true ∨ (s.counter t.ctx (t.getX p).toNat).level = 0 →
      Yields s t (.phaseSeal d p) d 2) ∧
    (∀ c, 0 < (t.getX p).toNat → (t.getX p).toNat < 0xFFF → (s.counter t.ctx (t.getX p).toNat).state = .opened →
      (s.counter t.ctx (t.getX p).toNat).sealed = false → (s.counter t.ctx (t.getX p).toNat).level ≠ 0 →
      s.ctx? t.ctx = some c →
      ∃ s', YieldsIn s s' t (.phaseSeal d p) d 0 ∧
        s'.counter t.ctx (t.getX p).toNat = { s.counter t.ctx (t.getX p).toNat with sealed := true })

/-- `cwait` and `cancel` (R294, R317): the counter's layout once it is done or cancelled or at the limit, the wait before,
the refusals of a cancel, its wait, and its end. Steps of counters (R295, R316 to R318): a counter sealed with no
child left becomes done and counts for its parent; a phase past its deadline is LATE, and cancelled where it asks for
that; an ended cancel leaves its counter cancelled. That `cwait` of a free counter waits, and what counter 0xFFF answers, are the
model's choices (log entry 48). -/
def Obligations.CounterResults : Prop :=
  (∀ (s : State) (t : Thread), Executing s t → ∀ (d p u : XReg),
    let n := (t.getX p).toNat
    let k := s.counter t.ctx n
    let word : Word := BitVec.ofNat 64 ((match k.state with | .free => 0 | .opened => 1 | .done => 2 | .cancelled => 3) * 2 ^ 62
      + k.sealed.toNat * 2 ^ 61 + k.late.toNat * 2 ^ 60 + k.err.toNat * 2 ^ 59 + k.level.toNat * 2 ^ 56 + k.pending.toNat)
    (2 ^ 12 ≤ n → Yields s t (.cwait d p u) d 2 ∧ Yields s t (.cwaitTry d p) d 2 ∧
      ((∀ m, t.asked ≠ .phase m) → Yields s t (.cancel d p) d 2)) ∧
    (n = 0xFFF → Yields s t (.cwaitTry d p) d 0 ∧ (k.state = .free ∨ k.state = .opened →
      Waits s s t (.cwait d p u) .children (t.getX u).toNat .none)) ∧
    (n < 0xFFF →
      Yields s t (.cwaitTry d p) d word ∧
      (k.state = .done ∨ k.state = .cancelled → Yields s t (.cwait d p u) d word) ∧
      (k.state = .free ∨ k.state = .opened → Waits s s t (.cwait d p u) .children (t.getX u).toNat .none) ∧
      (∀ w, s.ev.a = t.key → t.status = .waiting w → t.parked = false → w.limit ≠ 0 → w.limit * 32 ≤ w.cycles →
        w.instr = .cwait d p u →
        ∃ z, Writes { t with readyAt := max (t.issuedAt + 4) (s.core t.core).cycle } z d word ∧
          exec .cwaitTimeout s = .next (s.putThread z.completed))) ∧
    (n < 2 ^ 12 → (∀ m, t.asked ≠ .phase m) → k.state ≠ .opened ∨ k.cancelling = true → Yields s t (.cancel d p) d 1) ∧
    (n < 2 ^ 12 → (∀ m, t.asked ≠ .phase m) → k.state = .opened → k.cancelling = false →
      ((s.beginCancel t.ctx n).thread? t.key = some t →
        Waits s (s.beginCancel t.ctx n) t (.cancel d p) .children 0 (.phase n)) ∧
      ((s.beginCancel t.ctx n).thread? t.key = none → exec (.cancel d p) s = .next (s.beginCancel t.ctx n)) ∧
      ((∀ l c, s.ctx? t.ctx = some c → l ∈ c.launches → s.launchUnder t.ctx n l.2 = false) → n ≠ 0xFFF →
        (s.beginCancel t.ctx n).counter t.ctx n = { k with cancelling := true })) ∧
    (∀ m, t.asked = .phase m → (s.counter t.ctx m).cancelling = false → Yields s t (.cancel d p) d 0) ∧
    (∀ m, t.asked = .phase m → (s.counter t.ctx m).cancelling = true → Waits s s t (.cancel d p) .children 0 (.phase m))) ∧
  (∀ (s : State) (c : Ctx), s.ctx? s.ev.a = some c →
    let k := s.counter s.ev.a s.ev.b
    (k.state = .opened → k.sealed = true → k.pending = 0 → k.cancelling = false → k.parent ≠ s.ev.b →
      ∃ s', exec .counterCompletion s = .next s' ∧ s'.counter s.ev.a s.ev.b = { k with state := .done } ∧
        (k.parent ≠ 0xFFF → (s'.counter s.ev.a k.parent).pending = (s.counter s.ev.a k.parent).pending - 1 ∧
          (s'.counter s.ev.a k.parent).err = ((s.counter s.ev.a k.parent).err || k.err)) ∧
        (∀ n, n ≠ s.ev.b → n ≠ k.parent → s'.counter s.ev.a n = s.counter s.ev.a n)) ∧
    (¬ (k.state = .opened ∧ k.sealed = true ∧ k.pending = 0 ∧ k.cancelling = false) →
      exec .counterCompletion s = .next s) ∧
    (∀ ph, Map.get? c.phases s.ev.b = some ph → k.state = .opened → k.late = false → ph.deadline ≠ 0 →
      ph.deadline.toNat ≤ s.gtsc.toNat →
      ∃ s', exec .phaseDeadline s = .next s' ∧ (s'.counter s.ev.a s.ev.b).late = true ∧
        (ph.drop = false → s'.counter s.ev.a s.ev.b = { k with late := true })) ∧
    (k.cancelling = true → s.ev.b ≠ 0xFFF → k.level = 0 → k.parent = 0xFFF → k.state = .opened → c.launches = [] →
      (∀ e ∈ c.counters, e.1 ≠ s.ev.b → e.2.cancelling = false) → Map.rising c.counters →
      ∃ s', exec .cancelComplete s = .next s' ∧
        s'.counter s.ev.a s.ev.b = { k with state := .cancelled, cancelling := false }))

/-- `launch` (R305, R306, R347): the refusals in their order, and an accepted record: queued behind the context's others
under the next LAUNCHID, its counter open with one child a gang, its parent with one child more, an Idle context
Ready. A launch record as R305 and R306 read it: the fields at their bits, whatever the descriptors, when it is
accepted. -/
def Obligations.LaunchResults : Prop :=
  ((∀ (s : State) (t : Thread), Executing s t → ∀ (d q : XReg) (gp : GReg) (off soff : Nat),
    let ws := doublesOf 8 (s.padBytes t.gang off 64)
    let r := readLaunch s.ownNumber ws (doublesOf 32 (s.padBytes t.gang soff 256))
    let st := s.launchStatus t.ctx t.part r
    (t.getG gp).type = .scratch → (t.getG gp).refuses (t.getX q) 64 64 .read = none →
    off = (t.getG gp).base.toNat + (t.getX q).toNat → s.padReadable t off 64 →
    (t.getG gp).refuses (BitVec.ofNat 64 (((ws[2]?).getD 0).toNat % 2 ^ 55)) 256 32 .read = none →
    soff = (t.getG gp).base.toNat + ((ws[2]?).getD 0).toNat % 2 ^ 55 → s.padReadable t soff 256 →
    t.memoryClear = true → s.owes t.key = false →
    (st ≠ 0 → Yields s t (.launch d gp q) d (BitVec.ofNat 64 (st * 2 ^ 60))) ∧
    (∀ r' c, st = 0 → r = some r' → s.ctx? t.ctx = some c → s.coveredBy t.ctx r'.parent = false → ∃ (s' : State) (c' : Ctx),
      YieldsIn s s' t (.launch d gp q) d ((c.launchId + 1).setWidth 64) ∧ s'.ctx? t.ctx = some c' ∧
      c'.launchId = c.launchId + 1 ∧ c'.nextLaunch = c.nextLaunch + 1 ∧
      Map.get? c'.launches c.nextLaunch = some ⟨c.launchId + 1, r', .queued, 0, 0, 0, false, false⟩ ∧
      (∀ n, n ≠ c.nextLaunch → Map.get? c'.launches n = Map.get? c.launches n) ∧
      c'.state = (if c.state = .idle then .ready else c.state) ∧
      (r'.own ≠ 0xFFF → r'.parent ≠ r'.own →
        s'.counter t.ctx r'.own = ⟨.opened, true, false, false, 0, BitVec.ofNat 32 r'.ngangs, r'.parent, false⟩) ∧
      (r'.parent ≠ 0xFFF → r'.parent ≠ r'.own →
        (s'.counter t.ctx r'.parent).pending = (s.counter t.ctx r'.parent).pending + 1))) ∧
  (∀ (s : State) (ctx part : Nat) (r : LaunchRec),
    s.launchStatus ctx part none = 2 ∧
    (r.own = 0 ∨ (r.own ≠ 0xFFF ∧ (s.counter ctx r.own).state = .opened) → s.launchStatus ctx part (some r) = 1) ∧
    (¬ (r.own = 0 ∨ (r.own ≠ 0xFFF ∧ (s.counter ctx r.own).state = .opened)) →
      (r.parent ≠ 0xFFF → ((s.counter ctx r.parent).state ≠ .opened ∨ (s.counter ctx r.parent).sealed = true ∨
        (s.counter ctx r.parent).level = 0) → s.launchStatus ctx part (some r) = 2) ∧
      ((r.parent = 0xFFF ∨ ((s.counter ctx r.parent).state = .opened ∧ (s.counter ctx r.parent).sealed = false ∧
        (s.counter ctx r.parent).level ≠ 0)) →
        (footOf (s.quartersOf part) (fun _ => false) [] (s.tileLaunch ctx r) r 0 = none →
          s.launchStatus ctx part (some r) = 3) ∧
        (footOf (s.quartersOf part) (fun _ => false) [] (s.tileLaunch ctx r) r 0 ≠ none →
          (r.coop = false → s.launchStatus ctx part (some r) = if 256 ≤ (s.liveLaunches ctx).length then 4 else 0) ∧
          (r.coop = true → s.launchStatus ctx part (some r) =
            if footsOf (s.quartersOf part) (fun _ => false) (s.tileLaunch ctx r) r (min r.ngangs gangBound) 0 [] = none then 3
            else if 256 ≤ (s.liveLaunches ctx).length then 4 else 0)))))) ∧
  (∀ (own : Nat) (d0 d1 d2 d3 d4 d5 d6 d7 : Word) (segs : List Word) (r : LaunchRec),
    readLaunch own [d0, d1, d2, d3, d4, d5, d6, d7] segs = some r →
    r.entry = d0 ∧ r.entry.toNat < 2 ^ 48 ∧ r.arg = d1 ∧
    r.ngangs = (d3.extractLsb' 0 32).toNat ∧ r.ngangs ≠ 0 ∧ r.threads = (d3.extractLsb' 32 7).toNat + 1 ∧
    r.cores = (d3.extractLsb' 40 3).toNat + 1 ∧ r.threads ≤ 16 * r.cores ∧ r.spad = (d3.extractLsb' 48 7).toNat ∧
    r.spad ≤ 64 ∧ r.claim = d4.setWidth 20 ∧ r.wrows = (d4.extractLsb' 20 11).toNat ∧ r.wrows ≤ 1024 ∧
    r.tvec = (d5.extractLsb' 0 48).setWidth 64 ∧ r.frm = d5.extractLsb' 48 4 ∧ r.felimit = d6.setWidth 32 ∧
    r.cblimit = d6.extractLsb' 32 32 ∧ r.own = (d7.extractLsb' 0 12).toNat ∧ r.waita = (d7.extractLsb' 12 12).toNat ∧
    r.waitb = (d7.extractLsb' 24 12).toNat ∧ r.parent = (d7.extractLsb' 36 12).toNat ∧
    r.sprue = (d7.extractLsb' 48 6).toNat ∧ r.coop = d7.getLsbD 55 ∧ r.quota = (d7.extractLsb' 56 8).toNat ∧
    (r.segs[0].base.toNat % 64 = 0) ∧
    (∀ k : Fin 8, readDescriptor own ((segs.drop (4 * k.val)).take 4) = some r.segs[k.val]))

/-- PLACEMENT_DECISION (R309 to R312): the first launch of the order that fits has a gang placed: every core of the
footprint holds a head at the entry with its argument, its place and its number of threads, and the launch has one gang
more placed; where no context runs on the partition nothing is placed. -/
def Obligations.CasterSteps : Prop :=
  (∀ s : State, s.sliceCtx s.ev.a = none → exec .placementDecision s = .next s) ∧
  (∀ (s : State) (ctx n : Nat) (f : Foot) (c : Ctx) (l : Launch),
    let s1 := (s.sweep ctx).classify ctx
    s.sliceCtx s.ev.a = some ctx → s1.firstPlacement ctx s.ev.a true (s1.casterOrder ctx s.ev.a) = some (n, [f]) →
    s1.ctx? ctx = some c → s1.launch? ctx n = some l → l.record.cores = f.cores.length → f.cores.Nodup →
    (∀ k ∈ f.cores, (f.bench * 8 + k) * 16 < 2 ^ 14) →
    ∃ s', exec .placementDecision s = .next s' ∧
      (∀ k, (h : k < f.cores.length) → ∃ u, s'.thread? (ctx * 16384 + (f.bench * 8 + f.cores[k]) * 16) = some u ∧
        u.pc = l.record.entry ∧ u.status = .runnable ∧ u.getX 1 = l.record.arg ∧ u.getX 2 = BitVec.ofNat 64 k ∧
        u.getX 3 = BitVec.ofNat 64 ((l.record.threads + f.cores.length - 1 - k) / f.cores.length) ∧
        (∀ r : XReg, 3 < r.toNat → u.getX r = 0) ∧ u.g = l.record.segs ∧ u.tvec = l.record.tvec ∧
        u.felimit = l.record.felimit ∧ u.cblimit = l.record.cblimit ∧ u.launch = l.id ∧
        u.gangIndex = BitVec.ofNat 32 l.placed ∧ u.gangSize = BitVec.ofNat 7 (l.record.threads - 1) ∧
        u.window = (if f.rows = 0 then none else some ⟨f.rows, f.row⟩) ∧
        (s'.core (f.bench * 8 + f.cores[k])).grants = .zero ∧ (s'.core (f.bench * 8 + f.cores[k])).last = 15 ∧
        (s'.core (f.bench * 8 + f.cores[k])).requests = readClaim (l.record.claim.setWidth 64)) ∧
      (∃ l', s'.launch? ctx n = some l' ∧ l'.placed = l.placed + 1 ∧
        l'.state = if l.record.ngangs ≤ l.placed + 1 then .placed else l.state))

/-! ### The vector sequencer (R132 to R173, R249 to R254) -/

/-- Acceptance (R143, R148, R171): an instruction of the sequencer takes an entry that captures its operands, and its
thread goes on, or waits for the entry when it answers in an x register; a full sequencer and an entry still there
make it wait; a member of a capturing `vloop` joins the body, and the last one starts the loop; `vloop` begins a capture. A
matrix or a texture descriptor is looked at only with an active element (R236). A `vloop` unrolled (R148):
when an iteration starts, its members stand after whatever is in the sequencer before the loop, at the place given, and
before what was accepted after it, each as captured and in the place its capture gave it in the order of acceptance (R145), the
offset of a load or store moved by the iteration times its stride; after the last, the loop is gone. A count of 0 leaves
nothing. That a second `vloop` waits for the first is log entry 94 and that a descriptor nobody uses is not looked at log entry 89: both
the model's choices. -/
def Obligations.VectorAcceptance : Prop :=
  (∀ (s : State) (t : Thread), Executing s t →
    (∀ i, entersSequencer i = true →
      (∀ n, t.asked = .vector n →
        (t.entryGone n = true → Leaves s i t) ∧ (t.entryGone n = false → Waits s s t i .sequencer 0 (.vector n))) ∧
      ((∀ n, t.asked ≠ .vector n) → 16 ≤ t.entriesTaken → Waits s s t i .sequencer 0 .none) ∧
      (t.accepts →
        let u := t.withEntry i (acceptedEntry s t i [])
        (answersScalar i = false → exec i s = .next (s.stamped.putThread u.completed)) ∧
        (answersScalar i = true → Waits s (s.stamped.putThread u) t i .sequencer 0 (.vector s.stamps))) ∧
      (∀ l, (∀ n, t.asked ≠ .vector n) → t.entriesTaken < 16 → t.vloop = some l → 1 < l.left → mayMember i = true →
        exec i s = .next (s.stamped.putThread { t with vloop := some { l with
          members := l.members ++ [{ newEntry t s.stamps i [] with member := true }], left := l.left - 1
          mark := s.stamps } }.completed)) ∧
      (∀ l l', (∀ n, t.asked ≠ .vector n) → t.entriesTaken < 16 → t.vloop = some l → l.left = 1 → mayMember i = true →
        t.replay = none → l' = { l with members := l.members ++ [{ newEntry t s.stamps i [] with member := true }], left := 0
                                        mark := s.stamps } →
        (l'.trims = false ∨ l.count ≤ l.iter) →
        exec i s = .next (((s.stamped.putThread { t with vloop := some l' }).startIteration t.key t.seq.length).onThread t.key
          Thread.completed))) ∧
    (∀ (p q u : XReg) (n : BitVec 6),
      (t.vloop ≠ none → Waits s s t (.vloop p q u n) .sequencer 0 .none) ∧
      (t.vloop = none → t.loopRec = none → Leaves s (.vloop p q u n)
        { t with vloop := some ⟨t.pc, (t.getX p).toNat, t.getX q, t.getX u, n.toNat, [], 0, 0, 0⟩ })) ∧
    (∀ (o : VBin) (n : Nat), o.t.bits ∈ [8, 16, 32] →
      (newEntry t n (.vadd o) []).vl = min (t.getX o.l.xl).toNat (4096 / o.t.bits) ∧
      (t.getX o.l.xl ≠ 0 → (newEntry t n (.vadd o) []).total =
        (min (t.getX o.l.xl).toNat (4096 / o.t.bits) + 1024 / o.t.bits - 1) / (1024 / o.t.bits))) ∧
    (∀ e5 vd a c xr l, t.accepts → (l.kg = 0 ∨ ∀ f ∈ t.held, ∀ w ∈ f.shape.kwrites, w.1 ≠ l.kg) →
      ((∀ el < (newEntry t 0 (.vmm8 e5 vd a c xr l) []).vl, t.active l.kg el = false) ∨
        ((t.getX xr).toNat % 64 = 0 ∧ s.padReadable t (t.getX xr).toNat 1056)) →
      exec (.vmm8 e5 vd a c xr l) s = .next (s.stamped.putThread
        (t.withEntry (.vmm8 e5 vd a c xr l) (acceptedEntry s t (.vmm8 e5 vd a c xr l) [])).completed)) ∧
    (∀ i g xr vd va vb l off d, t.accepts → (l.kg = 0 ∨ ∀ f ∈ t.held, ∀ w ∈ f.shape.kwrites, w.1 ≠ l.kg) →
      i = .tsampGrad vd va vb g xr l ∨ i = .tsampLod vd va g xr l ∨ i = .tsampBase vd va g xr l ∨ i = .tfetch vd va g xr l →
      ((∀ el < (newEntry t 0 i []).vl, t.active l.kg el = false) →
        exec i s = .next (s.stamped.putThread (t.withEntry i (acceptedEntry s t i (List.replicate 8 0))).completed)) ∧
      ((∃ el < (newEntry t 0 i []).vl, t.active l.kg el = true) → t.memoryClear = true →
      (t.getX xr).toNat % 64 = 0 →
      (t.getG g).type = .scratch → (t.getG g).refuses (t.getX xr) 64 64 .read = none →
      off = (t.getG g).base.toNat + (t.getX xr).toNat → s.padReadable t off 64 →
      d = doublesOf 8 (s.padBytes t.gang off 64) →
      ((readTex d).isNone = true → Raises s s t i Cause.badHandle (t.getX xr)) ∧
      ((readTex d).isSome = true →
        exec i s = .next (s.stamped.putThread (t.withEntry i (acceptedEntry s t i d)).completed))))) ∧
  (∀ (s : State) (t : Thread) (l : VLoop), s.thread? t.key = some t → t.vloop = some l → l.first = 0 →
    ∀ n, n ≤ t.seq.length →
    (l.count ≤ l.iter → s.startIteration t.key n = s.putThread { t with vloop := none }) ∧
    (l.iter < l.count → ∃ es : List SeqEntry,
      (s.startIteration t.key n).thread? t.key = some { t with seq := t.seq.take n ++ es ++ t.seq.drop n } ∧
      es.length = l.members.length ∧
      (s.startIteration t.key n).stamps = s.stamps + l.members.length ∧
      ∀ k, (h : k < l.members.length) → ∃ e, es[k]? = some e ∧ e.member = true ∧ e.num = s.stamps + k ∧
        e.order = l.members[k].order ∧ e.instr = l.members[k].instr ∧ e.vl = l.members[k].vl ∧
        e.total = l.members[k].total ∧ e.seg = l.members[k].seg ∧
        (memShape e.instr = none → e.xs = l.members[k].xs) ∧
        (∀ m, memShape e.instr = some m → 1 < l.members[k].xs.length →
          (∀ n, n ≠ 1 → e.xs[n]? = l.members[k].xs[n]?) ∧
          (m.kind = .load → e.xs[1]? = some (((l.members[k].xs[1]?).getD 0) + BitVec.ofNat 64 l.iter * l.loadStride)) ∧
          (m.kind = .store → e.xs[1]? = some (((l.members[k].xs[1]?).getD 0) + BitVec.ofNat 64 l.iter * l.storeStride)))))

/-- Element groups (R133, R138, R143, R145): a core with a ready group and no row makes an implicit request; with its rows
the group of the instruction accepted earliest enters, in order, and changes no register; a delivery writes the oldest
group's results, hands those of a pass form to the instruction behind it, and the last one frees the entry; whatever it overwrites, the
groups of its own instruction that have yet to enter read their sources as they were (R143). What a delivery
writes (R54, R72, R75, R145): each element or predicate bit in its place and no other bit; registers that no write names keep
their value; flags are ORed. -/
def Obligations.GroupSteps : Prop :=
  (∀ s : State,
    (∀ p, s.implicitPipe s.ev.a = some p →
      (s.core s.ev.a).grants.get p = 0 ∧ (s.core s.ev.a).requests.get p = 0 ∧
      ∃ s', exec .vectorGroupEntry s = .next s' ∧ (s'.core s.ev.a).requests.get p = 1 ∧ (s'.core s.ev.a).point = true ∧
        (∀ q, q ≠ p → (s'.core s.ev.a).requests.get q = (s.core s.ev.a).requests.get q) ∧
        (s'.core s.ev.a).grants = (s.core s.ev.a).grants ∧ s'.threads = s.threads) ∧
    (∀ key n i t e, s.implicitPipe s.ev.a = none → s.nextGroup s.ev.a = some (key, n, i) → s.thread? key = some t →
      t.key = key → t.seq[i]? = some e →
      (∀ c ∈ s.readyGroups s.ev.a, (∀ q ∈ s.groupPipes c, 0 < (s.core s.ev.a).grants.get q) → n ≤ c.2.1) ∧
      ∃ s' t', exec .vectorGroupEntry s = .next s' ∧ s'.thread? key = some t' ∧
        t' = { t with seq := t'.seq, srseed := t'.srseed, deferred := t'.deferred } ∧
        (∀ k, k ≠ i → t'.seq[k]? = t.seq[k]?) ∧
        (∃ e' o, t'.seq[i]? = some e' ∧ e'.entered = e.entered + 1 ∧ e'.delivered = e.delivered ∧
          e'.rows = e.rows ++ [o]) ∧
        (checksElements e.instr = false → SameElsewhere s s' key ∧ t'.deferred = t.deferred)) ∧
    (∀ t i e o rest, s.thread? s.ev.a = some t → t.key = s.ev.a → (t.seq.findIdx? fun e => e.num == s.ev.b) = some i →
      t.seq[i]? = some e → e.rows = o :: rest →
      let e' := { e.keep t o with rows := rest, delivered := e.delivered + 1, passOut := e.passOut ++ o.pass }
      let u := { t.applyOut o with seq := t.seq.set i e' }
      let z := { t.applyOut o with seq := t.seq.eraseIdx i, vstart := if checksElements e.instr then 0 else t.vstart }
      (e.delivered + 1 ≠ e.total ∨ e.stop = true →
        ((∀ vd a ty sg rc l, e.instr ≠ .vhadPass vd a ty sg rc l) → exec .vectorGroupDelivery s = .next (s.putThread u)) ∧
        (∀ vd a ty sg rc l, e.instr = .vhadPass vd a ty sg rc l →
          exec .vectorGroupDelivery s = .next (s.putThread (u.handPass (i + 1) (e.passOut ++ o.pass) false)))) ∧
      (e.delivered + 1 = e.total → e.stop = false →
        (e.member = false ∨ ∃ k f, k ≠ i ∧ t.seq[k]? = some f ∧ f.member = true) →
        (∀ vd a ty sg rc l, e.instr ≠ .vhadPass vd a ty sg rc l) →
        exec .vectorGroupDelivery s = .next ((s.putThread z).traceCommit z e')) ∧
      (∀ r g, r ∈ e.shape.reads → g ∈ e.toRead → ∀ n, r.2.2.base + g * r.2.2.step ≤ n →
        n < r.2.2.base + g * r.2.2.step + r.2.2.size → n < 4096 →
        ((u.asRead e').getV r.1).getLsbD n = ((t.asRead e).getV r.1).getLsbD n))) ∧
  ((∀ (d : VData) (off w v n : Nat), n < 4096 →
    (vput d off w v).getLsbD n = if off ≤ n ∧ n < off + w then v.testBit (n - off) else d.getLsbD n) ∧
  (∀ (d : KData) (off w v n : Nat), n < 512 →
    (kput d off w v).getLsbD n = if off ≤ n ∧ n < off + w then v.testBit (n - off) else d.getLsbD n) ∧
  (∀ (d : VData) (ty : Ty) (el el' v : Nat), (el + 1) * ty.bits ≤ 4096 → (el' + 1) * ty.bits ≤ 4096 →
    velem (setElem d ty el v) ty el' = if el' = el then v % 2 ^ ty.bits else velem d ty el') ∧
  (∀ (t : Thread) (o : GroupOut), let u := t.applyOut o
    u = { t with v := u.v, k := u.k, x := u.x, fflags := t.fflags ||| o.flags, mxstat := t.mxstat ||| o.mx } ∧
    (∀ r, (∀ w ∈ o.v, w.reg ≠ r) → u.getV r = t.getV r) ∧ (∀ r, (∀ w ∈ o.k, w.reg ≠ r) → u.getK r = t.getK r) ∧
    (∀ r, (∀ w ∈ o.x, w.1 ≠ r) → u.getX r = t.getX r) ∧
    (∀ r n, n < 4096 → (∀ w ∈ o.v, w.reg = r → ¬ (w.off ≤ n ∧ n < w.off + w.width)) →
      (u.getV r).getLsbD n = (t.getV r).getLsbD n) ∧
    (∀ r ws w, o.v = ws ++ [w] → w.reg = r → ∀ n, w.off ≤ n → n < w.off + w.width → n < 4096 →
      (u.getV r).getLsbD n = w.val.testBit (n - w.off))))

/-- Integer elements (R152, R154 to R156): exact results of the operands' numbers, wrapped or saturated; shifts as products
and quotients by a power of two whatever the amount; byte dot products; comparisons by the type's signedness. -/
def Obligations.VectorIntegerResults : Prop :=
  ∀ (t : Thread) (e : SeqEntry) (j : Nat) (els : List Nat),
    (∀ o : VBin, o.t.isInt = true →
      let x := fun el => readInt o.t (t.elem o.a.reg o.t el)
      let y := fun el => readInt o.t (argElem t e o.b o.t el)
      (e.instr = .vadd o → Silent t e j els ∧ Produces t e j els o.vd o.t fun el v => IntElem o.t o.sat (x el + y el) v) ∧
      (e.instr = .vsub o → Silent t e j els ∧ Produces t e j els o.vd o.t fun el v => IntElem o.t o.sat (x el - y el) v) ∧
      (e.instr = .vmul o → Silent t e j els ∧ Produces t e j els o.vd o.t fun el v => IntElem o.t o.sat (x el * y el) v)) ∧
    (∀ o : VPair, o.t.isInt = true →
      let a := fun el => t.elem o.a.reg o.t el
      let b := fun el => argElem t e o.b o.t el
      (e.instr = .vmin o → Silent t e j els ∧ Produces t e j els o.vd o.t fun el v =>
        IntElem o.t false (min (readInt o.t (a el)) (readInt o.t (b el))) v) ∧
      (e.instr = .vmax o → Silent t e j els ∧ Produces t e j els o.vd o.t fun el v =>
        IntElem o.t false (max (readInt o.t (a el)) (readInt o.t (b el))) v) ∧
      (e.instr = .vshl o → Silent t e j els ∧ Produces t e j els o.vd o.t fun el v =>
        v = a el * 2 ^ b el % 2 ^ o.t.bits) ∧
      (e.instr = .vshr o → Silent t e j els ∧ Produces t e j els o.vd o.t fun el v => v = a el / 2 ^ b el) ∧
      (e.instr = .vsra o → Silent t e j els ∧ Produces t e j els o.vd o.t fun el v =>
        IntElem o.t false ((BitVec.ofNat o.t.bits (a el)).toInt / 2 ^ b el) v)) ∧
    (∀ o : VPair,
      let a := fun el => t.elem o.a.reg o.t el
      let b := fun el => argElem t e o.b o.t el
      (e.instr = .vand o → Silent t e j els ∧ Produces t e j els o.vd o.t fun el v =>
        ∀ n, v.testBit n = ((a el).testBit n && (b el).testBit n)) ∧
      (e.instr = .vor o → Silent t e j els ∧ Produces t e j els o.vd o.t fun el v =>
        ∀ n, v.testBit n = ((a el).testBit n || (b el).testBit n)) ∧
      (e.instr = .vxor o → Silent t e j els ∧ Produces t e j els o.vd o.t fun el v =>
        ∀ n, v.testBit n = ((a el).testBit n != (b el).testBit n))) ∧
    (∀ o : VUn, o.t.isInt = true →
      let x := fun el => readInt o.t (t.elem o.a.reg o.t el)
      (e.instr = .vabs o → Silent t e j els ∧ Produces t e j els o.vd o.t fun el v => IntElem o.t o.sat (x el).natAbs v) ∧
      (e.instr = .vneg o → Silent t e j els ∧ Produces t e j els o.vd o.t fun el v => IntElem o.t o.sat (-(x el)) v)) ∧
    (∀ o : VTer, o.t.isInt = true →
      let x := fun el => readInt o.t (t.elem o.a.reg o.t el)
      let y := fun el => readInt o.t (argElem t e o.b o.t el)
      let z := fun el => readInt o.t (t.elem o.c.reg o.t el)
      (e.instr = .vmad o → Silent t e j els ∧
        Produces t e j els o.vd o.t fun el v => IntElem o.t o.sat (x el * y el + z el) v) ∧
      (e.instr = .vmsb o → Silent t e j els ∧
        Produces t e j els o.vd o.t fun el v => IntElem o.t o.sat (x el * y el - z el) v)) ∧
    (∀ vd a b c signed ua ub sat l, e.instr = .vdot4 vd a b c signed ua ub sat l →
      let ty : Ty := if signed then .i32 else .n32
      let p := fun el k => readInt (if ua then .n8 else .i8) (t.elem a.reg .n8 (4 * el + k))
      let q := fun el k => readInt (if ub then .n8 else .i8) (t.elem b.reg .n8 (4 * el + k))
      Silent t e j els ∧ Produces t e j els vd ty fun el v =>
        IntElem ty sat (readInt ty (t.elem c.reg ty el) + p el 0 * q el 0 + p el 1 * q el 1 + p el 2 * q el 2
          + p el 3 * q el 3) v) ∧
    (∀ kd c a b ty l, e.instr = .vcmp kd c a b ty l → ty.isInt = true →
      let x := fun el => readInt ty (t.elem a.reg ty el)
      let y := fun el => readInt ty (argElem t e b ty el)
      (computeGroup t e j els).out.v = [] ∧ (computeGroup t e j els).out.flags = 0 ∧
      (computeGroup t e j els).out.k = els.map fun el => ⟨kd, el, 1,
        if (c = .eq ∧ x el = y el) ∨ (c = .ne ∧ x el ≠ y el) ∨ (c = .lt ∧ x el < y el) ∨ (c = .le ∧ x el ≤ y el)
          ∨ (c = .gt ∧ y el < x el) ∨ (c = .ge ∧ y el ≤ x el) then 1 else 0⟩)

/-- Moves, rearrangement and predicates (R157, R158, R160 to R162): which element goes where, bit for bit; what `vext`,
`kpop` and `kfirst` answer; the bits of k registers. That `vext` writes 0 with vl = 0 too, where R145 lets an instruction change nothing,
is the model's reading of R158 (log entry 35). -/
def Obligations.VectorMoveResults : Prop :=
  ∀ (t : Thread) (e : SeqEntry) (j : Nat) (els : List Nat),
    let out := (computeGroup t e j els).out
    let x := fun n : Nat => ((e.xs[n]?).getD 0).toNat
    (∀ vd a b ks ty l, e.instr = .vsel vd a b ks ty l → Silent t e j els ∧ Produces t e j els vd ty fun el v =>
      v = if (t.getK ks).getLsbD el then t.elem a.reg ty el else t.elem b.reg ty el) ∧
    (∀ vd a ty l, e.instr = .vmov vd a ty l → Silent t e j els ∧ Produces t e j els vd ty fun el v => v = t.elem a.reg ty el) ∧
    (∀ vd r ty l, e.instr = .vbcast vd r ty l → Silent t e j els ∧ Produces t e j els vd ty fun _ v => v = x 1 % 2 ^ ty.bits) ∧
    (∀ vd ty l, e.instr = .viota vd ty l → Silent t e j els ∧ Produces t e j els vd ty fun el v => v = el % 2 ^ ty.bits) ∧
    (∀ xd a xi ty l, e.instr = .vext xd a xi ty l → out.v = [] ∧ out.k = [] ∧
      out.x = if (if x 1 < e.vl then x 1 / groupElems ty = j else j + 1 = e.total) then
        [(xd, if x 1 < e.vl ∧ (l.kg = 0 ∨ (t.getK l.kg).getLsbD (x 1)) ∧ x 1 < 512 then extendBy ty (t.elem a.reg ty (x 1)) else 0)] else []) ∧
    (∀ vd xs xi ty l, e.instr = .vins vd xs xi ty l → Silent t e j els ∧
      out.v = if x 2 ∈ els
        then [⟨vd, x 2 * ty.bits, ty.bits, x 1 % 2 ^ ty.bits⟩] else []) ∧
    (∀ vd va vb ty l, e.instr = .vperm vd va vb ty l → Silent t e j els ∧ Produces t e j els vd ty fun el v =>
      v = if t.elem vb ty el < e.vl then t.elem va ty (t.elem vb ty el) else 0) ∧
    (∀ vd va xs ty l, e.instr = .vslideDown vd va xs ty l → Silent t e j els ∧ Produces t e j els vd ty fun el v =>
      v = if el + x 1 < e.vl then t.elem va ty (el + x 1) else 0) ∧
    (∀ vd va xs ty l, e.instr = .vslideUp vd va xs ty l → Silent t e j els ∧ Produces t e j els vd ty fun el v =>
      v = if x 1 ≤ el then t.elem va ty (el - x 1) else 0) ∧
    (∀ vd va ty l, e.instr = .vcompress vd va ty l → Silent t e j els ∧ out.v.length = els.length ∧
      ∀ k, (h : k < els.length) → out.v[k]? = some ⟨vd, k * ty.bits, ty.bits, t.elem va ty els[k]⟩) ∧
    (∀ vd va ty l, e.instr = .vexpand vd va ty l → Silent t e j els ∧ out.v.length = els.length ∧
      ∀ k, (h : k < els.length) → out.v[k]? = some ⟨vd, els[k] * ty.bits, ty.bits, t.elem va ty k⟩) ∧
    (∀ hi vd va vb ty l, e.instr = .vzip hi vd va vb ty l → Silent t e j els ∧ Produces t e j els vd ty fun el v =>
      v = t.elem (if el % 2 = 0 then va else vb) ty (el / 2 + if hi then ty.vlmax / 2 else 0)) ∧
    (∀ odd vd va vb ty l, e.instr = .vunzip odd vd va vb ty l → Silent t e j els ∧ Produces t e j els vd ty fun el v =>
      v = if 2 * el + odd.toNat < ty.vlmax then t.elem va ty (2 * el + odd.toNat)
        else t.elem vb ty (2 * el + odd.toNat - ty.vlmax)) ∧
    (∀ (i : Instr) (d p q : KReg) (u : XReg) (f : Nat → Bool), e.instr = i →
      ((i = .kand d p q ∧ ∀ n, f n = ((t.getK p).getLsbD n && (t.getK q).getLsbD n)) ∨
        (i = .kor d p q ∧ ∀ n, f n = ((t.getK p).getLsbD n || (t.getK q).getLsbD n)) ∨
        (i = .kxor d p q ∧ ∀ n, f n = ((t.getK p).getLsbD n != (t.getK q).getLsbD n)) ∨
        (i = .knot d p ∧ ∀ n, f n = !(t.getK p).getLsbD n) ∨ (i = .kmov d p ∧ ∀ n, f n = (t.getK p).getLsbD n) ∨
        (i = .kset d u ∧ ∀ n, f n = decide (n < x 0))) →
      out.v = [] ∧ out.x = [] ∧ out.flags = 0 ∧
      ∃ w, out.k = [⟨d, 0, 512, w⟩] ∧ ∀ n < 512, w.testBit n = f n) ∧
    (∀ d p u, e.instr = .kpop d p u → out.v = [] ∧ out.k = [] ∧
      out.x = [(d, BitVec.ofNat 64 ((List.range 512).countP fun n => decide (n < x 0) && (t.getK p).getLsbD n))]) ∧
    (∀ d p u, e.instr = .kfirst d p u → out.v = [] ∧ out.k = [] ∧
      ((∀ n < 512, n < x 0 → (t.getK p).getLsbD n = false) → out.x = [(d, BitVec.allOnes 64)]) ∧
      (∀ n < 512, n < x 0 → (t.getK p).getLsbD n = true → (∀ m < n, (t.getK p).getLsbD m = false) →
        out.x = [(d, BitVec.ofNat 64 n)]))

/-- Floating-point elements (R65 to R73, R153, R156, R163 to R173): sums, products, fused forms, minima, comparisons,
Hadamard stages, special functions and conversions of the operands under FZ; one draw for an element that is rounded
stochastically, in order, and none for a ds8, which the model rounds in R63's one way whatever the mode (log entry 82); block amplitudes, block scales and
dequantisation by exact values; the table of R173. -/
def Obligations.VectorFloatResults : Prop :=
  (∀ (t : Thread) (e : SeqEntry) (j : Nat) (els : List Nat),
    let out := (computeGroup t e j els).out
    let flags := fun f : Nat → Rounded => els.foldl (fun a el => a ||| (f el).flags) (0 : Flags)
    (∀ (o : VBin) (f : Nat → Rounded), o.t.isInt = false →
      let x := fun el => readFz e.fz o.t (t.elem o.a.reg o.t el)
      let y := fun el => readFz e.fz o.t (argElem t e o.b o.t el)
      ((e.instr = .vadd o ∧ ∀ el, f el = addFp o.t (e.mode o.rc) e.fz (x el) (y el)) ∨
        (e.instr = .vsub o ∧ ∀ el, f el = addFp o.t (e.mode o.rc) e.fz (x el) (y el).flip) ∨
        (e.instr = .vmul o ∧ ∀ el, f el = mulFp o.t (e.mode o.rc) e.fz (x el) (y el))) →
      Produces t e j els o.vd o.t (fun el v => v = (f el).bits) ∧ out.flags = flags f) ∧
    (∀ (o : VPair) (f : Nat → Rounded), o.t.isInt = false →
      let a := fun el => t.elem o.a.reg o.t el
      let b := fun el => argElem t e o.b o.t el
      ((e.instr = .vmin o ∧ ∀ el, f el = minmaxBits o.t e.fz false (a el) (b el)) ∨
        (e.instr = .vmax o ∧ ∀ el, f el = minmaxBits o.t e.fz true (a el) (b el))) →
      Produces t e j els o.vd o.t (fun el v => v = (f el).bits) ∧ out.flags = flags f) ∧
    (∀ o : VUn, o.t.isInt = false →
      (e.instr = .vabs o → Silent t e j els ∧ Produces t e j els o.vd o.t fun el v =>
        ∀ n, v.testBit n = (decide (n < o.t.bits - 1) && (t.elem o.a.reg o.t el).testBit n)) ∧
      (e.instr = .vneg o → Silent t e j els ∧ Produces t e j els o.vd o.t fun el v =>
        ∀ n, v.testBit n = ((t.elem o.a.reg o.t el).testBit n != decide (n = o.t.bits - 1)))) ∧
    (∀ (o : VTer) (f : Nat → Rounded), o.t.isInt = false →
      let x := fun el => readFz e.fz o.t (t.elem o.a.reg o.t el)
      let y := fun el => readFz e.fz o.t (argElem t e o.b o.t el)
      let z := fun el => readFz e.fz o.t (t.elem o.c.reg o.t el)
      ((e.instr = .vmad o ∧ ∀ el, f el = fmaFp o.t (e.mode o.rc) e.fz (x el) (y el) (z el)) ∨
        (e.instr = .vmsb o ∧ ∀ el, f el = fmaFp o.t (e.mode o.rc) e.fz (x el) (y el) (z el).flip)) →
      Produces t e j els o.vd o.t (fun el v => v = (f el).bits) ∧ out.flags = flags f) ∧
    (∀ kd c a b ty l, e.instr = .vcmp kd c a b ty l → ty.isInt = false →
      let x := fun el => readFz e.fz ty (t.elem a.reg ty el)
      let y := fun el => readFz e.fz ty (argElem t e b ty el)
      out.v = [] ∧ out.k.length = els.length ∧
      ∀ k, (h : k < els.length) → ∃ r : Bool, out.k[k]? = some ⟨kd, els[k], 1, r.toNat⟩ ∧
        ((x els[k]).isNaN ∨ (y els[k]).isNaN → r = decide (c = .ne ∨ c = .un)) ∧
        ((x els[k]).isNaN = false → (y els[k]).isNaN = false →
          (c = .un → r = false) ∧ (c = .eq → r = fpEq (x els[k]) (y els[k])) ∧
          (c = .ne → r = !fpEq (x els[k]) (y els[k])) ∧ (c = .lt → r = fpLt (x els[k]) (y els[k])) ∧
          (c = .gt → r = fpLt (y els[k]) (x els[k])) ∧
          (c = .le → r = (fpLt (x els[k]) (y els[k]) || fpEq (x els[k]) (y els[k]))) ∧
          (c = .ge → r = (fpLt (y els[k]) (x els[k]) || fpEq (y els[k]) (x els[k]))))) ∧
    (∀ vd a ty stage rc l, e.instr = .vhad vd a ty stage rc l → e.passIn = [] →
      let x := fun el => readFz e.fz ty (t.elem a.reg ty el)
      Produces t e j els vd ty fun el v =>
        let p := el ^^^ 2 ^ stage.toNat
        let b := if p < e.vl then x p else .fin false 0
        v = (if el.testBit stage.toNat then addFp ty (e.mode rc) e.fz b (x el).flip
          else addFp ty (e.mode rc) e.fz (x el) b).bits) ∧
    (∀ vd a ty stage rc l, e.instr = .vhadPass vd a ty stage rc l → out.v = [] ∧ out.k = [] ∧ out.x = [] ∧
      out.pass = els.map fun el => (el, (hadElem t e a.reg ty stage.toNat rc el).bits)) ∧
    (∀ (o : VMono) (fn : Sfu),
      ((fn = .rcp ∧ e.instr = .vsfuRcp o) ∨ (fn = .rsq ∧ e.instr = .vsfuRsq o) ∨ (fn = .sqrt ∧ e.instr = .vsfuSqrt o) ∨
        (fn = .exp2 ∧ e.instr = .vsfuExp2 o) ∨ (fn = .log2 ∧ e.instr = .vsfuLog2 o) ∨ (fn = .sin ∧ e.instr = .vsfuSin o) ∨
        (fn = .cos ∧ e.instr = .vsfuCos o) ∨ (fn = .tanh ∧ e.instr = .vsfuTanh o) ∨
        (fn = .sigmoid ∧ e.instr = .vsfuSigmoid o) ∨ (fn = .gelu ∧ e.instr = .vsfuGelu o) ∨
        (fn = .silu ∧ e.instr = .vsfuSilu o)) →
      Produces t e j els o.vd o.t (fun el v => v = (sfuBits fn o.t e.fz (t.elem o.a.reg o.t el)).bits) ∧
      out.flags = flags fun el => sfuBits fn o.t e.fz (t.elem o.a.reg o.t el)) ∧
    (∀ (o : VCv) (src dst : Nat → Nat), e.passIn = [] →
      ((e.instr = .vcvt o ∧ ∀ el, src el = t.elem o.a.reg o.s el ∧ dst el = el) ∨
        (e.instr = .vpack o ∧ ∀ el, src el = t.elem o.a.reg o.s el ∧ dst el = o.part.toNat * o.s.vlmax + el) ∨
        (e.instr = .vunpack o ∧ ∀ el, src el = t.elem o.a.reg o.s (o.part.toNat * o.t.vlmax + el) ∧ dst el = el)) →
      out.v.length = els.length ∧
      let mode := if o.t = .ds8 then some .rne else staticMode o.rc e.rm (o.t.narrowing o.s)
      (∀ m, mode = some m → (computeGroup t e j els).seed = t.srseed ∧
        ∀ k, (h : k < els.length) → out.v[k]? =
          some ⟨o.vd, dst els[k] * o.t.bits, o.t.bits, (convert o.t o.s m o.sat e.fz (src els[k])).bits⟩) ∧
      (mode = none →
        (computeGroup t e j els).seed = (List.range els.length).foldl (fun r _ => (draw r).1) t.srseed ∧
        ∀ k, (h : k < els.length) → out.v[k]? = some ⟨o.vd, dst els[k] * o.t.bits, o.t.bits,
          (convert o.t o.s (.sr (draw ((List.range k).foldl (fun r _ => (draw r).1) t.srseed)).2) o.sat e.fz
            (src els[k])).bits⟩)) ∧
    (∀ (o : VMono) (b : Nat), e.instr = .vamax o → e.passIn = [] → o.t ∈ [Ty.f32, .f16, .bf16] →
      (∃ el ∈ els, el / 32 = b) →
      let mag := fun el => t.elem o.a.reg o.t el % 2 ^ (o.t.bits - 1)
      Silent t e j els ∧ ∃ m, ⟨o.vd, b * o.t.bits, o.t.bits, m⟩ ∈ out.v ∧
        ((∃ el ∈ els, el / 32 = b ∧ (readFp o.t (t.elem o.a.reg o.t el)).isNaN) → m = canonNaN o.t) ∧
        ((∀ el ∈ els, el / 32 = b → (readFp o.t (t.elem o.a.reg o.t el)).isNaN = false) →
          (∃ el ∈ els, el / 32 = b ∧ m = mag el) ∧ ∀ el ∈ els, el / 32 = b → mag el ≤ m)) ∧
    (∀ vd vs a ty src part rc l b, e.instr = .vquant vd vs a ty src part rc l → e.passIn = [] →
      src ∈ [Ty.f32, .f16, .bf16] → ty ∈ [Ty.fp8e4, .fp8e5, .fp4, .ds8, .i8] → (∃ el ∈ els, el / 32 = b) →
      let off := part.toNat * src.vlmax
      let val := fun el => readFp src (t.elem a.reg src el)
      ∃ code : Nat, ⟨vs, (off + 32 * b) / 32 * 8, 8, code⟩ ∈ out.v ∧
        ((∃ el ∈ els, el / 32 = b ∧ ∀ n m, val el ≠ .fin n m) → code = 255 ∧ out.mx.getLsbD 1 = true ∧
          ∀ el ∈ els, el / 32 = b → ⟨vd, (off + el) * ty.bits, ty.bits, mxZero ty⟩ ∈ out.v) ∧
        ((∀ el ∈ els, el / 32 = b → ∃ n, val el = .fin n 0) → code = 0 ∧
          ∀ el ∈ els, el / 32 = b → ⟨vd, (off + el) * ty.bits, ty.bits, mxZero ty⟩ ∈ out.v) ∧
        (∀ top : Rat, 0 < top → (∃ el ∈ els, el / 32 = b ∧ ∃ n, val el = .fin n top) →
          (∀ el ∈ els, el / 32 = b → ∃ n m, val el = .fin n m ∧ m ≤ top) →
          (top < pow2 (emaxOf ty - 127) → code = 0 ∧ out.mx.getLsbD 0 = true) ∧
          (pow2 (emaxOf ty - 127) ≤ top → pow2 ((code : Int) - 127 + emaxOf ty) ≤ top ∧
            top < pow2 ((code : Int) - 126 + emaxOf ty)) ∧
          (∀ mode, (if ty = .ds8 then some .rne else staticMode rc e.rm (ty.narrowing src)) = some mode →
            ∀ el ∈ els, el / 32 = b → ⟨vd, (off + el) * ty.bits, ty.bits,
              (convertFp ty mode true ((val el).scale (127 - (code : Int)))).bits⟩ ∈ out.v))) ∧
    (∀ vd a b ty src part rc l, e.instr = .vdequant vd a b ty src part rc l →
      let i := fun el => part.toNat * ty.vlmax + el
      let scale := fun el => t.elem b.reg .n8 (i el / 32)
      Produces t e j els vd ty fun el v =>
        (scale el = 255 ∨ (readVal src (t.elem a.reg src (i el))).isNaN → v = canonNaN ty) ∧
        (scale el ≠ 255 → ∀ n m, readVal src (t.elem a.reg src (i el)) = .fin n m →
          v = (flushResult e.fz ty (roundMag ty (e.mode rc) false n (m * pow2 ((scale el : Int) - 127)))).bits))) ∧
  (∀ r ∈ [(Sfu.rcp, 0xFF800000, 0x80000000, noFlags), (.rcp, 0x80000000, 0xFF800000, flagDZ), (.rcp, 0, 0x7F800000, flagDZ),
      (.rcp, 0x7F800000, 0, 0), (.rsq, 0xFF800000, 0x7FC00000, flagNV), (.rsq, 0x80000000, 0xFF800000, flagDZ),
      (.rsq, 0, 0x7F800000, flagDZ), (.rsq, 0x7F800000, 0, 0), (.sqrt, 0xFF800000, 0x7FC00000, flagNV),
      (.sqrt, 0x80000000, 0x80000000, 0), (.sqrt, 0, 0, 0), (.sqrt, 0x7F800000, 0x7F800000, 0), (.exp2, 0xFF800000, 0, 0),
      (.exp2, 0x80000000, 0x3F800000, 0), (.exp2, 0x7F800000, 0x7F800000, 0), (.log2, 0xFF800000, 0x7FC00000, flagNV),
      (.log2, 0x80000000, 0xFF800000, flagDZ), (.log2, 0, 0xFF800000, flagDZ), (.log2, 0x7F800000, 0x7F800000, 0),
      (.sin, 0xFF800000, 0x7FC00000, flagNV), (.sin, 0x80000000, 0x80000000, 0), (.cos, 0, 0x3F800000, 0),
      (.tanh, 0xFF800000, 0xBF800000, 0), (.tanh, 0x80000000, 0x80000000, 0), (.tanh, 0x7F800000, 0x3F800000, 0),
      (.sigmoid, 0xFF800000, 0, 0), (.sigmoid, 0, 0x3F000000, 0), (.sigmoid, 0x7F800000, 0x3F800000, 0),
      (.gelu, 0xFF800000, 0x80000000, 0), (.gelu, 0x7F800000, 0x7F800000, 0), (.silu, 0xFF800000, 0x80000000, 0),
      (.silu, 0x80000000, 0x80000000, 0), (.silu, 0x7F800000, 0x7F800000, 0)],
    sfuBits r.1 .f32 false r.2.1 = ⟨r.2.2.1, r.2.2.2⟩)

/-- Reductions and scans (R77, R78, R159): an integer sum is the sum of the active elements modulo 2^n, a minimum, maximum
or bitwise result that of the active elements, an integer scan the sums of the prefixes; a reduction of nothing is the
identity of its operation. For every type and operation, saturating or not, the result of a reduction is the root of the pairwise tree
of R77, each combination rounded once, and element i of a scan what R78 makes of its aligned blocks, largest first; the flags are those
of every combination. -/
def Obligations.ReductionResults : Prop :=
  ∀ (t : Thread) (e : SeqEntry) (j : Nat) (els : List Nat) (vd : VReg) (a : VSrc) (ty : Ty) (rc : RC) (l : VLen),
    e.passIn = [] →
    let live := (List.range ty.vlmax).filter fun el => decide (el < e.vl) && t.active l.kg el
    let bits := fun el => t.elem a.reg ty el
    let x := fun el => readInt ty (bits el)
    let result := fun v => (computeGroup t e j els).out.v = [⟨vd, 0, ty.bits, v⟩]
    (e.instr = .vred .add vd a ty false rc l → ty.isInt = true → ∃ v, result v ∧ IntElem ty false (live.map x).sum v) ∧
    (e.instr = .vred .min vd a ty false rc l → ty.isInt = true → live ≠ [] →
      ∃ v, result v ∧ v ∈ live.map bits ∧ ∀ el ∈ live, readInt ty v ≤ x el) ∧
    (e.instr = .vred .max vd a ty false rc l → ty.isInt = true → live ≠ [] →
      ∃ v, result v ∧ v ∈ live.map bits ∧ ∀ el ∈ live, x el ≤ readInt ty v) ∧
    (live ≠ [] → ty.isInt = true →
      (e.instr = .vred .and vd a ty false rc l →
        ∃ v, result v ∧ ∀ n, v.testBit n = live.all fun el => (bits el).testBit n) ∧
      (e.instr = .vred .or vd a ty false rc l →
        ∃ v, result v ∧ ∀ n, v.testBit n = live.any fun el => (bits el).testBit n) ∧
      (e.instr = .vred .xor vd a ty false rc l →
        ∃ v, result v ∧ ∀ n, v.testBit n = decide ((live.countP fun el => (bits el).testBit n) % 2 = 1))) ∧
    (∀ op sat, e.instr = .vred op vd a ty sat rc l → live = [] → ∃ v, result v ∧
      (computeGroup t e j els).out.flags = 0 ∧
      (op = .add ∨ op = .or ∨ op = .xor → v = 0) ∧ (op = .and → v = 2 ^ ty.bits - 1) ∧
      (ty.isInt = true → (op = .min → readInt ty v = intMax ty) ∧ (op = .max → readInt ty v = intMin ty)) ∧
      (ty.isInt = false → (op = .min → v = encInf ty false) ∧ (op = .max → v = encInf ty true))) ∧
    (∀ op sat el, e.instr = .vred op vd a ty sat rc l → live = [el] →
      result (bits el) ∧ (computeGroup t e j els).out.flags = 0) ∧
    (e.instr = .vscan .add vd a ty false rc l → ty.isInt = true → (∀ el ∈ els, el ∈ live) →
      Silent t e j els ∧ Produces t e j els vd ty fun el v =>
        IntElem ty false ((live.filter (· ≤ el)).map x).sum v) ∧
    (∀ sat, e.instr = .vscan .add vd a ty sat rc l → (∀ el ∈ els, el ∈ live) →
      ∀ k, (h : k < els.length) → live.head? = some els[k] →
        (computeGroup t e j els).out.v[k]? = some ⟨vd, els[k] * ty.bits, ty.bits, bits els[k]⟩) ∧
    (∀ (op : RedOp) (sat : Bool) (node : Nat → Nat → Option (Nat × Flags)),
      let comb := redOp op ty sat (e.mode rc) e.fz
      let join : Option (Nat × Flags) → Option (Nat × Flags) → Option (Nat × Flags) := fun a b => match a, b with
        | some x, some y => some ((comb x.1 y.1).bits, x.2 ||| y.2 ||| (comb x.1 y.1).flags)
        | none, y => y
        | x, none => x
      let depth := Nat.log2 ty.vlmax
      let pre := fun i => (List.range (depth + 1)).reverse.foldl (fun (acc : Option (Nat × Flags)) lv =>
        if (i + 1).testBit lv then join acc (node lv (2 * ((i + 1) / 2 ^ (lv + 1)))) else acc) none
      (∀ i, node 0 i = if i ∈ live then some (bits i, 0) else none) →
      (∀ lv i, node (lv + 1) i = join (node lv (2 * i)) (node lv (2 * i + 1))) →
      (∀ v fl, e.instr = .vred op vd a ty sat rc l → node depth 0 = some (v, fl) →
        result v ∧ (computeGroup t e j els).out.flags = fl) ∧
      (e.instr = .vscan op vd a ty sat rc l → (∀ el ∈ els, el ∈ live) →
        (computeGroup t e j els).out.v.length = els.length ∧
        (computeGroup t e j els).out.flags = els.foldl (fun f el => f ||| ((pre el).map (·.2)).getD 0) 0 ∧
        ∀ k, (h : k < els.length) → ∃ v fl, pre els[k] = some (v, fl) ∧
          (computeGroup t e j els).out.v[k]? = some ⟨vd, els[k] * ty.bits, ty.bits, v⟩) ∧
      (∀ x y, x < 2 ^ ty.bits → y < 2 ^ ty.bits → (op = .add → ty.isInt = false →
          comb x y = addFp ty (e.mode rc) e.fz (readFz e.fz ty x) (readFz e.fz ty y)) ∧
        (op = .min → ty.isInt = false → comb x y = minmaxBits ty e.fz false x y) ∧
        (op = .max → ty.isInt = false → comb x y = minmaxBits ty e.fz true x y) ∧
        (ty.isInt = true ∨ op = .and ∨ op = .or ∨ op = .xor → (comb x y).flags = 0) ∧
        (op = .add → ty.isInt = true → IntElem ty sat (readInt ty x + readInt ty y) (comb x y).bits) ∧
        (op = .min → ty.isInt = true → IntElem ty false (min (readInt ty x) (readInt ty y)) (comb x y).bits) ∧
        (op = .max → ty.isInt = true → IntElem ty false (max (readInt ty x) (readInt ty y)) (comb x y).bits) ∧
        (op = .and → (comb x y).bits = x &&& y) ∧ (op = .or → (comb x y).bits = x ||| y) ∧
        (op = .xor → (comb x y).bits = x ^^^ y)))

/-- Vector memory (R234, R249, R252 to R254, R287) in a scratchpad, and `vwait` (R319): the offset of each element, what a
load writes, what a store and an atomic leave, the first element whose check fails and the groups' stop there, the length
`vldff` trims to; the mask of `vwait`, its wait, its recheck and its limit. That `vwait` first waits until the sequencer holds no
entry is the model's reading (log entry 44). -/
def Obligations.VectorMemoryResults : Prop :=
  (∀ (s : State) (t : Thread) (e : SeqEntry) (m : MemShape) (j : Nat) (first : Option Nat),
    let n := m.ty.bits / 8
    let base := fun el => e.seg.base.toNat + (elemOffset t e m el).toNat
    let good := fun kind el => e.seg.refuses (elemOffset t e m el) n n kind = none ∧
      allotMiss (s.gangOf t) (base el) n = none ∧ (kind ≠ .write → (s.gangOf t).bind (·.badAt (base el) n) = none)
    memShape e.instr = some m → e.seg.type = .scratch →
    (∀ vd ty a l, e.instr = .vld vd ty a l ∨ e.instr = .vst vd ty a l ∨ e.instr = .vldff vd ty a l →
      ∀ el, elemOffset t e m el = (e.xs[1]?).getD 0 + BitVec.ofNat 64 (el * (ty.bits / 8))) ∧
    (∀ vd ty a xi l, e.instr = .vlds vd ty a xi l ∨ e.instr = .vsts vd ty a xi l →
      ∀ el, elemOffset t e m el = (e.xs[1]?).getD 0 + BitVec.ofInt 64 ((el : Int) * ((e.xs[2]?).getD 0).toInt)) ∧
    (∀ vd ty a vi l, e.instr = .vldx vd ty a vi l ∨ e.instr = .vstx vd ty a vi l →
      ∀ el, elemOffset t e m el = (e.xs[1]?).getD 0 + BitVec.ofNat 64 (t.elem vi .n32 el)) ∧
    (∀ els, m.kind = .load → (∀ el ∈ els, good .read el) →
      (memGroup s t e m j els first).s = s ∧ (memGroup s t e m j els first).stop = none ∧
      (memGroup s t e m j els first).trim = none ∧
      (memGroup s t e m j els first).out.v = els.map fun el =>
        ⟨m.vd, el * m.ty.bits, m.ty.bits, leNat (s.padBytes t.gang (base el) n)⟩) ∧
    (∀ els, m.kind = .store → (∀ el ∈ els, good .write el) →
      (memGroup s t e m j els first).stop = none ∧ (memGroup s t e m j els first).out.v = [] ∧
      (memGroup s t e m j els first).s =
        els.foldl (fun s el => s.padPut t.gang (base el) (leBytes n (t.elem m.vd m.ty el))) s) ∧
    (∀ op el, m.kind = .atomic op → good .atomic el →
      let old := leNat (s.padBytes t.gang (base el) n)
      (memGroup s t e m j [el] first).out.v = [⟨m.vd, el * m.ty.bits, m.ty.bits, old⟩] ∧
      (memGroup s t e m j [el] first).s =
        s.padPut t.gang (base el) (leBytes n (amoValue op m.ty old (t.elem m.vd m.ty el)))) ∧
    (∀ before el after c, m.kind = .load → (∀ k ∈ before, good .read k) →
      e.seg.refuses (elemOffset t e m el) n n .read = some c →
      let r := memGroup s t e m j (before ++ el :: after) first
      r.s = s ∧ r.out.v = (before.map fun el =>
        ⟨m.vd, el * m.ty.bits, m.ty.bits, leNat (s.padBytes t.gang (base el) n)⟩) ∧
      ((∀ vd ty a l, e.instr ≠ .vldff vd ty a l) ∨ first = some el →
        r.stop = some (el, c, elemOffset t e m el) ∧ r.trim = none) ∧
      (∀ vd ty a l, e.instr = .vldff vd ty a l → first ≠ some el →
        r.stop = none ∧ r.trim = some el ∧ r.out.x = [(l.xl, BitVec.ofNat 64 el)]))) ∧
  (∀ (s : State) (t : Thread), (Executing s t ∨ (s.ev.a = t.key ∧ s.thread? t.key = some t)) →
    ∀ (kd : KReg) (c : WCond) (va vb : VSrc) (sg : Bool) (g : GReg) (u : XReg) (l : VLen),
    let i := Instr.vwait kd c va vb sg g u l
    let limit := vwaitLimit t u
    let els := waitEls t sg l
    let off := fun el => (t.getG g).base.toNat + t.elem va.reg .n32 el
    let flag := fun el => leNat (s.padBytes t.gang (off el) 4)
    let want := fun el => t.elem vb.reg .n32 el
    let ty : Ty := if sg then .i32 else .n32
    let unmet := fun el => ¬ ((c = .eq ∧ flag el = want el) ∨ (c = .ne ∧ flag el ≠ want el) ∨
      (c = .ge ∧ readInt ty (want el) ≤ readInt ty (flag el)))
    let readable := (t.getG g).type = .scratch ∧ ∀ el ∈ els,
      (t.getG g).refuses (BitVec.ofNat 64 (t.elem va.reg .n32 el)) 4 4 .read = none ∧
      s.padReadable t (off el) 4
    s.orders = [] →
    (Executing s t →
      (t.seqEmpty = false → Waits s s t i .sleep limit .none) ∧
      (t.seqEmpty = true → els ≠ [] → (s.core t.core).grants.ld = 0 →
        ∃ s' : State, Waits s s' t i .sleep limit .none ∧ (s'.core t.core).requests.ld ≠ 0 ∧ s'.threads = s.threads) ∧
      (t.seqEmpty = true → els = [] ∨ (0 < (s.core t.core).grants.ld ∧ readable) →
        ((∀ el ∈ els, ¬ unmet el) → Leaves s i (t.setK kd 0)) ∧
        ((∃ el ∈ els, unmet el) → Waits s s t i .sleep limit .data))) ∧
    (∀ w, s.ev.a = t.key → t.status = .waiting w → w.instr = i → w.asked = .data → t.parked = false →
      exec .vwaitRecheck s = .next (s.putThread (t.waitingAs { w with woken := true })) ∧
      (w.limit ≠ 0 → w.limit * 32 ≤ w.cycles → t.seqEmpty = true → readable →
        ∃ k : KData, (∀ n < 512, k.getLsbD n = true ↔ n ∈ els ∧ unmet n) ∧
          exec .vwaitTimeout s = .next (s.putThread
            ({ t with readyAt := max (t.issuedAt + 4) ((s.core t.core).cycle + 4) }.setK kd k).completed))))

/-! ### The anvil (R175 to R200) -/

/-- Acceptance by the anvil (R178 to R195): a format taken or refused, a window set or refused; the ticket, the captured
tile and the entry of `mzero`, `mload`, `mcopy` and `mma`; what `mrow` and `mwrow` capture; the traps of a cell outside the
window, of a reserved bit and of a count (that `mrow` and `mwrow` look at the count before the window, and at no row with a count of 0,
is the model's reading, log entry 26); the wait for tickets; the status word. -/
def Obligations.AnvilResults : Prop :=
  ∀ (s : State) (t : Thread), Executing s t → ∀ (w d p q u : XReg),
    let f := t.getX p
    let pair := ((f.extractLsb' 0 4 = f.extractLsb' 4 4 ∧ (f.extractLsb' 0 4).toNat ∈ [0, 1, 4, 5, 6]) ∨
      ((f.extractLsb' 0 4).toNat ∈ [2, 3] ∧ (f.extractLsb' 4 4).toNat ∈ [2, 3, 7]))
    let clean := f.extractLsb' 46 18 = 0 ∧ f.extractLsb' 8 10 = 0 ∧ pair
    let rows := t.window.getD ⟨0, 0⟩
    let org := t.getX d
    let row := (org.extractLsb' 0 10).toNat
    let col := (org.extractLsb' 16 10).toNat
    let ext := t.getX u
    let nr := (ext.extractLsb' 0 11).toNat
    let nc := (ext.extractLsb' 16 10).toNat
    let tidy := org.extractLsb' 26 38 = 0 ∧ org.extractLsb' 10 6 = 0
    let whole := tidy ∧ ext.extractLsb' 26 38 = 0 ∧ ext.extractLsb' 11 5 = 0 ∧ nr ≠ 0 ∧ nc ≠ 0
    -- every cell touched lies in the window; a count of 0 touches none (R184)
    let inside := nr = 0 ∨ nc = 0 ∨ (row + nr ≤ rows.rows ∧ col + nc ≤ 512)
    -- a ticket taken by `i` for the operation `o`
    let tickets := fun (i : Instr) (kind : AnvilKind) (regs : List Word) (r c k : Nat) (fm : Word) (mask : BitVec 128) =>
      ∃ (s' : State) (z : Thread) (o : AnvilOp), exec i s = .next (s'.putThread z.completed) ∧
        s'.bench t.bench = { s.bench t.bench with anvil := (s.bench t.bench).anvil ++ [o] } ∧
        (∀ n, n ≠ t.bench → s'.bench n = s.bench n) ∧
        o.key = t.key ∧ o.core = t.core ∧ o.ticket = t.aseq + 1 ∧ o.kind = kind ∧ o.row = rows.base + row ∧ o.col = col ∧
        o.rows = r ∧ o.cols = c ∧ o.depth = k ∧ o.format = fm ∧ o.mask = mask ∧ o.done = 0 ∧ o.left = 0 ∧
        (∃ y, Writes { t with aseq := t.aseq + 1 } y w (BitVec.ofNat 64 (t.aseq + 1)) ∧
          z = y.withEntry i (acceptedEntry s y i regs)) ∧ o.entry = some s.stamps
    (¬ clean → Yields s t (.mfmt d p) d 1) ∧
    (clean → YieldsIn s (s.putCore t.core { s.core t.core with format := f, zeroMask := 0 }) t (.mfmt d p) d 0) ∧
    (t.isHead = false → Raises s s t (.mfmtWin d p q) Cause.privilege (instrTval (.mfmtWin d p q))) ∧
    (t.isHead = true →
      (15 < (t.getX p).toNat ∨ s.thread? (t.sibling (t.getX p).toNat) = none → Yields s t (.mfmtWin d p q) d 1) ∧
      (∀ v, (t.getX p).toNat ≤ 15 → s.thread? (t.sibling (t.getX p).toNat) = some v →
        let word := t.getX q
        let n := (word.extractLsb' 16 11).toNat
        let base := (word.extractLsb' 0 10).toNat
        let plain := word.extractLsb' 27 37 = 0 ∧ word.extractLsb' 10 6 = 0 ∧ n ≤ 1024
        let owned := ∀ r, base ≤ r → r < base + n → r < 1024 ∧ s.quarterPart (t.bench * 4 + r / 256) = some t.part
        (¬ plain → Yields s t (.mfmtWin d p q) d 3) ∧ (plain → ¬ owned → Yields s t (.mfmtWin d p q) d 2) ∧
        (plain → owned → v.key = t.sibling (t.getX p).toNat → ∃ (s' : State) (z : Thread),
          exec (.mfmtWin d p q) s = .next s' ∧ Writes t z d 0 ∧
          (v.key ≠ t.key → s'.thread? t.key = some z.completed ∧
            s'.thread? v.key = some { v with window := if n = 0 then none else some ⟨n, base⟩ }) ∧
          (v.key = t.key → s'.thread? t.key = some { z with window := if n = 0 then none else some ⟨n, base⟩ }.completed)))) ∧
    (t.accepts →
      (∀ ty sat rc, let i3 : List Instr := [.mzero w d u, .mload w d p u ty, .mcopy w d p u ty sat rc]
        ∀ i ∈ i3, (¬ inside → Raises s s t i Cause.accWindow org) ∧
          (inside → ¬ tidy → Raises s s t i Cause.accWindow org) ∧
          (inside → tidy → ¬ whole → Raises s s t i Cause.accWindow ext)) ∧
      (inside → whole →
        tickets (.mzero w d u) .zero [] nr nc 0 0 0 ∧
        (∀ ty sat rc m, let base := t.getX p
          let pitch := t.getX (p + 1)
          PairClean base pitch →
          firstMiss (s.gangOf t) (tileRanges base pitch (ty.bits / 8) nr nc) = none →
          tickets (.mload w d p u ty) (.load ty base pitch) [] nr nc 0 0 0 ∧
          (m = (match rc with
              | .rtz => 1
              | .rdn => 2
              | .rup => 3
              | .rna => 4
              | .dyn => if t.rm = 5 then 0 else t.rm
              | _ => 0) →
            tickets (.mcopy w d p u ty sat rc) (.copy ty sat m base pitch) [] nr nc 0 0 0))) ∧
      (∀ set va vb, let c := s.core t.core
        let k := fmtK c.format
        let i := Instr.mma w d set (.reg va) (.reg vb)
        let a := AnvilSrc.reg va.toNat none
        let b := AnvilSrc.reg vb.toNat none
        let m := fmtM c.format
        let n := fmtN c.format
        let ba := codeBits (fmtA c.format)
        let bb := codeBits (fmtB c.format)
        let fits := fun (v rws bits : Nat) => rws * rowBytes k bits ≤ 4096 ∧
          (pairMx c.format = true → rws * blocks k ≤ 512) ∧ v + regCount rws k bits (pairMx c.format) ≤ 16
        let even := ba = 4 ∨ bb = 4 → k % 2 = 0
        (¬ even → Raises s s t i Cause.misalignedAccess c.format) ∧
        (even → ¬ (fits va.toNat m ba ∧ fits vb.toNat n bb) → Raises s s t i Cause.segmentLimit c.format) ∧
        (even → fits va.toNat m ba → fits vb.toNat n bb →
          (rows.rows < row + m ∨ 512 < col + n → Raises s s t i Cause.accWindow org) ∧
          (row + m ≤ rows.rows → col + n ≤ 512 → tidy → tickets i (.mma set a b)
            (srcRegs c.format m ba a ++ srcRegs c.format n bb b) m n k c.format c.zeroMask))) ∧
      (∀ set x y, let c := s.core t.core
        let a := operandSrc t x
        let b := operandSrc t y
        let m := fmtM c.format
        let n := fmtN c.format
        MmaClean s t org a b → tickets (.mma w d set x y) (.mma set a b)
          (srcRegs c.format m (codeBits (fmtA c.format)) a ++ srcRegs c.format n (codeBits (fmtB c.format)) b) m n
          (fmtK c.format) c.format c.zeroMask) ∧
      (∀ vd ty sat rc, let at' := t.getX p
        let r := (at'.extractLsb' 0 10).toNat
        let c := (at'.extractLsb' 16 10).toNat
        let n := (t.getX u).toNat
        ∀ i, i = .mrow vd ty p u sat rc ∨ i = .mwrow vd ty p u →
        (ty.vlmax < n ∨ 512 < c + n → Raises s s t i Cause.accWindow (t.getX u)) ∧
        (n ≤ ty.vlmax → c + n ≤ 512 → n ≠ 0 → rows.rows ≤ r → Raises s s t i Cause.accWindow at') ∧
        (n ≤ ty.vlmax → c + n ≤ 512 → n = 0 ∨ r < rows.rows → at'.extractLsb' 26 38 = 0 → at'.extractLsb' 10 6 = 0 →
          exec i s = .next (s.stamped.putThread (t.withEntry i (acceptedEntry s t i
            [BitVec.ofNat 64 (rows.base + r), BitVec.ofNat 64 c, BitVec.ofNat 64 n])).completed))) ) ∧
    ((∃ n ∈ s.anvilTickets t, n ≤ (t.getX p).toNat) → Waits s s t (.mwait p) .sequencer 0 .none) ∧
    ((∀ n ∈ s.anvilTickets t, (t.getX p).toNat < n) → Leaves s (.mwait p) t) ∧
    Yields s t (.mstat d) d (BitVec.ofNat 64 ((s.anvilTickets t).length * 2 ^ 32 + t.astat.toNat)) ∧
    (∃ z, Writes t z d (BitVec.ofNat 64 ((s.anvilTickets t).length * 2 ^ 32 + t.astat.toNat)) ∧
      Leaves s (.mstatClr d) { z with astat := 0 })

/-- The anvil's work (R79, R179, R182, R189 to R193): a cell read after it is written; a row zeroed, loaded or copied by a
beat, every column of it, 16-bit types widened exactly and rounded; the last beat of a block adds the block's exact sum to every cell of
the tile, modulo 2^32 for integer pairs, for float pairs rounded once to f32 and then added with one more rounding, NaN where a product
is or where +∞ meets −∞, and else the infinity there is; an `mma` whose blocks are all added releases a row in each cycle, the lowest
first (R190); what `mrow` reads and `mwrow` writes; a poisoned cell raises Machine Check. The sign of the zero product of a negative
fp8 element and a ds8 zero is the model's choice (log entry 108). -/
def Obligations.AnvilSteps : Prop :=
  (∀ (b : Bench) (r c r' c' : Nat) (v : BitVec 32), c < 512 → c' < 512 →
    (b.setCell r c v).cell r' c' = if r' = r ∧ c' = c then v else b.cell r' c') ∧
  (∀ (s : State) (o : AnvilOp), (s.bench (s.ev.a / 8)).anvil = [o] → o.core = s.ev.a → o.added = true →
    s.opParked o = false → o.freed + 1 < o.rows →
    exec .anvilBeat s = .next (s.putBench (s.ev.a / 8)
      { s.bench (s.ev.a / 8) with anvil := [{ o with freed := o.freed + 1 }] }) ∧
    ∀ r, AnvilOp.holds { o with freed := o.freed + 1 } r = (decide (o.row + o.freed < r) && decide (r < o.row + o.rows))) ∧
  (∀ (s : State) (o : AnvilOp) (gn : Nat) (g : Gang), s.firstOp s.ev.a = some o → s.beatReady o = true →
    (∀ f ∈ (s.bench (s.ev.a / 8)).anvil, f.core = s.ev.a → f.added = false) →
    s.beatTurn (s.bench (s.ev.a / 8)).anvilTurn s.anvilWork s.ev.a = true →
    s.opGang o = some (gn, g) → o.key < 2 ^ 40 → o.col + o.cols ≤ 512 → s.banks = [] →
    (∀ t, s.opThread o = some t → t.gang = gn) → s.gang? gn = some g →
    let bn := s.bench (o.core / 8)
    let row := o.row + o.done
    (o.kind = .zero → ∃ s', exec .anvilBeat s = .next s' ∧
      ∀ r c, c < 512 → (s'.bench (o.core / 8)).cell r c =
        if r = row ∧ o.col ≤ c ∧ c < o.col + o.cols then 0 else bn.cell r c) ∧
    (∀ ty base pitch, o.kind = .load ty base pitch → g.bad = [] → ∃ s', exec .anvilBeat s = .next s' ∧
      let e := ty.bits / 8
      ∀ r c, c < 512 → (s'.bench (o.core / 8)).cell r c =
        if r = row ∧ o.col ≤ c ∧ c < o.col + o.cols then
          let j := c - o.col
          widen ty (leNat ((List.range e).map fun k =>
            g.byteAt (padByteAt base pitch o.done (j / (128 / e) * 128 + j % (128 / e) * e + k))))
        else bn.cell r c) ∧
    (∀ ty sat m base pitch, o.kind = .copy ty sat m base pitch → bn.badRange row 1 o.col o.cols = false →
      ∃ s' g', exec .anvilBeat s = .next s' ∧ s'.gang? gn = some g' ∧
        let e := ty.bits / 8
        let place := fun j => padByteAt base pitch o.done (j / (128 / e) * 128 + j % (128 / e) * e)
        let code := fun j => let c := bn.cell row (o.col + j)
          if ty.bits = 32 then c.toNat else (convertFp ty (modeOf m) sat (readFp .f32 c.toNat)).bits
        (∀ a, (∀ j < o.cols, ¬ (place j ≤ a ∧ a < place j + e)) → g'.byteAt a = g.byteAt a) ∧
        (∀ j < o.cols, ∀ k < e, (∀ i, j < i → i < o.cols → ¬ (place i ≤ place j + k ∧ place j + k < place i + e)) →
          g'.byteAt (place j + k) = BitVec.ofNat 8 (code j / 256 ^ k)) ∧
        (∀ r c, (s'.bench (o.core / 8)).cell r c = bn.cell r c)) ∧
    (∀ ty sat m base pitch t, o.kind = .copy ty sat m base pitch → bn.badRange row 1 o.col o.cols = true →
      s.opThread o = some t → exec .anvilBeat s = .next (((s.putBench (o.core / 8) { bn with
        anvilTurn := s.tookBeat bn.anvilTurn o.core }).leaveOp o).raise t.key Cause.machineCheck 0 t.pc none)) ∧
    (∀ set p q p' q', o.kind = .mma set (.pad p q) (.pad p' q') → o.left = 1 →
      o.rows = fmtM o.format → o.cols = fmtN o.format → o.depth = fmtK o.format → g.bad = [] →
      bn.badRange o.row o.rows o.col o.cols = false →
      let bits := codeBits (fmtA o.format)
      let bits' := codeBits (fmtB o.format)
      let a := readOperand g (.pad p q) o.rows o.depth bits
      let b := readOperand g (.pad p' q') o.cols o.depth bits'
      let steps := (List.range (min 32 (o.depth - 32 * o.done))).map (32 * o.done + ·)
      let hit := fun r c => o.row ≤ r ∧ r < o.row + o.rows ∧ o.col ≤ c ∧ c < o.col + o.cols
      let old := fun r c => if set = true ∧ o.done = 0 then (0 : BitVec 32) else bn.cell r c
      let scaled := fun (v : Fp) (k : Nat) => if pairMx o.format then (if k = 0xFF then .nan false else v.scale ((k : Int) - 127)) else v
      let prod := fun r c k =>
        (scaled (codeVal (fmtA o.format) (a.elem bits (r - o.row) k)) (a.scale (r - o.row) o.done)).times
          (scaled (codeVal (fmtB o.format) (b.elem bits' (c - o.col) k)) (b.scale (c - o.col) o.done))
      let value := fun v : Fp => match v with | .fin n m => if n then -m else m | _ => 0
      ∃ s', exec .anvilBeat s = .next s' ∧
      (∀ r c, c < 512 → ¬ hit r c → (s'.bench (o.core / 8)).cell r c = bn.cell r c) ∧
      (pairInt o.format = true → ∀ r c, c < 512 → hit r c → (s'.bench (o.core / 8)).cell r c =
        BitVec.ofInt 32 ((old r c).toInt + (steps.map fun k =>
          codeInt (fmtA o.format) (a.elem bits (r - o.row) k) * codeInt (fmtB o.format) (b.elem bits' (c - o.col) k)).sum)) ∧
      (pairInt o.format = false → ∀ r c, c < 512 → hit r c →
        let cell := (s'.bench (o.core / 8)).cell r c
        let nan : Prop := (∃ k ∈ steps, (prod r c k).isNaN) ∨
          ((∃ k ∈ steps, prod r c k = .inf false) ∧ (∃ k ∈ steps, prod r c k = .inf true))
        let sum := (steps.map fun k => value (prod r c k)).sum
        (nan → cell = 0x7FC00000) ∧
        (¬ nan → ∀ n, (∃ k ∈ steps, prod r c k = .inf n) →
          cell = BitVec.ofNat 32 (addFp .f32 .rne false (.inf n) (readFp .f32 (old r c).toNat)).bits) ∧
        ((∀ k ∈ steps, ∃ n m, prod r c k = .fin n m) →
          (sum ≠ 0 → cell = BitVec.ofNat 32 (addFp .f32 .rne false
            (readFp .f32 (roundMag .f32 .rne false (decide (sum < 0)) (magnitude sum)).bits) (readFp .f32 (old r c).toNat)).bits) ∧
          (sum = 0 → ∃ z, cell = BitVec.ofNat 32 (addFp .f32 .rne false (.fin z 0) (readFp .f32 (old r c).toNat)).bits))))) ∧
  (∀ (ty : Ty) (v : Nat), ty ∈ [Ty.f32, .i32, .f16, .bf16] →
    (ty.bits = 32 → widen ty v = BitVec.ofNat 32 v) ∧
    (ty.bits = 16 → ((readFp ty v).isNaN → widen ty v = 0x7FC00000) ∧
      (∀ n, readFp ty v = .inf n → readFp .f32 (widen ty v).toNat = .inf n) ∧
      (∀ n m, readFp ty v = .fin n m → widen ty v = BitVec.ofNat 32 (roundMag .f32 .rne false n m).bits))) ∧
  (∀ (s : State) (t : Thread) (e : SeqEntry) (i : Nat), s.thread? s.ev.a = some t → t.key = s.ev.a →
    (t.seq.findIdx? fun e => e.num == s.ev.b) = some i → t.seq[i]? = some e → s.rowReady t i = true →
    let x := fun k : Nat => ((e.xs[k]?).getD 0).toNat
    let bn := s.bench t.bench
    (∀ vd ty p u sat rc, e.instr = .mrow vd ty p u sat rc →
      (bn.badRange (x 0) 1 (x 1) (x 2) = true → exec .mrowDelivery s = .next (s.raise t.key Cause.machineCheck 0 t.pc none)) ∧
      (bn.badRange (x 0) 1 (x 1) (x 2) = false → ty ∈ [Ty.f32, .i32, .f16, .bf16] → x 2 ≤ ty.vlmax → ∃ z,
        exec .mrowDelivery s = .next ((s.putThread z).traceCommit z e) ∧
        z.seq = t.seq.eraseIdx i ∧ z = { t with v := z.v, seq := z.seq, astat := z.astat } ∧
        (ty.bits = 32 → z.astat = t.astat) ∧ (∀ r, r ≠ vd → z.getV r = t.getV r) ∧
        (∀ k < ty.vlmax, z.elem vd ty k = if k < x 2 then
            if ty.bits = 32 then (bn.cell (x 0) (x 1 + k)).toNat
            else (convertFp ty ((staticMode rc e.rm false).getD .rne) sat (readFp .f32 (bn.cell (x 0) (x 1 + k)).toNat)).bits
          else t.elem vd ty k))) ∧
    (∀ vd ty p u, e.instr = .mwrow vd ty p u → x 1 + x 2 ≤ 512 → ∃ b',
      let z := { t with seq := t.seq.eraseIdx i }
      exec .mrowDelivery s = .next (((s.putBench t.bench b').putThread z).traceCommit z e) ∧
      ∀ r c, c < 512 → b'.cell r c = if r = x 0 ∧ x 1 ≤ c ∧ c < x 1 + x 2 then widen ty (t.elem vd ty (c - x 1))
        else bn.cell r c))

/-! ### The scratchpad's objects (R207 to R213, R226 to R231) -/

/-- Circular buffers, barriers and full/empty words: Bad Handle, slots acquired in order, waits with their limits and what
ends them, releases, arrivals that complete a phase, words emptied and filled (R208 to R212, R226, R227, R230, R231). -/
def Obligations.ScratchResults : Prop :=
  ∀ (s : State) (t : Thread) (g : Gang), Executing s t → s.gang? t.gang = some g → ∀ (d p q u : XReg) (m : MAddr),
    let h := (t.getX p).toNat
    let x := t.getX q
    let k := (t.getX u).toNat
    let stamp := match t.waitOf with | some w => w.stamp | none => s.stamps
    (7 < h → ∀ i, i = .cbdef d p q ∨ i = .cbacqW d p ∨ i = .cbacqR d p ∨ i = .cbacqWTry d p ∨ i = .cbacqRTry d p ∨
      i = .cbrelW d p u ∨ i = .cbrelR d p u ∨ i = .cbstat d p → Raises s s t i Cause.badHandle (t.getX p)) ∧
    (h ≤ 7 → Map.get? g.cbs h = none → Yields s t (.cbstat d p) d 0 ∧
      ∀ i, i = .cbacqW d p ∨ i = .cbacqR d p ∨ i = .cbacqWTry d p ∨ i = .cbacqRTry d p ∨ i = .cbrelW d p u ∨
        i = .cbrelR d p u → Raises s s t i Cause.badHandle (t.getX p)) ∧
    (∀ b, h ≤ 7 → Map.get? g.cbs h = some b →
      let put := fun b' : CircBuf => s.putGang t.gang { g with cbs := Map.put g.cbs h b' }
      let w := s.slotRequests t.gang h true stamp
      let r := s.slotRequests t.gang h false stamp
      Yields s t (.cbstat d p) d (BitVec.ofNat 64 (2 ^ 63 + b.rpos * 2 ^ 44 + b.wpos * 2 ^ 36 + b.rheld * 2 ^ 27 +
        b.wheld * 2 ^ 18 + b.filled * 2 ^ 9 + b.free)) ∧
      (w < b.free → ∀ i, i = .cbacqW d p ∨ i = .cbacqWTry d p →
        YieldsIn s (put { b with free := b.free - 1, wheld := b.wheld + 1, wpos := (b.wpos + 1) % b.slots }) t i d
          (BitVec.ofNat 64 (b.base + b.wpos * b.size))) ∧
      (r < b.filled → ∀ i, i = .cbacqR d p ∨ i = .cbacqRTry d p →
        YieldsIn s (put { b with filled := b.filled - 1, rheld := b.rheld + 1, rpos := (b.rpos + 1) % b.slots }) t i d
          (BitVec.ofNat 64 (b.base + b.rpos * b.size))) ∧
      (b.free ≤ w → Waits s s t (.cbacqW d p) .circularBuffer t.cblimit.toNat .none ∧
        Yields s t (.cbacqWTry d p) d (BitVec.allOnes 64)) ∧
      (b.filled ≤ r → Waits s s t (.cbacqR d p) .circularBuffer t.cblimit.toNat .none ∧
        Yields s t (.cbacqRTry d p) d (BitVec.allOnes 64)) ∧
      (t.memoryClear = true → s.owes t.key = false →
        (k ≤ b.wheld → YieldsIn s (put { b with wheld := b.wheld - k, filled := b.filled + k }) t (.cbrelW d p u) d 0) ∧
        (b.wheld < k → Yields s t (.cbrelW d p u) d 1)) ∧
      (k ≤ b.rheld → YieldsIn s (put { b with rheld := b.rheld - k, free := b.free + k }) t (.cbrelR d p u) d 0) ∧
      (b.rheld < k → Yields s t (.cbrelR d p u) d 1)) ∧
    (h ≤ 7 →
      let free := (∀ b, Map.get? g.cbs h = some b → b.wheld = 0 ∧ b.rheld = 0) ∧
        s.slotRequests t.gang h true (s.stamps + 1) = 0 ∧ s.slotRequests t.gang h false (s.stamps + 1) = 0 ∧
        ∀ o ∈ s.gangPlates t.gang, o.targets.1 ≠ some h
      let size := ((x.extractLsb' 32 10).toNat + 1) * 64
      let slots := (x.extractLsb' 48 8).toNat + 1
      let base := (x.extractLsb' 0 22).toNat
      let clean := x.extractLsb' 56 8 = 0 ∧ x.extractLsb' 42 6 = 0 ∧ x.extractLsb' 22 10 = 0 ∧ base % 64 = 0
      ((∃ b, Map.get? g.cbs h = some b ∧ (b.wheld ≠ 0 ∨ b.rheld ≠ 0)) → Yields s t (.cbdef d p q) d 1) ∧
      (free → x = 0 → YieldsIn s (s.putGang t.gang { g with cbs := Map.del g.cbs h }) t (.cbdef d p q) d 0) ∧
      (free → x ≠ 0 → ¬ clean → Yields s t (.cbdef d p q) d 2) ∧
      (free → x ≠ 0 → clean → allotMiss (some g) base (slots * size) ≠ none → Yields s t (.cbdef d p q) d 3) ∧
      (free → x ≠ 0 → clean → allotMiss (some g) base (slots * size) = none →
        YieldsIn s (s.putGang t.gang { g with cbs := Map.put g.cbs h ⟨base, size, slots, slots, 0, 0, 0, 0, 0⟩ }) t
          (.cbdef d p q) d 0)) ∧
    (15 < h → ∀ i, i = .bardef d p q ∨ i = .barexp d p q ∨ i = .bararr d p q ∨ i = .barwait p q →
      Raises s s t i Cause.badHandle (t.getX p)) ∧
    (h ≤ 15 → Map.get? g.bars h = none →
      (∀ i, i = .barexp d p q ∨ i = .bararr d p q ∨ i = .barwait p q → Raises s s t i Cause.badHandle (t.getX p)) ∧
      (x ≠ 0 → x.toNat < 2 ^ 32 → YieldsIn s (s.putGang t.gang
        { g with bars := Map.put g.bars h ⟨x.toNat, x.toNat, 0, 0, false⟩ }) t (.bardef d p q) d 0) ∧
      (2 ^ 32 ≤ x.toNat → Yields s t (.bardef d p q) d 2)) ∧
    (∀ b, h ≤ 15 → Map.get? g.bars h = some b → Map.rising g.bars = true →
      let n := x.toNat % 2 ^ 32
      let counted := fun (e a : Nat) =>
        if e ≤ a then { b with exp := b.e0, arr := 0, phase := b.phase + 1, ovr := b.ovr || decide (e < a) }
        else { b with exp := e, arr := a }
      let put := fun b' : Barrier => s.putGang t.gang { g with bars := Map.put g.bars h b' }
      YieldsIn s (put (counted (b.exp + n) b.arr)) t (.barexp d p q) d (b.phase.setWidth 64) ∧
      (t.memoryClear = true → s.owes t.key = false →
        YieldsIn s (put (counted b.exp (b.arr + n))) t (.bararr d p q) d (b.phase.setWidth 64)) ∧
      (b.phase.toNat = n → Waits s s t (.barwait p q) .barrier t.cblimit.toNat .none) ∧
      (b.phase.toNat ≠ n → Leaves s (.barwait p q) t) ∧
      (s.barWaited t.gang h = true → Yields s t (.bardef d p q) d 1) ∧
      (s.barWaited t.gang h = false → (∀ o ∈ s.gangPlates t.gang, o.targets.2 ≠ some h) → x = 0 →
        YieldsIn s (s.putGang t.gang { g with bars := Map.del g.bars h }) t (.bardef d p q) d 0)) ∧
    (∀ off, (t.getG m.g).type = .scratch → off = (t.getG m.g).base.toNat + (t.offset m).toNat →
      allotMiss (some g) off 8 = none → g.badAt off 8 = none → s.vectorClear t (.pad off) 8 = true → s.orders = [] →
      (t.offset m).toNat % 8 = 0 →
      let full := Map.getD g.fullTags off false
      let data := BitVec.ofNat 64 (leNat (s.padBytes t.gang off 8))
      ((t.getG m.g).refuses (t.offset m) 8 8 .read = none →
        (full = true → YieldsIn s (s.putGang t.gang { g with fullTags := Map.del g.fullTags off }) t (.lde d m) d data ∧
          Yields s t (.ldf d m) d data) ∧
        (full = false → Waits s s t (.lde d m) .fullEmpty t.felimit.toNat .none ∧
          Waits s s t (.ldf d m) .fullEmpty t.felimit.toNat .none)) ∧
      ((t.getG m.g).refuses (t.offset m) 8 8 .write = none → t.memoryClear = true → s.owes t.key = false →
        (full = true → Waits s s t (.stf d m) .fullEmpty t.felimit.toNat .none) ∧
        (full = false → exec (.stf d m) s = .next ((s.putGang t.gang
          { g.setBytes off (leBytes 8 (t.getX d).toNat) with fullTags := Map.put g.fullTags off true }).putThread
            t.completed)))) ∧
    ((t.getG m.g).refuses (t.offset m) 8 8 .read = none → (t.offset m).toNat % 8 ≠ 0 →
      Raises s s t (.lde d m) Cause.misalignedAccess (t.offset m) ∧ Raises s s t (.ldf d m) Cause.misalignedAccess (t.offset m)) ∧
    ((t.getG m.g).refuses (t.offset m) 8 8 .write = none → (t.offset m).toNat % 8 ≠ 0 →
      Raises s s t (.stf d m) Cause.misalignedAccess (t.offset m)) ∧
    (∀ w, s.ev.a = t.key → t.status = .waiting w → t.parked = false → w.limit ≠ 0 → w.limit * 32 ≤ w.cycles →
      (w.instr = .cbacqW d p ∨ w.instr = .cbacqR d p ∨ w.instr = .barwait p q →
        exec .cbTimeout s = .next (s.raiseHere t.key Cause.cbTimeout (t.getX p) t.pc none)) ∧
      (w.instr = .lde d m ∨ w.instr = .ldf d m ∨ w.instr = .stf d m →
        exec .feTimeout s = .next (s.raiseHere t.key Cause.feTimeout (t.offset m) t.pc none)))

/-! ### The drawplate (R80, R199, R214 to R225, R448) -/

/-- Drawplate instructions (R216 to R225, R448): a copy captured, given its ticket and queued, or turned away by its checks;
a full thread waits; a join waits, completes or takes the fault once; the status of a ticket; a cancel; streams bound,
refused and read, a faulted element trapping with its number; a unit of bytes of a row landed by a beat, and the elements of a reducing
copy, combined over its sources in their order of device numbers, equal ones in that of the list (R80, R221); an element that arrives. -/
def Obligations.DrawplateResults : Prop :=
  (∀ (s : State) (t : Thread), Executing s t → ∀ (d p q u w : XReg) (op : DRedOp) (ty : Ty) (wd : WReg) (gw : GReg) (vd : VReg),
    let n := (t.getX p).toNat
    -- operation `k` issued with ticket DSEQ + 1 by thread `z`
    let issued := fun (z : Thread) (k : PlateKind) => { z with
      dseq := t.dseq + 1, plate := t.plate ++ [⟨t.dseq + 1, k, 0, none, .pending, s.stamps, s.stamps, s.nextHome⟩] }
    let known := t.plate.find? fun o => o.ticket == n
    let status := if n = 0 ∨ t.dseq < n then 4 else match known with
      | none => 1
      | some o => match o.status with | .pending => 0 | .complete => 1 | .cancelled => 2 | .faulted .. => 3
    (16 ≤ t.outstanding → Waits s s t (.dcopy d p q u) .sequencer 0 .none ∧
      Waits s s t (.dcopym d p q u w) .sequencer 0 .none ∧ Waits s s t (.dred op ty d p q u) .sequencer 0 .none) ∧
    (t.outstanding < 16 →
      (∀ c s', copyM t p q u s = .ok (c, s') → s' = s ∧
        c.dir = ((t.getX (p + 1)).extractLsb' 3 2).toNat ∧ c.seg = t.getG ((t.getX (p + 1)).extractLsb' 0 3) ∧
        c.addr = t.getX p ∧ c.mp = ((t.getX u).extractLsb' 32 32).toInt ∧
        c.rows = ((t.getX u).extractLsb' 16 16).toNat + 1 ∧ c.rb = ((t.getX u).extractLsb' 0 16).toNat ∧ c.rb ≠ 0 ∧
        c.br = ((t.getX (p + 1)).extractLsb' 5 5).toNat ∧ c.off = ((t.getX q).extractLsb' 0 22).toNat ∧
        c.sp = ((t.getX q).extractLsb' 22 22).toNat ∧
        (∃ z, Writes (issued t (.copy c none)) z d (BitVec.ofNat 64 (t.dseq + 1)) ∧
          exec (.dcopy d p q u) s = .next (s.stamped.putThread z.completed)) ∧
        (∀ f s'', followM t w s = .ok (f, s'') → ∃ y z,
          Writes { t with aseq := t.aseq + 1 } y (d + 1) (BitVec.ofNat 64 (t.aseq + 1)) ∧
          Writes (issued y (.copy c (some { f with ticket := t.aseq + 1, seqMark := s.stamps }))) z d
            (BitVec.ofNat 64 (t.dseq + 1)) ∧
          exec (.dcopym d p q u w) s = .next (s.stamped.putThread z.completed))) ∧
      (∀ c : PlateCopy, let y := t.getX (p + 1)
        let z := t.getX q
        let v := t.getX u
        let gn := y.extractLsb' 0 3
        let dir := (y.extractLsb' 3 2).toNat
        let br := (y.extractLsb' 5 5).toNat
        let cbw := y.getLsbD 10
        let bar := (y.extractLsb' 16 5).toNat
        let ben := y.getLsbD 21
        let off := (z.extractLsb' 0 22).toNat
        let sp := (z.extractLsb' 22 22).toNat
        let rb := (v.extractLsb' 0 16).toNat
        let rows := (v.extractLsb' 16 16).toNat + 1
        y.extractLsb' 22 42 = 0 → y.extractLsb' 11 5 = 0 → z.extractLsb' 44 20 = 0 → dir ≠ 3 → rb ≠ 0 →
        (dir = 2 → gn = 0) → (cbw = true → dir ≠ 1 ∧ off / 8 = 0 ∧
          ∃ b, s.cb? t.gang (off % 8) = some b ∧ rows * rb ≤ b.size) →
        (br ≠ 0 → sp % 64 = 0 ∧ (cbw = true ∨ off % 64 = 0)) → (ben = true → (s.bar? t.gang bar).isSome = true) →
        c = ⟨dir, t.getG gn, t.getX p, (v.extractLsb' 32 32).toInt, rows, rb, br, off, sp, if ben then some bar else none,
          if cbw then some (off % 8) else none⟩ →
        (dir ≠ 2 → ∀ r < rows, c.seg.refuses (c.mem r 0) rb 1 (if dir = 0 then .read else .write) = none) →
        c.miss (s.gangOf t) (if cbw then none else some off) = none →
        (∃ z, Writes (issued t (.copy c none)) z d (BitVec.ofNat 64 (t.dseq + 1)) ∧
          exec (.dcopy d p q u) s = .next (s.stamped.putThread z.completed)) ∧
        (let x := t.getX (w + 1)
          let na := x.extractLsb' 0 6
          let nb := x.extractLsb' 8 6
          let a := AnvilSrc.pad (t.getX na) (t.getX (na + 1))
          let b := AnvilSrc.pad (t.getX nb) (t.getX (nb + 1))
          let org := t.getX w
          let f := (s.core t.core).format
          x.extractLsb' 6 2 = 0 → x.extractLsb' 14 2 = 0 → x.extractLsb' 17 47 = 0 → na ≠ 0 → na.toNat % 2 = 0 → nb ≠ 0 →
          nb.toNat % 2 = 0 → MmaClean s t org a b → ∃ y z,
            Writes { t with aseq := t.aseq + 1 } y (d + 1) (BitVec.ofNat 64 (t.aseq + 1)) ∧
            Writes (issued y (.copy c (some {
              key := t.key, core := t.core, ticket := t.aseq + 1, kind := .mma (x.getLsbD 16) a b
              col := (org.extractLsb' 16 10).toNat, row := (t.window.getD ⟨0, 0⟩).base + (org.extractLsb' 0 10).toNat
              rows := fmtM f, cols := fmtN f, depth := fmtK f, format := f, mask := (s.core t.core).zeroMask, done := 0
              left := 0, entry := none, seqMark := s.stamps, seam := t.depth, status := 0, zeros := 0, freed := 0 }))) z d
              (BitVec.ofNat 64 (t.dseq + 1)) ∧
            exec (.dcopym d p q u w) s = .next (s.stamped.putThread z.completed))) ∧
      ((t.getX (p + 1)).extractLsb' 22 42 ≠ 0 ∨ (t.getX (p + 1)).extractLsb' 11 5 ≠ 0 →
        Raises s s t (.dcopy d p q u) Cause.segmentLimit (t.getX (p + 1)) ∧
        Raises s s t (.dcopym d p q u w) Cause.segmentLimit (t.getX (p + 1))) ∧
      (∀ es, let x := t.getX p
        let k := (t.getX u).toNat
        let list := (x.extractLsb' 0 22).toNat
        let count := (x.extractLsb' 22 4).toNat + 1
        let dst := ((t.getX q).extractLsb' 0 22).toNat
        let bar := (x.extractLsb' 32 5).toNat
        x.extractLsb' 38 26 = 0 → x.extractLsb' 26 6 = 0 → (x.getLsbD 37 = true → (s.bar? t.gang bar).isSome = true) →
        (t.getX q).extractLsb' 22 42 = 0 → 0 < k → k ≤ 65536 → list % 16 = 0 → s.padReadable t list (16 * count) →
        s.vectorClear t (.pad list) (16 * count) →
        readSources count (s.padBytes t.gang list (16 * count)) = some es →
        (∀ e ∈ es, (t.getG (BitVec.ofNat 3 e.2)).refuses e.1 (k * (ty.bits / 8)) 1 .read = none ∧
          padSide (s.gangOf t) (t.getG (BitVec.ofNat 3 e.2)) e.1 (k * (ty.bits / 8)) = none) →
        allotMiss (s.gangOf t) dst (k * (ty.bits / 8)) = none →
        ∃ order z, order.Perm (es.map fun e => (t.getG (BitVec.ofNat 3 e.2), e.1)) ∧
          (order.map fun e => if e.1.type = .peer then e.1.peer.toNat else s.ownNumber).Pairwise (· ≤ ·) ∧
          (∀ n, order.filter (fun e => (if e.1.type = .peer then e.1.peer.toNat else s.ownNumber) == n) =
            (es.map fun e => (t.getG (BitVec.ofNat 3 e.2), e.1)).filter
              fun e => (if e.1.type = .peer then e.1.peer.toNat else s.ownNumber) == n) ∧
          Writes (issued t (.red ⟨op, ty, order, dst, k, if x.getLsbD 37 then some bar else none⟩)) z d
            (BitVec.ofNat 64 (t.dseq + 1)) ∧
          exec (.dred op ty d p q u) s = .next (s.stamped.putThread z.completed))) ∧
    ((∃ o ∈ t.plate, o.ticket ≤ n ∧ o.status = .pending) → Waits s s t (.dwait p) .sequencer 0 .none) ∧
    ((∀ o ∈ t.plate, o.ticket ≤ n → o.status = .complete ∨ o.status = .cancelled ∨ ∃ c v, o.status = .faulted c v true) →
      Leaves s (.dwait p) t) ∧
    (∀ before o after c v, t.plate = before ++ o :: after → o.ticket ≤ n → o.status = .faulted c v false →
      (∀ k ∈ t.plate, k.ticket ≤ n → k.status ≠ .pending) →
      (∀ k ∈ before, k.ticket ≤ n → ∀ c v, k.status ≠ .faulted c v false) →
      exec (.dwait p) s = .next ((s.putThread (t.observe o.ticket)).raiseHere t.key c v t.pc none)) ∧
    (∃ z, Writes (t.observe n) z d (BitVec.ofNat 64 status) ∧ Leaves s (.dtest d p) z) ∧
    ((∀ o ∈ t.plate, o.ticket = n → o.slot = none) → ∃ y z, Writes y z d (BitVec.ofNat 64 status) ∧
      Leaves s (.dcancel d p) z ∧ y = { t with plate := y.plate } ∧ y.plate.length = t.plate.length ∧
      ∀ k, (h : k < t.plate.length) → ∃ o', y.plate[k]? = some o' ∧
        (t.plate[k].ticket ≠ n → o' = t.plate[k]) ∧
        (t.plate[k].ticket = n → t.plate[k].status = .pending → o' = { t.plate[k] with status := .cancelled })) ∧
    (∀ o c f b a, (t.plate.find? fun o => o.ticket == n && o.status == .pending) = some o → o.kind = .copy c f →
      c.buf = some b → o.slot = some a → ∃ y z, Writes y z d (BitVec.ofNat 64 status) ∧ y = { t with plate := y.plate } ∧
        exec (.dcancel d p) s =
          .next ((((s.releaseSlot t.gang b false).putThread z).slotFreed t.gang o).onThread t.key Thread.completed)) ∧
    (∀ size, size = ty.bits / 8 →
      (t.getX u = 0 → exec (.dstream ty wd gw p q u) s = .next ((s.streamGone t wd).putThread (t.setW wd none).completed)) ∧
      (t.getX u ≠ 0 → n % size ≠ 0 ∨ (t.getX q).toNat % size ≠ 0 →
        Raises s s t (.dstream ty wd gw p q u) Cause.misalignedAccess (t.getX p)) ∧
      (n % size = 0 → (t.getX q).toNat % size = 0 → 2 ^ 32 ≤ (t.getX u).toNat →
        Raises s s t (.dstream ty wd gw p q u) Cause.segmentLimit (t.getX u)) ∧
      (n % size = 0 → (t.getX q).toNat % size = 0 → t.getX u ≠ 0 → (t.getX u).toNat < 2 ^ 32 →
        (∀ c v, streamRefusal (s.gangOf t) (t.getG gw) (t.getX p) (t.getX q) size (t.getX u).toNat = some (c, v) →
          Raises s s t (.dstream ty wd gw p q u) c v) ∧
        (streamRefusal (s.gangOf t) (t.getG gw) (t.getX p) (t.getX q) size (t.getX u).toNat = none →
          exec (.dstream ty wd gw p q u) s = .next ((s.stamped.streamGone t wd).putThread (t.setW wd
            (some ⟨ty, s.stamps, s.nextHome, t.getG gw, t.getX p, t.getX q, (t.getX u).toNat, 0, 0, []⟩)).completed)))) ∧
    (t.getW wd = none → Raises s s t (.wget ty vd wd u) Cause.badHandle (wd.setWidth 64)) ∧
    (∀ b, t.getW wd = some b →
      let vl := min (t.getX u).toNat ty.vlmax
      let need := min vl (b.count - b.consumed)
      (ty.bits ≠ b.ty.bits → Raises s s t (.wget ty vd wd u) Cause.badHandle (wd.setWidth 64)) ∧
      (ty.bits = b.ty.bits → t.held = [] →
        (b.arrived.length < need → (∀ e ∈ b.arrived, e.fault = none) →
          Waits s (if t.asked = .elements then s else s.count 1 t.bench (some t.ctx) 0x14 1) t (.wget ty vd wd u) .load 0 .elements) ∧
        (∀ k e c v, k < need → b.arrived[k]? = some e → e.fault = some (c, v) →
          (∀ i < k, ∀ e, b.arrived[i]? = some e → e.fault = none) → s.banks = [] → ∃ z : Thread,
          exec (.wget ty vd wd u) s = .next ((s.putThread z).raiseHere t.key c v t.pc (some k)) ∧
          z = { t with v := z.v, w := z.w } ∧ z.getW wd = some { b with consumed := b.consumed + k, arrived := b.arrived.drop k } ∧
          (∀ r, r ≠ vd → z.getV r = t.getV r) ∧ (∀ r, r ≠ wd → z.getW r = t.getW r) ∧
          (∀ i, (i + 1) * ty.bits ≤ 4096 → z.elem vd ty i = if i < k then
              ((b.arrived[i]?).map (·.data)).getD 0 % 2 ^ ty.bits else t.elem vd ty i)) ∧
        (need ≤ b.arrived.length → (∀ e ∈ b.arrived, e.fault = none) → s.banks = [] → ∃ z : Thread,
          Leaves s (.wget ty vd wd u) z ∧ z = { t with v := z.v, w := z.w } ∧
          z.getW wd = some { b with consumed := b.consumed + need, arrived := b.arrived.drop need } ∧
          (∀ r, r ≠ vd → z.getV r = t.getV r) ∧ (∀ r, r ≠ wd → z.getW r = t.getW r) ∧
          (∀ k, (k + 1) * ty.bits ≤ 4096 → z.elem vd ty k = if k < need then
              ((b.arrived[k]?).map (·.data)).getD 0 % 2 ^ ty.bits
            else if k < vl then 0 else t.elem vd ty k))))) ∧
  (∀ (s : State) (t : Thread) (g : Gang) (o : PlateOp) (c : PlateCopy) (rest : List PlateWork),
    s.thread? t.key = some t → s.gang? t.gang = some g → s.banks = [] →
    s.beatTurn (s.bench (s.ev.a / 8)).plateTurn s.plateReady s.ev.a = true →
    s.plateWork s.ev.a = .op t.gang (.thread t.key) o :: rest → s.forkDone (.thread t.key) o = true →
    o.kind = .copy c none → o.slot = none → o.status = .pending → c.buf = none → c.bar = none → c.br = 0 → c.dir = 2 →
    g.bad = [] → c.rb ≠ 0 → o.mark < c.rows * c.rb →
    let row := o.mark / c.rb
    let col := o.mark % c.rb
    let dest := c.off + row * c.sp + col
    let n := min (c.rb - col) (64 - dest % 64)
    let src := (c.addr + BitVec.ofInt 64 ((row : Int) * c.mp + col)).toNat
    (∀ k < n, allotMiss (some g) (dest + k) 1 = none) →
    ∃ s' g' t', exec .drawplateBeat s = .next s' ∧ s'.gang? t.gang = some g' ∧ s'.thread? t.key = some t' ∧
      (∀ a, g'.byteAt a = if dest ≤ a ∧ a < dest + n then g.byteAt (src + (a - dest)) else g.byteAt a) ∧
      t' = { t with plate := t'.plate } ∧
      t'.plate = if c.rows * c.rb ≤ o.mark + n then t.plate.filter fun k => k.ticket != o.ticket
        else t.plate.map fun k => if k.ticket == o.ticket then { o with mark := o.mark + n } else k) ∧
  (∀ (s : State) (t : Thread) (g : Gang) (o : PlateOp) (c : PlateRed) (rest : List PlateWork) (first : Nat),
    s.thread? t.key = some t → s.gang? t.gang = some g → s.banks = [] →
    s.beatTurn (s.bench (s.ev.a / 8)).plateTurn s.plateReady s.ev.a = true →
    s.plateWork s.ev.a = .op t.gang (.thread t.key) o :: rest → s.forkDone (.thread t.key) o = true →
    o.kind = .red c → o.slot = none → o.status = .pending → c.bar = none → g.bad = [] → c.t.bits ∈ [16, 32] → c.srcs ≠ [] →
    let size := c.t.bits / 8
    let dest := c.dst + o.mark
    let n := min (c.n - first) (max 1 ((64 - dest % 64) / size))
    let value := fun (x : Segment × Word) (e : Nat) =>
      leNat (g.bytesAt (x.1.base.toNat + (x.2 + BitVec.ofNat 64 (first * size)).toNat + e * size) size)
    let result := fun e => match c.srcs with
      | [] => 0
      | x :: more => more.foldl (fun acc y => redElem c.op c.t acc (value y e)) (value x e)
    o.mark = first * size → first < c.n →
    (∀ x ∈ c.srcs, x.1.type = .scratch ∧
      x.1.refuses (x.2 + BitVec.ofNat 64 (first * size)) (n * size) 1 .read = none ∧
      allotMiss (some g) (x.1.base.toNat + (x.2 + BitVec.ofNat 64 (first * size)).toNat) (n * size) = none) →
    ∃ s' g' t', exec .drawplateBeat s = .next s' ∧ s'.gang? t.gang = some g' ∧ s'.thread? t.key = some t' ∧
      (∀ e < n, ∀ k < size, g'.byteAt (dest + e * size + k) = BitVec.ofNat 8 (result e / 256 ^ k)) ∧
      (∀ a, ¬ (dest ≤ a ∧ a < dest + n * size) → g'.byteAt a = g.byteAt a) ∧
      t' = { t with plate := t'.plate } ∧
      t'.plate = if c.n ≤ first + n then t.plate.filter fun k => k.ticket != o.ticket
        else t.plate.map fun k => if k.ticket == o.ticket then { o with mark := o.mark + n * size } else k) ∧
  (∀ (ty : Ty) (x y : Nat), x < 2 ^ ty.bits → y < 2 ^ ty.bits →
    (ty.isInt = true → IntElem ty false (readInt ty x + readInt ty y) (redElem .add ty x y) ∧
      IntElem ty false (min (readInt ty x) (readInt ty y)) (redElem .min ty x y) ∧
      IntElem ty false (max (readInt ty x) (readInt ty y)) (redElem .max ty x y)) ∧
    (ty.isInt = false → redElem .add ty x y = (addFp ty .rne false (readFp ty x) (readFp ty y)).bits ∧
      redElem .min ty x y = (minmaxBits ty false false x y).bits ∧ redElem .max ty x y = (minmaxBits ty false true x y).bits)) ∧
  (∀ (s : State) (t : Thread) (g : Gang) (b : Stream),
    s.thread? s.ev.a = some t → t.key = s.ev.a → s.gang? t.gang = some g → s.banks = [] → t.status = .runnable →
    t.w[s.ev.b]? = some (some b) →
    let i := b.consumed + b.arrived.length
    let off := b.base + BitVec.ofNat 64 i * b.stride
    let a := b.seg.base.toNat + off.toNat
    let n := b.ty.bits / 8
    (b.requested ≤ i → exec .streamElementArrival s = .next s) ∧
    (i < b.requested → b.seg.type = .scratch → b.seg.refuses off n 1 .read = none → allotMiss (some g) a n = none →
      g.badAt a n = none → 0 < n → n ≤ 64 - a % 64 → exec .streamElementArrival s = .next (s.putThread (t.setW (BitVec.ofNat 3 s.ev.b)
        (some { b with arrived := b.arrived ++ [⟨i, leNat (s.padBytes t.gang a n), none⟩] })))))

/-! ### Screen tiles and encoders (R320 to R340) -/

/-- Rays, textures, shader matrices, tickets, blends and frames (R323, R324, R327 to R330, R332 to R337, R340). Tickets: a request
sent and answered; tickets handed out and applied in order, a tile's bytes blended by mode under the mask. A frame's entry popped as
its bitstream grows. `boxt`: the tests that run, the slab test of a box, and the order of the four boxes, hits by rising t and then
by number, misses last. `trit`: the exact edge functions, the hit and the rounded results. `vmm8`: the exact sum of the row's
products and the addend, rounded once. `tsamp` and `tfetch` in a scratchpad: the texel indices, weights, levels, sample positions
and layer of each form, and the channels they write, an exact weighted sum rounded once. -/
def Obligations.ScreenResults : Prop :=
  (∀ (s s2 : State) (t : Thread), Executing s t → ∀ (d q u : XReg) (gp : GReg) (vw : VReg) (pa va : Nat) (leaf : Word),
    let o := t.getX q
    let x := t.getX u
    let sent := fun op => { s2 with tickets := s2.tickets ++ [(s2.nextTicket, ⟨t.key, t.ctx, t.part, pa, op⟩)],
                                    nextTicket := s2.nextTicket + 1 }
    let src := (List.range 256).map fun i => (t.getV vw).extractLsb' (8 * i) 8
    (∀ n a, t.asked = .ticket n (some a) → s.thread? t.key = some t →
      Yields s t (.tkget d gp q) d a ∧ Yields s t (.tkgetPeek d gp q) d a ∧ Yields s t (.tkcommit d gp q u vw) d a ∧
      Yields s t (.tkcommitTry d gp q u vw) d a ∧ Yields s t (.tkretire d gp q u) d a) ∧
    (t.asked = .none →
      ((t.getG gp).type = .scratch ∨ (t.getG gp).type = .peer → Raises s s t (.tkget d gp q) Cause.segmentRights o) ∧
      ((t.getG gp).type = .global →
        s.check t.agent (s.gangOf t) (t.getG gp) o 256 256 .atomic o = (.ok (.mem pa va leaf), s2) →
        s2.sharedFrame pa = false → pteBit leaf 5 = false →
        Waits s (sent .get) t (.tkget d gp q) .load 0 (.ticket s2.nextTicket none) ∧
        Waits s (sent .peek) t (.tkgetPeek d gp q) .load 0 (.ticket s2.nextTicket none) ∧
        (x.extractLsb' 36 28 = 0 → Waits s (sent (.commit ⟨t.key, x.setWidth 32, 0, 0, [], true⟩ false)) t
          (.tkretire d gp q u) .load 0 (.ticket s2.nextTicket none)) ∧
        (s2.thread? t.key = some t → x.extractLsb' 36 28 ≠ 0 → YieldsIn s s2 t (.tkretire d gp q u) d 3) ∧
        (s2.thread? t.key = some t → x.extractLsb' 36 28 ≠ 0 ∨ 7 ≤ (x.extractLsb' 32 4).toNat →
          YieldsIn s s2 t (.tkcommit d gp q u vw) d 3 ∧ YieldsIn s s2 t (.tkcommitTry d gp q u vw) d 3) ∧
        (x.extractLsb' 36 28 = 0 → (x.extractLsb' 32 4).toNat < 7 → t.entriesTaken < 16 → t.owesReg vw = false →
          t.memoryClear = true → s2.owes t.key = false →
          let c : Commit := ⟨t.key, x.setWidth 32, (x.extractLsb' 32 4).toNat, t.getX (u + 1), src, false⟩
          Waits s (sent (.commit c false)) t (.tkcommit d gp q u vw) .sequencer 0 (.ticket s2.nextTicket none) ∧
          Waits s (sent (.commit c true)) t (.tkcommitTry d gp q u vw) .sequencer 0 (.ticket s2.nextTicket none))))) ∧
  (∀ (s : State) (r : TicketReq) (t : Thread) (w : Wait), Map.get? s.tickets s.ev.a = some r →
    s.thread? r.key = some t → t.key = r.key → t.status = .waiting w → w.asked = .ticket s.ev.a none →
    let s0 := { s with tickets := Map.del s.tickets s.ev.a }
    let answered := fun (s' : State) (a : Word) => exec .ticketRequestAtTileHome s = .next
      (s'.putThread (t.waitingAs { w with asked := .ticket s.ev.a (some a), woken := true }))
    let tiled := fun e : Tile => { s0 with tiles := Map.put s.tiles r.tile e }
    (Map.get? s.tiles r.tile = none →
      (r.op = .peek → answered s0 0) ∧
      (r.op = .get → if s.pinFits r.part r.tile then ∃ s', exec .ticketRequestAtTileHome s = .next s' ∧
          Map.get? s'.tiles r.tile = some ⟨r.ctx, r.part, 1, 0, [], []⟩ ∧
          s'.thread? r.key = some (t.waitingAs { w with asked := .ticket s.ev.a (some 0), woken := true })
        else answered s0 0x1000000000000000) ∧
      (∀ c once, r.op = .commit c once → answered s0 2)) ∧
    (∀ e, Map.get? s.tiles r.tile = some e →
      (r.op = .peek → answered s0 (BitVec.ofNat 64 (e.taken.toNat * 2 ^ 32 + e.applied.toNat))) ∧
      (r.op = .get → (e.taken - e.applied).toNat = 2 ^ 31 → answered s0 0x2000000000000000) ∧
      (r.op = .get → (e.taken - e.applied).toNat ≠ 2 ^ 31 → e.taken + 1 ≠ e.applied →
        answered (tiled { e with taken := e.taken + 1 }) (e.taken.setWidth 64)) ∧
      (∀ c once, r.op = .commit c once →
        (e.outstanding c.ticket = false → (∀ k ∈ e.commits, k.ticket ≠ e.applied) → e.waiting = [] → e.applied ≠ e.taken →
          answered (tiled e) 2) ∧
        (e.outstanding c.ticket = true → c.ticket ≠ e.applied → e.commits.length < 64 →
          (∀ k ∈ e.commits, k.ticket ≠ e.applied) → e.waiting = [] →
          answered (tiled { e with commits := e.commits ++ [c] }) 0) ∧
        (e.outstanding c.ticket = true → c.ticket ≠ e.applied → 64 ≤ e.commits.length →
          (once = true → answered s0 1) ∧ (once = false → exec .ticketRequestAtTileHome s = .next
            (tiled { e with waiting := e.waiting ++ [(s.ev.a, r.key, c)] }))) ∧
        (e.outstanding c.ticket = true → c.ticket = e.applied → e.commits = [] → e.waiting = [] →
          (∀ l, r.tile / 128 ≤ l → l ≤ (r.tile + 255) / 128 → s.objState (s.objOf (l * 128)) = .invalid) →
          ∃ s', exec .ticketRequestAtTileHome s = .next s' ∧
            (e.applied + 1 = e.taken → Map.get? s'.tiles r.tile = none) ∧
            (e.applied + 1 ≠ e.taken → Map.get? s'.tiles r.tile = some { e with applied := e.applied + 1 }) ∧
            (c.retire = true → ∀ a, s'.byteAt a = s.byteAt a) ∧
            (c.retire = false → ∀ i < 256, s'.byteAt (r.tile + i) = blendByte c (s.bytesAt r.tile 256) i))))) ∧
  (∀ (c : Commit) (old : List Byte) (i : Nat), i < 256 → old.length = 256 →
    let src := ((c.src[i]?).getD 0).toNat
    let d := ((old[i]?).getD 0).toNat
    let sa := ((c.src[i / 4 * 4 + 3]?).getD 0).toNat
    (c.mask.getLsbD (i / 4) = false → blendByte c old i = (old[i]?).getD 0) ∧
    (c.mask.getLsbD (i / 4) = true → c.retire = false →
      (c.op = 0 → (blendByte c old i).toNat = src) ∧ (c.op = 2 → (blendByte c old i).toNat = min 255 (src + d)) ∧
      (c.op = 3 → (blendByte c old i).toNat = (src * d + 127) / 255) ∧
      (c.op = 5 → (blendByte c old i).toNat = min src d) ∧ (c.op = 6 → (blendByte c old i).toNat = max src d) ∧
      (i % 4 = 3 → c.op = 1 ∨ c.op = 4 → (blendByte c old i).toNat = sa + (d * (255 - sa) + 127) / 255) ∧
      (i % 4 ≠ 3 → c.op = 1 → (blendByte c old i).toNat = (src * sa + d * (255 - sa) + 127) / 255) ∧
      (i % 4 ≠ 3 → c.op = 4 → (blendByte c old i).toNat = min 255 (src + (d * (255 - sa) + 127) / 255)))) ∧
  (∀ (s : State) (c : Ctx) (q : Sprue) (entry : SprueEntry) (rest : List SprueEntry) (e : EncStream),
    let n := c.part * 65536 + (q.enc.extractLsb' 0 16).toNat
    s.ctx? s.ev.a = some c → s.sprue? s.ev.a s.ev.b = some q → q.kind = .encoder → q.entries = entry :: rest →
    Map.get? s.encoders n = some e → q.donec = 0xFFF →
    (∀ va ∈ State.frameVas e ((entry.words[1]?).getD 0) q.tstride, ∃ p, s.frameTile s.ev.a c.part va = .ok p) →
    ∃ s' q', exec .encoderFrame s = .next s' ∧ s'.sprue? s.ev.a s.ev.b = some q' ∧ q' = { q with entries := rest } ∧
      ∃ e', Map.get? s'.encoders n = some e' ∧ e.written ≤ e'.written ∧
        e'.ended = (e.ended || ((entry.words[3]?).getD 0).getLsbD 8)) ∧
  (∀ (t : Thread) (vd va vb : VReg) (j : Nat),
    let ws := boxTest t vd va vb j
    let hit := fun b => boxHit ((List.range 8).map fun i => t.elem va .f32 (8 * j + i))
      ((List.range 6).map fun i => t.elem vb .f32 (32 * j + 6 * b + i))
    ws.length = 8 ∧ (∀ b < 4, ws[b]? = some ⟨vd, (8 * j + b) * 32, 32, (hit b).getD f32Inf⟩) ∧
    ∃ order : List Nat, order.Perm [0, 1, 2, 3] ∧
      (∀ k, (h : k < order.length) → ws[4 + k]? = some ⟨vd, (8 * j + 4 + k) * 32, 32, order[k]⟩) ∧
      (∀ a b, [a, b].Sublist order → (hit a = none → hit b = none ∧ a < b) ∧
        ∀ x y, hit a = some x → hit b = some y →
          fpLt (readFp .f32 x) (readFp .f32 y) = true ∨ (fpEq (readFp .f32 x) (readFp .f32 y) = true ∧ a < b))) ∧
  (∀ ray box : List Nat, ray.length = 8 → box.length = 6 → (∀ x ∈ ray, x < 2 ^ 32) → (∀ x ∈ box, x < 2 ^ 32) →
    let r := fun i => readFp .f32 ((ray[i]?).getD 0)
    let b := fun i => readFp .f32 ((box[i]?).getD 0)
    let infinite := fun a => r (a + 3) = .inf false ∨ r (a + 3) = .inf true
    let along := fun a i => match b i with
      | .inf n => if (r (a + 3)).toRat = 0 then Fp.fin false 0 else .inf (n != (r (a + 3)).neg)
      | x => Fp.ofRat ((x.toRat - (r a).toRat) * (r (a + 3)).toRat)
    let p := fun a => along a a
    let q := fun a => along a (a + 3)
    let low := fun a => readFp .f32 (convertFp .f32 .rdn false (if fpLt (q a) (p a) then q a else p a)).bits
    let high := fun a => readFp .f32 (convertFp .f32 .rup false (if fpLt (q a) (p a) then p a else q a)).bits
    let isLow := fun v => v = r 6 ∨ ∃ a < 3, ¬ infinite a ∧ v = low a
    let isHigh := fun v => v = r 7 ∨ ∃ a < 3, ¬ infinite a ∧ v = high a
    ((boxHit ray box).isSome = true ↔
      (∀ x ∈ ray, (readFp .f32 x).isNaN = false) ∧ (∀ x ∈ box, (readFp .f32 x).isNaN = false) ∧
      (∀ a < 3, r a ≠ .inf false ∧ r a ≠ .inf true ∧ fpLe (b a) (b (a + 3)) = true ∧
        (infinite a → fpLe (b a) (r a) = true ∧ fpLe (r a) (b (a + 3)) = true)) ∧
      ∀ x y, isLow x → isHigh y → fpLe x y = true) ∧
    (∀ n, boxHit ray box = some n → (∃ v, isLow v ∧ fpEq v (readFp .f32 n) = true) ∧
      ∀ v, isLow v → fpLe v (readFp .f32 n) = true)) ∧
  (∀ (t : Thread) (vd va vb : VReg) (j : Nat),
    let ws := triTest t vd va vb j
    let a := fun i => readFp .f32 (t.elem va .f32 (8 * j + i))
    let b := fun i => readFp .f32 (t.elem vb .f32 (16 * j + i))
    let o := fun k : Fin 3 => (a k.val).toRat
    let d := fun k : Fin 3 => (a (3 + k.val)).toRat
    let vert := fun (n : Nat) (k : Fin 3) => (b (3 * n + k.val)).toRat
    let dot := fun (x y : Fin 3 → Rat) => x 0 * y 0 + x 1 * y 1 + x 2 * y 2
    let cross := fun (x y : Fin 3 → Rat) (k : Fin 3) => x (k + 1) * y (k + 2) - x (k + 2) * y (k + 1)
    let from' := fun n k => vert n k - o k
    let U := dot d (cross (from' 2) (from' 1))
    let V := dot d (cross (from' 0) (from' 2))
    let W := dot d (cross (from' 1) (from' 0))
    let normal := cross (fun k => vert 1 k - vert 0 k) fun k => vert 2 k - vert 0 k
    let det := U + V + W
    let tx := dot (from' 0) normal / dot d normal
    let hit := (∀ i < 8, ∃ n m, a i = .fin n m) ∧ (∀ i < 9, ∃ n m, b i = .fin n m) ∧ det ≠ 0 ∧
      ((0 ≤ U ∧ 0 ≤ V ∧ 0 ≤ W) ∨ (U ≤ 0 ∧ V ≤ 0 ∧ W ≤ 0)) ∧ (a 6).toRat ≤ tx ∧ tx ≤ (a 7).toRat
    ws.length = 8 ∧ dot d normal = - det ∧ (∀ k, 4 ≤ k → k < 8 → ws[k]? = some ⟨vd, (8 * j + k) * 32, 32, 0⟩) ∧
    (¬ hit → ∀ k < 4, ws[k]? = some ⟨vd, (8 * j + k) * 32, 32, if k = 0 then 0x7F800000 else 0⟩) ∧
    (hit → ws[0]? = some ⟨vd, 8 * j * 32, 32, f32Of tx⟩ ∧ ws[1]? = some ⟨vd, (8 * j + 1) * 32, 32, f32Of (V / det)⟩ ∧
      ws[2]? = some ⟨vd, (8 * j + 2) * 32, 32, f32Of (W / det)⟩ ∧
      ws[3]? = some ⟨vd, (8 * j + 3) * 32, 32, if 0 < det then 1 else 2⟩)) ∧
  (∀ (s : State) (t : Thread) (e : SeqEntry) (j : Nat) (vd va vb : VReg) (l : VLen),
    let u := t.withSources e
    let run := runGroup s t e j
    let runs := fun (per n : Nat) => decide (n < e.vl / per) && u.active l.kg (per * n)
    (e.instr = .boxt vd va vb l → run.s = s ∧ run.stop = none ∧ run.out.flags = 0 ∧
      run.out.v = ([j].filter (runs 32)).flatMap (boxTest u vd va vb)) ∧
    (e.instr = .trit vd va vb l → run.s = s ∧ run.stop = none ∧ run.out.flags = 0 ∧
      run.out.v = ([2 * j, 2 * j + 1].filter (runs 16)).flatMap (triTest u vd va vb)) ∧
    (∀ e5 (a c : VSrc) (xr : XReg), e.instr = .vmm8 e5 vd a c xr l →
      let ty : Ty := if e5 then .fp8e5 else .fp8e4
      let byte := fun (m : List Word) (n : Nat) => (((m[n / 8]?).getD 0).extractLsb' (8 * (n % 8)) 8).toNat
      let mat := fun n => byte (e.xs.drop 2) n
      let els := groupEls t e e.shape j
      (∀ n < 1056, (s.padBytes t.gang ((e.xs[1]?).getD 0).toNat 1056)[n]? =
        some (BitVec.ofNat 8 (byte (s.matrixWords t e) n))) ∧
      run.s = s ∧ run.stop = none ∧ run.out.v.length = els.length ∧
      ∀ k, (h : k < els.length) → ∃ v, run.out.v[k]? = some ⟨vd, els[k] * 32, 32, v⟩ ∧
        let g := els[k] / 32
        let i := els[k] % 32
        let scale := mat (1024 + i)
        let el := fun n => if 32 * g + n < e.vl then readFz e.fz .f32 (u.elem a.reg .f32 (32 * g + n)) else .fin false 0
        let cell := fun n => readFp ty (mat (32 * i + n))
        let add := readFz e.fz .f32 (u.elem c.reg .f32 els[k])
        let sum := add.toRat + ((List.range 32).map fun n =>
          (cell n).toRat * pow2 ((scale : Int) - 127) * (el n).toRat).sum
        (scale = 0xFF → v = 0x7FC00000) ∧
        ((∃ n < 32, (el n).isNaN = true ∨ (cell n).isNaN = true) ∨ add.isNaN = true → v = 0x7FC00000) ∧
        (scale ≠ 0xFF → (∃ n m, add = .fin n m) → (∀ n < 32, (∃ p m, el n = .fin p m) ∧ ∃ p m, cell n = .fin p m) →
          (sum ≠ 0 → v = (flushResult e.fz .f32 (roundMag .f32 .rne false (decide (sum < 0)) (magnitude sum))).bits) ∧
          (sum = 0 → v % 2 ^ 31 = 0)))) ∧
  ((∀ (mode n : Nat) (i : Int), 0 < n →
    (mode = 0 → ∃ k < n, resolveIndex mode n i = some k ∧ (k : Int) = i % n) ∧
    (mode = 1 → resolveIndex mode n i = some (max 0 (min i ((n : Int) - 1))).toNat) ∧
    (mode = 2 → (i < 0 ∨ (n : Int) ≤ i → resolveIndex mode n i = none) ∧
      (0 ≤ i → i < n → resolveIndex mode n i = some i.toNat))) ∧
  (∀ (mode n : Nat) (linear : Bool), 0 < n →
    (mode = 2 → ∀ p ∈ axisTexels mode n linear none, p.1 = none) ∧
    (mode ≠ 2 → axisTexels mode n linear none = axisTexels mode n linear (some 0)) ∧
    (∀ u, axisTexels mode n false (some u) = [(resolveIndex mode n (u * n).floor, 1)]) ∧
    (∀ u, ∃ k : Nat, k < 256 ∧ ∃ i : Int, (i : Rat) + (k : Rat) / 256 ≤ u * n - 1 / 2 ∧
      u * n - 1 / 2 < (i : Rat) + ((k + 1 : Nat) : Rat) / 256 ∧ axisTexels mode n true (some u) =
        [(resolveIndex mode n i, 1 - (k : Rat) / 256), (resolveIndex mode n (i + 1), (k : Rat) / 256)])) ∧
  (∀ (t : Tex) (r : Rat), let top : Rat := ((t.levels - 1 : Nat) : Rat)
    let c := min r top
    (r ≤ 0 → levelsOf t (Fp.ofRat r) = ([(0, 1)], t.linMag)) ∧
    (0 < r → t.mip = 0 → levelsOf t (Fp.ofRat r) = ([(0, 1)], t.linMin)) ∧
    (0 < r → t.mip = 1 → levelsOf t (Fp.ofRat r) = ([((c + 1 / 2).floor.toNat, 1)], t.linMin)) ∧
    (0 < r → t.mip = 2 → levelsOf t (Fp.ofRat r) = ([(c.floor.toNat, 1 - (c - (c.floor : Rat))),
      (min (c.floor.toNat + 1) (t.levels - 1), c - (c.floor : Rat))], t.linMin)) ∧
    (∀ q, levelsOf t (.nan q) = ([(0, 1)], t.linMag)) ∧
    (0 < t.layers → (∀ q, layerOf t (.nan q) = 0) ∧ (r ≤ 0 → layerOf t (Fp.ofRat r) = 0) ∧
      (((t.layers - 1 : Nat) : Rat) ≤ r → layerOf t (Fp.ofRat r) = t.layers - 1) ∧
      (0 ≤ r → r ≤ ((t.layers - 1 : Nat) : Rat) → magnitude (((layerOf t (Fp.ofRat r) : Nat) : Rat) - r) ≤ 1 / 2 ∧
        (magnitude (((layerOf t (Fp.ofRat r) : Nat) : Rat) - r) = 1 / 2 → layerOf t (Fp.ofRat r) % 2 = 0)))) ∧
  (∀ (th : Thread) (t : Tex) (va vb : VReg) (f el : Nat),
    let a := fun g => readFp .f32 (th.elem va .f32 (32 * g + el))
    let n := fun g => readInt .i32 (th.elem va .i32 (32 * g + el))
    let b := fun g => readFp .f32 (th.elem vb .f32 (32 * g + el))
    let at' := fun (lambda : Fp) => (levelsOf t lambda).1.flatMap fun l =>
      footprint t l.1 (levelsOf t lambda).2 (coordOf (a 0)) (coordOf (a 1)) l.2
    sampleRefs th t .lod va f el = some (layerOf t (a 3), at' (a 2)) ∧
    sampleRefs th t .base va f el = some (layerOf t (a 3), at' (.fin false 0)) ∧
    (n 2 < 0 ∨ (t.levels : Int) ≤ n 2 ∨ n 0 < 0 ∨ n 1 < 0 ∨ n 3 < 0 ∨ (t.layers : Int) ≤ n 3 ∨
        (t.levelW (n 2).toNat : Int) ≤ n 0 ∨ (t.levelH (n 2).toNat : Int) ≤ n 1 →
      sampleRefs th t .fetch va f el = none) ∧
    (0 ≤ n 0 → 0 ≤ n 1 → 0 ≤ n 2 → 0 ≤ n 3 → n 2 < t.levels → n 0 < t.levelW (n 2).toNat → n 1 < t.levelH (n 2).toNat →
      n 3 < t.layers → sampleRefs th t .fetch va f el =
        some ((n 3).toNat, [⟨(n 2).toNat, some ((n 0).toNat, (n 1).toNat), 1⟩])) ∧
    (∀ m sc refs, sampleRefs th t m va f el = some (sc, refs) → (refs.map (·.weight)).sum = 1) ∧
    ((∀ g < 4, ∃ p m, b g = .fin p m) → (∃ p m, a 0 = .fin p m) → (∃ p m, a 1 = .fin p m) →
      let sq := fun g => ((b g).toRat * t.width) ^ 2 + ((b (g + 1)).toRat * t.height) ^ 2
      let big := max (sq 0) (sq 2)
      let small := min (sq 0) (sq 2)
      let most := 2 ^ t.aniso
      let g := if sq 2 ≤ sq 0 then 0 else 2
      ∃ N : Nat, 1 ≤ N ∧ N ≤ most ∧ (most = 1 ∨ big = 0 → N = 1) ∧ (1 < most → big ≠ 0 → small = 0 → N = most) ∧
        (big ≠ 0 → small ≠ 0 → (N < most → big ≤ (N : Rat) ^ 2 * small) ∧
          (1 < N → (((N - 1 : Nat) : Rat)) ^ 2 * small < big)) ∧
        ∃ lambda : Fp, (big = 0 → lambda = (Fp.inf true).plus (a 2)) ∧
          (big ≠ 0 → ∃ k : Int, pow2 k ≤ (big / (N : Rat) ^ 2) ^ 128 ∧ (big / (N : Rat) ^ 2) ^ 128 < pow2 (k + 1) ∧
            lambda = (Fp.ofRat ((k : Rat) / 256)).plus (a 2)) ∧
          sampleRefs th t (.grad vb) va f el = some (layerOf t (a 3), (List.range N).flatMap fun k =>
            let step : Rat := ((2 * k + 1 : Nat) : Rat) / ((2 * N : Nat) : Rat) - 1 / 2
            (levelsOf t lambda).1.flatMap fun l => footprint t l.1 (levelsOf t lambda).2
              (some ((a 0).toRat + step * (b g).toRat)) (some ((a 1).toRat + step * (b (g + 1)).toRat)) (l.2 / (N : Rat))))) ∧
  (∀ (s : State) (th : Thread) (e : SeqEntry) (t : Tex) (mode : TexMode) (vd va : VReg) (el : Nat),
    e.seg.type = .scratch → readTex (e.xs.drop 2) = some t →
    let run := texGroup s th e mode vd va [el]
    (sampleRefs th t mode va (Config.openSamples s.frees) el = none → run.stop = none ∧
      run.out.v = (List.range 4).map fun c => ⟨vd, (32 * c + el) * 32, 32, 0⟩) ∧
    (∀ layer refs, sampleRefs th t mode va (Config.openSamples s.frees) el = some (layer, refs) →
      let size := t.block.2.2
      let off := fun (r : TexelRef) (x y : Nat) => t.offset r.level layer x y
      let place := fun (r : TexelRef) (x y : Nat) => e.seg.base.toNat + (off r x y).toNat
      let colour := fun (r : TexelRef) => match r.place with
        | none => t.borderColour
        | some (x, y) => decodeTexel t (s.padBytes th.gang (place r x y) size) (x % t.block.1) (y % t.block.2.1)
      (∀ r ∈ refs, ∀ x y, r.place = some (x, y) → e.seg.refuses (off r x y) size size .read = none ∧
        s.padReadable th (place r x y) size) →
      run.stop = none ∧ run.out.flags = 0 ∧ run.out.v.length = 4 ∧
      ∀ c < 4, ∃ v, run.out.v[c]? = some ⟨vd, (32 * c + el) * 32, 32, v⟩ ∧
        let chan := fun r => ((colour r)[c]?).getD (.nan false)
        let sum := (refs.map fun r => r.weight * (chan r).toRat).sum
        ((∃ r ∈ refs, r.weight ≠ 0 ∧ (chan r).isNaN = true) → v = 0x7FC00000) ∧
        ((∀ r ∈ refs, r.weight ≠ 0 → ∃ n m, chan r = .fin n m) → (sum ≠ 0 → v = f32Of sum) ∧ (sum = 0 → v % 2 ^ 31 = 0)))) ∧
  (∀ (t : Tex) (bs : List Byte) (x y c : Nat), c < 4 → t.srgb = false →
    let field := fun (at' n : Nat) => leNat bs / 2 ^ at' % 2 ^ n
    let of := fun (v n : Nat) => some (Fp.fin false ((v : Rat) / ((2 ^ n - 1 : Nat) : Rat)))
    (t.fmt = 0 → (decodeTexel t bs x y)[c]? = of (field (8 * c) 8) 8) ∧
    (t.fmt = 1 → (decodeTexel t bs x y)[c]? = if c = 3 then of (field 30 2) 2 else of (field (10 * c) 10) 10) ∧
    (t.fmt = 2 → (decodeTexel t bs x y)[c]? = some (readFp .f16 (field (16 * c) 16)))))

/-! ### Traps and seams (R33, R40, R248, R363 to R383) -/

/-- The trap instructions and the answers to encodings that are none (R33, R40, R371 to R374): each raises its cause with its
own PC and the value the rule gives, `brk` under a debug session holds its thread, and `tret` returns to TPC, or to the head
after it, with the handler flag clear; the anvil operations a replay record had set aside go with a record it discards. DEFERRED_TRAP_ENTRY (R248, R366): nothing before the earlier instructions are complete
and every group in a row is delivered; then the trap, with the instructions accepted after the faulting one in a replay
record, or the wait for a page, at whose end the group enters again. -/
def Obligations.TrapInstructionResults : Prop :=
  (∀ (s : State) (t : Thread), Executing s t →
    (∀ (h : BitVec 16) (tl : BitVec 48),
      Raises s s t (.illegalInstruction h tl) 0x01 (BitVec.ofNat 64 (h.toNat + tl.toNat * 2 ^ 16))) ∧
    (∀ base, Raises s s t (.lineFormat base) 0x02 base) ∧
    (∀ n, Raises s s t (.trap n) 0x39 (BitVec.ofNat 64 n.toNat)) ∧
    (∀ n, s.debugged t = none → Raises s s t (.brk n) 0x38 (BitVec.ofNat 64 n.toNat)) ∧
    (∀ n, (s.debugged t).isSome = true → exec (.brk n) s = .next (s.putThread { t with debugHeld := true })) ∧
    (t.hnd = false → Raises s s t .tret 0x01 0xF200 ∧ Raises s s t .tretNext 0x01 0xF201) ∧
    (t.hnd = true → ∀ (img : List Byte) (s' : State), LineOf s t t.tpc img s' →
      (isHead img t.tpc = true → (∀ r, t.replay = some r → r.pc ≠ t.tpc) →
        exec .tret s = .next ((s'.dropReplay t).putThread { t.resumed with hnd := false, pc := t.tpc, replay := none })) ∧
      (isHead img t.tpc = true → ∀ r, t.replay = some r → r.pc = t.tpc →
        exec .tret s =
          .next (s'.putThread { t.resumed with hnd := false, pc := t.tpc, replay := some { r with active := true } })) ∧
      (isHead img t.tpc = false →
        exec .tret s = .next ((s'.putThread { t with hnd := false }).raiseHere t.key 0x03 t.tpc t.pc none)) ∧
      (∀ (img2 : List Byte) (s2 : State), LineOf s' t (nextPc (lineH img) t.tpc) img2 s2 →
        (isHead img2 (nextPc (lineH img) t.tpc) = true → exec .tretNext s =
          .next ((s2.dropReplay t).putThread
            { t.resumed with hnd := false, pc := nextPc (lineH img) t.tpc, replay := none })) ∧
        (isHead img2 (nextPc (lineH img) t.tpc) = false → exec .tretNext s =
          .next ((s2.putThread { t with hnd := false }).raiseHere t.key 0x03 (nextPc (lineH img) t.tpc) t.pc none))))) ∧
  (∀ (s : State) (t : Thread) (d : Deferred), s.cur.getD s.ev.a = t.key → s.thread? t.key = some t → t.deferred = some d →
    ∀ (e : SeqEntry) (after : List SeqEntry), t.seq = e :: after →
      (t.status = .runnable → e.num ≠ d.num ∨ (∃ f ∈ t.seq, f.rows ≠ []) → exec .deferredTrapEntry s = .next s) ∧
      (t.status = .runnable → t.parked = false → e.num = d.num → (∀ f ∈ t.seq, f.rows = []) →
        (d.cause ≠ 0 → e.member = false → (∀ f ∈ after, f.member = false) →
          exec .deferredTrapEntry s = .next ((s.putThread
            { t with seq := [], vloop := none, pass := none, deferred := none, vstart := BitVec.ofNat 9 d.elem
                     readyAt := max t.readyAt (s.core t.core).cycle
                     replay := some ⟨d.pc, t.pc, e.order, after, t.vloop, t.pass, after.length, false⟩ }).raise t.key d.cause
            d.value d.pc (some d.elem))) ∧
        (d.cause = 0 → exec .deferredTrapEntry s =
          .next ((s.putThread { t with vstart := BitVec.ofNat 9 d.elem }).startWait t.key .deferredTrapEntry .page 0
            (.pages [d.value.toNat])))) ∧
      (∀ w vas, t.status = .waiting w → w.instr = .deferredTrapEntry → w.asked = .pages vas →
        exec .deferredTrapEntry s = .next (if w.woken then s.putThread
          { t with status := .runnable, deferred := none,
                   seq := t.seq.map fun f => if f.num = d.num then
                     { f with stop := false, entered := f.entered - 1, delivered := f.delivered - 1, vstart := d.elem }
                   else f } else s)))

/-- Trap entry and the other routes (R363 to R369, R382, R407): a handler entered with TCAUSE, TPC and TVAL written and eligible 8
core cycles after the entry cycle, the wait for its line, a trap that cannot be delivered, with its own cause where a fault of that
line comes later, the unwind of a seam, Service with its event, the Fatal stops and the Record route; a cause of the instruction a
thread stands at comes after a trap deferred from an earlier one. -/
def Obligations.TrapEntry : Prop :=
  ∀ (s : State) (t : Thread), s.thread? t.key = some t → ∀ (c : BitVec 8) (v pc : Word) (e : Option Nat),
    let z := s.raise t.key c v pc e
    let u := { t.resumed.boundary with
                 tcause := (match e with
                   | none => c.setWidth 64
                   | some k => BitVec.ofNat 64 (2 ^ 18 + k % 512 * 2 ^ 9 + c.toNat)),
                 tpc := pc, tval := v }
    let read := s.fetchLine u t.tvec true false
    (c ≠ 0x12 → c ≠ 0x13 → c ≠ 0x30 → c ≠ 0x31 → c ≠ 0x3F →
      (t.hnd = false →
        (∀ img s', read = (.ok img, s') → isHead img t.tvec = true →
          z = (s'.putThread { u with hnd := true, pc := t.tvec, status := .runnable, readyAt := t.readyAt + 8 }).assayTrap u c
            .handler pc v) ∧
        (∀ va s', read = (.page va, s') →
          z = (s'.putThread u).startWait t.key .deferredTrapEntry .page 0 (.handler none [va])) ∧
        (∀ pa s', read = (.line pa, s') →
          z = (s'.putThread u).beginWait t.key .deferredTrapEntry .load 0 (.handler (some pa) []))) ∧
      (∀ s', ((t.hnd = true ∧ s' = s) ∨ (t.hnd = false ∧ ((∃ k w, read = (.fails k w, s')) ∨
          ∃ img, read = (.ok img, s') ∧ isHead img t.tvec = false))) →
        (t.frames = [] → z.thread? t.key = some { u with status := .faulted c, pc := pc }) ∧
        (t.frames ≠ [] → (s'.framePoison u).isSome = true →
          z.thread? t.key = some { u with status := .faulted 0x3F, pc := pc }) ∧
        (∀ f rest, t.frames = f :: rest → s'.framePoison u = none → s'.frameHeld u f = true → ∃ y, z.thread? t.key = some y ∧
          y.status = .runnable ∧ y.pc = f.retPc ∧ y.frames = rest ∧ y.seq = [] ∧ y.replay = none ∧
          (∀ r : XReg, y.getX r = if r = 0 then 0 else if r = 1 then BitVec.ofNat 64 (2 ^ 63 + c.toNat * 2 ^ 8 + 0x28)
            else f.x[r.toNat]) ∧
          y.k = f.k ∧ y.v = f.v ∧ y.g = f.g ∧ y.w = f.w.map State.rewound ∧ y.hnd = f.hnd ∧ y.tvec = f.tvec ∧
          y.tcause = f.tcause ∧ y.tpc = f.tpc ∧ y.tval = f.tval ∧ y.fflags = f.fflags ∧ y.mxstat = f.mxstat ∧
          y.loops = f.loops ∧ y.window = f.window))) ∧
    (c = 0x12 ∨ c = 0x13 →
      z = ((s.assayTrap t c .service pc v).putThread
          { t with status := .service ⟨c, pc, v, e.map (BitVec.ofNat 9)⟩ }).postEvent
        (match s.ctx? t.ctx with | some x => x.fn | none => 0)
        ⟨1, s.gtsc, t.tid, BitVec.ofNat 11 t.ctx, c.setWidth 64, pc, v⟩) ∧
    (c = 0x30 ∨ c = 0x3F → z.thread? t.key = some { t with status := .faulted c, pc := pc }) ∧
    (c = 0x3F → s.freeze = none → z.freeze = some ⟨s.gtsc + 48, t.core, s.gtsc, [], [(t.core, s.gtsc)]⟩) ∧
    (c = 0x3F → ∀ f, s.freeze = some f → z.freeze = some { f with
      faults := f.faults ++ [(t.core, s.gtsc)], source := if s.gtsc = f.t0 ∧ t.core < f.source then t.core else f.source }) ∧
    (c = 0x31 → z = s.assayTrap t c .record pc v) ∧
    (t.deferred = none → s.raiseHere t.key c v pc e =
      (s.putThread { t with readyAt := (s.core t.core).cycle - 1 }).raise t.key c v pc e) ∧
    (t.deferred.isSome = true → s.raiseHere t.key c v pc e = s.putThread { t with status := .runnable }) ∧
    (∀ a l, t.asked = .handler a l → t.frames = [] →
      (s.raiseWaiting t c v).thread? t.key = some { t with status := .faulted (t.tcause.setWidth 8), pc := t.tpc })

/-- `seam` (R233, R376, R377, R379): a gate not granted, the wait for the sequencer, a depth beyond MAXD, a call not made
with its result word and the conditions for it, poison in the segment set, the frame written at its place in the seam region,
and what the callee starts with. The bytes of a frame there are `SeamFrame.image`: R377 gives no layout, and log entry 87 has the
model's. `seamret` (R381, R425): Seam Fault without a frame, the wait for the sequencer, poison in the frame, and the caller
restored, as the frame in the region has it, but for the results the gate names. -/
def Obligations.SeamResults : Prop :=
  (∀ (s : State) (t : Thread), Executing s t → ∀ (n : BitVec 8) (x : Ctx), s.ctx? t.ctx = some x →
    (Map.get? x.gates n.toNat = none → Raises s s t (.seam n) 0x04 (BitVec.ofNat 64 n.toNat)) ∧
    (∀ ds, Map.get? x.gates n.toNat = some ds →
      let gt := readGate ds
      let d := t.frames.length + 1
      let set := readSet s.ownNumber (s.bytesAt gt.setPa 256)
      (t.seqEmpty = false → Waits s s t (.seam n) .sequencer 0 .none) ∧
      (t.seqEmpty = true →
        (gt.maxd < d → Raises s s t (.seam n) 0x29 (BitVec.ofNat 64 n.toNat)) ∧
        (d ≤ gt.maxd →
          (let held := fun pa => s.ownerOk t.ctx t.part pa
           let bad := set.any Option.isNone = true ∨ (((set[0]?).getD none).getD Segment.none).base.toNat % 64 ≠ 0 ∨
             s.framePa t d = none ∨ ∃ pa, s.framePa t d = some pa ∧ held pa = false
           let small := gt.sreg ≠ 0 ∧ (((set[gt.sreg]?).getD none).getD Segment.none).size.toNat <
             (t.tid.toNat * 16 + d + 1) * 2 ^ gt.stklog
           (held gt.setPa = false → s.seamRefusal t gt d = 0x12) ∧ (held gt.setPa = true → bad → s.seamRefusal t gt d = 0x04) ∧
           (held gt.setPa = true → ¬ bad → small → s.seamRefusal t gt d = 0x08) ∧
           (held gt.setPa = true → ¬ bad → ¬ small → s.seamRefusal t gt d = 0)) ∧
          (∀ a, s.seamRefusal t gt d ≠ 0x12 → s.poisoned gt.setPa 256 = some a →
            Raises s s t (.seam n) 0x3F (BitVec.ofNat 64 a)) ∧
          (s.seamRefusal t gt d ≠ 0 → s.seamRefusal t gt d = 0x12 ∨ s.poisoned gt.setPa 256 = none →
            (s.seamRefusal t gt d = 0x12 ∨ s.seamRefusal t gt d = 0x04 ∨ s.seamRefusal t gt d = 0x08) ∧
            Leaves s (.seam n) (t.setX 1 (BitVec.ofNat 64 (2 ^ 63 + s.seamRefusal t gt d * 2 ^ 8 + 0x28)))) ∧
          (s.seamRefusal t gt d = 0 → s.poisoned gt.setPa 256 = none →
            let s1 := s.writeFrame t d (frameOf t gt)
            (∀ pa, s.framePa t d = some pa →
              s1.doublesAt pa (frameOf t gt).image.length = (frameOf t gt).image ∧
              ∀ a, a < pa ∨ pa + 8 * (frameOf t gt).image.length ≤ a → s1.byteAt a = s.byteAt a) ∧
            let u := callee t gt set
            (∀ r : XReg, u.getX r = if r.toNat ≤ gt.xarg then t.getX r else 0) ∧
            (∀ j : Fin 16, u.v[j] = if gt.varg.testBit j.val then t.v[j] else 0) ∧
            (∀ j : Fin 8, u.k[j] = if gt.karg.testBit j.val then t.k[j] else 0) ∧
            (∀ j : Fin 8, u.w[j] = none) ∧
            u.frames.length = d ∧ (u.frames.head?.map (·.retPc)) = some t.next ∧ (u.frames.head?.map (·.x)) = some t.x ∧
            u.fflags = 0 ∧ u.mxstat = 0 ∧ u.tcause = 0 ∧ u.tpc = 0 ∧ u.tval = 0 ∧ u.loops = [] ∧ u.hnd = false ∧
            u.tvec = gt.hvec ∧ u.window = (if gt.acc then t.window else none) ∧
            (∀ j : Fin 8, ∀ g, set[j.val]? = some (some g) → (gt.sreg = 0 ∨ j.val ≠ gt.sreg) → u.g[j] = g) ∧
            (∀ j : Fin 8, ∀ g, set[j.val]? = some (some g) → gt.sreg ≠ 0 → j.val = gt.sreg →
              u.g[j].base = g.base + BitVec.ofNat 55 ((t.tid.toNat * 16 + d) * 2 ^ gt.stklog) ∧
              u.g[j].size = BitVec.ofNat 56 (2 ^ gt.stklog)) ∧
            (∀ img s', LineOf s1 u gt.entry img s' →
              (isHead img gt.entry = false → Raises s s' t (.seam n) 0x03 gt.entry) ∧
              (isHead img gt.entry = true → ∃ s2, exec (.seam n) s = .next s2 ∧
                s2.thread? t.key = some { u.resumed with pc := gt.entry } ∧ (∀ a, s2.byteAt a = s'.byteAt a)))))))) ∧
  (∀ (s : State) (t : Thread), Executing s t →
    (t.frames = [] → Raises s s t .seamret 0x28 0) ∧
    (∀ f rest, t.frames = f :: rest →
      (t.seqEmpty = false → Waits s s t .seamret .sequencer 0 .none) ∧
      (∀ a, t.seqEmpty = true → s.framePoison t = some a → Raises s s t .seamret 0x3F (BitVec.ofNat 64 a)) ∧
      (s.frameHeld t f = true → s.readFrame t f = f) ∧
      (t.seqEmpty = true → s.framePoison t = none → ∀ f', f' = s.readFrame t f →
        let f := f'
        let r := returned t f rest
        (∀ i : XReg, i ≠ 0 → r.getX i = if i.toNat ≤ f.xres then t.getX i else f.x[i.toNat]) ∧
        (∀ j : Fin 16, r.v[j] = if f.vres.getLsbD j.val then t.v[j] else f.v[j]) ∧
        (∀ j : Fin 8, r.k[j] = if f.kres.getLsbD j.val then t.k[j] else f.k[j]) ∧
        r.g = f.g ∧ r.w = f.w.map State.rewound ∧ r.tvec = f.tvec ∧ r.tcause = f.tcause ∧ r.tpc = f.tpc ∧
        r.tval = f.tval ∧ r.hnd = f.hnd ∧ r.fflags = f.fflags ∧ r.mxstat = f.mxstat ∧ r.loops = f.loops ∧
        r.window = f.window ∧ r.frames = rest ∧ r.replay = none ∧ r.rm = t.rm ∧ r.srseed = t.srseed ∧
        (∀ img s', LineOf s r f.retPc img s' →
          (isHead img f.retPc = false → Raises s s' t .seamret 0x03 f.retPc) ∧
          (isHead img f.retPc = true → ∃ s2, exec .seamret s = .next s2 ∧
            s2.thread? t.key = some { r.resumed with pc := f.retPc } ∧ (∀ a, s2.byteAt a = s'.byteAt a))))))

/-! ### Observation, debug stops and capsules (R393 to R409) -/

/-- `pmark`, `pmark.e` and `cntrd` (R395, R398, R399, R403 to R405): a record in the core's ring, stamped and tagged, that keeps
the low 48 bits of x(P), with the account's balance in a second record behind it under E; a counter answered after a request to its
unit, the words of the capability mask, and UNAV for everything the rule shuts out. Of an event whose every occurrence the model does
not count, the count has a free part: the model's choice of log entry 22. -/
def Obligations.MarkAndCounterReads : Prop :=
  ∀ (s : State) (t : Thread), Executing s t → ∀ (d p : XReg) (code : BitVec 6),
    let rec1 : AssayRecord := ⟨s.gtsc.setWidth 48, BitVec.ofNat 16 t.core, 0x80 ||| code.setWidth 8,
      BitVec.ofNat 4 t.context, BitVec.ofNat 4 (s.core t.core).switchIns, (t.getX p).setWidth 48⟩
    let rec2 : AssayRecord := { rec1 with kind := 0x61, payload := (s.energyOf t).setWidth 48 }
    (∃ s2, exec (.pmark p code) s = .next s2 ∧ s2.thread? t.key = some t.completed ∧ s2.gangs = s.gangs ∧
      (∀ k, k ≠ t.key → s2.thread? k = s.thread? k) ∧ ((s.bench t.bench).trace = none → ∀ a, s2.byteAt a = s.byteAt a) ∧
      (s.freeze = none → rec1 ∈ (s2.core t.core).ring)) ∧
    (∃ s2, exec (.pmarkE p code) s = .next s2 ∧ s2.thread? t.key = some t.completed ∧ s2.gangs = s.gangs ∧
      (∀ k, k ≠ t.key → s2.thread? k = s.thread? k) ∧ ((s.bench t.bench).trace = none → ∀ a, s2.byteAt a = s.byteAt a) ∧
      (s.freeze = none → rec2 ∈ (s2.core t.core).ring ∧
        ((s.core t.core).ring.length + 1 < Config.assayRecords ∨
            (∀ r ∈ (s.core t.core).ring, r.stamp ≠ s.gtsc.setWidth 48 ∨ r.source.toNat ≤ t.core % 65536) →
          rec1 ∈ (s2.core t.core).ring))) ∧
    (t.asked ≠ .data → Waits s s t (.cntrd d p) .load 0 .data) ∧
    (t.asked = .data → ∃ v s2, YieldsIn s s2 t (.cntrd d p) d v ∧ SameElsewhere s s2 t.key ∧
      let w := t.getX p
      let cls := (w.extractLsb 15 12).toNat
      let unit := (w.extractLsb 11 3).toNat
      (w.extractLsb 63 16 ≠ 0 ∨ 8 ≤ cls → v = 0x8000000000000000) ∧
      (w.extractLsb 63 16 = 0 → cls < 7 →
        (([256, 128, 128, 64, 36, 8, 8][cls]?).getD 0 ≤ unit → v = 0x8000000000000000) ∧
        (unit < ([256, 128, 128, 64, 36, 8, 8][cls]?).getD 0 →
          (∀ b, Map.get? s.banks (State.bankKey cls unit (s.ctxFn t.ctx) (w.extractLsb 2 0).toNat) = some b →
            (b.cfen = false ∨ (∀ x, s.ctx? b.cfilt.toNat = some x → x.part ≠ t.part) ∨ implements cls b.event = false →
              v = 0x8000000000000000) ∧
            (b.cfen = true → (∃ x, s.ctx? b.cfilt.toNat = some x ∧ x.part = t.part) → implements cls b.event = true →
              b.unav = false → (b.event ≠ 0x04 → followed b.event = true → v = b.count.setWidth 64 ∧ s2 = s) ∧
              (b.event = 0x04 → v = BitVec.ofNat 64 (s.heldLevel (s.ctxFn t.ctx) unit b) ∧ s2 = s) ∧
              (b.event ≠ 0x04 → followed b.event = false →
                v = (b.count + Config.eventCount s.frees b.event.toNat).setWidth 64 ∧ s2 = { s with frees := s.frees + 1 }))) ∧
          (Map.get? s.banks (State.bankKey cls unit (s.ctxFn t.ctx) (w.extractLsb 2 0).toNat) = none →
            v = 0x8000000000000000))) ∧
      (w.extractLsb 63 16 = 0 → cls = 7 → s2 = s ∧
        (w.extractLsb 1 0 = 0 → v = 0xF003F003F03FE) ∧ (w.extractLsb 1 0 = 1 → v = 0x1F000F000F) ∧
        (w.extractLsb 1 0 = 2 ∨ w.extractLsb 1 0 = 3 → v = 0)))

/-- DEBUG_STOP, FREEZE and CAPSULE_SEAL (R402, R403, R406 to R409): a held thread stands stopped once its sequencer is empty; a
recorder holds the records up to F and its freeze record, which overwrites the oldest of a full ring; the capsule with every ring,
the part's number and its signature takes an empty slot, else that of the lowest number, its summary is kept with a signature of its
own, and the recorders go on with their generation counts raised. That an empty slot is taken first is log entry 67, and that the
sealing waits for the cores that have recorded something is log entry 49: the model's choices. -/
def Obligations.FreezeAndCapsules : Prop :=
  ∀ (s : State),
    (∀ t, s.thread? s.ev.a = some t → t.key = s.ev.a →
      (t.debugHeld = true → t.status = .runnable → t.seqEmpty = true →
        exec .debugStop s = .next (s.putThread { t with debugStopped := true })) ∧
      (t.debugHeld = false ∨ t.status ≠ .runnable ∨ t.seqEmpty = false → exec .debugStop s = .next s)) ∧
    (∀ f, s.freeze = some f →
      ((s.gtsc.toNat < f.stamp.toNat + 64 ∨ s.ev.a ∈ f.held) → exec .freeze s = .next s) ∧
      (f.stamp.toNat + 64 ≤ s.gtsc.toNat → s.ev.a < 1024 → s.ev.a ∉ f.held → ∃ s2, exec .freeze s = .next s2 ∧
        s2.freeze = some { f with held := f.held ++ [s.ev.a] } ∧
        (∀ k, k ≠ s.ev.a → s2.core k = s.core k) ∧ s2.threads = s.threads ∧ s2.near = s.near ∧ s2.far = s.far ∧
        (⟨f.stamp.setWidth 48, BitVec.ofNat 16 s.ev.a, 0x70, 0, BitVec.ofNat 4 (s.core s.ev.a).switchIns, f.stamp.setWidth 48⟩ :
          AssayRecord) ∈ (s2.core s.ev.a).ring ∧
        (∀ r ∈ (s2.core s.ev.a).ring, stampAfter r.stamp (f.stamp.setWidth 48) = false) ∧
        (let stay := fun l : List AssayRecord => l.filter fun r => !stampAfter r.stamp (f.stamp.setWidth 48)
         let c := s.core s.ev.a
         let c2 := s2.core s.ev.a
         ((stay c.ring).length < 4096 → (∀ r ∈ stay c.ring, r ∈ c2.ring) ∧ c2.ring.length = (stay c.ring).length + 1 ∧
           c2.lost = c.lost) ∧
         (4096 ≤ (stay c.ring).length → (∀ r ∈ (stay c.ring).drop 1, r ∈ c2.ring) ∧ c2.ring.length = (stay c.ring).length ∧
           c2.lost = if stay (c.ring.take c.kept) = [] then c.lost + 1 else c.lost))) ∧
      ((∃ c ∈ s.cores, c.1 ∉ f.held) → exec .capsuleSeal s = .next s) ∧
      ((∀ c ∈ s.cores, c.1 ∈ f.held) → ∃ s2 slot cap, exec .capsuleSeal s = .next s2 ∧
        ((∀ c ∈ s.capsules, c.1 < 3) → slot < 3) ∧
        Map.get? s2.capsules slot = some cap ∧ cap.seq = s.capsuleSeq + 1 ∧ s2.capsuleSeq = s.capsuleSeq + 1 ∧
        cap.t0 = f.t0 ∧ cap.stamp = f.stamp ∧ cap.sealedAt = s.gtsc ∧ cap.readBy = [] ∧
        cap.faults.map (fun x => (x.source, x.t0)) = f.faults ∧ cap.rings.map (·.core) = List.range 1024 ∧
        (∀ i, i < 3 → i ≠ slot → Map.get? s2.capsules i = Map.get? s.capsules i) ∧
        (∀ i, i < 3 → Map.get? s.capsules i = none → Map.get? s.capsules slot = none) ∧
        ((∀ i, i < 3 → (Map.get? s.capsules i).isSome = true) → (∀ c ∈ s.capsules, c.2.seq < 2 ^ 64) →
          ∃ o ∈ s.capsules, o.1 = slot ∧ ∀ c ∈ s.capsules, o.2.seq ≤ c.2.seq) ∧
        cap.part = 0x303032394D2D5148 ∧ cap.stepping = 0xB0 ∧ cap.signature = signBytes cap.body ∧
        (∃ sm, s2.summary = some sm ∧ sm.seq = s.capsuleSeq + 1 ∧ sm.t0 = f.t0 ∧ sm.stamp = f.stamp ∧ sm.rings = [] ∧
          sm.faults = cap.faults.take 64 ∧ sm.parts = cap.parts ∧ sm.part = cap.part ∧ sm.signature = signBytes sm.body) ∧
        (∀ n < 1024, (s2.core n).switchIns = (s.core n).switchIns + 1) ∧
        s2.freeze = none ∧ s2.threads = s.threads))

/-! ### Slices and switches (R350 to R356) -/

/-- `slicegive`, SWITCH_TICK and SLICEGIVE_CHOICE (R350, R351): the choice falls on a Ready context of the partition, or
the running one with work, of the greatest priority where no phase is open; a tick that
chooses the running context only moves the tick; any other choice begins a switch, which parks the threads and gangs of
the outgoing context; a `slicegive` with no other context Ready changes nothing. -/
def Obligations.SliceSteps : Prop :=
  (∀ (s : State) (t : Thread) (p : Part), Executing s t → s.part? t.part = some p →
    exec .slicegive s = .next ((if p.phase = .settled then s.putPart t.part { p with give := true } else s).putThread
      t.completed)) ∧
  (∀ (s : State) (p : Part), s.part? s.ev.a = some p →
    (p.phase ≠ .settled → exec .switchTick s = .next s ∧ exec .slicegiveChoice s = .next s) ∧
    (p.phase = .settled → p.running ≠ none → s.gtsc.toNat < p.tickAt → exec .switchTick s = .next s) ∧
    (p.phase = .settled → p.give = false → exec .slicegiveChoice s = .next s) ∧
    (∀ n last, s.chooseCtx s.ev.a p last = some n → ∃ c, (n, c) ∈ s.ctxs ∧ c.part = s.ev.a ∧
      (c.state = .ready ∨ (p.running = some n ∧ c.state = .running ∧ s.hasWork n = true)) ∧
      ((∃ m ∈ s.ctxs, m.2.part = s.ev.a ∧ m.2.state = .ready) → last = true → c.state = .ready) ∧
      (∀ m ∈ s.ctxs, m.2.part = s.ev.a → m.2.state = .ready → m.2.openPhases = [] → c.openPhases = [] →
        m.2.prio.toNat ≤ c.prio.toNat)) ∧
    (p.phase = .settled → p.tickAt ≤ s.gtsc.toNat → ∀ c, p.running = some c → s.chooseCtx s.ev.a p false = some c →
      ∃ s2, exec .switchTick s = .next s2 ∧
        s2.part? s.ev.a = some { p with tickAt := p.tickAt + p.tick * 1000, slice := p.tick * 1000 } ∧
        s2.threads = s.threads ∧ s2.ctxs = s.ctxs ∧ s2.gangs = s.gangs ∧
        (∀ q ∈ p.quarters, (s2.core (2 * q)).point = true ∧ (s2.core (2 * q + 1)).point = true)) ∧
    (p.phase = .settled → ∀ c x, p.running = some c → s.ctx? c = some x →
      ∀ (i : Instr) (n : Option Nat),
        (i = .switchTick ∧ p.tickAt ≤ s.gtsc.toNat ∧ n = s.chooseCtx s.ev.a p false ∧ n ≠ some c) ∨
        (i = .slicegiveChoice ∧ p.give = true ∧ n = s.chooseCtx s.ev.a p true ∧ n ≠ some c ∧ n ≠ none) →
      ∃ s2 q, exec i s = .next s2 ∧
        s2.ctx? c = some { x with
          state := .saving, recorded := x.reported.take x.wsmax, unrecorded := x.reported.length - x.wsmax, reported := [] } ∧
        s2.part? s.ev.a = some q ∧ q.phase = .saving c p.dies ∧ q.next = n ∧ q.running = p.running ∧ q.give = false ∧
        (∀ k t, s.thread? k = some t → s2.thread? k = some (if t.ctx = c then { t with parked := true } else t)) ∧
        (∀ k g, s.gang? k = some g → s2.gang? k = some (if g.ctx = c then { g with parked := true } else g)) ∧
        (∀ a, s2.byteAt a = s.byteAt a)) ∧
    (p.phase = .settled → p.give = true → ∀ c, p.running = some c →
      s.chooseCtx s.ev.a p true = some c ∨ s.chooseCtx s.ev.a p true = none →
      exec .slicegiveChoice s = .next (s.putPart s.ev.a { p with give := false })) ∧
    (p.phase = .settled → p.running = none → ∀ n x, s.chooseCtx s.ev.a p false = some n → s.ctx? n = some x →
      ∃ s2 q, exec .switchTick s = .next s2 ∧ s2.part? s.ev.a = some q ∧ q.running = some n ∧ q.phase = .restoring p.dies ∧
        q.slice = p.tick * 1000 - x.shorten ∧ q.tickAt = s.gtsc.toNat + q.slice ∧
        s2.ctx? n = some { x with state := .restoring, shorten := 0 } ∧ s2.threads = s.threads))

/-- SAVE_DONE, SAVE_BUDGET_EXPIRY, SAVE_OVERRUN and RESTORE_DONE (R352, R354, R355): a die's report, made once its accesses
that cannot be repeated and its blends are done, the last of which ends the save and begins the restore of the next context;
the budget's expiry; the stop of a die 2 ms after the tick; and the last die's restore, which makes the context Running and
its threads live, with what their records in the save area hold. The records' layout is the model's (log entry 20). -/
def Obligations.SwitchSteps : Prop :=
  ∀ (s : State) (p : Part), s.part? s.ev.a = some p →
    (∀ out dies, p.phase = .saving out dies → ∀ c, s.ctx? out = some c →
      (s.ev.b ∉ dies ∨ s.accessesOut out s.ev.b = true → exec .saveDone s = .next s) ∧
      (s.ev.b ∈ dies → s.accessesOut out s.ev.b = false → s.saveAreaOk out c p = true →
        ∃ s2 q, exec .saveDone s = .next s2 ∧ s2.part? s.ev.a = some q ∧
          (∀ x ∈ dies, x ≠ s.ev.b → q.phase = .saving out (dies.filter (· ≠ s.ev.b)) ∧ q.next = p.next ∧
            (∃ c2, s2.ctx? out = some c2 ∧ c2.state = c.state) ∧
            (∀ k ∈ (p.onDie s.ev.b).flatMap (fun q => [2 * q, 2 * q + 1]),
              (s2.core k).requests = .zero ∧ (s2.core k).grants = .zero)) ∧
          ((∀ x ∈ dies, x = s.ev.b) → c.state = .saving →
            (p.next = none → q.phase = .settled ∧ q.running = none) ∧
            (p.next ≠ some out → ∃ c2, s2.ctx? out = some c2 ∧ (c2.state = .ready ∨ c2.state = .idle)) ∧
            (∀ d x, p.next = some d → d ≠ out → s.ctx? d = some x →
              q.phase = .restoring p.dies ∧ q.running = some d ∧ q.tickAt = s.gtsc.toNat + (p.tick * 1000 - x.shorten)))) ∧
      exec .saveBudgetExpiry s = .next (if p.switchAt + p.savebud * 1000 < s.gtsc.toNat
        then s.putPart s.ev.a { p with stretched := true } else s) ∧
      (s.gtsc.toNat < p.switchAt + 2000000 → exec .saveOverrun s = .next s) ∧
      (p.switchAt + 2000000 ≤ s.gtsc.toNat → s.ev.b ∈ dies → (∃ x ∈ dies, x ≠ s.ev.b) →
        ∃ s2, exec .saveOverrun s = .next s2 ∧ (∃ c2, s2.ctx? out = some c2 ∧ c2.state = .faulted) ∧
          (s2.part? s.ev.a).map (·.phase) = some (.saving out (dies.filter (· ≠ s.ev.b))) ∧
          ((∀ x ∈ s.threads, x.2.key = x.1) → ∀ k t, s.thread? k = some t → t.ctx = out → t.die = s.ev.b → t.result = none →
            s2.thread? k = some { t with status := .faulted 0x30 }))) ∧
    (p.phase = .settled → exec .saveDone s = .next s ∧ exec .saveOverrun s = .next s ∧ exec .saveBudgetExpiry s = .next s ∧
      exec .restoreDone s = .next s) ∧
    (∀ dies d c, p.phase = .restoring dies → p.running = some d → s.ctx? d = some c →
      (s.ev.b ∉ dies → exec .restoreDone s = .next s) ∧
      (s.ev.b ∈ dies → ∃ s2, exec .restoreDone s = .next s2 ∧
        ((∀ x ∈ s.threads, x.2.key = x.1) → ∀ k t, s.thread? k = some t → t.ctx = d → t.die = s.ev.b → t.reply = none →
          ∃ u, s2.thread? k = some u ∧ u.parked = false ∧ u.saved = false ∧ u.g = t.g ∧ u.loops = t.loops ∧
            ((∀ b, (s.bench b).trace = none) →
              (t.saved = false ∨ s.doublesAt (State.threadPa c p t) t.image.length = t.image →
                u.x = t.x ∧ u.v = t.v ∧ u.k = t.k) ∧
              (t.saved = true → s.doublesAt (State.threadPa c p t) t.image.length ≠ t.image →
                u.x = (t.overwritten (s.bytesAt (State.threadPa c p t) 16384)).x))) ∧
        ((∀ x ∈ dies, x = s.ev.b) → (∃ c2, s2.ctx? d = some c2 ∧ c2.state = .running) ∧
          (s2.part? s.ev.a).map (·.phase) = some .settled) ∧
        (∀ x ∈ dies, x ≠ s.ev.b → (s2.part? s.ev.a).map (·.phase) = some (.restoring (dies.filter (· ≠ s.ev.b))))))

/-! ### The ladle, the temper and push windows (R304, R357 to R362, R388 to R391, R414) -/

/-- SWAP_UP, MIGRATION_COPY, TEMPER_WINDOW, CREDIT_INTERVAL and SPRUE_WINDOW_PUSH (R304, R358, R361, R389 to R391, R414): no
far page, nothing to swap up; the first recorded far page begins to migrate to the lowest free frame, its leaf's WB set and its
drain announced; a copy that makes no thread wait or run; clocks between 4 and 16 sixteenths that move by one at most, and none
falls while the package keeps to its budget, to which a partition with LEND 0 counts with its whole allotment at least; an account
credited, debited with what was spent and capped; an entry pushed by the host or a drop counted, and what the window's reads give.
The model's choices: a clock moves by one step a window (log entry 8), the account of one interval is debited at once (log entry
59), and a copy waits for what is on its way to the old frame (log entry 99). -/
def Obligations.LadleTemperAndWindowSteps : Prop :=
  ∀ (s : State),
    (∃ s2, exec .swapUp s = .next s2 ∧ s2.threads = s.threads ∧ s2.gangs = s.gangs ∧
      (∀ m ∈ s2.migrations, m ∈ s.migrations ∨ (m.up = true ∧ m.auto = false ∧ m.swapped = false)) ∧
      ((∀ p d, s.part? s.ev.a = some p → s.swapTarget s.ev.a p = some d → s.farRecorded d = []) → s2 = s) ∧
      (∀ p d va rest c f more m e n place, s.part? s.ev.a = some p → s.swapTarget s.ev.a p = some d →
        s.farRecorded d = va :: rest → s.ctx? d = some c → Map.get? c.managed va = some m → s.poolFree c.part = f :: more →
        walk s d va = .leaf e n place → s.unitPa d c m.unit / 65536 ∉ s.claims →
        (∃ ann bs, (⟨d, va, s.unitPa d c m.unit, f * 65536, true, false, false, ann⟩ : Migration) ∈ s2.migrations ∧
          (ann, (bs, Announce.drain d va (s.unitPa d c m.unit / 65536))) ∈ s2.ring ∧
          bs = (p.quarters.map (· / 4)).eraseDups) ∧
        (rest = [] → s2.doubleAt place = e ||| 0x10))) ∧
    (∀ m, (s.migrations.find? fun m => m.ctx == s.ev.a && m.va == s.ev.b) = some m →
      (m.swapped = true ∨ (∃ r ∈ s.ring, r.1 = m.ann) ∨ (∃ h ∈ s.home, h.2.pa / 65536 = m.src / 65536) →
        exec .migrationCopy s = .next s) ∧
      (m.swapped = false → (∀ r ∈ s.ring, r.1 ≠ m.ann) → (∀ h ∈ s.home, h.2.pa / 65536 ≠ m.src / 65536) →
        ∃ s2, exec .migrationCopy s = .next s2 ∧ s2.threads = s.threads ∧
        (∀ c e n place, s.ctx? m.ctx = some c → walk s m.ctx m.va = .leaf e n place → Memory.wf s = true →
          m.src % 65536 = 0 → m.dst % 65536 = 0 → m.src ≠ m.dst → m.src < 2 ^ 60 → m.dst < 2 ^ 60 →
          place + 8 ≤ m.dst ∨ m.dst + 65536 ≤ place →
          s.objState (s.objOf place) = .invalid → s.objState (s.objOf (place + 7)) = .invalid →
          (∀ j < 65536, s2.byteAt (m.dst + j) = s.byteAt (m.src + j)) ∧ (s2.doubleAt place).getLsbD 4 = false ∧
          ((s2.doubleAt place).extractLsb 51 16).toNat = m.dst / 65536 % 2 ^ 36))) ∧
    ((∀ m ∈ s.migrations, ¬ (m.ctx = s.ev.a ∧ m.va = s.ev.b)) → exec .migrationCopy s = .next s) ∧
    (s.gtsc.toNat < s.temperAt + 10000 → exec .temperWindow s = .next s) ∧
    (s.temperAt + 10000 ≤ s.gtsc.toNat → ∃ s2, exec .temperWindow s = .next s2 ∧ s2.temperAt = s.gtsc.toNat ∧
      s2.threads = s.threads ∧ s2.near = s.near ∧ s2.far = s.far ∧
      (∀ n p, s.part? n = some p → ∃ k, s2.part? n = some { p with clock := k } ∧
        (4 ≤ p.clock → p.clock ≤ 16 → 4 ≤ k ∧ k ≤ 16 ∧ k ≤ p.clock + 1 ∧ p.clock ≤ k + 1) ∧
        (s.throttled = false → p.isSealed = false → p.clock ≤ 16 →
          Config.drawWatts s.frees 40 + (s.parts.map fun q => if q.2.lend then Config.drawWatts s.frees q.1
            else max q.2.power (Config.drawWatts s.frees q.1)).sum ≤ 2400 → p.clock ≤ k))) ∧
    (∀ p, s.part? s.ev.a = some p →
      (s.gtsc.toNat < p.creditAt + 1000 → exec .creditInterval s = .next s) ∧
      (p.creditAt + 1000 ≤ s.gtsc.toNat →
        (p.account = none → exec .creditInterval s = .next (s.putPart s.ev.a { p with creditAt := p.creditAt + 1000 })) ∧
        (∀ n c credited, p.account = some (n, credited) → s.ctx? n = some c → p.power ≤ 2000 →
          c.energy.toInt ≤ p.power * 10 ^ 6 →
          ∃ s2 c2, exec .creditInterval s = .next s2 ∧ (s2.part? s.ev.a).map (·.creditAt) = some (p.creditAt + 1000) ∧
            s2.ctx? n = some c2 ∧ c2.energy = BitVec.ofInt 64 (min (c.energy.toInt + (if credited then (p.power : Int) else 0)
              - Config.energySpent s.frees s.ev.a) (p.power * 10 ^ 6))))) ∧
    (∀ ctx h q, s.windowOf s.ev.fn s.ev.a = some (ctx, h, q) →
      (s.ev.flag = true →
        (s.ev.a % 4096 = 0xFF0 → exec .sprueWindowPush s = .next { s with reply := leBytes 8 q.drops.toNat, replyBad := false }) ∧
        (s.ev.a % 4096 = 0xFF8 → exec .sprueWindowPush s =
          .next { s with reply := leBytes 8 (BitVec.ofNat 64 (2 ^ q.logcap - q.entries.length)).toNat, replyBad := false })) ∧
      (s.ev.flag = false →
        ((s.ev.data.length ≠ 32 ∨ s.ev.a % 32 ≠ 0 ∨ 0xFA0 ≤ s.ev.a % 4096 ∨ q.full = true) →
          exec .sprueWindowPush s = .next (s.putSprue ctx h { q with drops := q.drops + 1 })) ∧
        (s.ev.data.length = 32 → s.ev.a % 32 = 0 → s.ev.a % 4096 < 0xFA0 → q.full = false → s.sprueSealed ctx q = false →
          exec .sprueWindowPush s = .next (s.pushEntry ctx h q (doublesOf 4 s.ev.data))))) ∧
    (s.windowOf s.ev.fn s.ev.a = none →
      (s.ev.flag = true → exec .sprueWindowPush s = .next { s with reply := leBytes 8 0, replyBad := false }) ∧
      (s.ev.flag = false → exec .sprueWindowPush s = .next s))

/-! ### The host mailbox (R343 to R347, R367, R375, R394 to R402, R409 to R411, R415 to R417, R421, R422) -/

/-- How the mailbox takes a command (R347, R415 to R417, R423): OVR while BUSY, RESULT 5 while firmware holds the device and for an
OP that is not listed, whatever its payload, 4 before the device is up, 1 for a command of the PF alone, 2 for more than 4,096 bytes
or a reserved bit, 1 for an entry out of the function's range, 2 for a Free one, 1 for a Faulted one; STATUS at the end of a command,
which comes when its announcement has reached every bench; EVHEAD. -/
def Obligations.MailboxRules : Prop :=
  ∀ (s : State),
    (∀ i, i ∈ mailboxCommands ∨ i = .unknownOp →
      ((s.fn s.ev.fn).busy = true → exec i s = .next (s.putFn s.ev.fn { s.fn s.ev.fn with ovr := true })) ∧
      ((s.fn s.ev.fn).busy = false → s.fwHeld = true → Refuses s i 5) ∧
      ((s.fn s.ev.fn).busy = false → s.fwHeld = false → s.booted = false → i ≠ .identify → Refuses s i 4) ∧
      ((s.fn s.ev.fn).busy = false → s.fwHeld = false → s.booted = true → i ∈ pfCommands → s.ev.fn ≠ 0 → Refuses s i 1) ∧
      ((s.fn s.ev.fn).busy = false → s.fwHeld = false → s.booted = true → 512 < s.ev.words.length → i ≠ .unknownOp →
        i ∉ pfCommands ∨ s.ev.fn = 0 → Refuses s i 2)) ∧
    ((s.fn s.ev.fn).busy = false → s.fwHeld = false → s.booted = true → Refuses s .unknownOp 5) ∧
    (s.mayCommand → ∀ i ∈ entryCommands, ∀ n, n = ((pay s.ev.words 0).extractLsb 10 0).toNat →
      (payloadClear s.ev.words i = false → Refuses s i 2) ∧
      (payloadClear s.ev.words i = true →
        (s.mayName s.ev.fn n = false → Refuses s i 1) ∧
        (s.mayName s.ev.fn n = true → s.ctx? n = none → Refuses s i 2) ∧
        (∀ c, s.mayName s.ev.fn n = true → s.ctx? n = some c → c.state = .faulted → i ≠ .ctxdestroy → Refuses s i 1))) ∧
    (∀ k f m, Map.get? s.fns k = some f → Map.rising s.fns = true → f.waits = some (.ring m) →
      (∀ x ∈ s.fns, x.1 ≠ k → x.2.waits = none) →
      ((∀ r ∈ s.ring, r.1 ≠ m) → s.commandStep = s.finishCommand k 0 (f.payload.take f.rlen.toNat)) ∧
      ((∃ r ∈ s.ring, r.1 = m) → s.commandStep = s)) ∧
    (∀ fn n, s.mayName fn n = true ↔ (fn = 0 ∨ ((s.fn fn).first ≤ n ∧ n < (s.fn fn).first + (s.fn fn).count ∧
      ∀ c, s.ctx? n = some c → c.fn = fn))) ∧
    ((s.fn s.ev.fn).busy = true → exec .cmdWriteWhileBusy s = .next (s.putFn s.ev.fn { s.fn s.ev.fn with ovr := true })) ∧
    ((s.fn s.ev.fn).busy = false → exec .cmdWriteWhileBusy s = .next s) ∧
    (let v : BitVec 32 := BitVec.ofNat 32 s.ev.a
     let f := s.fn s.ev.fn
     ((v - f.evHead).toNat ≤ (f.evTail - f.evHead).toNat → ∃ s2, exec .evhead s = .next s2 ∧
       (s2.fn s.ev.fn).evHead = v ∧ s2.threads = s.threads ∧ (f.held = [] → s2 = s.putFn s.ev.fn { f with evHead := v })) ∧
     ((f.evTail - f.evHead).toNat < (v - f.evHead).toNat → exec .evhead s = .next s)) ∧
    (∀ (r : BitVec 8) (bytes : List Byte), let f := (s.finishCommand s.ev.fn r bytes).fn s.ev.fn
      f = { s.fn s.ev.fn with
        busy := false, result := r, rlen := BitVec.ofNat 16 bytes.length, waits := none
        payload := (bytes ++ (s.fn s.ev.fn).payload.drop bytes.length).take 4096 })

/-- The commands about the device, partitions, frames and pools (R247, R343, R346, R357, R395, R415, R417): IDENTIFY's answer,
an event ring at index 0, a descriptor checked, refused or entered, a partition destroyed, owner entries, a VF's range, and
frames given to and taken from a pool, as bit 8 of D0 says. The model's choices: RESULT 2 for a payload that names what cannot be (log
entry 66), zeros behind a payload shorter than its layout (log entry 75), and what the frames of a sealed partition hold under a new
key (log entry 90). -/
def Obligations.DeviceCommandResults : Prop :=
  ∀ (s : State), s.mayCommand →
    let ws := s.ev.words
    let w (i : Nat) : Word := pay ws i
    (clearFrom ws 0 = true → Answers s (s.taken .identify) .identify 0 (wordBytes [0x303032394D2D5148,
      BitVec.ofNat 64 (s.ownNumber * 2 ^ 16 + 0xB0), 0xF003F003F03FE, 0x1F000F000F, 0, 0])) ∧
    (∀ n : Nat, n = ((w 1).extractLsb 4 0).toNat →
      (within (w 0) [(6, 46)] = true → within (w 1) [(0, 5)] = true → clearFrom ws 2 = true → 4 ≤ n → n ≤ 16 →
        ∃ s2, Answers s s2 .setevq 0 [] ∧ (s2.fn s.ev.fn).ringBase = (w 0).toNat ∧ (s2.fn s.ev.fn).ringLog = some n ∧
          (s2.fn s.ev.fn).evHead = 0 ∧ s2.threads = s.threads ∧
          ((s.fn s.ev.fn).held = [] → (s2.fn s.ev.fn).evTail = 0)) ∧
      (n < 4 ∨ 16 < n → Refuses s .setevq 2)) ∧
    (s.ev.fn = 0 →
      (readPart ws s.gtsc.toNat = none → Refuses s .partcfg 2) ∧
      (∀ num p, readPart ws s.gtsc.toNat = some (num, p) →
        (p.quarters = (List.range 512).filter (fun q => (w (q / 64)).getLsbD (q % 64)) ∧ p.quarters ≠ [] ∧
          num = ((w 8).extractLsb 5 0).toNat ∧ num ≤ 39 ∧ p.isSealed = (w 8).getLsbD 6 ∧
          p.ways = ((w 8).extractLsb 12 7).toNat ∧ 1 ≤ p.ways ∧ p.ways ≤ 48 ∧
          p.tick = ((w 9).extractLsb 19 0).toNat ∧ 10 ≤ p.tick ∧ p.tick ≤ 1000000 ∧
          p.savebud = ((w 9).extractLsb 39 20).toNat ∧ 1 ≤ p.savebud ∧ p.savebud ≤ 1000 ∧
          p.power = ((w 10).extractLsb 31 16).toNat ∧ 1 ≤ p.power ∧ p.power ≤ 2000 ∧ p.lend = (w 10).getLsbD 0 ∧
          p.running = none ∧ p.pool = []) ∧
        ((∃ c ∈ s.ctxs, c.2.part = num) ∨ (∃ o ∈ s.parts, o.1 ≠ num ∧ ∃ q ∈ p.quarters, q ∈ o.2.quarters) →
          Refuses s .partcfg 4) ∧
        (s.partStatus num p ≠ 0 → Refuses s .partcfg (s.partStatus num p)) ∧
        (s.partStatus num p = 0 → s.part? num = none →
          ((p.isSealed = false ∨ s.framesOf 1 num = []) → Answers s ((s.taken .partcfg).putPart num p) .partcfg 0 []) ∧
          (∃ s2, Answers s s2 .partcfg 0 [] ∧ s2.part? num = some p ∧ s2.owners = s.owners ∧ s2.threads = s.threads ∧
            ∀ a, a / 65536 ∉ s.framesOf 1 num → s2.byteAt a = s.byteAt a))) ∧
      (within (w 0) [(0, 6)] = true → clearFrom ws 1 = true → ∀ num, num = ((w 0).extractLsb 5 0).toNat → ∀ p, s.part? num = some p →
        ((∃ c ∈ s.ctxs, c.2.part = num) → Refuses s .partdestroy 4) ∧
        ((∀ c ∈ s.ctxs, c.2.part ≠ num) → ∃ s2, Answers s s2 .partdestroy 0 [] ∧ s2.part? num = none ∧
          (∀ m, m ≠ num → s2.part? m = s.part? m) ∧ s2.far = s.far ∧ s2.threads = s.threads ∧
          (p.isSealed = false → s2.near = s.near) ∧
          (p.isSealed = true → Map.rising s.owners = true → ∀ a < farBase, s2.byteAt a =
            if State.ownerKind (s.owner (a / 65536)) = 1 ∧ State.ownerNumber (s.owner (a / 65536)) = num then 0
            else s.byteAt a))) ∧
      (∀ (first n : Nat) (e : BitVec 16), first = ((w 0).extractLsb 51 16).toNat → n = ((w 1).extractLsb 31 0).toNat →
          e = (w 2).setWidth 16 → within (w 0) [(16, 36)] = true → within (w 1) [(0, 32)] = true →
          within (w 2) [(0, 16)] = true → clearFrom ws 3 = true →
        (n = 0 ∨ ownerFormed e = false → Refuses s .ownerset 2) ∧
        (n ≠ 0 → ownerFormed e = true → (∀ f, first ≤ f → f < first + n → s.boundFrame f = false) →
          ∃ s2, Answers s s2 .ownerset 0 [] ∧ s2.threads = s.threads ∧
            (∀ a, (a / 65536 < first ∨ first + n ≤ a / 65536 ∨ s.keyOf (s.owner (a / 65536)) = s.keyOf e) →
              s2.byteAt a = s.byteAt a) ∧
            ∀ f, f < Config.nearFrames → (first ≤ f ∧ f < first + n → s2.owner f = e ∧ Map.get? s2.attrs f = none) ∧
              (¬ (first ≤ f ∧ f < first + n) → s2.owner f = s.owner f ∧ Map.get? s2.attrs f = Map.get? s.attrs f))) ∧
      (∀ (vf first n : Nat), vf = ((w 0).extractLsb 6 0).toNat → first = ((w 1).extractLsb 10 0).toNat →
          n = ((w 1).extractLsb 20 16).toNat → within (w 0) [(0, 7)] = true → within (w 1) [(0, 11), (16, 5)] = true →
          clearFrom ws 2 = true → n ≤ 16 → first + n ≤ 2048 →
        Answers s ((s.taken .vfrange).putFn (vf + 1) { (s.taken .vfrange).fn (vf + 1) with first := first, count := n }) .vfrange 0 []) ∧
      (∀ num frames p, poolFrames ws = some (num, frames) → s.part? num = some p →
        num = ((w 0).extractLsb 5 0).toNat ∧
        (∀ f, f ∈ frames ↔ ((w 1).extractLsb 51 16).toNat ≤ f ∧ f < ((w 1).extractLsb 51 16).toNat + ((w 2).extractLsb 31 0).toNat ∧
          f < Config.nearFrames) ∧
        (∀ i, i = .poolsetAdd ∨ i = .poolsetWithdraw →
          ((w 0).getLsbD 8 = true →
            (frames.length = ((w 2).extractLsb 31 0).toNat → (∀ f ∈ frames, s.owner f = BitVec.ofNat 16 (2 ^ 14 + num)) →
              ∃ new : List Nat, (∀ f, f ∈ new ↔ f ∈ frames ∧ f ∉ p.pool) ∧
                Answers s ((s.taken i).putPart num { p with pool := p.pool ++ new }) i 0 (wordBytes [BitVec.ofNat 64 new.length])) ∧
            ((∃ f ∈ frames, s.owner f ≠ BitVec.ofNat 16 (2 ^ 14 + num)) → Refuses s i 2)) ∧
          ((w 0).getLsbD 8 = false →
            ((∀ f ∈ frames, s.frameUsed num f = false) → ∃ out kept : List Nat, (∀ f, f ∈ out ↔ f ∈ frames ∧ f ∈ p.pool) ∧
              (∀ f, f ∈ kept ↔ f ∈ p.pool ∧ f ∉ frames) ∧
              Answers s ((s.taken i).putPart num { p with pool := kept }) i 0 (wordBytes [BitVec.ofNat 64 out.length])) ∧
            ((∃ f ∈ frames, f ∈ p.pool ∧ s.frameUsed num f = true) → ∃ s2 bytes held, held ≠ [] ∧
              (∀ f ∈ held, f ∈ frames ∧ f ∈ p.pool) ∧ Runs s s2 i bytes (.vacate num held))))))

/-- The commands about a context (R245, R258, R297, R299, R306, R307, R340, R346, R347, R357, R367, R375 to R377, R392, R417): its
entry created and destroyed, THROTTLE, a shootdown announced on the ring, for which the command runs on, sprues, gates, the seam
region, replies to a fault, the first launch, managed pages entered and withdrawn, each of their units below FARSIZE, and encoder
streams. A command named by a bit of its payload does what the bit says under either name. The model's choices: RESULT 3 where a VF
has its contexts or where pinned storage leaves a set no way, and 4 for a sprue handle or counter in use (log entry 98), the engines
of encoder streams (log entry 21), and RESULT 2 for a payload that names what cannot be (log entry 66). -/
def Obligations.ContextCommandResults : Prop :=
  ∀ (s : State), s.mayCommand →
    let ws := s.ev.words
    let w (i : Nat) : Word := pay ws i
    (∀ n, n = ((w 0).extractLsb 10 0).toNat → s.mayName s.ev.fn n = true →
      (∀ c p, within (w 0) [(0, 11)] = true → clearFrom ws 9 = true → readCtx ws = some c → s.part? c.part = some p →
        (c.state = .idle ∧ c.energy = 0 ∧ c.fn = ((w 1).extractLsb 23 16).toNat ∧ c.part = ((w 1).extractLsb 5 0).toNat ∧
          c.prio = (w 1).extractLsb 26 24 ∧ c.nptrap = (w 1).getLsbD 27 ∧ c.root = ((w 2).extractLsb 51 16).toNat * 65536 ∧
          c.savebase = ((w 3).extractLsb 51 16).toNat * 65536 ∧ c.gates = [] ∧ c.launches = [] ∧ c.fn ≤ 128) ∧
        (s.ev.fn ≠ 0 → c.fn ≠ s.ev.fn → Refuses s .ctxcreate 1) ∧
        ((s.ev.fn = 0 ∨ c.fn = s.ev.fn) → (p.isSealed = false ∨ c.farloc ≠ 2) →
          (s.ctx? n = none → (c.fn = 0 ∨ s.ownedBy c.fn < 16) → ((s.taken .ctxcreate).putCtx n c).pinsHold c.part = false →
            Refuses s .ctxcreate 3) ∧
          (s.ctx? n = none → (c.fn = 0 ∨ s.ownedBy c.fn < 16) → ((s.taken .ctxcreate).putCtx n c).pinsHold c.part = true →
            ((p.isSealed = false ∨ s.framesOf 2 n = []) → Answers s ((s.taken .ctxcreate).putCtx n c) .ctxcreate 0 []) ∧
            (∃ s2, Answers s s2 .ctxcreate 0 [] ∧ s2.ctx? n = some c ∧ s2.threads = s.threads ∧
              ∀ a, a / 65536 ∉ s.framesOf 2 n → s2.byteAt a = s.byteAt a)) ∧
          (s.ctx? n = none → c.fn ≠ 0 → 16 ≤ s.ownedBy c.fn → Refuses s .ctxcreate 3) ∧
          ((s.ctx? n).isSome = true → Refuses s .ctxcreate 4))) ∧
      (∀ c, s.ctx? n = some c → within (w 0) [(0, 11)] = true → clearFrom ws 1 = true →
        ∃ s2, Answers s s2 .ctxdestroy 0 [] ∧ s2.ctx? n = none ∧ (∀ m, m ≠ n → (s2.ctx? m).isSome = (s.ctx? m).isSome) ∧
          (∀ g ∈ s2.gangs, g.2.ctx ≠ n) ∧ (∀ m ∈ s2.migrations, m.ctx ≠ n) ∧ (∀ r ∈ s2.tickets, r.2.ctx ≠ n)) ∧
      (∀ c, s.ctx? n = some c → c.state ≠ .faulted →
        (within (w 0) [(0, 11)] = true → within (w 1) [(0, 1)] = true → clearFrom ws 2 = true →
          ∃ s2 c2, Answers s s2 .ctxpolicy 0 [] ∧ s2.ctx? n = some c2 ∧ c2.throttle = (w 1).getLsbD 0 ∧ c2.energy = c.energy ∧
            c2.state = c.state ∧ s2.threads = s.threads) ∧
        (within (w 0) [(0, 11)] = true → within (w 1) [(16, 39)] = true → within (w 2) [(0, 32)] = true → clearFrom ws 3 = true →
          let all := (w 2).toNat = 0
          ∃ s2, Runs s s2 .shootdown [] (.ring s.nextRing) ∧ (∀ a, s2.byteAt a = s.byteAt a) ∧ s2.ctxs = s.ctxs ∧
            s2.benches = s.benches ∧ s2.dieTlbs = s.dieTlbs ∧
            s2.ring = s.ring ++ [(s.nextRing, (s.partBenches c.part, .shootdown n (if all then 0 else (w 1).toNat)
              (if all then 2 ^ 55 else (w 2).toNat * 65536)))]) ∧
        (∀ h q, h = (w 1).toNat → within (w 0) [(0, 11)] = true → within (w 1) [(0, 6)] = true → readSprue ws = some q →
          ((Map.get? c.sprues h).isSome = true → Refuses s .spruecreate 4) ∧
          (Map.get? c.sprues h = none → ((s.taken .spruecreate).putSprue n h q).pinsHold c.part = false →
            Refuses s .spruecreate 3) ∧
          (Map.get? c.sprues h = none → ((s.taken .spruecreate).putSprue n h q).pinsHold c.part = true →
            (q.donec = 0xFFF → Answers s ((s.taken .spruecreate).putSprue n h q) .spruecreate 0 []) ∧
            (q.donec ≠ 0xFFF → q.donec ≠ 0 → (s.counter n q.donec).state ≠ .opened → ∃ s2, Answers s s2 .spruecreate 0 [] ∧
              s2.sprue? n h = some q ∧ (s2.counter n q.donec).state = .opened ∧ (s2.counter n q.donec).pending = 0 ∧
              (s2.counter n q.donec).sealed = false) ∧
            (q.donec = 0 ∨ (q.donec ≠ 0xFFF ∧ (s.counter n q.donec).state = .opened) → Refuses s .spruecreate 4))) ∧
        (∀ h q, h = (w 1).toNat → within (w 0) [(0, 11)] = true → within (w 1) [(0, 6)] = true → clearFrom ws 2 = true →
          (Map.get? c.sprues h = none → Refuses s .spruedestroy 2) ∧
          (Map.get? c.sprues h = some q →
            (∃ s2, Answers s s2 .spruedestroy 0 [] ∧ s2.sprue? n h = none) ∧
            (q.donec ≠ 0xFFF → q.entries = [] → q.taken = [] →
              Answers s (((s.taken .spruedestroy).putCtx n { c with sprues := Map.del c.sprues h }).sealCounter n q.donec) .spruedestroy 0 []) ∧
            (q.donec ≠ 0xFFF → (q.entries ≠ [] ∨ q.taken ≠ []) → c.launches = [] → ∃ s2, Answers s s2 .spruedestroy 0 [] ∧
              s2.counter n q.donec =
                { s.counter n q.donec with err := true, sealed := true, state := .cancelled, cancelling := false }))) ∧
        (∀ g i, i = .gatewrite ∨ i = .gatewriteWithdraw → g = ((w 1).extractLsb 7 0).toNat → gateNamed ws = true →
          let gate := [w 2, w 3, w 4, w 5, w 6, w 7, w 8, w 9]
          ((w 1).getLsbD 8 = false → gateFormed gate = true →
            Answers s ((s.taken i).putCtx n { c with gates := Map.put c.gates g gate }) i 0 []) ∧
          ((w 1).getLsbD 8 = false → gateFormed gate = false → Refuses s i 2) ∧
          ((w 1).getLsbD 8 = true → gateClear gate = true →
            Answers s ((s.taken i).putCtx n { c with gates := Map.del c.gates g }) i 0 []) ∧
          ((w 1).getLsbD 8 = true → gateClear gate = false → Refuses s i 2)) ∧
        (within (w 0) [(0, 11)] = true → within (w 1) [(16, 36)] = true → clearFrom ws 3 = true →
          ((w 2).toNat < (s.quartersOf c.part).length * 7680 * 1024 → Refuses s .seamregion 3) ∧
          ((s.quartersOf c.part).length * 7680 * 1024 ≤ (w 2).toNat →
            Answers s ((s.taken .seamregion).putCtx n { c with seamRegion := some (w 1).toNat }) .seamregion 0 [])) ∧
        (∀ r, within (w 0) [(0, 11)] = true → ((ws.drop 1).take 7).all (· == 0) = true → clearFrom ws 48 = true →
          (s.hasWork n = true → Refuses s .ctxstart 4) ∧
          (s.hasWork n = false →
            readLaunch s.ownNumber ((List.range 8).map fun i => w (8 + i)) ((List.range 32).map fun i => w (16 + i)) = some r →
            fieldAt (w 10) 0 55 = 0 → r.parent = 0xFFF →
            (s.launchStatus n c.part (some r) = 0 → Answers s ((s.taken .ctxstart).queueLaunch n r 0) .ctxstart 0 (wordBytes [0])) ∧
            (s.launchStatus n c.part (some r) ≠ 0 → Answers s (s.taken .ctxstart) .ctxstart 0
              (wordBytes [BitVec.ofNat 64 (s.launchStatus n c.part (some r) * 2 ^ 60)])))) ∧
        (∀ i, i = .ladlemap ∨ i = .ladlemapUnmap → ladleFormed ws = true →
          let u := ((w 3).extractLsb 31 0).toNat
          let count := ((w 2).extractLsb 31 0).toNat
          let va := fun k => (w 1).toNat + k * 65536
          (s.ev.fn = 0 → s.boundPart c.part = true → Refuses s i 1) ∧
          (s.ev.fn ≠ 0 ∨ s.boundPart c.part = false →
            (c.farloc = 0 ∨ (∃ k < count, c.farsize ≤ u + k) → Refuses s i 3) ∧
            (c.farloc ≠ 0 → (∀ k < count, u + k < c.farsize) →
              (leafPlaces s n c ((List.range count).map va) = none → Refuses s i 2) ∧
              (∀ ps, leafPlaces s n c ((List.range count).map va) = some ps → (∀ p ∈ ps, p.2 < farBase) →
                ((w 0).getLsbD 16 = false → ∃ s2 c2, Answers s s2 i 0 [] ∧ s2.ctx? n = some c2 ∧
                  (∀ k < count, Map.get? c2.managed (va k) =
                    some ⟨u + k, none, 0, (w 3).getLsbD 32, (w 3).getLsbD 33, (w 3).getLsbD 34⟩) ∧
                  (∀ a, ps = [(va 0, a)] → s2.doubleAt a =
                    farLeaf c u ((w 3).getLsbD 32) ((w 3).getLsbD 33) ((w 3).getLsbD 34))) ∧
                ((w 0).getLsbD 16 = true → ∃ s2 c2 ann, Runs s s2 i [] (.ring ann) ∧ s2.ctx? n = some c2 ∧
                  (∀ k < count, Map.get? c2.managed (va k) = none) ∧
                  (ann, (s.partBenches c.part, Announce.shootdown n (w 1).toNat (count * 65536))) ∈ s2.ring ∧
                  (∀ a, ps = [(va 0, a)] → s2.doubleAt a = s.doubleAt a &&& ~~~1)))))))) ∧
    (∀ (n key : Nat) (c : Ctx), n = ((w 0).extractLsb 26 16).toNat → key = n * 16384 + ((w 0).extractLsb 13 0).toNat →
      s.mayName s.ev.fn n = true → s.ctx? n = some c → c.state ≠ .faulted →
      within (w 0) [(0, 14), (16, 11)] = true → clearFrom ws 2 = true →
      ∀ (i : Instr) (r : BitVec 2), i = .faultreplyResume ∨ i = .faultreplyDeliver ∨ i = .faultreplyStop → w 1 = r.setWidth 64 →
      (r = 3 → Refuses s i 2) ∧ (r ≠ 3 →
      (s.thread? key = none → Refuses s i 4) ∧
      (∀ t, s.thread? key = some t → t.key = key →
        ((∀ f, t.status ≠ .service f) → Refuses s i 4) ∧
        (∀ f, t.status = .service f →
          (t.parked = true → Answers s ((s.taken i).putThread { t with reply := some r }) i 0 []) ∧
          (t.parked = false → ∃ s2 u, Answers s s2 i 0 [] ∧ s2.thread? key = some u ∧
            (r = 0 → u.status = .runnable ∧ u.pc = f.pc ∧ u.x = t.x) ∧ (r = 2 → u.status = .faulted f.cause ∧ u.pc = f.pc) ∧
            (r = 1 → s2 = (s.taken i).trapEntry { t with
              reply := none, status := .runnable, readyAt := (s.core t.core).cycle } f.cause f.value f.pc
              (f.vec.map BitVec.toNat))))))) ∧
    (∀ (e : EncStream) (part k : Nat), part = ((w 0).extractLsb 21 16).toNat →
      k = part * 65536 + ((w 0).extractLsb 15 0).toNat → ∀ i, i = .encstream ∨ i = .encstreamWithdraw →
      (streamClear ws = false → Refuses s i 2) ∧
      (streamClear ws = true →
        ((w 0).getLsbD 32 = false → e = ⟨s.ev.fn, w 1, ((w 2).extractLsb 15 0).toNat, ((w 2).extractLsb 31 16).toNat, ((w 3).extractLsb 31 0).toNat,
          ((w 3).extractLsb 63 32).toNat, (w 4).toNat, (w 5).toNat, 0, false, 0⟩ →
        (codecOk (fieldAt (w 1) 0 2) (fieldAt (w 1) 2 2) ((w 1).getLsbD 4) ((w 1).getLsbD 5) = false → Refuses s i 2) ∧
        (codecOk (fieldAt (w 1) 0 2) (fieldAt (w 1) 2 2) ((w 1).getLsbD 4) ((w 1).getLsbD 5) = true →
          e.width ≠ 0 → e.height ≠ 0 → e.rate ≠ 0 → Map.get? s.encoders k = none →
          (s.mayEncode s.ev.fn part = false → Refuses s i 1) ∧
          (s.mayEncode s.ev.fn part = true → ∀ p, s.part? part = some p → (∀ x ∈ s.encoders, x.1 / 65536 ≠ part) →
            (encUnits e.width e.height e.rate ≤ p.encs →
              (∀ g < 8, 8 < s.engineUnits k g + encUnits e.width e.height e.rate) → Refuses s i 3) ∧
            (encUnits e.width e.height e.rate ≤ p.encs →
              (∃ g < 8, s.engineUnits k g + encUnits e.width e.height e.rate ≤ 8) → ∃ g < 8,
                s.engineUnits k g + encUnits e.width e.height e.rate ≤ 8 ∧
                Answers s { s.taken i with
                  frees := s.frees + 1
                  encoders := Map.put s.encoders k { e with engine := g } } i 0 []) ∧
            (p.encs < encUnits e.width e.height e.rate → Refuses s i 3)))) ∧
        ((w 0).getLsbD 32 = true → (Map.get? s.encoders k = none → Refuses s i 2) ∧
        (∀ o, Map.get? s.encoders k = some o →
        (s.ev.fn = 0 ∨ o.fn = s.ev.fn → Answers s { s.taken i with encoders := Map.del s.encoders k } i 0 []) ∧
        (s.ev.fn ≠ 0 → o.fn ≠ s.ev.fn → Refuses s i 1)))))

/-- The commands that observe, and WOENEBIND (R394, R396, R399 to R402, R409 to R411, R417, R421, R422): counters configured,
read, listed and loaded in the function's own bank; trace sessions and their precedence; a stopped thread read and resumed,
comparators; capsules read and cleared; the dump buffer; numbers, routes and bindings. The operation of DEBUGSTATE and WOENEBIND is
the one their payload names, under any of their names. The model's choices: the free part of a count (log entry 22), RESULT 2 for a
payload that names what cannot be (log entry 66), who may release a session (log entry 68), and the RESULTs of DEBUGSTATE (log entry
69). -/
def Obligations.InspectCommandResults : Prop :=
  ∀ (s : State), s.mayCommand →
    let ws := s.ev.words
    let w (i : Nat) : Word := pay ws i
    let n := s.ev.fn
    (∀ cls unit cnt : Nat, cls = ((w 0).extractLsb 15 12).toNat → unit = ((w 0).extractLsb 11 3).toNat →
      cnt = ((w 0).extractLsb 2 0).toNat → within (w 0) [(0, 16)] = true →
      (cls < 7 → unit < ([256, 128, 128, 64, 36, 8, 8][cls]?).getD 0 → within (w 1) [(0, 9), (16, 11), (63, 1)] = true →
        clearFrom ws 2 = true → ∃ b : BankCounter,
          Answers s { s.taken .cntcfg with banks := Map.put s.banks (State.bankKey cls unit n cnt) b } .cntcfg 0 [] ∧
          b.event = (w 1).extractLsb 7 0 ∧ b.cfen = (w 1).getLsbD 8 ∧ b.cfilt = (w 1).extractLsb 26 16 ∧ b.unav = false ∧
          ((w 1).getLsbD 63 = true → b.count = 0) ∧
          ((w 1).getLsbD 63 = false → ∀ o, Map.get? s.banks (State.bankKey cls unit n cnt) = some o → b.count = o.count)) ∧
      (7 ≤ cls ∨ ([256, 128, 128, 64, 36, 8, 8][cls]?).getD 0 ≤ unit → Refuses s .cntcfg 2) ∧
      (clearFrom ws 1 = true → ∃ v s2, Answers s s2 .cntread 0 (wordBytes [v]) ∧
        (8 ≤ cls ∨ (cls < 7 ∧ ([256, 128, 128, 64, 36, 8, 8][cls]?).getD 0 ≤ unit) → v = 0x8000000000000000) ∧
        (∀ b, cls < 7 → unit < ([256, 128, 128, 64, 36, 8, 8][cls]?).getD 0 →
          Map.get? s.banks (State.bankKey cls unit n cnt) = some b → b.unav = false → implements cls b.event = true →
          (followed b.event = true → v = b.count.setWidth 64 ∧ s2 = s.taken .cntread) ∧
          (followed b.event = false → b.event ≠ 0x04 → v = (b.count + Config.eventCount s.frees b.event.toNat).setWidth 64 ∧
            s2 = { s.taken .cntread with frees := s.frees + 1 })))) ∧
    (within (w 0) [(0, 32)] = true → clearFrom ws 1 = true → ∃ s2 bytes, Answers s s2 .cntsnap 0 bytes ∧
      bytes.length ≤ 4096 ∧ s2.banks = s.banks ∧ s2.threads = s.threads) ∧
    (∀ d0 d1 cls unit cnt, ws = [w 0, d0, d1] → within (w 0) [(0, 32)] = true → within d0 [(0, 25), (32, 11)] = true →
      selectorOf d0 = some (cls, unit, cnt) → d1.getLsbD 63 = false → ∃ b : BankCounter,
        Answers s { s.taken .cntload with banks := Map.put s.banks (State.bankKey cls unit n cnt) b } .cntload 0 [] ∧
        b.event = d0.extractLsb 23 16 ∧ b.cfen = d0.getLsbD 24 ∧ b.cfilt = d0.extractLsb 42 32 ∧
        (implements cls b.event = true → b.count = d1.setWidth 63 ∧ b.unav = false) ∧
        (implements cls b.event = false → b.count = 0 ∧ b.unav = true)) ∧
    (∀ bench, bench = ((w 0).extractLsb 6 0).toNat → within (w 0) [(0, 7)] = true →
      (within (w 1) [(6, 46)] = true → within (w 3) [(0, 5), (8, 1)] = true → clearFrom ws 4 = true → (w 2).toNat % 64 = 0 →
        6 ≤ ((w 3).extractLsb 4 0).toNat → ((w 3).extractLsb 4 0).toNat ≤ 20 →
        ∀ ss : Session, ss = ⟨n, (w 1).toNat, (w 2).toNat, ((w 3).extractLsb 4 0).toNat, (w 3).getLsbD 8, 0, 0, 0, [], []⟩ →
        ((s.bench bench).trace = none → Answers s ((s.taken .traceclaim).putSession bench ss) .traceclaim 0 []) ∧
        (∀ o, (s.bench bench).trace = some o →
          (o.fn = 0 ∨ n ≠ 0 → Refuses s .traceclaim 4) ∧
          (o.fn ≠ 0 → n = 0 → ∃ s2 o2, Answers s s2 .traceclaim 0 [] ∧ (s2.bench bench).trace = some ss ∧
            (s2.bench bench).suspended = some o2 ∧ o2.fn = o.fn))) ∧
      (clearFrom ws 1 = true →
        ((s.bench bench).trace = none → Refuses s .tracerelease 1) ∧
        (∀ o, (s.bench bench).trace = some o → o.fn = n →
          ∃ s2, Answers s s2 .tracerelease 0 (wordBytes [BitVec.ofNat 64 o.drops]) ∧
            ((s.bench bench).suspended = none → (s2.bench bench).trace = none) ∧
            (∀ u, (s.bench bench).suspended = some u → (s2.bench bench).suspended = none ∧
              ((s2.bench bench).trace.map (·.fn)) = some u.fn)))) ∧
    (∀ i, i = .debugstateRead ∨ i = .debugstateResume ∨ i = .debugstateSetComparator ∨ i = .debugstateClearComparator →
      ∀ tid, tid = ((w 0).extractLsb 13 0).toNat → within (w 0) [(0, 14)] = true →
      (3 < (w 1).toNat → Refuses s i 2) ∧
      (s.debugSession n tid = none → (w 1 = 0 ∨ w 1 = 1 → clearFrom ws 3 = true → Refuses s i 1) ∧
        (w 1 = 2 ∨ w 1 = 3 → within (w 2) [(0, 2)] = true → clearFrom ws 4 = true → Refuses s i 1)) ∧
      (∀ ss, s.debugSession n tid = some ss →
        (∀ c, c = ((w 2).extractLsb 1 0).toNat → within (w 2) [(0, 2)] = true → clearFrom ws 4 = true →
          (w 1 = 2 → Answers s ((s.taken i).putSession (tid / 128) { ss with comparators := Map.put ss.comparators c (w 3) })
            i 0 []) ∧
          (w 1 = 3 → Answers s ((s.taken i).putSession (tid / 128) { ss with comparators := Map.del ss.comparators c }) i 0 [])) ∧
        (clearFrom ws 3 = true →
          (s.stoppedThread ss tid = none → w 1 = 0 ∨ w 1 = 1 → Refuses s i 4) ∧
          (∀ t, s.stoppedThread ss tid = some t →
            (w 1 = 1 → ∃ u, Answers s ((s.taken i).putThread u) i 0 [] ∧ u.pc = w 2 ∧ u.debugHeld = false ∧
              u.debugStopped = false ∧ u.x = t.x ∧ u.status = t.status) ∧
            (w 1 = 0 → 18 < (w 2).toNat → Refuses s i 2) ∧
            (w 1 = 0 → w 2 = 0 → ∃ bs, Answers s (s.taken i) i 0 bs ∧ bs.length = 688 ∧
              (∀ r : Fin 64, leNat ((bs.drop (8 * r.val)).take 8) = (t.getX (BitVec.ofNat 6 r.val)).toNat) ∧
              leNat ((bs.drop 512).take 8) = t.pc.toNat) ∧
            (∀ j : Fin 16, w 1 = 0 → (w 2).toNat = j.val + 1 → ∃ bs, Answers s (s.taken i) i 0 bs ∧
              bs.length = 512 ∧ leNat bs = (t.v[j]).toNat))))) ∧
    (∀ slot, slot = ((w 0).extractLsb 1 0).toNat → within (w 0) [(0, 2)] = true →
      (within (w 1) [(0, 32)] = true → clearFrom ws 2 = true →
        (s.capsuleAt slot = none → Answers s (s.taken .capsuleget) .capsuleget 0 []) ∧
        (∀ c, s.capsuleAt slot = some c →
          Answers s (s.taken .capsuleget) .capsuleget 0 (((c.view n).drop ((w 1).toNat * 4096)).take 4096))) ∧
      (clearFrom ws 1 = true →
        (n = 0 → slot ≠ 3 → Answers s { s.taken .capsuleclear with capsules := Map.del s.capsules slot } .capsuleclear 0 []) ∧
        (n = 0 → slot = 3 → Answers s { s.taken .capsuleclear with summary := none } .capsuleclear 0 []) ∧
        (n ≠ 0 → ∃ s2, Answers s s2 .capsuleclear 0 [] ∧
          (∀ i c, s.capsuleAt i = some c → ∃ c2, s2.capsuleAt i = some c2 ∧ c2 = { c with readBy := c2.readBy } ∧
            (i = slot → n ∈ c2.readBy))))) ∧
    (within (w 0) [(6, 46)] = true → clearFrom ws 2 = true →
      Answers s ((s.taken .dumpbuf).putFn n { (s.taken .dumpbuf).fn n with dump := some ((w 0).toNat, (w 1).toNat) }) .dumpbuf 0 []) ∧
    (n = 0 → ∀ i, i = .woenebindOwnNumber ∨ i = .woenebindRoute ∨ i = .woenebindBind ∨ i = .woenebindUnbind →
      (3 < (w 0).toNat → Refuses s i 2) ∧
      (w 0 = 0 → within (w 1) [(0, 10)] = true → clearFrom ws 2 = true →
        Answers s { s.taken i with ownNumber := (w 1).toNat } i 0 []) ∧
      (w 0 = 1 → within (w 1) [(0, 10)] = true → within (w 2) [(0, 36)] = true → clearFrom ws 3 = true →
        Answers s { s.taken i with routes := Map.put s.routes (w 1).toNat ((w 2).setWidth 36) } i 0 []) ∧
      (∀ num, num = ((w 1).extractLsb 5 0).toNat → within (w 1) [(0, 6), (16, 16)] = true → clearFrom ws 2 = true →
        (s.part? num = none → w 0 = 2 ∨ w 0 = 3 → Refuses s i 2) ∧
        (∀ p, s.part? num = some p →
          (w 0 = 2 → Answers s ((s.taken i).putPart num { p with tag := some ((w 1).extractLsb 31 16).toNat }) i 0 []) ∧
          (w 0 = 3 → Answers s ((s.taken i).putPart num { p with tag := none }) i 0 []))))

/-! ### The world outside (R345, R348, R409, R412, R413, R418 to R425) -/

/-- HOST_HDM_ACCESS, BACK_INVALIDATE_RESPONSE and the events of Woene Link (R269, R413, R418, R420 to R423, R425): no part in CXL.mem
before the last step of a reset; the verdict of the owner check, a read answered or poisoned, a write performed byte by byte or
discarded; a peer's load, store and atomic without a binding and with one; the end of a peer's time; ports up and down with their
event; a replayed flit counted. The model's choices: the poisoned answer has no bytes, and answers several lines as one (log entry
76); the context whose tables translate a peer's address (log entry 25); what a peer answers (log entry 7). -/
def Obligations.OutsideAccessResults : Prop :=
  ∀ (s : State),
    (∀ fn frame, frame < Config.nearFrames → ∀ e, e = s.owner frame →
      ((State.ownerKind e = 0 ∨ State.ownerKind e = 3) → (s.hdmOk fn frame = true ↔ fn = 0)) ∧
      (State.ownerKind e = 1 → ∀ p, s.part? (State.ownerNumber e) = some p →
        (p.isSealed = true → ∀ b, p.bound = some b → (s.hdmOk fn frame = true ↔ fn = b)) ∧
        ((p.isSealed = false ∨ p.bound = none) → (s.hdmOk fn frame = true ↔
          fn = 0 ∨ ∃ c ∈ s.ctxs, c.2.part = State.ownerNumber e ∧ c.2.fn = fn))) ∧
      (State.ownerKind e = 2 → ∀ c p, s.ctx? (State.ownerNumber e) = some c → s.part? c.part = some p →
        (p.isSealed = true → ∀ b, p.bound = some b → (s.hdmOk fn frame = true ↔ fn = b)) ∧
        ((p.isSealed = false ∨ p.bound = none) → (s.hdmOk fn frame = true ↔ fn = 0 ∨ c.fn = fn)))) ∧
    (s.fwHeld = true ∨ s.booted = false → exec .hostHdmAccess s = .next { s with reply := [], replyBad := true }) ∧
    (s.fwHeld = false → s.booted = true → s.ev.flag = true → 0 < s.ev.b →
      ((∃ l, s.ev.a / 128 ≤ l ∧ l * 128 < s.ev.a + s.ev.b ∧
          (s.hdmOk s.ev.fn (l * 128 / 65536) = false ∨ s.saveOk s.ev.fn (l * 128 / 65536) = false)) →
        exec .hostHdmAccess s = .next { s with reply := [], replyBad := true }) ∧
      ((∀ l, s.ev.a / 128 ≤ l → l * 128 < s.ev.a + s.ev.b →
          s.hdmOk s.ev.fn (l * 128 / 65536) = true ∧ s.saveOk s.ev.fn (l * 128 / 65536) = true) →
        (∀ o, s.objState o = .invalid) → s.orders = [] →
        (s.poisoned s.ev.a s.ev.b ≠ none → exec .hostHdmAccess s = .next { s with reply := [], replyBad := true }) ∧
        (s.poisoned s.ev.a s.ev.b = none → ∃ h, exec .hostHdmAccess s =
          .next { s with reply := s.bytesAt s.ev.a s.ev.b, replyBad := false, hostLines := s.hostLines ++ h } ∧
          (s.ev.c = 0 → h = []) ∧
          (s.ev.c ≠ 0 → ∀ l, s.ev.a / 128 ≤ l → l * 128 < s.ev.a + s.ev.b → l ∈ s.hostLines ++ h)))) ∧
    (s.fwHeld = false → s.booted = true → s.ev.flag = false → (∀ o, s.objState o = .invalid) → ∃ s2, exec .hostHdmAccess s = .next s2 ∧ s2.threads = s.threads ∧
      (∀ i, (h : i < s.ev.data.length) → s2.byteAt (s.ev.a + i) =
        if s.hdmOk s.ev.fn ((s.ev.a + i) / 65536) then s.ev.data[i] else s.byteAt (s.ev.a + i)) ∧
      (∀ a, a < s.ev.a ∨ s.ev.a + s.ev.data.length ≤ a → s2.byteAt a = s.byteAt a)) ∧
    exec .backInvalidateResponse s = .next { s with
      hostLines := s.hostLines.filter (· != s.ev.a), snoops := s.snoops.filter (· != s.ev.a) } ∧
    (s.ev.flag = true →
      ((∀ p ∈ s.parts, p.2.tag ≠ some ((s.ev.nums[0]?).getD 0)) →
        exec .woeneTransaction s = .next { s with reply := [0x12], replyBad := true }) ∧
      (∀ num p ctx s1 pa l x, s.tagPart ((s.ev.nums[0]?).getD 0) = some (num, p) → p.running = some ctx →
        s.translate ⟨p.quarters.headD 0 * 2, ctx, num, false⟩ s.ev.a (peerOp s.ev).extent.2 = (.ok (.mem pa l x), s1) →
        (x.getLsbD 5 = true → s1.homeRejects num pa = true →
          exec .woeneTransaction s = .next { s1 with reply := [0x12], replyBad := true }) ∧
        ((x.getLsbD 5 = false ∨ s1.homeRejects num pa = false) → (∀ o, s1.objState o = .invalid) → s1.orders = [] →
        (s.ev.nums[1]? = some 0 → s1.poisoned pa s.ev.b = none → ∃ s2, exec .woeneTransaction s = .next s2 ∧
          s2.reply = s1.bytesAt pa s.ev.b ∧ s2.replyBad = false ∧ (∀ a, s2.byteAt a = s1.byteAt a)) ∧
        (s.ev.nums[1]? = some 0 → s1.poisoned pa s.ev.b ≠ none → ∃ s2, exec .woeneTransaction s = .next s2 ∧
          s2.reply = [] ∧ s2.replyBad = true) ∧
        (s.ev.nums[1]? = some 1 → ∃ s2, exec .woeneTransaction s = .next s2 ∧ s2.replyBad = false ∧
          (∀ i, (h : i < s.ev.data.length) → s2.byteAt (pa + i) = s.ev.data[i]) ∧
          (∀ a, a < pa ∨ pa + s.ev.data.length ≤ a → s2.byteAt a = s1.byteAt a)) ∧
        (∀ op, s.ev.nums[1]? = some 2 ∨ s.ev.nums[1]? = some 3 → peerOp s.ev = .atomic op →
          (s1.poisoned pa op.size ≠ none → exec .woeneTransaction s = .next { s1 with reply := [], replyBad := true }) ∧
          (s1.poisoned pa op.size = none → ∃ s2, exec .woeneTransaction s = .next s2 ∧
            s2.reply = s1.bytesAt pa op.size ∧ s2.replyBad = false ∧
            s2.bytesAt pa op.size = (match op.newBits (leNat (s1.bytesAt pa op.size)) with
              | some v => leBytes op.size v
              | none => s1.bytesAt pa op.size) ∧
            (∀ a, a < pa ∨ pa + op.size ≤ a → s2.byteAt a = s1.byteAt a)))))) ∧
    (s.ev.flag = false → ∀ t d, s.thread? s.ev.a = some t → t.key = s.ev.a → t.asked = .peer d →
      exec .woeneTransaction s = .next (if t.parked then s
        else s.raiseHere s.ev.a (BitVec.ofNat 8 s.ev.b) (BitVec.ofNat 64 s.ev.c) t.pc none)) ∧
    (∀ t wt d, s.thread? s.ev.a = some t → t.key = s.ev.a → t.status = .waiting wt → wt.asked = .peer d →
      ((t.parked = true ∨ wt.elapsed < 100000) → exec .peerUnreachable s = .next s) ∧
      (t.parked = false → 100000 ≤ wt.elapsed → ∃ s2, exec .peerUnreachable s = .next s2 ∧
        s2.lostReads = s.lostReads + 1 ∧
        (t.deferred = none →
          s2.thread? s.ev.a = some { t with status := .faulted 0x3F, readyAt := (s.core t.core).cycle - 1 }) ∧
        (t.deferred.isSome = true → s2.thread? s.ev.a = some { t with status := .runnable }))) ∧
    (∃ s2, exec .woeneLinkChange s = .next s2 ∧ s2.threads = s.threads ∧ s2.near = s.near ∧
      ∀ q, q ∈ s2.portsDown ↔ (q ≠ s.ev.a % 36 ∧ q ∈ s.portsDown) ∨ (s.ev.flag = false ∧ q = s.ev.a % 36)) ∧
    (∃ s2, exec .flitReplay s = .next s2 ∧ s2 = { s with banks := s2.banks } ∧
      (s.ev.flag = false → ∀ i b, i < 8 → Map.get? s.banks (State.bankKey 4 (s.ev.a % 36) 0 i) = some b →
        Map.get? s2.banks (State.bankKey 4 (s.ev.a % 36) 0 i) =
          some (if b.event = 0x42 ∧ b.cfen = false then { b with count := b.count + 1 } else b)))

/-- Attestation, reset, power and errors (R345, R348, R407, R409, R419, R421, R423 to R425): the answer of SPDM, a binding under
TDISP, contexts destroyed with their VF, what a cold and a warm reset leave, and one that firmware is held at, power lost, the
throttle, a Machine Check that stops every partition and then power-off, poison in memory, in an accumulator, in a scratchpad and in
an L1, and a scrub's count. What a reset leaves of the model's own fields and of host memory is log entry 73, and the shutdown in two
steps log entry 74: the model's choices; the answer of SPDM is the free value of log entry 9. -/
def Obligations.ResetAndErrorResults : Prop :=
  ∀ (s : State),
    (let said := Config.spdmAnswer s.frees (s.measurements s.ev.fn) s.ev.data
     exec .spdmRequest s = .next { s with frees := s.frees + 1, spdm := Map.put s.spdm s.ev.fn said }) ∧
    (s.ev.fn = 0 → exec .tdispRun s = .next s ∧ exec .tdispError s = .next s ∧ exec .functionLevelReset s = .next s) ∧
    (s.ev.fn ≠ 0 → ∃ s2, exec .tdispRun s = .next s2 ∧ s2 = { s with parts := s2.parts } ∧ ∀ n p, s.part? n = some p →
      ((∃ c ∈ s.ctxs, c.2.part = n ∧ c.2.fn = s.ev.fn) → p.isSealed = true →
        s2.part? n = some { p with bound := some s.ev.fn }) ∧
      ((∀ c ∈ s.ctxs, c.2.part = n → c.2.fn ≠ s.ev.fn) ∨ p.isSealed = false → s2.part? n = some p)) ∧
    (s.ev.fn ≠ 0 → ∀ i, i = .tdispError ∨ i = .functionLevelReset → ∃ s2, exec i s = .next s2 ∧
      (∀ n c, s.ctx? n = some c → c.fn = s.ev.fn → s2.ctx? n = none) ∧
      (∀ n, (∀ x ∈ s.ctxs, x.1 = n → x.2.fn ≠ s.ev.fn) → (s2.ctx? n).isSome = (s.ctx? n).isSome)) ∧
    (∀ (i : Instr), i = .coldReset ∨ i = .warmReset → ∃ s2, exec i s = .next s2 ∧
      s2.gtsc = 0 ∧ (∀ a < farBase, s2.byteAt a = if s.ev.flag then s.byteAt a else 0) ∧
      (∀ a ≥ farBase, s2.byteAt a = s.byteAt a) ∧ (∀ f, s2.owner f = if s.ev.flag then s.owner f else 0) ∧ s2.threads = [] ∧ s2.ctxs = [] ∧ s2.parts = [] ∧ s2.gangs = [] ∧ s2.ownNumber = 0 ∧
      s2.routes = [] ∧ s2.portsDown = (if s.ev.flag then List.range 36 else s.ev.nums.filter (· < 36)) ∧ s2.fwHeld = s.ev.flag ∧ s2.booted = !s.ev.flag ∧
      s2.summary = s.summary ∧ s2.freeze = none ∧ s2.stopped = false ∧ s2.poison = (if s.ev.flag then s.poison else []) ∧
      s2.capsules = (if i = .warmReset then s.capsules else [])) ∧
    (∃ s2, exec .powerLoss s = .next s2 ∧ s2.booted = false ∧ s2.threads = [] ∧ s2.capsules = [] ∧ s2.summary = s.summary ∧
      (∀ a < farBase, s2.byteAt a = 0) ∧ (∀ a ≥ farBase, s2.byteAt a = s.byteAt a)) ∧
    exec .junctionThrottle s = .next { s with throttled := true } ∧
    exec .junctionThrottleEnd s = .next { s with throttled := false } ∧
    (s.stopped = true → exec .junctionShutdown s = exec .powerLoss s) ∧
    (∀ (i : Instr) (source : Nat), (i = .junctionShutdown ∧ s.stopped = false ∧ source = 0x680) ∨
      (i = .uncorrectableError ∧ s.ev.flag = true ∧ source = s.ev.c ∧ sourceListed source = true) →
      ∃ s2, exec i s = .next s2 ∧ s2.stopped = true ∧ s2.threads = s.threads ∧
        (s.freeze = none → s2.freeze = some ⟨s.gtsc + 48, source, s.gtsc, [], [(source, s.gtsc)]⟩) ∧
        (∀ f, s.freeze = some f → s2.freeze = some { f with
          faults := f.faults ++ [(source, s.gtsc)], source := if s.gtsc = f.t0 ∧ source < f.source then source else f.source }) ∧
        ∀ k, s2.issue k = .next s2) ∧
    (s.ev.flag = true → sourceListed s.ev.c = false → exec .uncorrectableError s = .next s) ∧
    (∀ n, sourceListed n = true ↔ n < 0x664 ∨ (0x668 ≤ n ∧ n < 0x684) ∨ (0x690 ≤ n ∧ n < 0x694)) ∧
    (s.ev.flag = false →
      (∀ bench cell, s.ev.nums = [bench, cell] → ∃ s2, exec .uncorrectableError s = .next s2 ∧
        (∀ x, x ∈ (s2.bench bench).badCells ↔ x ∈ (s.bench bench).badCells ∨ x = cell) ∧ s2.threads = s.threads ∧
        s2.poison = s.poison) ∧
      (∀ gang g, s.ev.nums = [gang] → s.gang? gang = some g → ∃ s2 g2, exec .uncorrectableError s = .next s2 ∧
        s2.gang? gang = some g2 ∧ g2 = { g with bad := g2.bad } ∧ (∀ x, x ∈ g2.bad ↔ x ∈ g.bad ∨ x = s.ev.a / 128) ∧
        s2.threads = s.threads ∧ s2.poison = s.poison) ∧
      (∀ bench ctx line, s.ev.nums = [bench, ctx, line] → ∃ s2, exec .uncorrectableError s = .next s2 ∧
        (∀ x, x ∈ (s2.bench bench).badLines ↔ x ∈ (s.bench bench).badLines ∨
          (x = (ctx, line) ∧ ((s.bench bench).l1Find ctx line).isSome = true)) ∧
        (s2.bench bench).l1 = (s.bench bench).l1 ∧ s2.threads = s.threads ∧ s2.poison = s.poison) ∧
      (s.ev.nums.length ∉ [1, 2, 3] → ∃ s2, exec .uncorrectableError s = .next s2 ∧ s2.threads = s.threads ∧
        (∀ l, l ∈ s2.poison ↔ l ∈ s.poison ∨ l = s.ev.a / 128) ∧
        (s.ev.a / 65536 < Config.nearFrames → ∀ i b, i < 8 →
          Map.get? s.banks (State.bankKey 3 (s.ev.a / 65536 % 64) 0 i) = some b →
          Map.get? s2.banks (State.bankKey 3 (s.ev.a / 65536 % 64) 0 i) =
            some (if b.event = 0x33 ∧ b.cfen = false then { b with count := b.count + 1 } else b)))) ∧
    (∃ s2, exec .patrolScrub s = .next s2 ∧ s2 = { s with banks := s2.banks } ∧
      (∀ i b, i < 8 → Map.get? s.banks (State.bankKey 3 (s.ev.b % 64) 0 i) = some b →
        Map.get? s2.banks (State.bankKey 3 (s.ev.b % 64) 0 i) =
          some (if b.event = 0x32 ∧ b.cfen = false then { b with count := b.count + BitVec.ofNat 63 s.ev.a } else b)))

/-! ### Decoding, the step, invariants and reset -/

/-- Words the spec writes out, each with the instruction it stands for (R208 to R231, R283 to R285, R301, R306, R322, R379,
R398, R399, and the programs). -/
def Obligations.DecodedWords : Prop :=
  decode 0xF900 0x15100010 = .ok (.pmark 5 17) ∧
  decode 0xF908 0x24000020 = .ok (.cntrd 8 9) ∧
  decode 0xF500 3 = .ok (.seam 3) ∧
  decode 0x5381 0x258020610000 = .ok (.strel 1 .n32 ⟨1, 11, 0⟩ .partition) ∧
  decode 0x5043 0 = .ok (.fence .partition false false true true) ∧
  decode 0x5597 0x2B2800680000 = .ok (.amoSwap ⟨23, .n32, ⟨1, 22, 0⟩, 20, .relaxed, .thread⟩) ∧
  decode 0x7109 0x28C00000 = .ok (.qpush 9 10 12) ∧
  decode 0x7305 0x08600000 = .ok (.launch 5 2 6) ∧
  decode 0xD314 0x08418000 = .ok (.dcopy 20 2 4 6) ∧
  decode 0xDB85 0x430000000008 = .ok (.lde 5 ⟨2, 6, 8⟩) ∧
  decode 0xE905 0x0C620410 = .ok (.tkcommit 5 3 6 8 4) ∧
  decode 0x8300 0x2CA00100 = .ok (.vloop 11 10 0 1)

/-- Decoding an encoded instruction gives it back, for every well-formed instruction that has an encoding and every value
of its operands (R31, R40, R43). -/
def Obligations.DecodeOfEncode : Prop :=
  ∀ i : Instr, i.wf = true → i.encoded = true → ∃ h t, encode i = some (h, t) ∧ decode h t = .ok i

/-- What decodes is well formed and has the encoding it was decoded from, so every other encoding is refused (R40, R43). -/
def Obligations.EncodeOfDecode : Prop :=
  ∀ (h : BitVec 16) (t : BitVec 48) (i : Instr), t.toNat < 2 ^ (8 * tailLen h) → decode h t = .ok i →
    i.wf = true ∧ encode i = some (h, t)

/-- One step (R32, R33, R37, R38, R82, R148, R171, R269, R385): the chosen thread's next head, read through g0 and decoded, is
executed by `exec` in the machine that has noted the issue, and time passes, where it is the thread's turn and the transfer
of a hardware loop passes R38; a thread whose turn it is not issues nothing; a head that fails R38, R32 or R40 raises its
cause; an agent's act is executed by `exec`; with nothing to do, time passes. The model's choices: which act comes next, whole and
indivisible (log entry 1), the time a step takes (log entry 2), the core cycles of the rotation (log entry 33), Frame Owner of an
access the home has refused in place of the next instruction (log entry 101), and Misaligned Target for a pc that is no head any
more (log entry 106). -/
def Obligations.StepRunsDecoded : Prop :=
  ∀ (s s0 : State),
    (∀ t, s.choose = (some (.issue t.key), s0) → s0.thread? t.key = some t → t.mayIssue = true → s0.stopped = false →
      t.deferred = none →
      (∀ u n, s0.turnOf t.core = some (u, n) → u.key ≠ t.key → step s = .next s0.after) ∧
      ∀ u n, s0.turnOf t.core = some (u, n) → u.key = t.key →
      ∀ b, b = t.boundary →
      (∀ v, Map.get? s0.strays t.key = some v →
        step s = .next (({ ((s0.putThread b).slotUsed b n).onThread t.key Thread.dropPending with
          strays := Map.del s0.strays t.key } : State).raiseHere t.key 0x12 v t.pc none).after) ∧
      (Map.get? s0.strays t.key = none → ∀ img s1, (s0.putThread b).fetchLine b t.pc false true = (.ok img, s1) →
        let s2 := s1.putThread { b with line := some (lineBase t.pc, img) }
        let s3 (i : Instr) : State := s2.issued b i n
        let run (i : Instr) : Result :=
          match (s3 i).loopCheck (((s3 i).thread? t.key).getD b) (exec i { s3 i with cur := some t.key, ev := .empty }) with
          | .next s4 => .next s4.after
          | r => r
        (isHead img t.pc = true → lineOk img = true → s2.debugged b = none →
          (∀ i, decode (lineHead img (headIndex t.pc)) (lineTail img (headIndex t.pc)) = .ok i → b.fits i = true →
            step s = run i) ∧
          (∀ e, decode (lineHead img (headIndex t.pc)) (lineTail img (headIndex t.pc)) = .error e → t.pass = none →
            t.vloop = none →
            step s = run (.illegalInstruction (lineHead img (headIndex t.pc)) (lineTail img (headIndex t.pc))))) ∧
        (isHead img t.pc = true → lineOk img = false → s2.debugged b = none → t.pass = none → t.vloop = none →
          step s = run (.lineFormat (lineBase t.pc))) ∧
        (isHead img t.pc = false → step s = .next
          (((s2.slotUsed b n).onThread t.key Thread.dropPending).raiseHere t.key 0x03 t.pc t.pc none).after))) ∧
    (∀ i ev, s.choose = (some (.agent i ev), s0) → (s0.stopped = false ∨ ofPartition i = false) →
      step s = match exec i { s0 with cur := none, ev := ev } with
        | .next s3 => .next s3.after
        | r => r) ∧
    (s.choose = (none, s0) → step s = .next s0.after) ∧
    (∀ a rest, s.sched = a :: rest → s.choose = (some a, { s with sched := rest })) ∧
    (∀ u : State, u.stopped = true → u.after.gtsc = u.gtsc + BitVec.ofNat 64 (Config.elapsedNs u.steps) ∧
      u.after.near = u.near ∧ u.after.far = u.far)

/-- Every step keeps the memories in their canonical form, the owner entries in order and every capsule in its slot
(R247, R409). -/
def Obligations.MemoryInvariant : Prop :=
  ∀ s s' : State, Memory.wf s = true ∧ Map.rising s.owners = true ∧ (∀ c ∈ s.capsules, c.1 < 3) → step s = .next s' →
    Memory.wf s' = true ∧ Map.rising s'.owners = true ∧ (∀ c ∈ s'.capsules, c.1 < 3)

/-- Every step keeps each thread under its own number, its loop stack within six entries, its seam depth within 15 and its
mailbox within 8 entries (R98, R103, R377). -/
def Obligations.ThreadInvariant : Prop :=
  ∀ s s' : State,
    (∀ x ∈ s.threads, x.2.key = x.1 ∧ x.2.loops.length ≤ 6 ∧ x.2.frames.length ≤ 15 ∧ x.2.mailbox.length ≤ 8 ∧
      ∀ f ∈ x.2.frames, f.loops.length ≤ 6) → step s = .next s' →
    ∀ x ∈ s'.threads, x.2.key = x.1 ∧ x.2.loops.length ≤ 6 ∧ x.2.frames.length ≤ 15 ∧ x.2.mailbox.length ≤ 8 ∧
      ∀ f ∈ x.2.frames, f.loops.length ≤ 6

/-- The machine after reset (R247, R385, R421, R423): every near byte reads 0, every frame's owner entry is 0, the GTSC is 0,
the device's own number is 0, no route and no binding exists, no thread, context, gang or partition is there, and the
invariants of steps hold. Host memory that nothing has written reads 0 by the model's choice (log entry 3), and a function's mailbox
fields, for which the spec states no value, are as log entry 4 says. -/
def Obligations.ResetState : Prop :=
  State.reset.gtsc = 0 ∧ (∀ a, State.reset.byteAt a = 0) ∧ (∀ f, State.reset.owner f = 0) ∧ State.reset.ownNumber = 0 ∧
  (∀ d, Map.get? State.reset.routes d = none) ∧ State.reset.parts = [] ∧ State.reset.ctxs = [] ∧ State.reset.threads = [] ∧
  State.reset.gangs = [] ∧ (∀ f, State.reset.fn f = Fn.fresh) ∧ State.reset.freeze = none ∧
  Memory.wf State.reset = true ∧ Map.rising State.reset.owners = true ∧ (∀ c ∈ State.reset.capsules, c.1 < 3)
end

