-- ==== Sys2Proof/Laws/Map.lean ====
section
/-!
SUPPORT. Finite maps: what a put and a removal leave at each key, and that they keep the keys rising.
-/
namespace Sys2Proof.Machine.Map

@[simp] theorem get?_nil {α : Type} (k : Nat) : get? ([] : List (Nat × α)) k = none := rfl

@[simp] theorem get?_put_self {α : Type} (m : List (Nat × α)) (k : Nat) (a : α) : get? (put m k a) k = some a := by
  induction m with
  | nil => simp [put, get?]
  | cons h m ih =>
    obtain ⟨j, b⟩ := h
    simp only [put]
    split
    · simp [get?]
    · split
      · simp [get?]
      · rename_i h; simp [get?, h, ih]

theorem get?_put_other {α : Type} (m : List (Nat × α)) {k l : Nat} (a : α) (hl : l ≠ k) :
    get? (put m k a) l = get? m l := by
  induction m with
  | nil => simp [put, get?, Ne.symm hl]
  | cons h m ih =>
    obtain ⟨j, b⟩ := h
    simp only [put]
    split
    · simp [get?, Ne.symm hl]
    · split
      · rename_i h; subst h; simp [get?, Ne.symm hl]
      · simp only [get?]; split <;> simp [ih]

@[simp] theorem put_put {α : Type} (m : List (Nat × α)) (k : Nat) (a b : α) : put (put m k a) k b = put m k b := by
  induction m with
  | nil => simp [put]
  | cons h m ih =>
    obtain ⟨j, c⟩ := h
    simp only [put]
    split
    · simp [put]
    · split
      · simp [put]
      · rename_i h1 h2; simp [put, h1, h2, ih]

@[simp] theorem get?_del_self {α : Type} (m : List (Nat × α)) (k : Nat) : get? (del m k) k = none := by
  induction m with
  | nil => rfl
  | cons h m ih =>
    obtain ⟨j, b⟩ := h
    simp only [del]
    split
    · exact ih
    · rename_i h; simp [get?, h, ih]

theorem get?_del_other {α : Type} (m : List (Nat × α)) {k l : Nat} (hl : l ≠ k) : get? (del m k) l = get? m l := by
  induction m with
  | nil => rfl
  | cons h m ih =>
    obtain ⟨j, b⟩ := h
    simp only [del]
    split
    · rename_i h; subst h; simp [get?, Ne.symm hl, ih]
    · simp only [get?]; split <;> simp [ih]

/-- Every key of a map is above `n`. -/
def above {α : Type} (n : Nat) : List (Nat × α) → Bool
  | [] => true
  | (j, _) :: _ => decide (n < j)

theorem rising_cons {α : Type} (j : Nat) (a : α) (m : List (Nat × α)) :
    rising ((j, a) :: m) = (above j m && rising m) := by
  cases m <;> simp [rising, above]

theorem above_trans {α : Type} {j k : Nat} (m : List (Nat × α)) (h : j < k) (hm : above k m) : above j m := by
  cases m with
  | nil => rfl
  | cons p m => simp [above] at *; omega

theorem above_put {α : Type} {j k : Nat} (m : List (Nat × α)) (a : α) (h : j < k) (hm : above j m) :
    above j (put m k a) := by
  cases m with
  | nil => simp [put, above, h]
  | cons p m =>
    obtain ⟨l, b⟩ := p
    simp only [put]
    split
    · simp [above, h]
    · split
      · simp [above, h]
      · simpa [above] using hm

theorem rising_put {α : Type} (m : List (Nat × α)) (k : Nat) (a : α) (hm : rising m) : rising (put m k a) := by
  induction m with
  | nil => rfl
  | cons p m ih =>
    obtain ⟨j, b⟩ := p
    rw [rising_cons, Bool.and_eq_true] at hm
    simp only [put]
    split
    · rename_i h
      have hk : above k ((j, b) :: m) := by simpa [above] using h
      rw [rising_cons, rising_cons, hk, hm.1, hm.2]; rfl
    · split
      · rename_i h; subst h; rw [rising_cons]; simp [hm.1, hm.2]
      · rename_i h1 h2
        rw [rising_cons, Bool.and_eq_true]
        exact ⟨above_put m a (by omega) hm.1, ih hm.2⟩

theorem above_del {α : Type} {j : Nat} (m : List (Nat × α)) (k : Nat) (hm : above j m) (hr : rising m) :
    above j (del m k) := by
  induction m with
  | nil => rfl
  | cons p m ih =>
    obtain ⟨l, b⟩ := p
    rw [rising_cons, Bool.and_eq_true] at hr
    have hl : j < l := by simpa [above] using hm
    simp only [del]
    split
    · exact ih (above_trans m hl hr.1) hr.2
    · simpa [above] using hl

theorem rising_del {α : Type} (m : List (Nat × α)) (k : Nat) (hm : rising m) : rising (del m k) := by
  induction m with
  | nil => rfl
  | cons p m ih =>
    obtain ⟨j, b⟩ := p
    rw [rising_cons, Bool.and_eq_true] at hm
    simp only [del]
    split
    · exact ih hm.2
    · rw [rising_cons, Bool.and_eq_true]
      exact ⟨above_del m k hm.1 hm.2, ih hm.2⟩

end Sys2Proof.Machine.Map
end

