-- ==== Sys2Proof/Laws/State.lean ====
section
/-!
SUPPORT. What each update of a part of the state leaves in every field, and what each update of a thread leaves in every
field of the thread.
-/
namespace Sys2Proof.Machine

/-! ### Updates of the state -/

namespace State

@[simp] theorem putThread_cur (s : State) (t : Thread) : (s.putThread t).cur = s.cur := rfl
@[simp] theorem putThread_ev (s : State) (t : Thread) : (s.putThread t).ev = s.ev := rfl
@[simp] theorem putThread_sched (s : State) (t : Thread) : (s.putThread t).sched = s.sched := rfl
@[simp] theorem putThread_steps (s : State) (t : Thread) : (s.putThread t).steps = s.steps := rfl
@[simp] theorem putThread_frees (s : State) (t : Thread) : (s.putThread t).frees = s.frees := rfl
@[simp] theorem putThread_stamps (s : State) (t : Thread) : (s.putThread t).stamps = s.stamps := rfl
@[simp] theorem putThread_gtsc (s : State) (t : Thread) : (s.putThread t).gtsc = s.gtsc := rfl
@[simp] theorem putThread_threads (s : State) (t : Thread) : (s.putThread t).threads = Map.put s.threads t.key t := rfl
@[simp] theorem putThread_cores (s : State) (t : Thread) : (s.putThread t).cores = s.cores := rfl
@[simp] theorem putThread_benches (s : State) (t : Thread) : (s.putThread t).benches = s.benches := rfl
@[simp] theorem putThread_gangs (s : State) (t : Thread) : (s.putThread t).gangs = s.gangs := rfl
@[simp] theorem putThread_ctxs (s : State) (t : Thread) : (s.putThread t).ctxs = s.ctxs := rfl
@[simp] theorem putThread_near (s : State) (t : Thread) : (s.putThread t).near = s.near := rfl
@[simp] theorem putThread_far (s : State) (t : Thread) : (s.putThread t).far = s.far := rfl
@[simp] theorem putThread_owners (s : State) (t : Thread) : (s.putThread t).owners = s.owners := rfl
@[simp] theorem putThread_attrs (s : State) (t : Thread) : (s.putThread t).attrs = s.attrs := rfl
@[simp] theorem putThread_poison (s : State) (t : Thread) : (s.putThread t).poison = s.poison := rfl
@[simp] theorem putThread_fullTags (s : State) (t : Thread) : (s.putThread t).fullTags = s.fullTags := rfl
@[simp] theorem putThread_objs (s : State) (t : Thread) : (s.putThread t).objs = s.objs := rfl
@[simp] theorem putThread_pageObjs (s : State) (t : Thread) : (s.putThread t).pageObjs = s.pageObjs := rfl
@[simp] theorem putThread_objReqs (s : State) (t : Thread) : (s.putThread t).objReqs = s.objReqs := rfl
@[simp] theorem putThread_home (s : State) (t : Thread) : (s.putThread t).home = s.home := rfl
@[simp] theorem putThread_nextHome (s : State) (t : Thread) : (s.putThread t).nextHome = s.nextHome := rfl
@[simp] theorem putThread_orders (s : State) (t : Thread) : (s.putThread t).orders = s.orders := rfl
@[simp] theorem putThread_lostReads (s : State) (t : Thread) : (s.putThread t).lostReads = s.lostReads := rfl
@[simp] theorem putThread_lostWrites (s : State) (t : Thread) : (s.putThread t).lostWrites = s.lostWrites := rfl
@[simp] theorem putThread_strays (s : State) (t : Thread) : (s.putThread t).strays = s.strays := rfl
@[simp] theorem putThread_slices (s : State) (t : Thread) : (s.putThread t).slices = s.slices := rfl
@[simp] theorem putThread_dieTlbs (s : State) (t : Thread) : (s.putThread t).dieTlbs = s.dieTlbs := rfl
@[simp] theorem putThread_ring (s : State) (t : Thread) : (s.putThread t).ring = s.ring := rfl
@[simp] theorem putThread_nextRing (s : State) (t : Thread) : (s.putThread t).nextRing = s.nextRing := rfl
@[simp] theorem putThread_claims (s : State) (t : Thread) : (s.putThread t).claims = s.claims := rfl
@[simp] theorem putThread_fns (s : State) (t : Thread) : (s.putThread t).fns = s.fns := rfl
@[simp] theorem putThread_freeze (s : State) (t : Thread) : (s.putThread t).freeze = s.freeze := rfl
@[simp] theorem putThread_parts (s : State) (t : Thread) : (s.putThread t).parts = s.parts := rfl
@[simp] theorem putThread_migrations (s : State) (t : Thread) : (s.putThread t).migrations = s.migrations := rfl
@[simp] theorem putThread_hotPages (s : State) (t : Thread) : (s.putThread t).hotPages = s.hotPages := rfl
@[simp] theorem putThread_banks (s : State) (t : Thread) : (s.putThread t).banks = s.banks := rfl
@[simp] theorem putThread_capsules (s : State) (t : Thread) : (s.putThread t).capsules = s.capsules := rfl
@[simp] theorem putThread_summary (s : State) (t : Thread) : (s.putThread t).summary = s.summary := rfl
@[simp] theorem putThread_capsuleSeq (s : State) (t : Thread) : (s.putThread t).capsuleSeq = s.capsuleSeq := rfl
@[simp] theorem putThread_encoders (s : State) (t : Thread) : (s.putThread t).encoders = s.encoders := rfl
@[simp] theorem putThread_tiles (s : State) (t : Thread) : (s.putThread t).tiles = s.tiles := rfl
@[simp] theorem putThread_tickets (s : State) (t : Thread) : (s.putThread t).tickets = s.tickets := rfl
@[simp] theorem putThread_nextTicket (s : State) (t : Thread) : (s.putThread t).nextTicket = s.nextTicket := rfl
@[simp] theorem putThread_hostLines (s : State) (t : Thread) : (s.putThread t).hostLines = s.hostLines := rfl
@[simp] theorem putThread_snoops (s : State) (t : Thread) : (s.putThread t).snoops = s.snoops := rfl
@[simp] theorem putThread_reply (s : State) (t : Thread) : (s.putThread t).reply = s.reply := rfl
@[simp] theorem putThread_replyBad (s : State) (t : Thread) : (s.putThread t).replyBad = s.replyBad := rfl
@[simp] theorem putThread_routes (s : State) (t : Thread) : (s.putThread t).routes = s.routes := rfl
@[simp] theorem putThread_portsDown (s : State) (t : Thread) : (s.putThread t).portsDown = s.portsDown := rfl
@[simp] theorem putThread_throttled (s : State) (t : Thread) : (s.putThread t).throttled = s.throttled := rfl
@[simp] theorem putThread_stopped (s : State) (t : Thread) : (s.putThread t).stopped = s.stopped := rfl
@[simp] theorem putThread_temperAt (s : State) (t : Thread) : (s.putThread t).temperAt = s.temperAt := rfl
@[simp] theorem putThread_fwHeld (s : State) (t : Thread) : (s.putThread t).fwHeld = s.fwHeld := rfl
@[simp] theorem putThread_booted (s : State) (t : Thread) : (s.putThread t).booted = s.booted := rfl
@[simp] theorem putThread_spdm (s : State) (t : Thread) : (s.putThread t).spdm = s.spdm := rfl
@[simp] theorem putThread_ownNumber (s : State) (t : Thread) : (s.putThread t).ownNumber = s.ownNumber := rfl

@[simp] theorem dropThread_cur (s : State) (k : Nat) : (s.dropThread k).cur = s.cur := rfl
@[simp] theorem dropThread_ev (s : State) (k : Nat) : (s.dropThread k).ev = s.ev := rfl
@[simp] theorem dropThread_sched (s : State) (k : Nat) : (s.dropThread k).sched = s.sched := rfl
@[simp] theorem dropThread_steps (s : State) (k : Nat) : (s.dropThread k).steps = s.steps := rfl
@[simp] theorem dropThread_frees (s : State) (k : Nat) : (s.dropThread k).frees = s.frees := rfl
@[simp] theorem dropThread_stamps (s : State) (k : Nat) : (s.dropThread k).stamps = s.stamps := rfl
@[simp] theorem dropThread_gtsc (s : State) (k : Nat) : (s.dropThread k).gtsc = s.gtsc := rfl
@[simp] theorem dropThread_threads (s : State) (k : Nat) : (s.dropThread k).threads = Map.del s.threads k := rfl
@[simp] theorem dropThread_cores (s : State) (k : Nat) : (s.dropThread k).cores = s.cores := rfl
@[simp] theorem dropThread_benches (s : State) (k : Nat) : (s.dropThread k).benches = s.benches := rfl
@[simp] theorem dropThread_gangs (s : State) (k : Nat) : (s.dropThread k).gangs = s.gangs := rfl
@[simp] theorem dropThread_ctxs (s : State) (k : Nat) : (s.dropThread k).ctxs = s.ctxs := rfl
@[simp] theorem dropThread_near (s : State) (k : Nat) : (s.dropThread k).near = s.near := rfl
@[simp] theorem dropThread_far (s : State) (k : Nat) : (s.dropThread k).far = s.far := rfl
@[simp] theorem dropThread_owners (s : State) (k : Nat) : (s.dropThread k).owners = s.owners := rfl
@[simp] theorem dropThread_attrs (s : State) (k : Nat) : (s.dropThread k).attrs = s.attrs := rfl
@[simp] theorem dropThread_poison (s : State) (k : Nat) : (s.dropThread k).poison = s.poison := rfl
@[simp] theorem dropThread_fullTags (s : State) (k : Nat) : (s.dropThread k).fullTags = s.fullTags := rfl
@[simp] theorem dropThread_objs (s : State) (k : Nat) : (s.dropThread k).objs = s.objs := rfl
@[simp] theorem dropThread_pageObjs (s : State) (k : Nat) : (s.dropThread k).pageObjs = s.pageObjs := rfl
@[simp] theorem dropThread_objReqs (s : State) (k : Nat) : (s.dropThread k).objReqs = s.objReqs := rfl
@[simp] theorem dropThread_home (s : State) (k : Nat) : (s.dropThread k).home = s.home := rfl
@[simp] theorem dropThread_nextHome (s : State) (k : Nat) : (s.dropThread k).nextHome = s.nextHome := rfl
@[simp] theorem dropThread_orders (s : State) (k : Nat) : (s.dropThread k).orders = s.orders := rfl
@[simp] theorem dropThread_lostReads (s : State) (k : Nat) : (s.dropThread k).lostReads = s.lostReads := rfl
@[simp] theorem dropThread_lostWrites (s : State) (k : Nat) : (s.dropThread k).lostWrites = s.lostWrites := rfl
@[simp] theorem dropThread_strays (s : State) (k : Nat) : (s.dropThread k).strays = Map.del s.strays k := rfl
@[simp] theorem dropThread_slices (s : State) (k : Nat) : (s.dropThread k).slices = s.slices := rfl
@[simp] theorem dropThread_dieTlbs (s : State) (k : Nat) : (s.dropThread k).dieTlbs = s.dieTlbs := rfl
@[simp] theorem dropThread_ring (s : State) (k : Nat) : (s.dropThread k).ring = s.ring := rfl
@[simp] theorem dropThread_nextRing (s : State) (k : Nat) : (s.dropThread k).nextRing = s.nextRing := rfl
@[simp] theorem dropThread_claims (s : State) (k : Nat) : (s.dropThread k).claims = s.claims := rfl
@[simp] theorem dropThread_fns (s : State) (k : Nat) : (s.dropThread k).fns = s.fns := rfl
@[simp] theorem dropThread_freeze (s : State) (k : Nat) : (s.dropThread k).freeze = s.freeze := rfl
@[simp] theorem dropThread_parts (s : State) (k : Nat) : (s.dropThread k).parts = s.parts := rfl
@[simp] theorem dropThread_migrations (s : State) (k : Nat) : (s.dropThread k).migrations = s.migrations := rfl
@[simp] theorem dropThread_hotPages (s : State) (k : Nat) : (s.dropThread k).hotPages = s.hotPages := rfl
@[simp] theorem dropThread_banks (s : State) (k : Nat) : (s.dropThread k).banks = s.banks := rfl
@[simp] theorem dropThread_capsules (s : State) (k : Nat) : (s.dropThread k).capsules = s.capsules := rfl
@[simp] theorem dropThread_summary (s : State) (k : Nat) : (s.dropThread k).summary = s.summary := rfl
@[simp] theorem dropThread_capsuleSeq (s : State) (k : Nat) : (s.dropThread k).capsuleSeq = s.capsuleSeq := rfl
@[simp] theorem dropThread_encoders (s : State) (k : Nat) : (s.dropThread k).encoders = s.encoders := rfl
@[simp] theorem dropThread_tiles (s : State) (k : Nat) : (s.dropThread k).tiles = s.tiles := rfl
@[simp] theorem dropThread_tickets (s : State) (k : Nat) : (s.dropThread k).tickets = s.tickets := rfl
@[simp] theorem dropThread_nextTicket (s : State) (k : Nat) : (s.dropThread k).nextTicket = s.nextTicket := rfl
@[simp] theorem dropThread_hostLines (s : State) (k : Nat) : (s.dropThread k).hostLines = s.hostLines := rfl
@[simp] theorem dropThread_snoops (s : State) (k : Nat) : (s.dropThread k).snoops = s.snoops := rfl
@[simp] theorem dropThread_reply (s : State) (k : Nat) : (s.dropThread k).reply = s.reply := rfl
@[simp] theorem dropThread_replyBad (s : State) (k : Nat) : (s.dropThread k).replyBad = s.replyBad := rfl
@[simp] theorem dropThread_routes (s : State) (k : Nat) : (s.dropThread k).routes = s.routes := rfl
@[simp] theorem dropThread_portsDown (s : State) (k : Nat) : (s.dropThread k).portsDown = s.portsDown := rfl
@[simp] theorem dropThread_throttled (s : State) (k : Nat) : (s.dropThread k).throttled = s.throttled := rfl
@[simp] theorem dropThread_stopped (s : State) (k : Nat) : (s.dropThread k).stopped = s.stopped := rfl
@[simp] theorem dropThread_temperAt (s : State) (k : Nat) : (s.dropThread k).temperAt = s.temperAt := rfl
@[simp] theorem dropThread_fwHeld (s : State) (k : Nat) : (s.dropThread k).fwHeld = s.fwHeld := rfl
@[simp] theorem dropThread_booted (s : State) (k : Nat) : (s.dropThread k).booted = s.booted := rfl
@[simp] theorem dropThread_spdm (s : State) (k : Nat) : (s.dropThread k).spdm = s.spdm := rfl
@[simp] theorem dropThread_ownNumber (s : State) (k : Nat) : (s.dropThread k).ownNumber = s.ownNumber := rfl

@[simp] theorem putCore_cur (s : State) (n : Nat) (c : Core) : (s.putCore n c).cur = s.cur := rfl
@[simp] theorem putCore_ev (s : State) (n : Nat) (c : Core) : (s.putCore n c).ev = s.ev := rfl
@[simp] theorem putCore_sched (s : State) (n : Nat) (c : Core) : (s.putCore n c).sched = s.sched := rfl
@[simp] theorem putCore_steps (s : State) (n : Nat) (c : Core) : (s.putCore n c).steps = s.steps := rfl
@[simp] theorem putCore_frees (s : State) (n : Nat) (c : Core) : (s.putCore n c).frees = s.frees := rfl
@[simp] theorem putCore_stamps (s : State) (n : Nat) (c : Core) : (s.putCore n c).stamps = s.stamps := rfl
@[simp] theorem putCore_gtsc (s : State) (n : Nat) (c : Core) : (s.putCore n c).gtsc = s.gtsc := rfl
@[simp] theorem putCore_threads (s : State) (n : Nat) (c : Core) : (s.putCore n c).threads = s.threads := rfl
@[simp] theorem putCore_cores (s : State) (n : Nat) (c : Core) : (s.putCore n c).cores = Map.put s.cores n c := rfl
@[simp] theorem putCore_benches (s : State) (n : Nat) (c : Core) : (s.putCore n c).benches = s.benches := rfl
@[simp] theorem putCore_gangs (s : State) (n : Nat) (c : Core) : (s.putCore n c).gangs = s.gangs := rfl
@[simp] theorem putCore_ctxs (s : State) (n : Nat) (c : Core) : (s.putCore n c).ctxs = s.ctxs := rfl
@[simp] theorem putCore_near (s : State) (n : Nat) (c : Core) : (s.putCore n c).near = s.near := rfl
@[simp] theorem putCore_far (s : State) (n : Nat) (c : Core) : (s.putCore n c).far = s.far := rfl
@[simp] theorem putCore_owners (s : State) (n : Nat) (c : Core) : (s.putCore n c).owners = s.owners := rfl
@[simp] theorem putCore_attrs (s : State) (n : Nat) (c : Core) : (s.putCore n c).attrs = s.attrs := rfl
@[simp] theorem putCore_poison (s : State) (n : Nat) (c : Core) : (s.putCore n c).poison = s.poison := rfl
@[simp] theorem putCore_fullTags (s : State) (n : Nat) (c : Core) : (s.putCore n c).fullTags = s.fullTags := rfl
@[simp] theorem putCore_objs (s : State) (n : Nat) (c : Core) : (s.putCore n c).objs = s.objs := rfl
@[simp] theorem putCore_pageObjs (s : State) (n : Nat) (c : Core) : (s.putCore n c).pageObjs = s.pageObjs := rfl
@[simp] theorem putCore_objReqs (s : State) (n : Nat) (c : Core) : (s.putCore n c).objReqs = s.objReqs := rfl
@[simp] theorem putCore_home (s : State) (n : Nat) (c : Core) : (s.putCore n c).home = s.home := rfl
@[simp] theorem putCore_nextHome (s : State) (n : Nat) (c : Core) : (s.putCore n c).nextHome = s.nextHome := rfl
@[simp] theorem putCore_orders (s : State) (n : Nat) (c : Core) : (s.putCore n c).orders = s.orders := rfl
@[simp] theorem putCore_lostReads (s : State) (n : Nat) (c : Core) : (s.putCore n c).lostReads = s.lostReads := rfl
@[simp] theorem putCore_lostWrites (s : State) (n : Nat) (c : Core) : (s.putCore n c).lostWrites = s.lostWrites := rfl
@[simp] theorem putCore_strays (s : State) (n : Nat) (c : Core) : (s.putCore n c).strays = s.strays := rfl
@[simp] theorem putCore_slices (s : State) (n : Nat) (c : Core) : (s.putCore n c).slices = s.slices := rfl
@[simp] theorem putCore_dieTlbs (s : State) (n : Nat) (c : Core) : (s.putCore n c).dieTlbs = s.dieTlbs := rfl
@[simp] theorem putCore_ring (s : State) (n : Nat) (c : Core) : (s.putCore n c).ring = s.ring := rfl
@[simp] theorem putCore_nextRing (s : State) (n : Nat) (c : Core) : (s.putCore n c).nextRing = s.nextRing := rfl
@[simp] theorem putCore_claims (s : State) (n : Nat) (c : Core) : (s.putCore n c).claims = s.claims := rfl
@[simp] theorem putCore_fns (s : State) (n : Nat) (c : Core) : (s.putCore n c).fns = s.fns := rfl
@[simp] theorem putCore_freeze (s : State) (n : Nat) (c : Core) : (s.putCore n c).freeze = s.freeze := rfl
@[simp] theorem putCore_parts (s : State) (n : Nat) (c : Core) : (s.putCore n c).parts = s.parts := rfl
@[simp] theorem putCore_migrations (s : State) (n : Nat) (c : Core) : (s.putCore n c).migrations = s.migrations := rfl
@[simp] theorem putCore_hotPages (s : State) (n : Nat) (c : Core) : (s.putCore n c).hotPages = s.hotPages := rfl
@[simp] theorem putCore_banks (s : State) (n : Nat) (c : Core) : (s.putCore n c).banks = s.banks := rfl
@[simp] theorem putCore_capsules (s : State) (n : Nat) (c : Core) : (s.putCore n c).capsules = s.capsules := rfl
@[simp] theorem putCore_summary (s : State) (n : Nat) (c : Core) : (s.putCore n c).summary = s.summary := rfl
@[simp] theorem putCore_capsuleSeq (s : State) (n : Nat) (c : Core) : (s.putCore n c).capsuleSeq = s.capsuleSeq := rfl
@[simp] theorem putCore_encoders (s : State) (n : Nat) (c : Core) : (s.putCore n c).encoders = s.encoders := rfl
@[simp] theorem putCore_tiles (s : State) (n : Nat) (c : Core) : (s.putCore n c).tiles = s.tiles := rfl
@[simp] theorem putCore_tickets (s : State) (n : Nat) (c : Core) : (s.putCore n c).tickets = s.tickets := rfl
@[simp] theorem putCore_nextTicket (s : State) (n : Nat) (c : Core) : (s.putCore n c).nextTicket = s.nextTicket := rfl
@[simp] theorem putCore_hostLines (s : State) (n : Nat) (c : Core) : (s.putCore n c).hostLines = s.hostLines := rfl
@[simp] theorem putCore_snoops (s : State) (n : Nat) (c : Core) : (s.putCore n c).snoops = s.snoops := rfl
@[simp] theorem putCore_reply (s : State) (n : Nat) (c : Core) : (s.putCore n c).reply = s.reply := rfl
@[simp] theorem putCore_replyBad (s : State) (n : Nat) (c : Core) : (s.putCore n c).replyBad = s.replyBad := rfl
@[simp] theorem putCore_routes (s : State) (n : Nat) (c : Core) : (s.putCore n c).routes = s.routes := rfl
@[simp] theorem putCore_portsDown (s : State) (n : Nat) (c : Core) : (s.putCore n c).portsDown = s.portsDown := rfl
@[simp] theorem putCore_throttled (s : State) (n : Nat) (c : Core) : (s.putCore n c).throttled = s.throttled := rfl
@[simp] theorem putCore_stopped (s : State) (n : Nat) (c : Core) : (s.putCore n c).stopped = s.stopped := rfl
@[simp] theorem putCore_temperAt (s : State) (n : Nat) (c : Core) : (s.putCore n c).temperAt = s.temperAt := rfl
@[simp] theorem putCore_fwHeld (s : State) (n : Nat) (c : Core) : (s.putCore n c).fwHeld = s.fwHeld := rfl
@[simp] theorem putCore_booted (s : State) (n : Nat) (c : Core) : (s.putCore n c).booted = s.booted := rfl
@[simp] theorem putCore_spdm (s : State) (n : Nat) (c : Core) : (s.putCore n c).spdm = s.spdm := rfl
@[simp] theorem putCore_ownNumber (s : State) (n : Nat) (c : Core) : (s.putCore n c).ownNumber = s.ownNumber := rfl

@[simp] theorem putBench_cur (s : State) (n : Nat) (b : Bench) : (s.putBench n b).cur = s.cur := rfl
@[simp] theorem putBench_ev (s : State) (n : Nat) (b : Bench) : (s.putBench n b).ev = s.ev := rfl
@[simp] theorem putBench_sched (s : State) (n : Nat) (b : Bench) : (s.putBench n b).sched = s.sched := rfl
@[simp] theorem putBench_steps (s : State) (n : Nat) (b : Bench) : (s.putBench n b).steps = s.steps := rfl
@[simp] theorem putBench_frees (s : State) (n : Nat) (b : Bench) : (s.putBench n b).frees = s.frees := rfl
@[simp] theorem putBench_stamps (s : State) (n : Nat) (b : Bench) : (s.putBench n b).stamps = s.stamps := rfl
@[simp] theorem putBench_gtsc (s : State) (n : Nat) (b : Bench) : (s.putBench n b).gtsc = s.gtsc := rfl
@[simp] theorem putBench_threads (s : State) (n : Nat) (b : Bench) : (s.putBench n b).threads = s.threads := rfl
@[simp] theorem putBench_cores (s : State) (n : Nat) (b : Bench) : (s.putBench n b).cores = s.cores := rfl
@[simp] theorem putBench_benches (s : State) (n : Nat) (b : Bench) : (s.putBench n b).benches = Map.put s.benches n b := rfl
@[simp] theorem putBench_gangs (s : State) (n : Nat) (b : Bench) : (s.putBench n b).gangs = s.gangs := rfl
@[simp] theorem putBench_ctxs (s : State) (n : Nat) (b : Bench) : (s.putBench n b).ctxs = s.ctxs := rfl
@[simp] theorem putBench_near (s : State) (n : Nat) (b : Bench) : (s.putBench n b).near = s.near := rfl
@[simp] theorem putBench_far (s : State) (n : Nat) (b : Bench) : (s.putBench n b).far = s.far := rfl
@[simp] theorem putBench_owners (s : State) (n : Nat) (b : Bench) : (s.putBench n b).owners = s.owners := rfl
@[simp] theorem putBench_attrs (s : State) (n : Nat) (b : Bench) : (s.putBench n b).attrs = s.attrs := rfl
@[simp] theorem putBench_poison (s : State) (n : Nat) (b : Bench) : (s.putBench n b).poison = s.poison := rfl
@[simp] theorem putBench_fullTags (s : State) (n : Nat) (b : Bench) : (s.putBench n b).fullTags = s.fullTags := rfl
@[simp] theorem putBench_objs (s : State) (n : Nat) (b : Bench) : (s.putBench n b).objs = s.objs := rfl
@[simp] theorem putBench_pageObjs (s : State) (n : Nat) (b : Bench) : (s.putBench n b).pageObjs = s.pageObjs := rfl
@[simp] theorem putBench_objReqs (s : State) (n : Nat) (b : Bench) : (s.putBench n b).objReqs = s.objReqs := rfl
@[simp] theorem putBench_home (s : State) (n : Nat) (b : Bench) : (s.putBench n b).home = s.home := rfl
@[simp] theorem putBench_nextHome (s : State) (n : Nat) (b : Bench) : (s.putBench n b).nextHome = s.nextHome := rfl
@[simp] theorem putBench_orders (s : State) (n : Nat) (b : Bench) : (s.putBench n b).orders = s.orders := rfl
@[simp] theorem putBench_lostReads (s : State) (n : Nat) (b : Bench) : (s.putBench n b).lostReads = s.lostReads := rfl
@[simp] theorem putBench_lostWrites (s : State) (n : Nat) (b : Bench) : (s.putBench n b).lostWrites = s.lostWrites := rfl
@[simp] theorem putBench_strays (s : State) (n : Nat) (b : Bench) : (s.putBench n b).strays = s.strays := rfl
@[simp] theorem putBench_slices (s : State) (n : Nat) (b : Bench) : (s.putBench n b).slices = s.slices := rfl
@[simp] theorem putBench_dieTlbs (s : State) (n : Nat) (b : Bench) : (s.putBench n b).dieTlbs = s.dieTlbs := rfl
@[simp] theorem putBench_ring (s : State) (n : Nat) (b : Bench) : (s.putBench n b).ring = s.ring := rfl
@[simp] theorem putBench_nextRing (s : State) (n : Nat) (b : Bench) : (s.putBench n b).nextRing = s.nextRing := rfl
@[simp] theorem putBench_claims (s : State) (n : Nat) (b : Bench) : (s.putBench n b).claims = s.claims := rfl
@[simp] theorem putBench_fns (s : State) (n : Nat) (b : Bench) : (s.putBench n b).fns = s.fns := rfl
@[simp] theorem putBench_freeze (s : State) (n : Nat) (b : Bench) : (s.putBench n b).freeze = s.freeze := rfl
@[simp] theorem putBench_parts (s : State) (n : Nat) (b : Bench) : (s.putBench n b).parts = s.parts := rfl
@[simp] theorem putBench_migrations (s : State) (n : Nat) (b : Bench) : (s.putBench n b).migrations = s.migrations := rfl
@[simp] theorem putBench_hotPages (s : State) (n : Nat) (b : Bench) : (s.putBench n b).hotPages = s.hotPages := rfl
@[simp] theorem putBench_banks (s : State) (n : Nat) (b : Bench) : (s.putBench n b).banks = s.banks := rfl
@[simp] theorem putBench_capsules (s : State) (n : Nat) (b : Bench) : (s.putBench n b).capsules = s.capsules := rfl
@[simp] theorem putBench_summary (s : State) (n : Nat) (b : Bench) : (s.putBench n b).summary = s.summary := rfl
@[simp] theorem putBench_capsuleSeq (s : State) (n : Nat) (b : Bench) : (s.putBench n b).capsuleSeq = s.capsuleSeq := rfl
@[simp] theorem putBench_encoders (s : State) (n : Nat) (b : Bench) : (s.putBench n b).encoders = s.encoders := rfl
@[simp] theorem putBench_tiles (s : State) (n : Nat) (b : Bench) : (s.putBench n b).tiles = s.tiles := rfl
@[simp] theorem putBench_tickets (s : State) (n : Nat) (b : Bench) : (s.putBench n b).tickets = s.tickets := rfl
@[simp] theorem putBench_nextTicket (s : State) (n : Nat) (b : Bench) : (s.putBench n b).nextTicket = s.nextTicket := rfl
@[simp] theorem putBench_hostLines (s : State) (n : Nat) (b : Bench) : (s.putBench n b).hostLines = s.hostLines := rfl
@[simp] theorem putBench_snoops (s : State) (n : Nat) (b : Bench) : (s.putBench n b).snoops = s.snoops := rfl
@[simp] theorem putBench_reply (s : State) (n : Nat) (b : Bench) : (s.putBench n b).reply = s.reply := rfl
@[simp] theorem putBench_replyBad (s : State) (n : Nat) (b : Bench) : (s.putBench n b).replyBad = s.replyBad := rfl
@[simp] theorem putBench_routes (s : State) (n : Nat) (b : Bench) : (s.putBench n b).routes = s.routes := rfl
@[simp] theorem putBench_portsDown (s : State) (n : Nat) (b : Bench) : (s.putBench n b).portsDown = s.portsDown := rfl
@[simp] theorem putBench_throttled (s : State) (n : Nat) (b : Bench) : (s.putBench n b).throttled = s.throttled := rfl
@[simp] theorem putBench_stopped (s : State) (n : Nat) (b : Bench) : (s.putBench n b).stopped = s.stopped := rfl
@[simp] theorem putBench_temperAt (s : State) (n : Nat) (b : Bench) : (s.putBench n b).temperAt = s.temperAt := rfl
@[simp] theorem putBench_fwHeld (s : State) (n : Nat) (b : Bench) : (s.putBench n b).fwHeld = s.fwHeld := rfl
@[simp] theorem putBench_booted (s : State) (n : Nat) (b : Bench) : (s.putBench n b).booted = s.booted := rfl
@[simp] theorem putBench_spdm (s : State) (n : Nat) (b : Bench) : (s.putBench n b).spdm = s.spdm := rfl
@[simp] theorem putBench_ownNumber (s : State) (n : Nat) (b : Bench) : (s.putBench n b).ownNumber = s.ownNumber := rfl

@[simp] theorem putCtx_cur (s : State) (n : Nat) (c : Ctx) : (s.putCtx n c).cur = s.cur := rfl
@[simp] theorem putCtx_ev (s : State) (n : Nat) (c : Ctx) : (s.putCtx n c).ev = s.ev := rfl
@[simp] theorem putCtx_sched (s : State) (n : Nat) (c : Ctx) : (s.putCtx n c).sched = s.sched := rfl
@[simp] theorem putCtx_steps (s : State) (n : Nat) (c : Ctx) : (s.putCtx n c).steps = s.steps := rfl
@[simp] theorem putCtx_frees (s : State) (n : Nat) (c : Ctx) : (s.putCtx n c).frees = s.frees := rfl
@[simp] theorem putCtx_stamps (s : State) (n : Nat) (c : Ctx) : (s.putCtx n c).stamps = s.stamps := rfl
@[simp] theorem putCtx_gtsc (s : State) (n : Nat) (c : Ctx) : (s.putCtx n c).gtsc = s.gtsc := rfl
@[simp] theorem putCtx_threads (s : State) (n : Nat) (c : Ctx) : (s.putCtx n c).threads = s.threads := rfl
@[simp] theorem putCtx_cores (s : State) (n : Nat) (c : Ctx) : (s.putCtx n c).cores = s.cores := rfl
@[simp] theorem putCtx_benches (s : State) (n : Nat) (c : Ctx) : (s.putCtx n c).benches = s.benches := rfl
@[simp] theorem putCtx_gangs (s : State) (n : Nat) (c : Ctx) : (s.putCtx n c).gangs = s.gangs := rfl
@[simp] theorem putCtx_ctxs (s : State) (n : Nat) (c : Ctx) : (s.putCtx n c).ctxs = Map.put s.ctxs n c := rfl
@[simp] theorem putCtx_near (s : State) (n : Nat) (c : Ctx) : (s.putCtx n c).near = s.near := rfl
@[simp] theorem putCtx_far (s : State) (n : Nat) (c : Ctx) : (s.putCtx n c).far = s.far := rfl
@[simp] theorem putCtx_owners (s : State) (n : Nat) (c : Ctx) : (s.putCtx n c).owners = s.owners := rfl
@[simp] theorem putCtx_attrs (s : State) (n : Nat) (c : Ctx) : (s.putCtx n c).attrs = s.attrs := rfl
@[simp] theorem putCtx_poison (s : State) (n : Nat) (c : Ctx) : (s.putCtx n c).poison = s.poison := rfl
@[simp] theorem putCtx_fullTags (s : State) (n : Nat) (c : Ctx) : (s.putCtx n c).fullTags = s.fullTags := rfl
@[simp] theorem putCtx_objs (s : State) (n : Nat) (c : Ctx) : (s.putCtx n c).objs = s.objs := rfl
@[simp] theorem putCtx_pageObjs (s : State) (n : Nat) (c : Ctx) : (s.putCtx n c).pageObjs = s.pageObjs := rfl
@[simp] theorem putCtx_objReqs (s : State) (n : Nat) (c : Ctx) : (s.putCtx n c).objReqs = s.objReqs := rfl
@[simp] theorem putCtx_home (s : State) (n : Nat) (c : Ctx) : (s.putCtx n c).home = s.home := rfl
@[simp] theorem putCtx_nextHome (s : State) (n : Nat) (c : Ctx) : (s.putCtx n c).nextHome = s.nextHome := rfl
@[simp] theorem putCtx_orders (s : State) (n : Nat) (c : Ctx) : (s.putCtx n c).orders = s.orders := rfl
@[simp] theorem putCtx_lostReads (s : State) (n : Nat) (c : Ctx) : (s.putCtx n c).lostReads = s.lostReads := rfl
@[simp] theorem putCtx_lostWrites (s : State) (n : Nat) (c : Ctx) : (s.putCtx n c).lostWrites = s.lostWrites := rfl
@[simp] theorem putCtx_strays (s : State) (n : Nat) (c : Ctx) : (s.putCtx n c).strays = s.strays := rfl
@[simp] theorem putCtx_slices (s : State) (n : Nat) (c : Ctx) : (s.putCtx n c).slices = s.slices := rfl
@[simp] theorem putCtx_dieTlbs (s : State) (n : Nat) (c : Ctx) : (s.putCtx n c).dieTlbs = s.dieTlbs := rfl
@[simp] theorem putCtx_ring (s : State) (n : Nat) (c : Ctx) : (s.putCtx n c).ring = s.ring := rfl
@[simp] theorem putCtx_nextRing (s : State) (n : Nat) (c : Ctx) : (s.putCtx n c).nextRing = s.nextRing := rfl
@[simp] theorem putCtx_claims (s : State) (n : Nat) (c : Ctx) : (s.putCtx n c).claims = s.claims := rfl
@[simp] theorem putCtx_fns (s : State) (n : Nat) (c : Ctx) : (s.putCtx n c).fns = s.fns := rfl
@[simp] theorem putCtx_freeze (s : State) (n : Nat) (c : Ctx) : (s.putCtx n c).freeze = s.freeze := rfl
@[simp] theorem putCtx_parts (s : State) (n : Nat) (c : Ctx) : (s.putCtx n c).parts = s.parts := rfl
@[simp] theorem putCtx_migrations (s : State) (n : Nat) (c : Ctx) : (s.putCtx n c).migrations = s.migrations := rfl
@[simp] theorem putCtx_hotPages (s : State) (n : Nat) (c : Ctx) : (s.putCtx n c).hotPages = s.hotPages := rfl
@[simp] theorem putCtx_banks (s : State) (n : Nat) (c : Ctx) : (s.putCtx n c).banks = s.banks := rfl
@[simp] theorem putCtx_capsules (s : State) (n : Nat) (c : Ctx) : (s.putCtx n c).capsules = s.capsules := rfl
@[simp] theorem putCtx_summary (s : State) (n : Nat) (c : Ctx) : (s.putCtx n c).summary = s.summary := rfl
@[simp] theorem putCtx_capsuleSeq (s : State) (n : Nat) (c : Ctx) : (s.putCtx n c).capsuleSeq = s.capsuleSeq := rfl
@[simp] theorem putCtx_encoders (s : State) (n : Nat) (c : Ctx) : (s.putCtx n c).encoders = s.encoders := rfl
@[simp] theorem putCtx_tiles (s : State) (n : Nat) (c : Ctx) : (s.putCtx n c).tiles = s.tiles := rfl
@[simp] theorem putCtx_tickets (s : State) (n : Nat) (c : Ctx) : (s.putCtx n c).tickets = s.tickets := rfl
@[simp] theorem putCtx_nextTicket (s : State) (n : Nat) (c : Ctx) : (s.putCtx n c).nextTicket = s.nextTicket := rfl
@[simp] theorem putCtx_hostLines (s : State) (n : Nat) (c : Ctx) : (s.putCtx n c).hostLines = s.hostLines := rfl
@[simp] theorem putCtx_snoops (s : State) (n : Nat) (c : Ctx) : (s.putCtx n c).snoops = s.snoops := rfl
@[simp] theorem putCtx_reply (s : State) (n : Nat) (c : Ctx) : (s.putCtx n c).reply = s.reply := rfl
@[simp] theorem putCtx_replyBad (s : State) (n : Nat) (c : Ctx) : (s.putCtx n c).replyBad = s.replyBad := rfl
@[simp] theorem putCtx_routes (s : State) (n : Nat) (c : Ctx) : (s.putCtx n c).routes = s.routes := rfl
@[simp] theorem putCtx_portsDown (s : State) (n : Nat) (c : Ctx) : (s.putCtx n c).portsDown = s.portsDown := rfl
@[simp] theorem putCtx_throttled (s : State) (n : Nat) (c : Ctx) : (s.putCtx n c).throttled = s.throttled := rfl
@[simp] theorem putCtx_stopped (s : State) (n : Nat) (c : Ctx) : (s.putCtx n c).stopped = s.stopped := rfl
@[simp] theorem putCtx_temperAt (s : State) (n : Nat) (c : Ctx) : (s.putCtx n c).temperAt = s.temperAt := rfl
@[simp] theorem putCtx_fwHeld (s : State) (n : Nat) (c : Ctx) : (s.putCtx n c).fwHeld = s.fwHeld := rfl
@[simp] theorem putCtx_booted (s : State) (n : Nat) (c : Ctx) : (s.putCtx n c).booted = s.booted := rfl
@[simp] theorem putCtx_spdm (s : State) (n : Nat) (c : Ctx) : (s.putCtx n c).spdm = s.spdm := rfl
@[simp] theorem putCtx_ownNumber (s : State) (n : Nat) (c : Ctx) : (s.putCtx n c).ownNumber = s.ownNumber := rfl

@[simp] theorem putGang_cur (s : State) (n : Nat) (g : Gang) : (s.putGang n g).cur = s.cur := rfl
@[simp] theorem putGang_ev (s : State) (n : Nat) (g : Gang) : (s.putGang n g).ev = s.ev := rfl
@[simp] theorem putGang_sched (s : State) (n : Nat) (g : Gang) : (s.putGang n g).sched = s.sched := rfl
@[simp] theorem putGang_steps (s : State) (n : Nat) (g : Gang) : (s.putGang n g).steps = s.steps := rfl
@[simp] theorem putGang_frees (s : State) (n : Nat) (g : Gang) : (s.putGang n g).frees = s.frees := rfl
@[simp] theorem putGang_stamps (s : State) (n : Nat) (g : Gang) : (s.putGang n g).stamps = s.stamps := rfl
@[simp] theorem putGang_gtsc (s : State) (n : Nat) (g : Gang) : (s.putGang n g).gtsc = s.gtsc := rfl
@[simp] theorem putGang_threads (s : State) (n : Nat) (g : Gang) : (s.putGang n g).threads = s.threads := rfl
@[simp] theorem putGang_cores (s : State) (n : Nat) (g : Gang) : (s.putGang n g).cores = s.cores := rfl
@[simp] theorem putGang_benches (s : State) (n : Nat) (g : Gang) : (s.putGang n g).benches = s.benches := rfl
@[simp] theorem putGang_gangs (s : State) (n : Nat) (g : Gang) : (s.putGang n g).gangs = Map.put s.gangs n g := rfl
@[simp] theorem putGang_ctxs (s : State) (n : Nat) (g : Gang) : (s.putGang n g).ctxs = s.ctxs := rfl
@[simp] theorem putGang_near (s : State) (n : Nat) (g : Gang) : (s.putGang n g).near = s.near := rfl
@[simp] theorem putGang_far (s : State) (n : Nat) (g : Gang) : (s.putGang n g).far = s.far := rfl
@[simp] theorem putGang_owners (s : State) (n : Nat) (g : Gang) : (s.putGang n g).owners = s.owners := rfl
@[simp] theorem putGang_attrs (s : State) (n : Nat) (g : Gang) : (s.putGang n g).attrs = s.attrs := rfl
@[simp] theorem putGang_poison (s : State) (n : Nat) (g : Gang) : (s.putGang n g).poison = s.poison := rfl
@[simp] theorem putGang_fullTags (s : State) (n : Nat) (g : Gang) : (s.putGang n g).fullTags = s.fullTags := rfl
@[simp] theorem putGang_objs (s : State) (n : Nat) (g : Gang) : (s.putGang n g).objs = s.objs := rfl
@[simp] theorem putGang_pageObjs (s : State) (n : Nat) (g : Gang) : (s.putGang n g).pageObjs = s.pageObjs := rfl
@[simp] theorem putGang_objReqs (s : State) (n : Nat) (g : Gang) : (s.putGang n g).objReqs = s.objReqs := rfl
@[simp] theorem putGang_home (s : State) (n : Nat) (g : Gang) : (s.putGang n g).home = s.home := rfl
@[simp] theorem putGang_nextHome (s : State) (n : Nat) (g : Gang) : (s.putGang n g).nextHome = s.nextHome := rfl
@[simp] theorem putGang_orders (s : State) (n : Nat) (g : Gang) : (s.putGang n g).orders = s.orders := rfl
@[simp] theorem putGang_lostReads (s : State) (n : Nat) (g : Gang) : (s.putGang n g).lostReads = s.lostReads := rfl
@[simp] theorem putGang_lostWrites (s : State) (n : Nat) (g : Gang) : (s.putGang n g).lostWrites = s.lostWrites := rfl
@[simp] theorem putGang_strays (s : State) (n : Nat) (g : Gang) : (s.putGang n g).strays = s.strays := rfl
@[simp] theorem putGang_slices (s : State) (n : Nat) (g : Gang) : (s.putGang n g).slices = s.slices := rfl
@[simp] theorem putGang_dieTlbs (s : State) (n : Nat) (g : Gang) : (s.putGang n g).dieTlbs = s.dieTlbs := rfl
@[simp] theorem putGang_ring (s : State) (n : Nat) (g : Gang) : (s.putGang n g).ring = s.ring := rfl
@[simp] theorem putGang_nextRing (s : State) (n : Nat) (g : Gang) : (s.putGang n g).nextRing = s.nextRing := rfl
@[simp] theorem putGang_claims (s : State) (n : Nat) (g : Gang) : (s.putGang n g).claims = s.claims := rfl
@[simp] theorem putGang_fns (s : State) (n : Nat) (g : Gang) : (s.putGang n g).fns = s.fns := rfl
@[simp] theorem putGang_freeze (s : State) (n : Nat) (g : Gang) : (s.putGang n g).freeze = s.freeze := rfl
@[simp] theorem putGang_parts (s : State) (n : Nat) (g : Gang) : (s.putGang n g).parts = s.parts := rfl
@[simp] theorem putGang_migrations (s : State) (n : Nat) (g : Gang) : (s.putGang n g).migrations = s.migrations := rfl
@[simp] theorem putGang_hotPages (s : State) (n : Nat) (g : Gang) : (s.putGang n g).hotPages = s.hotPages := rfl
@[simp] theorem putGang_banks (s : State) (n : Nat) (g : Gang) : (s.putGang n g).banks = s.banks := rfl
@[simp] theorem putGang_capsules (s : State) (n : Nat) (g : Gang) : (s.putGang n g).capsules = s.capsules := rfl
@[simp] theorem putGang_summary (s : State) (n : Nat) (g : Gang) : (s.putGang n g).summary = s.summary := rfl
@[simp] theorem putGang_capsuleSeq (s : State) (n : Nat) (g : Gang) : (s.putGang n g).capsuleSeq = s.capsuleSeq := rfl
@[simp] theorem putGang_encoders (s : State) (n : Nat) (g : Gang) : (s.putGang n g).encoders = s.encoders := rfl
@[simp] theorem putGang_tiles (s : State) (n : Nat) (g : Gang) : (s.putGang n g).tiles = s.tiles := rfl
@[simp] theorem putGang_tickets (s : State) (n : Nat) (g : Gang) : (s.putGang n g).tickets = s.tickets := rfl
@[simp] theorem putGang_nextTicket (s : State) (n : Nat) (g : Gang) : (s.putGang n g).nextTicket = s.nextTicket := rfl
@[simp] theorem putGang_hostLines (s : State) (n : Nat) (g : Gang) : (s.putGang n g).hostLines = s.hostLines := rfl
@[simp] theorem putGang_snoops (s : State) (n : Nat) (g : Gang) : (s.putGang n g).snoops = s.snoops := rfl
@[simp] theorem putGang_reply (s : State) (n : Nat) (g : Gang) : (s.putGang n g).reply = s.reply := rfl
@[simp] theorem putGang_replyBad (s : State) (n : Nat) (g : Gang) : (s.putGang n g).replyBad = s.replyBad := rfl
@[simp] theorem putGang_routes (s : State) (n : Nat) (g : Gang) : (s.putGang n g).routes = s.routes := rfl
@[simp] theorem putGang_portsDown (s : State) (n : Nat) (g : Gang) : (s.putGang n g).portsDown = s.portsDown := rfl
@[simp] theorem putGang_throttled (s : State) (n : Nat) (g : Gang) : (s.putGang n g).throttled = s.throttled := rfl
@[simp] theorem putGang_stopped (s : State) (n : Nat) (g : Gang) : (s.putGang n g).stopped = s.stopped := rfl
@[simp] theorem putGang_temperAt (s : State) (n : Nat) (g : Gang) : (s.putGang n g).temperAt = s.temperAt := rfl
@[simp] theorem putGang_fwHeld (s : State) (n : Nat) (g : Gang) : (s.putGang n g).fwHeld = s.fwHeld := rfl
@[simp] theorem putGang_booted (s : State) (n : Nat) (g : Gang) : (s.putGang n g).booted = s.booted := rfl
@[simp] theorem putGang_spdm (s : State) (n : Nat) (g : Gang) : (s.putGang n g).spdm = s.spdm := rfl
@[simp] theorem putGang_ownNumber (s : State) (n : Nat) (g : Gang) : (s.putGang n g).ownNumber = s.ownNumber := rfl

@[simp] theorem putFn_cur (s : State) (n : Nat) (f : Fn) : (s.putFn n f).cur = s.cur := rfl
@[simp] theorem putFn_ev (s : State) (n : Nat) (f : Fn) : (s.putFn n f).ev = s.ev := rfl
@[simp] theorem putFn_sched (s : State) (n : Nat) (f : Fn) : (s.putFn n f).sched = s.sched := rfl
@[simp] theorem putFn_steps (s : State) (n : Nat) (f : Fn) : (s.putFn n f).steps = s.steps := rfl
@[simp] theorem putFn_frees (s : State) (n : Nat) (f : Fn) : (s.putFn n f).frees = s.frees := rfl
@[simp] theorem putFn_stamps (s : State) (n : Nat) (f : Fn) : (s.putFn n f).stamps = s.stamps := rfl
@[simp] theorem putFn_gtsc (s : State) (n : Nat) (f : Fn) : (s.putFn n f).gtsc = s.gtsc := rfl
@[simp] theorem putFn_threads (s : State) (n : Nat) (f : Fn) : (s.putFn n f).threads = s.threads := rfl
@[simp] theorem putFn_cores (s : State) (n : Nat) (f : Fn) : (s.putFn n f).cores = s.cores := rfl
@[simp] theorem putFn_benches (s : State) (n : Nat) (f : Fn) : (s.putFn n f).benches = s.benches := rfl
@[simp] theorem putFn_gangs (s : State) (n : Nat) (f : Fn) : (s.putFn n f).gangs = s.gangs := rfl
@[simp] theorem putFn_ctxs (s : State) (n : Nat) (f : Fn) : (s.putFn n f).ctxs = s.ctxs := rfl
@[simp] theorem putFn_near (s : State) (n : Nat) (f : Fn) : (s.putFn n f).near = s.near := rfl
@[simp] theorem putFn_far (s : State) (n : Nat) (f : Fn) : (s.putFn n f).far = s.far := rfl
@[simp] theorem putFn_owners (s : State) (n : Nat) (f : Fn) : (s.putFn n f).owners = s.owners := rfl
@[simp] theorem putFn_attrs (s : State) (n : Nat) (f : Fn) : (s.putFn n f).attrs = s.attrs := rfl
@[simp] theorem putFn_poison (s : State) (n : Nat) (f : Fn) : (s.putFn n f).poison = s.poison := rfl
@[simp] theorem putFn_fullTags (s : State) (n : Nat) (f : Fn) : (s.putFn n f).fullTags = s.fullTags := rfl
@[simp] theorem putFn_objs (s : State) (n : Nat) (f : Fn) : (s.putFn n f).objs = s.objs := rfl
@[simp] theorem putFn_pageObjs (s : State) (n : Nat) (f : Fn) : (s.putFn n f).pageObjs = s.pageObjs := rfl
@[simp] theorem putFn_objReqs (s : State) (n : Nat) (f : Fn) : (s.putFn n f).objReqs = s.objReqs := rfl
@[simp] theorem putFn_home (s : State) (n : Nat) (f : Fn) : (s.putFn n f).home = s.home := rfl
@[simp] theorem putFn_nextHome (s : State) (n : Nat) (f : Fn) : (s.putFn n f).nextHome = s.nextHome := rfl
@[simp] theorem putFn_orders (s : State) (n : Nat) (f : Fn) : (s.putFn n f).orders = s.orders := rfl
@[simp] theorem putFn_lostReads (s : State) (n : Nat) (f : Fn) : (s.putFn n f).lostReads = s.lostReads := rfl
@[simp] theorem putFn_lostWrites (s : State) (n : Nat) (f : Fn) : (s.putFn n f).lostWrites = s.lostWrites := rfl
@[simp] theorem putFn_strays (s : State) (n : Nat) (f : Fn) : (s.putFn n f).strays = s.strays := rfl
@[simp] theorem putFn_slices (s : State) (n : Nat) (f : Fn) : (s.putFn n f).slices = s.slices := rfl
@[simp] theorem putFn_dieTlbs (s : State) (n : Nat) (f : Fn) : (s.putFn n f).dieTlbs = s.dieTlbs := rfl
@[simp] theorem putFn_ring (s : State) (n : Nat) (f : Fn) : (s.putFn n f).ring = s.ring := rfl
@[simp] theorem putFn_nextRing (s : State) (n : Nat) (f : Fn) : (s.putFn n f).nextRing = s.nextRing := rfl
@[simp] theorem putFn_claims (s : State) (n : Nat) (f : Fn) : (s.putFn n f).claims = s.claims := rfl
@[simp] theorem putFn_fns (s : State) (n : Nat) (f : Fn) : (s.putFn n f).fns = Map.put s.fns n f := rfl
@[simp] theorem putFn_freeze (s : State) (n : Nat) (f : Fn) : (s.putFn n f).freeze = s.freeze := rfl
@[simp] theorem putFn_parts (s : State) (n : Nat) (f : Fn) : (s.putFn n f).parts = s.parts := rfl
@[simp] theorem putFn_migrations (s : State) (n : Nat) (f : Fn) : (s.putFn n f).migrations = s.migrations := rfl
@[simp] theorem putFn_hotPages (s : State) (n : Nat) (f : Fn) : (s.putFn n f).hotPages = s.hotPages := rfl
@[simp] theorem putFn_banks (s : State) (n : Nat) (f : Fn) : (s.putFn n f).banks = s.banks := rfl
@[simp] theorem putFn_capsules (s : State) (n : Nat) (f : Fn) : (s.putFn n f).capsules = s.capsules := rfl
@[simp] theorem putFn_summary (s : State) (n : Nat) (f : Fn) : (s.putFn n f).summary = s.summary := rfl
@[simp] theorem putFn_capsuleSeq (s : State) (n : Nat) (f : Fn) : (s.putFn n f).capsuleSeq = s.capsuleSeq := rfl
@[simp] theorem putFn_encoders (s : State) (n : Nat) (f : Fn) : (s.putFn n f).encoders = s.encoders := rfl
@[simp] theorem putFn_tiles (s : State) (n : Nat) (f : Fn) : (s.putFn n f).tiles = s.tiles := rfl
@[simp] theorem putFn_tickets (s : State) (n : Nat) (f : Fn) : (s.putFn n f).tickets = s.tickets := rfl
@[simp] theorem putFn_nextTicket (s : State) (n : Nat) (f : Fn) : (s.putFn n f).nextTicket = s.nextTicket := rfl
@[simp] theorem putFn_hostLines (s : State) (n : Nat) (f : Fn) : (s.putFn n f).hostLines = s.hostLines := rfl
@[simp] theorem putFn_snoops (s : State) (n : Nat) (f : Fn) : (s.putFn n f).snoops = s.snoops := rfl
@[simp] theorem putFn_reply (s : State) (n : Nat) (f : Fn) : (s.putFn n f).reply = s.reply := rfl
@[simp] theorem putFn_replyBad (s : State) (n : Nat) (f : Fn) : (s.putFn n f).replyBad = s.replyBad := rfl
@[simp] theorem putFn_routes (s : State) (n : Nat) (f : Fn) : (s.putFn n f).routes = s.routes := rfl
@[simp] theorem putFn_portsDown (s : State) (n : Nat) (f : Fn) : (s.putFn n f).portsDown = s.portsDown := rfl
@[simp] theorem putFn_throttled (s : State) (n : Nat) (f : Fn) : (s.putFn n f).throttled = s.throttled := rfl
@[simp] theorem putFn_stopped (s : State) (n : Nat) (f : Fn) : (s.putFn n f).stopped = s.stopped := rfl
@[simp] theorem putFn_temperAt (s : State) (n : Nat) (f : Fn) : (s.putFn n f).temperAt = s.temperAt := rfl
@[simp] theorem putFn_fwHeld (s : State) (n : Nat) (f : Fn) : (s.putFn n f).fwHeld = s.fwHeld := rfl
@[simp] theorem putFn_booted (s : State) (n : Nat) (f : Fn) : (s.putFn n f).booted = s.booted := rfl
@[simp] theorem putFn_spdm (s : State) (n : Nat) (f : Fn) : (s.putFn n f).spdm = s.spdm := rfl
@[simp] theorem putFn_ownNumber (s : State) (n : Nat) (f : Fn) : (s.putFn n f).ownNumber = s.ownNumber := rfl

end State

/-! ### Updates of a thread -/

namespace Thread

theorem setX_eq (t : Thread) (d : XReg) (v : Word) : t.setX d v = { t with x := (t.setX d v).x } := by
  unfold setX; split <;> rfl

theorem resumed_eq (t : Thread) : t.resumed = { t with status := t.resumed.status } := by
  unfold resumed; split <;> rfl

theorem completed_eq (t : Thread) :
    t.completed = { t with status := t.resumed.status, loops := (loopStep t.pc t.next t.loops).1,
                           pc := (loopStep t.pc t.next t.loops).2 } := by
  unfold completed
  simp only
  rw [resumed_eq]

theorem jumped_eq (t : Thread) (target : Word) :
    t.jumped target = { t with status := t.resumed.status, pc := target } := by
  unfold jumped
  rw [resumed_eq]

@[simp] theorem setX_ctx (t : Thread) (d : XReg) (v : Word) : (t.setX d v).ctx = t.ctx := (congrArg Thread.ctx (setX_eq t d v)).trans rfl
@[simp] theorem setX_tid (t : Thread) (d : XReg) (v : Word) : (t.setX d v).tid = t.tid := (congrArg Thread.tid (setX_eq t d v)).trans rfl
@[simp] theorem setX_fn (t : Thread) (d : XReg) (v : Word) : (t.setX d v).fn = t.fn := (congrArg Thread.fn (setX_eq t d v)).trans rfl
@[simp] theorem setX_part (t : Thread) (d : XReg) (v : Word) : (t.setX d v).part = t.part := (congrArg Thread.part (setX_eq t d v)).trans rfl
@[simp] theorem setX_gang (t : Thread) (d : XReg) (v : Word) : (t.setX d v).gang = t.gang := (congrArg Thread.gang (setX_eq t d v)).trans rfl
@[simp] theorem setX_gangSize (t : Thread) (d : XReg) (v : Word) : (t.setX d v).gangSize = t.gangSize := (congrArg Thread.gangSize (setX_eq t d v)).trans rfl
@[simp] theorem setX_gangIndex (t : Thread) (d : XReg) (v : Word) : (t.setX d v).gangIndex = t.gangIndex := (congrArg Thread.gangIndex (setX_eq t d v)).trans rfl
@[simp] theorem setX_launch (t : Thread) (d : XReg) (v : Word) : (t.setX d v).launch = t.launch := (congrArg Thread.launch (setX_eq t d v)).trans rfl
@[simp] theorem setX_status (t : Thread) (d : XReg) (v : Word) : (t.setX d v).status = t.status := (congrArg Thread.status (setX_eq t d v)).trans rfl
@[simp] theorem setX_parked (t : Thread) (d : XReg) (v : Word) : (t.setX d v).parked = t.parked := (congrArg Thread.parked (setX_eq t d v)).trans rfl
@[simp] theorem setX_saved (t : Thread) (d : XReg) (v : Word) : (t.setX d v).saved = t.saved := (congrArg Thread.saved (setX_eq t d v)).trans rfl
@[simp] theorem setX_v (t : Thread) (d : XReg) (v : Word) : (t.setX d v).v = t.v := (congrArg Thread.v (setX_eq t d v)).trans rfl
@[simp] theorem setX_k (t : Thread) (d : XReg) (v : Word) : (t.setX d v).k = t.k := (congrArg Thread.k (setX_eq t d v)).trans rfl
@[simp] theorem setX_g (t : Thread) (d : XReg) (v : Word) : (t.setX d v).g = t.g := (congrArg Thread.g (setX_eq t d v)).trans rfl
@[simp] theorem setX_w (t : Thread) (d : XReg) (v : Word) : (t.setX d v).w = t.w := (congrArg Thread.w (setX_eq t d v)).trans rfl
@[simp] theorem setX_pc (t : Thread) (d : XReg) (v : Word) : (t.setX d v).pc = t.pc := (congrArg Thread.pc (setX_eq t d v)).trans rfl
@[simp] theorem setX_line (t : Thread) (d : XReg) (v : Word) : (t.setX d v).line = t.line := (congrArg Thread.line (setX_eq t d v)).trans rfl
@[simp] theorem setX_vstart (t : Thread) (d : XReg) (v : Word) : (t.setX d v).vstart = t.vstart := (congrArg Thread.vstart (setX_eq t d v)).trans rfl
@[simp] theorem setX_fz (t : Thread) (d : XReg) (v : Word) : (t.setX d v).fz = t.fz := (congrArg Thread.fz (setX_eq t d v)).trans rfl
@[simp] theorem setX_rm (t : Thread) (d : XReg) (v : Word) : (t.setX d v).rm = t.rm := (congrArg Thread.rm (setX_eq t d v)).trans rfl
@[simp] theorem setX_fflags (t : Thread) (d : XReg) (v : Word) : (t.setX d v).fflags = t.fflags := (congrArg Thread.fflags (setX_eq t d v)).trans rfl
@[simp] theorem setX_mxstat (t : Thread) (d : XReg) (v : Word) : (t.setX d v).mxstat = t.mxstat := (congrArg Thread.mxstat (setX_eq t d v)).trans rfl
@[simp] theorem setX_srseed (t : Thread) (d : XReg) (v : Word) : (t.setX d v).srseed = t.srseed := (congrArg Thread.srseed (setX_eq t d v)).trans rfl
@[simp] theorem setX_loops (t : Thread) (d : XReg) (v : Word) : (t.setX d v).loops = t.loops := (congrArg Thread.loops (setX_eq t d v)).trans rfl
@[simp] theorem setX_lsel (t : Thread) (d : XReg) (v : Word) : (t.setX d v).lsel = t.lsel := (congrArg Thread.lsel (setX_eq t d v)).trans rfl
@[simp] theorem setX_lword (t : Thread) (d : XReg) (v : Word) : (t.setX d v).lword = t.lword := (congrArg Thread.lword (setX_eq t d v)).trans rfl
@[simp] theorem setX_felimit (t : Thread) (d : XReg) (v : Word) : (t.setX d v).felimit = t.felimit := (congrArg Thread.felimit (setX_eq t d v)).trans rfl
@[simp] theorem setX_cblimit (t : Thread) (d : XReg) (v : Word) : (t.setX d v).cblimit = t.cblimit := (congrArg Thread.cblimit (setX_eq t d v)).trans rfl
@[simp] theorem setX_tvec (t : Thread) (d : XReg) (v : Word) : (t.setX d v).tvec = t.tvec := (congrArg Thread.tvec (setX_eq t d v)).trans rfl
@[simp] theorem setX_tcause (t : Thread) (d : XReg) (v : Word) : (t.setX d v).tcause = t.tcause := (congrArg Thread.tcause (setX_eq t d v)).trans rfl
@[simp] theorem setX_tpc (t : Thread) (d : XReg) (v : Word) : (t.setX d v).tpc = t.tpc := (congrArg Thread.tpc (setX_eq t d v)).trans rfl
@[simp] theorem setX_tval (t : Thread) (d : XReg) (v : Word) : (t.setX d v).tval = t.tval := (congrArg Thread.tval (setX_eq t d v)).trans rfl
@[simp] theorem setX_hnd (t : Thread) (d : XReg) (v : Word) : (t.setX d v).hnd = t.hnd := (congrArg Thread.hnd (setX_eq t d v)).trans rfl
@[simp] theorem setX_frames (t : Thread) (d : XReg) (v : Word) : (t.setX d v).frames = t.frames := (congrArg Thread.frames (setX_eq t d v)).trans rfl
@[simp] theorem setX_window (t : Thread) (d : XReg) (v : Word) : (t.setX d v).window = t.window := (congrArg Thread.window (setX_eq t d v)).trans rfl
@[simp] theorem setX_aseq (t : Thread) (d : XReg) (v : Word) : (t.setX d v).aseq = t.aseq := (congrArg Thread.aseq (setX_eq t d v)).trans rfl
@[simp] theorem setX_astat (t : Thread) (d : XReg) (v : Word) : (t.setX d v).astat = t.astat := (congrArg Thread.astat (setX_eq t d v)).trans rfl
@[simp] theorem setX_dseq (t : Thread) (d : XReg) (v : Word) : (t.setX d v).dseq = t.dseq := (congrArg Thread.dseq (setX_eq t d v)).trans rfl
@[simp] theorem setX_plate (t : Thread) (d : XReg) (v : Word) : (t.setX d v).plate = t.plate := (congrArg Thread.plate (setX_eq t d v)).trans rfl
@[simp] theorem setX_mailbox (t : Thread) (d : XReg) (v : Word) : (t.setX d v).mailbox = t.mailbox := (congrArg Thread.mailbox (setX_eq t d v)).trans rfl
@[simp] theorem setX_gbars (t : Thread) (d : XReg) (v : Word) : (t.setX d v).gbars = t.gbars := (congrArg Thread.gbars (setX_eq t d v)).trans rfl
@[simp] theorem setX_issuedAt (t : Thread) (d : XReg) (v : Word) : (t.setX d v).issuedAt = t.issuedAt := (congrArg Thread.issuedAt (setX_eq t d v)).trans rfl
@[simp] theorem setX_readyAt (t : Thread) (d : XReg) (v : Word) : (t.setX d v).readyAt = t.readyAt := (congrArg Thread.readyAt (setX_eq t d v)).trans rfl
@[simp] theorem setX_yielded (t : Thread) (d : XReg) (v : Word) : (t.setX d v).yielded = t.yielded := (congrArg Thread.yielded (setX_eq t d v)).trans rfl
@[simp] theorem setX_segNext (t : Thread) (d : XReg) (v : Word) : (t.setX d v).segNext = t.segNext := (congrArg Thread.segNext (setX_eq t d v)).trans rfl
@[simp] theorem setX_seq (t : Thread) (d : XReg) (v : Word) : (t.setX d v).seq = t.seq := (congrArg Thread.seq (setX_eq t d v)).trans rfl
@[simp] theorem setX_vloop (t : Thread) (d : XReg) (v : Word) : (t.setX d v).vloop = t.vloop := (congrArg Thread.vloop (setX_eq t d v)).trans rfl
@[simp] theorem setX_loopRec (t : Thread) (d : XReg) (v : Word) : (t.setX d v).loopRec = t.loopRec := (congrArg Thread.loopRec (setX_eq t d v)).trans rfl
@[simp] theorem setX_pass (t : Thread) (d : XReg) (v : Word) : (t.setX d v).pass = t.pass := (congrArg Thread.pass (setX_eq t d v)).trans rfl
@[simp] theorem setX_replay (t : Thread) (d : XReg) (v : Word) : (t.setX d v).replay = t.replay := (congrArg Thread.replay (setX_eq t d v)).trans rfl
@[simp] theorem setX_deferred (t : Thread) (d : XReg) (v : Word) : (t.setX d v).deferred = t.deferred := (congrArg Thread.deferred (setX_eq t d v)).trans rfl
@[simp] theorem setX_debugHeld (t : Thread) (d : XReg) (v : Word) : (t.setX d v).debugHeld = t.debugHeld := (congrArg Thread.debugHeld (setX_eq t d v)).trans rfl
@[simp] theorem setX_debugStopped (t : Thread) (d : XReg) (v : Word) : (t.setX d v).debugStopped = t.debugStopped := (congrArg Thread.debugStopped (setX_eq t d v)).trans rfl
@[simp] theorem setX_reply (t : Thread) (d : XReg) (v : Word) : (t.setX d v).reply = t.reply := (congrArg Thread.reply (setX_eq t d v)).trans rfl

@[simp] theorem resumed_ctx (t : Thread) : (t.resumed).ctx = t.ctx := (congrArg Thread.ctx (resumed_eq t)).trans rfl
@[simp] theorem resumed_tid (t : Thread) : (t.resumed).tid = t.tid := (congrArg Thread.tid (resumed_eq t)).trans rfl
@[simp] theorem resumed_fn (t : Thread) : (t.resumed).fn = t.fn := (congrArg Thread.fn (resumed_eq t)).trans rfl
@[simp] theorem resumed_part (t : Thread) : (t.resumed).part = t.part := (congrArg Thread.part (resumed_eq t)).trans rfl
@[simp] theorem resumed_gang (t : Thread) : (t.resumed).gang = t.gang := (congrArg Thread.gang (resumed_eq t)).trans rfl
@[simp] theorem resumed_gangSize (t : Thread) : (t.resumed).gangSize = t.gangSize := (congrArg Thread.gangSize (resumed_eq t)).trans rfl
@[simp] theorem resumed_gangIndex (t : Thread) : (t.resumed).gangIndex = t.gangIndex := (congrArg Thread.gangIndex (resumed_eq t)).trans rfl
@[simp] theorem resumed_launch (t : Thread) : (t.resumed).launch = t.launch := (congrArg Thread.launch (resumed_eq t)).trans rfl
@[simp] theorem resumed_parked (t : Thread) : (t.resumed).parked = t.parked := (congrArg Thread.parked (resumed_eq t)).trans rfl
@[simp] theorem resumed_saved (t : Thread) : (t.resumed).saved = t.saved := (congrArg Thread.saved (resumed_eq t)).trans rfl
@[simp] theorem resumed_x (t : Thread) : (t.resumed).x = t.x := (congrArg Thread.x (resumed_eq t)).trans rfl
@[simp] theorem resumed_v (t : Thread) : (t.resumed).v = t.v := (congrArg Thread.v (resumed_eq t)).trans rfl
@[simp] theorem resumed_k (t : Thread) : (t.resumed).k = t.k := (congrArg Thread.k (resumed_eq t)).trans rfl
@[simp] theorem resumed_g (t : Thread) : (t.resumed).g = t.g := (congrArg Thread.g (resumed_eq t)).trans rfl
@[simp] theorem resumed_w (t : Thread) : (t.resumed).w = t.w := (congrArg Thread.w (resumed_eq t)).trans rfl
@[simp] theorem resumed_pc (t : Thread) : (t.resumed).pc = t.pc := (congrArg Thread.pc (resumed_eq t)).trans rfl
@[simp] theorem resumed_line (t : Thread) : (t.resumed).line = t.line := (congrArg Thread.line (resumed_eq t)).trans rfl
@[simp] theorem resumed_vstart (t : Thread) : (t.resumed).vstart = t.vstart := (congrArg Thread.vstart (resumed_eq t)).trans rfl
@[simp] theorem resumed_fz (t : Thread) : (t.resumed).fz = t.fz := (congrArg Thread.fz (resumed_eq t)).trans rfl
@[simp] theorem resumed_rm (t : Thread) : (t.resumed).rm = t.rm := (congrArg Thread.rm (resumed_eq t)).trans rfl
@[simp] theorem resumed_fflags (t : Thread) : (t.resumed).fflags = t.fflags := (congrArg Thread.fflags (resumed_eq t)).trans rfl
@[simp] theorem resumed_mxstat (t : Thread) : (t.resumed).mxstat = t.mxstat := (congrArg Thread.mxstat (resumed_eq t)).trans rfl
@[simp] theorem resumed_srseed (t : Thread) : (t.resumed).srseed = t.srseed := (congrArg Thread.srseed (resumed_eq t)).trans rfl
@[simp] theorem resumed_loops (t : Thread) : (t.resumed).loops = t.loops := (congrArg Thread.loops (resumed_eq t)).trans rfl
@[simp] theorem resumed_lsel (t : Thread) : (t.resumed).lsel = t.lsel := (congrArg Thread.lsel (resumed_eq t)).trans rfl
@[simp] theorem resumed_lword (t : Thread) : (t.resumed).lword = t.lword := (congrArg Thread.lword (resumed_eq t)).trans rfl
@[simp] theorem resumed_felimit (t : Thread) : (t.resumed).felimit = t.felimit := (congrArg Thread.felimit (resumed_eq t)).trans rfl
@[simp] theorem resumed_cblimit (t : Thread) : (t.resumed).cblimit = t.cblimit := (congrArg Thread.cblimit (resumed_eq t)).trans rfl
@[simp] theorem resumed_tvec (t : Thread) : (t.resumed).tvec = t.tvec := (congrArg Thread.tvec (resumed_eq t)).trans rfl
@[simp] theorem resumed_tcause (t : Thread) : (t.resumed).tcause = t.tcause := (congrArg Thread.tcause (resumed_eq t)).trans rfl
@[simp] theorem resumed_tpc (t : Thread) : (t.resumed).tpc = t.tpc := (congrArg Thread.tpc (resumed_eq t)).trans rfl
@[simp] theorem resumed_tval (t : Thread) : (t.resumed).tval = t.tval := (congrArg Thread.tval (resumed_eq t)).trans rfl
@[simp] theorem resumed_hnd (t : Thread) : (t.resumed).hnd = t.hnd := (congrArg Thread.hnd (resumed_eq t)).trans rfl
@[simp] theorem resumed_frames (t : Thread) : (t.resumed).frames = t.frames := (congrArg Thread.frames (resumed_eq t)).trans rfl
@[simp] theorem resumed_window (t : Thread) : (t.resumed).window = t.window := (congrArg Thread.window (resumed_eq t)).trans rfl
@[simp] theorem resumed_aseq (t : Thread) : (t.resumed).aseq = t.aseq := (congrArg Thread.aseq (resumed_eq t)).trans rfl
@[simp] theorem resumed_astat (t : Thread) : (t.resumed).astat = t.astat := (congrArg Thread.astat (resumed_eq t)).trans rfl
@[simp] theorem resumed_dseq (t : Thread) : (t.resumed).dseq = t.dseq := (congrArg Thread.dseq (resumed_eq t)).trans rfl
@[simp] theorem resumed_plate (t : Thread) : (t.resumed).plate = t.plate := (congrArg Thread.plate (resumed_eq t)).trans rfl
@[simp] theorem resumed_mailbox (t : Thread) : (t.resumed).mailbox = t.mailbox := (congrArg Thread.mailbox (resumed_eq t)).trans rfl
@[simp] theorem resumed_gbars (t : Thread) : (t.resumed).gbars = t.gbars := (congrArg Thread.gbars (resumed_eq t)).trans rfl
@[simp] theorem resumed_issuedAt (t : Thread) : (t.resumed).issuedAt = t.issuedAt := (congrArg Thread.issuedAt (resumed_eq t)).trans rfl
@[simp] theorem resumed_readyAt (t : Thread) : (t.resumed).readyAt = t.readyAt := (congrArg Thread.readyAt (resumed_eq t)).trans rfl
@[simp] theorem resumed_yielded (t : Thread) : (t.resumed).yielded = t.yielded := (congrArg Thread.yielded (resumed_eq t)).trans rfl
@[simp] theorem resumed_segNext (t : Thread) : (t.resumed).segNext = t.segNext := (congrArg Thread.segNext (resumed_eq t)).trans rfl
@[simp] theorem resumed_seq (t : Thread) : (t.resumed).seq = t.seq := (congrArg Thread.seq (resumed_eq t)).trans rfl
@[simp] theorem resumed_vloop (t : Thread) : (t.resumed).vloop = t.vloop := (congrArg Thread.vloop (resumed_eq t)).trans rfl
@[simp] theorem resumed_loopRec (t : Thread) : (t.resumed).loopRec = t.loopRec := (congrArg Thread.loopRec (resumed_eq t)).trans rfl
@[simp] theorem resumed_pass (t : Thread) : (t.resumed).pass = t.pass := (congrArg Thread.pass (resumed_eq t)).trans rfl
@[simp] theorem resumed_replay (t : Thread) : (t.resumed).replay = t.replay := (congrArg Thread.replay (resumed_eq t)).trans rfl
@[simp] theorem resumed_deferred (t : Thread) : (t.resumed).deferred = t.deferred := (congrArg Thread.deferred (resumed_eq t)).trans rfl
@[simp] theorem resumed_debugHeld (t : Thread) : (t.resumed).debugHeld = t.debugHeld := (congrArg Thread.debugHeld (resumed_eq t)).trans rfl
@[simp] theorem resumed_debugStopped (t : Thread) : (t.resumed).debugStopped = t.debugStopped := (congrArg Thread.debugStopped (resumed_eq t)).trans rfl
@[simp] theorem resumed_reply (t : Thread) : (t.resumed).reply = t.reply := (congrArg Thread.reply (resumed_eq t)).trans rfl

@[simp] theorem completed_ctx (t : Thread) : (t.completed).ctx = t.ctx := (congrArg Thread.ctx (completed_eq t)).trans rfl
@[simp] theorem completed_tid (t : Thread) : (t.completed).tid = t.tid := (congrArg Thread.tid (completed_eq t)).trans rfl
@[simp] theorem completed_fn (t : Thread) : (t.completed).fn = t.fn := (congrArg Thread.fn (completed_eq t)).trans rfl
@[simp] theorem completed_part (t : Thread) : (t.completed).part = t.part := (congrArg Thread.part (completed_eq t)).trans rfl
@[simp] theorem completed_gang (t : Thread) : (t.completed).gang = t.gang := (congrArg Thread.gang (completed_eq t)).trans rfl
@[simp] theorem completed_gangSize (t : Thread) : (t.completed).gangSize = t.gangSize := (congrArg Thread.gangSize (completed_eq t)).trans rfl
@[simp] theorem completed_gangIndex (t : Thread) : (t.completed).gangIndex = t.gangIndex := (congrArg Thread.gangIndex (completed_eq t)).trans rfl
@[simp] theorem completed_launch (t : Thread) : (t.completed).launch = t.launch := (congrArg Thread.launch (completed_eq t)).trans rfl
@[simp] theorem completed_parked (t : Thread) : (t.completed).parked = t.parked := (congrArg Thread.parked (completed_eq t)).trans rfl
@[simp] theorem completed_saved (t : Thread) : (t.completed).saved = t.saved := (congrArg Thread.saved (completed_eq t)).trans rfl
@[simp] theorem completed_x (t : Thread) : (t.completed).x = t.x := (congrArg Thread.x (completed_eq t)).trans rfl
@[simp] theorem completed_v (t : Thread) : (t.completed).v = t.v := (congrArg Thread.v (completed_eq t)).trans rfl
@[simp] theorem completed_k (t : Thread) : (t.completed).k = t.k := (congrArg Thread.k (completed_eq t)).trans rfl
@[simp] theorem completed_g (t : Thread) : (t.completed).g = t.g := (congrArg Thread.g (completed_eq t)).trans rfl
@[simp] theorem completed_w (t : Thread) : (t.completed).w = t.w := (congrArg Thread.w (completed_eq t)).trans rfl
@[simp] theorem completed_line (t : Thread) : (t.completed).line = t.line := (congrArg Thread.line (completed_eq t)).trans rfl
@[simp] theorem completed_vstart (t : Thread) : (t.completed).vstart = t.vstart := (congrArg Thread.vstart (completed_eq t)).trans rfl
@[simp] theorem completed_fz (t : Thread) : (t.completed).fz = t.fz := (congrArg Thread.fz (completed_eq t)).trans rfl
@[simp] theorem completed_rm (t : Thread) : (t.completed).rm = t.rm := (congrArg Thread.rm (completed_eq t)).trans rfl
@[simp] theorem completed_fflags (t : Thread) : (t.completed).fflags = t.fflags := (congrArg Thread.fflags (completed_eq t)).trans rfl
@[simp] theorem completed_mxstat (t : Thread) : (t.completed).mxstat = t.mxstat := (congrArg Thread.mxstat (completed_eq t)).trans rfl
@[simp] theorem completed_srseed (t : Thread) : (t.completed).srseed = t.srseed := (congrArg Thread.srseed (completed_eq t)).trans rfl
@[simp] theorem completed_lsel (t : Thread) : (t.completed).lsel = t.lsel := (congrArg Thread.lsel (completed_eq t)).trans rfl
@[simp] theorem completed_lword (t : Thread) : (t.completed).lword = t.lword := (congrArg Thread.lword (completed_eq t)).trans rfl
@[simp] theorem completed_felimit (t : Thread) : (t.completed).felimit = t.felimit := (congrArg Thread.felimit (completed_eq t)).trans rfl
@[simp] theorem completed_cblimit (t : Thread) : (t.completed).cblimit = t.cblimit := (congrArg Thread.cblimit (completed_eq t)).trans rfl
@[simp] theorem completed_tvec (t : Thread) : (t.completed).tvec = t.tvec := (congrArg Thread.tvec (completed_eq t)).trans rfl
@[simp] theorem completed_tcause (t : Thread) : (t.completed).tcause = t.tcause := (congrArg Thread.tcause (completed_eq t)).trans rfl
@[simp] theorem completed_tpc (t : Thread) : (t.completed).tpc = t.tpc := (congrArg Thread.tpc (completed_eq t)).trans rfl
@[simp] theorem completed_tval (t : Thread) : (t.completed).tval = t.tval := (congrArg Thread.tval (completed_eq t)).trans rfl
@[simp] theorem completed_hnd (t : Thread) : (t.completed).hnd = t.hnd := (congrArg Thread.hnd (completed_eq t)).trans rfl
@[simp] theorem completed_frames (t : Thread) : (t.completed).frames = t.frames := (congrArg Thread.frames (completed_eq t)).trans rfl
@[simp] theorem completed_window (t : Thread) : (t.completed).window = t.window := (congrArg Thread.window (completed_eq t)).trans rfl
@[simp] theorem completed_aseq (t : Thread) : (t.completed).aseq = t.aseq := (congrArg Thread.aseq (completed_eq t)).trans rfl
@[simp] theorem completed_astat (t : Thread) : (t.completed).astat = t.astat := (congrArg Thread.astat (completed_eq t)).trans rfl
@[simp] theorem completed_dseq (t : Thread) : (t.completed).dseq = t.dseq := (congrArg Thread.dseq (completed_eq t)).trans rfl
@[simp] theorem completed_plate (t : Thread) : (t.completed).plate = t.plate := (congrArg Thread.plate (completed_eq t)).trans rfl
@[simp] theorem completed_mailbox (t : Thread) : (t.completed).mailbox = t.mailbox := (congrArg Thread.mailbox (completed_eq t)).trans rfl
@[simp] theorem completed_gbars (t : Thread) : (t.completed).gbars = t.gbars := (congrArg Thread.gbars (completed_eq t)).trans rfl
@[simp] theorem completed_issuedAt (t : Thread) : (t.completed).issuedAt = t.issuedAt := (congrArg Thread.issuedAt (completed_eq t)).trans rfl
@[simp] theorem completed_readyAt (t : Thread) : (t.completed).readyAt = t.readyAt := (congrArg Thread.readyAt (completed_eq t)).trans rfl
@[simp] theorem completed_yielded (t : Thread) : (t.completed).yielded = t.yielded := (congrArg Thread.yielded (completed_eq t)).trans rfl
@[simp] theorem completed_segNext (t : Thread) : (t.completed).segNext = t.segNext := (congrArg Thread.segNext (completed_eq t)).trans rfl
@[simp] theorem completed_seq (t : Thread) : (t.completed).seq = t.seq := (congrArg Thread.seq (completed_eq t)).trans rfl
@[simp] theorem completed_vloop (t : Thread) : (t.completed).vloop = t.vloop := (congrArg Thread.vloop (completed_eq t)).trans rfl
@[simp] theorem completed_loopRec (t : Thread) : (t.completed).loopRec = t.loopRec := (congrArg Thread.loopRec (completed_eq t)).trans rfl
@[simp] theorem completed_pass (t : Thread) : (t.completed).pass = t.pass := (congrArg Thread.pass (completed_eq t)).trans rfl
@[simp] theorem completed_replay (t : Thread) : (t.completed).replay = t.replay := (congrArg Thread.replay (completed_eq t)).trans rfl
@[simp] theorem completed_deferred (t : Thread) : (t.completed).deferred = t.deferred := (congrArg Thread.deferred (completed_eq t)).trans rfl
@[simp] theorem completed_debugHeld (t : Thread) : (t.completed).debugHeld = t.debugHeld := (congrArg Thread.debugHeld (completed_eq t)).trans rfl
@[simp] theorem completed_debugStopped (t : Thread) : (t.completed).debugStopped = t.debugStopped := (congrArg Thread.debugStopped (completed_eq t)).trans rfl
@[simp] theorem completed_reply (t : Thread) : (t.completed).reply = t.reply := (congrArg Thread.reply (completed_eq t)).trans rfl

@[simp] theorem jumped_ctx (t : Thread) (p : Word) : (t.jumped p).ctx = t.ctx := (congrArg Thread.ctx (jumped_eq t p)).trans rfl
@[simp] theorem jumped_tid (t : Thread) (p : Word) : (t.jumped p).tid = t.tid := (congrArg Thread.tid (jumped_eq t p)).trans rfl
@[simp] theorem jumped_fn (t : Thread) (p : Word) : (t.jumped p).fn = t.fn := (congrArg Thread.fn (jumped_eq t p)).trans rfl
@[simp] theorem jumped_part (t : Thread) (p : Word) : (t.jumped p).part = t.part := (congrArg Thread.part (jumped_eq t p)).trans rfl
@[simp] theorem jumped_gang (t : Thread) (p : Word) : (t.jumped p).gang = t.gang := (congrArg Thread.gang (jumped_eq t p)).trans rfl
@[simp] theorem jumped_gangSize (t : Thread) (p : Word) : (t.jumped p).gangSize = t.gangSize := (congrArg Thread.gangSize (jumped_eq t p)).trans rfl
@[simp] theorem jumped_gangIndex (t : Thread) (p : Word) : (t.jumped p).gangIndex = t.gangIndex := (congrArg Thread.gangIndex (jumped_eq t p)).trans rfl
@[simp] theorem jumped_launch (t : Thread) (p : Word) : (t.jumped p).launch = t.launch := (congrArg Thread.launch (jumped_eq t p)).trans rfl
@[simp] theorem jumped_parked (t : Thread) (p : Word) : (t.jumped p).parked = t.parked := (congrArg Thread.parked (jumped_eq t p)).trans rfl
@[simp] theorem jumped_saved (t : Thread) (p : Word) : (t.jumped p).saved = t.saved := (congrArg Thread.saved (jumped_eq t p)).trans rfl
@[simp] theorem jumped_x (t : Thread) (p : Word) : (t.jumped p).x = t.x := (congrArg Thread.x (jumped_eq t p)).trans rfl
@[simp] theorem jumped_v (t : Thread) (p : Word) : (t.jumped p).v = t.v := (congrArg Thread.v (jumped_eq t p)).trans rfl
@[simp] theorem jumped_k (t : Thread) (p : Word) : (t.jumped p).k = t.k := (congrArg Thread.k (jumped_eq t p)).trans rfl
@[simp] theorem jumped_g (t : Thread) (p : Word) : (t.jumped p).g = t.g := (congrArg Thread.g (jumped_eq t p)).trans rfl
@[simp] theorem jumped_w (t : Thread) (p : Word) : (t.jumped p).w = t.w := (congrArg Thread.w (jumped_eq t p)).trans rfl
@[simp] theorem jumped_line (t : Thread) (p : Word) : (t.jumped p).line = t.line := (congrArg Thread.line (jumped_eq t p)).trans rfl
@[simp] theorem jumped_vstart (t : Thread) (p : Word) : (t.jumped p).vstart = t.vstart := (congrArg Thread.vstart (jumped_eq t p)).trans rfl
@[simp] theorem jumped_fz (t : Thread) (p : Word) : (t.jumped p).fz = t.fz := (congrArg Thread.fz (jumped_eq t p)).trans rfl
@[simp] theorem jumped_rm (t : Thread) (p : Word) : (t.jumped p).rm = t.rm := (congrArg Thread.rm (jumped_eq t p)).trans rfl
@[simp] theorem jumped_fflags (t : Thread) (p : Word) : (t.jumped p).fflags = t.fflags := (congrArg Thread.fflags (jumped_eq t p)).trans rfl
@[simp] theorem jumped_mxstat (t : Thread) (p : Word) : (t.jumped p).mxstat = t.mxstat := (congrArg Thread.mxstat (jumped_eq t p)).trans rfl
@[simp] theorem jumped_srseed (t : Thread) (p : Word) : (t.jumped p).srseed = t.srseed := (congrArg Thread.srseed (jumped_eq t p)).trans rfl
@[simp] theorem jumped_loops (t : Thread) (p : Word) : (t.jumped p).loops = t.loops := (congrArg Thread.loops (jumped_eq t p)).trans rfl
@[simp] theorem jumped_lsel (t : Thread) (p : Word) : (t.jumped p).lsel = t.lsel := (congrArg Thread.lsel (jumped_eq t p)).trans rfl
@[simp] theorem jumped_lword (t : Thread) (p : Word) : (t.jumped p).lword = t.lword := (congrArg Thread.lword (jumped_eq t p)).trans rfl
@[simp] theorem jumped_felimit (t : Thread) (p : Word) : (t.jumped p).felimit = t.felimit := (congrArg Thread.felimit (jumped_eq t p)).trans rfl
@[simp] theorem jumped_cblimit (t : Thread) (p : Word) : (t.jumped p).cblimit = t.cblimit := (congrArg Thread.cblimit (jumped_eq t p)).trans rfl
@[simp] theorem jumped_tvec (t : Thread) (p : Word) : (t.jumped p).tvec = t.tvec := (congrArg Thread.tvec (jumped_eq t p)).trans rfl
@[simp] theorem jumped_tcause (t : Thread) (p : Word) : (t.jumped p).tcause = t.tcause := (congrArg Thread.tcause (jumped_eq t p)).trans rfl
@[simp] theorem jumped_tpc (t : Thread) (p : Word) : (t.jumped p).tpc = t.tpc := (congrArg Thread.tpc (jumped_eq t p)).trans rfl
@[simp] theorem jumped_tval (t : Thread) (p : Word) : (t.jumped p).tval = t.tval := (congrArg Thread.tval (jumped_eq t p)).trans rfl
@[simp] theorem jumped_hnd (t : Thread) (p : Word) : (t.jumped p).hnd = t.hnd := (congrArg Thread.hnd (jumped_eq t p)).trans rfl
@[simp] theorem jumped_frames (t : Thread) (p : Word) : (t.jumped p).frames = t.frames := (congrArg Thread.frames (jumped_eq t p)).trans rfl
@[simp] theorem jumped_window (t : Thread) (p : Word) : (t.jumped p).window = t.window := (congrArg Thread.window (jumped_eq t p)).trans rfl
@[simp] theorem jumped_aseq (t : Thread) (p : Word) : (t.jumped p).aseq = t.aseq := (congrArg Thread.aseq (jumped_eq t p)).trans rfl
@[simp] theorem jumped_astat (t : Thread) (p : Word) : (t.jumped p).astat = t.astat := (congrArg Thread.astat (jumped_eq t p)).trans rfl
@[simp] theorem jumped_dseq (t : Thread) (p : Word) : (t.jumped p).dseq = t.dseq := (congrArg Thread.dseq (jumped_eq t p)).trans rfl
@[simp] theorem jumped_plate (t : Thread) (p : Word) : (t.jumped p).plate = t.plate := (congrArg Thread.plate (jumped_eq t p)).trans rfl
@[simp] theorem jumped_mailbox (t : Thread) (p : Word) : (t.jumped p).mailbox = t.mailbox := (congrArg Thread.mailbox (jumped_eq t p)).trans rfl
@[simp] theorem jumped_gbars (t : Thread) (p : Word) : (t.jumped p).gbars = t.gbars := (congrArg Thread.gbars (jumped_eq t p)).trans rfl
@[simp] theorem jumped_issuedAt (t : Thread) (p : Word) : (t.jumped p).issuedAt = t.issuedAt := (congrArg Thread.issuedAt (jumped_eq t p)).trans rfl
@[simp] theorem jumped_readyAt (t : Thread) (p : Word) : (t.jumped p).readyAt = t.readyAt := (congrArg Thread.readyAt (jumped_eq t p)).trans rfl
@[simp] theorem jumped_yielded (t : Thread) (p : Word) : (t.jumped p).yielded = t.yielded := (congrArg Thread.yielded (jumped_eq t p)).trans rfl
@[simp] theorem jumped_segNext (t : Thread) (p : Word) : (t.jumped p).segNext = t.segNext := (congrArg Thread.segNext (jumped_eq t p)).trans rfl
@[simp] theorem jumped_seq (t : Thread) (p : Word) : (t.jumped p).seq = t.seq := (congrArg Thread.seq (jumped_eq t p)).trans rfl
@[simp] theorem jumped_vloop (t : Thread) (p : Word) : (t.jumped p).vloop = t.vloop := (congrArg Thread.vloop (jumped_eq t p)).trans rfl
@[simp] theorem jumped_loopRec (t : Thread) (p : Word) : (t.jumped p).loopRec = t.loopRec := (congrArg Thread.loopRec (jumped_eq t p)).trans rfl
@[simp] theorem jumped_pass (t : Thread) (p : Word) : (t.jumped p).pass = t.pass := (congrArg Thread.pass (jumped_eq t p)).trans rfl
@[simp] theorem jumped_replay (t : Thread) (p : Word) : (t.jumped p).replay = t.replay := (congrArg Thread.replay (jumped_eq t p)).trans rfl
@[simp] theorem jumped_deferred (t : Thread) (p : Word) : (t.jumped p).deferred = t.deferred := (congrArg Thread.deferred (jumped_eq t p)).trans rfl
@[simp] theorem jumped_debugHeld (t : Thread) (p : Word) : (t.jumped p).debugHeld = t.debugHeld := (congrArg Thread.debugHeld (jumped_eq t p)).trans rfl
@[simp] theorem jumped_debugStopped (t : Thread) (p : Word) : (t.jumped p).debugStopped = t.debugStopped := (congrArg Thread.debugStopped (jumped_eq t p)).trans rfl
@[simp] theorem jumped_reply (t : Thread) (p : Word) : (t.jumped p).reply = t.reply := (congrArg Thread.reply (jumped_eq t p)).trans rfl

@[simp] theorem setV_ctx (t : Thread) (i : VReg) (d : VData) : (t.setV i d).ctx = t.ctx := rfl
@[simp] theorem setV_tid (t : Thread) (i : VReg) (d : VData) : (t.setV i d).tid = t.tid := rfl
@[simp] theorem setV_fn (t : Thread) (i : VReg) (d : VData) : (t.setV i d).fn = t.fn := rfl
@[simp] theorem setV_part (t : Thread) (i : VReg) (d : VData) : (t.setV i d).part = t.part := rfl
@[simp] theorem setV_gang (t : Thread) (i : VReg) (d : VData) : (t.setV i d).gang = t.gang := rfl
@[simp] theorem setV_gangSize (t : Thread) (i : VReg) (d : VData) : (t.setV i d).gangSize = t.gangSize := rfl
@[simp] theorem setV_gangIndex (t : Thread) (i : VReg) (d : VData) : (t.setV i d).gangIndex = t.gangIndex := rfl
@[simp] theorem setV_launch (t : Thread) (i : VReg) (d : VData) : (t.setV i d).launch = t.launch := rfl
@[simp] theorem setV_status (t : Thread) (i : VReg) (d : VData) : (t.setV i d).status = t.status := rfl
@[simp] theorem setV_parked (t : Thread) (i : VReg) (d : VData) : (t.setV i d).parked = t.parked := rfl
@[simp] theorem setV_saved (t : Thread) (i : VReg) (d : VData) : (t.setV i d).saved = t.saved := rfl
@[simp] theorem setV_x (t : Thread) (i : VReg) (d : VData) : (t.setV i d).x = t.x := rfl
@[simp] theorem setV_k (t : Thread) (i : VReg) (d : VData) : (t.setV i d).k = t.k := rfl
@[simp] theorem setV_g (t : Thread) (i : VReg) (d : VData) : (t.setV i d).g = t.g := rfl
@[simp] theorem setV_w (t : Thread) (i : VReg) (d : VData) : (t.setV i d).w = t.w := rfl
@[simp] theorem setV_pc (t : Thread) (i : VReg) (d : VData) : (t.setV i d).pc = t.pc := rfl
@[simp] theorem setV_line (t : Thread) (i : VReg) (d : VData) : (t.setV i d).line = t.line := rfl
@[simp] theorem setV_vstart (t : Thread) (i : VReg) (d : VData) : (t.setV i d).vstart = t.vstart := rfl
@[simp] theorem setV_fz (t : Thread) (i : VReg) (d : VData) : (t.setV i d).fz = t.fz := rfl
@[simp] theorem setV_rm (t : Thread) (i : VReg) (d : VData) : (t.setV i d).rm = t.rm := rfl
@[simp] theorem setV_fflags (t : Thread) (i : VReg) (d : VData) : (t.setV i d).fflags = t.fflags := rfl
@[simp] theorem setV_mxstat (t : Thread) (i : VReg) (d : VData) : (t.setV i d).mxstat = t.mxstat := rfl
@[simp] theorem setV_srseed (t : Thread) (i : VReg) (d : VData) : (t.setV i d).srseed = t.srseed := rfl
@[simp] theorem setV_loops (t : Thread) (i : VReg) (d : VData) : (t.setV i d).loops = t.loops := rfl
@[simp] theorem setV_lsel (t : Thread) (i : VReg) (d : VData) : (t.setV i d).lsel = t.lsel := rfl
@[simp] theorem setV_lword (t : Thread) (i : VReg) (d : VData) : (t.setV i d).lword = t.lword := rfl
@[simp] theorem setV_felimit (t : Thread) (i : VReg) (d : VData) : (t.setV i d).felimit = t.felimit := rfl
@[simp] theorem setV_cblimit (t : Thread) (i : VReg) (d : VData) : (t.setV i d).cblimit = t.cblimit := rfl
@[simp] theorem setV_tvec (t : Thread) (i : VReg) (d : VData) : (t.setV i d).tvec = t.tvec := rfl
@[simp] theorem setV_tcause (t : Thread) (i : VReg) (d : VData) : (t.setV i d).tcause = t.tcause := rfl
@[simp] theorem setV_tpc (t : Thread) (i : VReg) (d : VData) : (t.setV i d).tpc = t.tpc := rfl
@[simp] theorem setV_tval (t : Thread) (i : VReg) (d : VData) : (t.setV i d).tval = t.tval := rfl
@[simp] theorem setV_hnd (t : Thread) (i : VReg) (d : VData) : (t.setV i d).hnd = t.hnd := rfl
@[simp] theorem setV_frames (t : Thread) (i : VReg) (d : VData) : (t.setV i d).frames = t.frames := rfl
@[simp] theorem setV_window (t : Thread) (i : VReg) (d : VData) : (t.setV i d).window = t.window := rfl
@[simp] theorem setV_aseq (t : Thread) (i : VReg) (d : VData) : (t.setV i d).aseq = t.aseq := rfl
@[simp] theorem setV_astat (t : Thread) (i : VReg) (d : VData) : (t.setV i d).astat = t.astat := rfl
@[simp] theorem setV_dseq (t : Thread) (i : VReg) (d : VData) : (t.setV i d).dseq = t.dseq := rfl
@[simp] theorem setV_plate (t : Thread) (i : VReg) (d : VData) : (t.setV i d).plate = t.plate := rfl
@[simp] theorem setV_mailbox (t : Thread) (i : VReg) (d : VData) : (t.setV i d).mailbox = t.mailbox := rfl
@[simp] theorem setV_gbars (t : Thread) (i : VReg) (d : VData) : (t.setV i d).gbars = t.gbars := rfl
@[simp] theorem setV_issuedAt (t : Thread) (i : VReg) (d : VData) : (t.setV i d).issuedAt = t.issuedAt := rfl
@[simp] theorem setV_readyAt (t : Thread) (i : VReg) (d : VData) : (t.setV i d).readyAt = t.readyAt := rfl
@[simp] theorem setV_yielded (t : Thread) (i : VReg) (d : VData) : (t.setV i d).yielded = t.yielded := rfl
@[simp] theorem setV_segNext (t : Thread) (i : VReg) (d : VData) : (t.setV i d).segNext = t.segNext := rfl
@[simp] theorem setV_seq (t : Thread) (i : VReg) (d : VData) : (t.setV i d).seq = t.seq := rfl
@[simp] theorem setV_vloop (t : Thread) (i : VReg) (d : VData) : (t.setV i d).vloop = t.vloop := rfl
@[simp] theorem setV_loopRec (t : Thread) (i : VReg) (d : VData) : (t.setV i d).loopRec = t.loopRec := rfl
@[simp] theorem setV_pass (t : Thread) (i : VReg) (d : VData) : (t.setV i d).pass = t.pass := rfl
@[simp] theorem setV_replay (t : Thread) (i : VReg) (d : VData) : (t.setV i d).replay = t.replay := rfl
@[simp] theorem setV_deferred (t : Thread) (i : VReg) (d : VData) : (t.setV i d).deferred = t.deferred := rfl
@[simp] theorem setV_debugHeld (t : Thread) (i : VReg) (d : VData) : (t.setV i d).debugHeld = t.debugHeld := rfl
@[simp] theorem setV_debugStopped (t : Thread) (i : VReg) (d : VData) : (t.setV i d).debugStopped = t.debugStopped := rfl
@[simp] theorem setV_reply (t : Thread) (i : VReg) (d : VData) : (t.setV i d).reply = t.reply := rfl

@[simp] theorem setK_ctx (t : Thread) (i : KReg) (d : KData) : (t.setK i d).ctx = t.ctx := rfl
@[simp] theorem setK_tid (t : Thread) (i : KReg) (d : KData) : (t.setK i d).tid = t.tid := rfl
@[simp] theorem setK_fn (t : Thread) (i : KReg) (d : KData) : (t.setK i d).fn = t.fn := rfl
@[simp] theorem setK_part (t : Thread) (i : KReg) (d : KData) : (t.setK i d).part = t.part := rfl
@[simp] theorem setK_gang (t : Thread) (i : KReg) (d : KData) : (t.setK i d).gang = t.gang := rfl
@[simp] theorem setK_gangSize (t : Thread) (i : KReg) (d : KData) : (t.setK i d).gangSize = t.gangSize := rfl
@[simp] theorem setK_gangIndex (t : Thread) (i : KReg) (d : KData) : (t.setK i d).gangIndex = t.gangIndex := rfl
@[simp] theorem setK_launch (t : Thread) (i : KReg) (d : KData) : (t.setK i d).launch = t.launch := rfl
@[simp] theorem setK_status (t : Thread) (i : KReg) (d : KData) : (t.setK i d).status = t.status := rfl
@[simp] theorem setK_parked (t : Thread) (i : KReg) (d : KData) : (t.setK i d).parked = t.parked := rfl
@[simp] theorem setK_saved (t : Thread) (i : KReg) (d : KData) : (t.setK i d).saved = t.saved := rfl
@[simp] theorem setK_x (t : Thread) (i : KReg) (d : KData) : (t.setK i d).x = t.x := rfl
@[simp] theorem setK_v (t : Thread) (i : KReg) (d : KData) : (t.setK i d).v = t.v := rfl
@[simp] theorem setK_g (t : Thread) (i : KReg) (d : KData) : (t.setK i d).g = t.g := rfl
@[simp] theorem setK_w (t : Thread) (i : KReg) (d : KData) : (t.setK i d).w = t.w := rfl
@[simp] theorem setK_pc (t : Thread) (i : KReg) (d : KData) : (t.setK i d).pc = t.pc := rfl
@[simp] theorem setK_line (t : Thread) (i : KReg) (d : KData) : (t.setK i d).line = t.line := rfl
@[simp] theorem setK_vstart (t : Thread) (i : KReg) (d : KData) : (t.setK i d).vstart = t.vstart := rfl
@[simp] theorem setK_fz (t : Thread) (i : KReg) (d : KData) : (t.setK i d).fz = t.fz := rfl
@[simp] theorem setK_rm (t : Thread) (i : KReg) (d : KData) : (t.setK i d).rm = t.rm := rfl
@[simp] theorem setK_fflags (t : Thread) (i : KReg) (d : KData) : (t.setK i d).fflags = t.fflags := rfl
@[simp] theorem setK_mxstat (t : Thread) (i : KReg) (d : KData) : (t.setK i d).mxstat = t.mxstat := rfl
@[simp] theorem setK_srseed (t : Thread) (i : KReg) (d : KData) : (t.setK i d).srseed = t.srseed := rfl
@[simp] theorem setK_loops (t : Thread) (i : KReg) (d : KData) : (t.setK i d).loops = t.loops := rfl
@[simp] theorem setK_lsel (t : Thread) (i : KReg) (d : KData) : (t.setK i d).lsel = t.lsel := rfl
@[simp] theorem setK_lword (t : Thread) (i : KReg) (d : KData) : (t.setK i d).lword = t.lword := rfl
@[simp] theorem setK_felimit (t : Thread) (i : KReg) (d : KData) : (t.setK i d).felimit = t.felimit := rfl
@[simp] theorem setK_cblimit (t : Thread) (i : KReg) (d : KData) : (t.setK i d).cblimit = t.cblimit := rfl
@[simp] theorem setK_tvec (t : Thread) (i : KReg) (d : KData) : (t.setK i d).tvec = t.tvec := rfl
@[simp] theorem setK_tcause (t : Thread) (i : KReg) (d : KData) : (t.setK i d).tcause = t.tcause := rfl
@[simp] theorem setK_tpc (t : Thread) (i : KReg) (d : KData) : (t.setK i d).tpc = t.tpc := rfl
@[simp] theorem setK_tval (t : Thread) (i : KReg) (d : KData) : (t.setK i d).tval = t.tval := rfl
@[simp] theorem setK_hnd (t : Thread) (i : KReg) (d : KData) : (t.setK i d).hnd = t.hnd := rfl
@[simp] theorem setK_frames (t : Thread) (i : KReg) (d : KData) : (t.setK i d).frames = t.frames := rfl
@[simp] theorem setK_window (t : Thread) (i : KReg) (d : KData) : (t.setK i d).window = t.window := rfl
@[simp] theorem setK_aseq (t : Thread) (i : KReg) (d : KData) : (t.setK i d).aseq = t.aseq := rfl
@[simp] theorem setK_astat (t : Thread) (i : KReg) (d : KData) : (t.setK i d).astat = t.astat := rfl
@[simp] theorem setK_dseq (t : Thread) (i : KReg) (d : KData) : (t.setK i d).dseq = t.dseq := rfl
@[simp] theorem setK_plate (t : Thread) (i : KReg) (d : KData) : (t.setK i d).plate = t.plate := rfl
@[simp] theorem setK_mailbox (t : Thread) (i : KReg) (d : KData) : (t.setK i d).mailbox = t.mailbox := rfl
@[simp] theorem setK_gbars (t : Thread) (i : KReg) (d : KData) : (t.setK i d).gbars = t.gbars := rfl
@[simp] theorem setK_issuedAt (t : Thread) (i : KReg) (d : KData) : (t.setK i d).issuedAt = t.issuedAt := rfl
@[simp] theorem setK_readyAt (t : Thread) (i : KReg) (d : KData) : (t.setK i d).readyAt = t.readyAt := rfl
@[simp] theorem setK_yielded (t : Thread) (i : KReg) (d : KData) : (t.setK i d).yielded = t.yielded := rfl
@[simp] theorem setK_segNext (t : Thread) (i : KReg) (d : KData) : (t.setK i d).segNext = t.segNext := rfl
@[simp] theorem setK_seq (t : Thread) (i : KReg) (d : KData) : (t.setK i d).seq = t.seq := rfl
@[simp] theorem setK_vloop (t : Thread) (i : KReg) (d : KData) : (t.setK i d).vloop = t.vloop := rfl
@[simp] theorem setK_loopRec (t : Thread) (i : KReg) (d : KData) : (t.setK i d).loopRec = t.loopRec := rfl
@[simp] theorem setK_pass (t : Thread) (i : KReg) (d : KData) : (t.setK i d).pass = t.pass := rfl
@[simp] theorem setK_replay (t : Thread) (i : KReg) (d : KData) : (t.setK i d).replay = t.replay := rfl
@[simp] theorem setK_deferred (t : Thread) (i : KReg) (d : KData) : (t.setK i d).deferred = t.deferred := rfl
@[simp] theorem setK_debugHeld (t : Thread) (i : KReg) (d : KData) : (t.setK i d).debugHeld = t.debugHeld := rfl
@[simp] theorem setK_debugStopped (t : Thread) (i : KReg) (d : KData) : (t.setK i d).debugStopped = t.debugStopped := rfl
@[simp] theorem setK_reply (t : Thread) (i : KReg) (d : KData) : (t.setK i d).reply = t.reply := rfl

@[simp] theorem setG_ctx (t : Thread) (i : GReg) (d : Segment) : (t.setG i d).ctx = t.ctx := rfl
@[simp] theorem setG_tid (t : Thread) (i : GReg) (d : Segment) : (t.setG i d).tid = t.tid := rfl
@[simp] theorem setG_fn (t : Thread) (i : GReg) (d : Segment) : (t.setG i d).fn = t.fn := rfl
@[simp] theorem setG_part (t : Thread) (i : GReg) (d : Segment) : (t.setG i d).part = t.part := rfl
@[simp] theorem setG_gang (t : Thread) (i : GReg) (d : Segment) : (t.setG i d).gang = t.gang := rfl
@[simp] theorem setG_gangSize (t : Thread) (i : GReg) (d : Segment) : (t.setG i d).gangSize = t.gangSize := rfl
@[simp] theorem setG_gangIndex (t : Thread) (i : GReg) (d : Segment) : (t.setG i d).gangIndex = t.gangIndex := rfl
@[simp] theorem setG_launch (t : Thread) (i : GReg) (d : Segment) : (t.setG i d).launch = t.launch := rfl
@[simp] theorem setG_status (t : Thread) (i : GReg) (d : Segment) : (t.setG i d).status = t.status := rfl
@[simp] theorem setG_parked (t : Thread) (i : GReg) (d : Segment) : (t.setG i d).parked = t.parked := rfl
@[simp] theorem setG_saved (t : Thread) (i : GReg) (d : Segment) : (t.setG i d).saved = t.saved := rfl
@[simp] theorem setG_x (t : Thread) (i : GReg) (d : Segment) : (t.setG i d).x = t.x := rfl
@[simp] theorem setG_v (t : Thread) (i : GReg) (d : Segment) : (t.setG i d).v = t.v := rfl
@[simp] theorem setG_k (t : Thread) (i : GReg) (d : Segment) : (t.setG i d).k = t.k := rfl
@[simp] theorem setG_w (t : Thread) (i : GReg) (d : Segment) : (t.setG i d).w = t.w := rfl
@[simp] theorem setG_pc (t : Thread) (i : GReg) (d : Segment) : (t.setG i d).pc = t.pc := rfl
@[simp] theorem setG_vstart (t : Thread) (i : GReg) (d : Segment) : (t.setG i d).vstart = t.vstart := rfl
@[simp] theorem setG_fz (t : Thread) (i : GReg) (d : Segment) : (t.setG i d).fz = t.fz := rfl
@[simp] theorem setG_rm (t : Thread) (i : GReg) (d : Segment) : (t.setG i d).rm = t.rm := rfl
@[simp] theorem setG_fflags (t : Thread) (i : GReg) (d : Segment) : (t.setG i d).fflags = t.fflags := rfl
@[simp] theorem setG_mxstat (t : Thread) (i : GReg) (d : Segment) : (t.setG i d).mxstat = t.mxstat := rfl
@[simp] theorem setG_srseed (t : Thread) (i : GReg) (d : Segment) : (t.setG i d).srseed = t.srseed := rfl
@[simp] theorem setG_loops (t : Thread) (i : GReg) (d : Segment) : (t.setG i d).loops = t.loops := rfl
@[simp] theorem setG_lsel (t : Thread) (i : GReg) (d : Segment) : (t.setG i d).lsel = t.lsel := rfl
@[simp] theorem setG_lword (t : Thread) (i : GReg) (d : Segment) : (t.setG i d).lword = t.lword := rfl
@[simp] theorem setG_felimit (t : Thread) (i : GReg) (d : Segment) : (t.setG i d).felimit = t.felimit := rfl
@[simp] theorem setG_cblimit (t : Thread) (i : GReg) (d : Segment) : (t.setG i d).cblimit = t.cblimit := rfl
@[simp] theorem setG_tvec (t : Thread) (i : GReg) (d : Segment) : (t.setG i d).tvec = t.tvec := rfl
@[simp] theorem setG_tcause (t : Thread) (i : GReg) (d : Segment) : (t.setG i d).tcause = t.tcause := rfl
@[simp] theorem setG_tpc (t : Thread) (i : GReg) (d : Segment) : (t.setG i d).tpc = t.tpc := rfl
@[simp] theorem setG_tval (t : Thread) (i : GReg) (d : Segment) : (t.setG i d).tval = t.tval := rfl
@[simp] theorem setG_hnd (t : Thread) (i : GReg) (d : Segment) : (t.setG i d).hnd = t.hnd := rfl
@[simp] theorem setG_frames (t : Thread) (i : GReg) (d : Segment) : (t.setG i d).frames = t.frames := rfl
@[simp] theorem setG_window (t : Thread) (i : GReg) (d : Segment) : (t.setG i d).window = t.window := rfl
@[simp] theorem setG_aseq (t : Thread) (i : GReg) (d : Segment) : (t.setG i d).aseq = t.aseq := rfl
@[simp] theorem setG_astat (t : Thread) (i : GReg) (d : Segment) : (t.setG i d).astat = t.astat := rfl
@[simp] theorem setG_dseq (t : Thread) (i : GReg) (d : Segment) : (t.setG i d).dseq = t.dseq := rfl
@[simp] theorem setG_plate (t : Thread) (i : GReg) (d : Segment) : (t.setG i d).plate = t.plate := rfl
@[simp] theorem setG_mailbox (t : Thread) (i : GReg) (d : Segment) : (t.setG i d).mailbox = t.mailbox := rfl
@[simp] theorem setG_gbars (t : Thread) (i : GReg) (d : Segment) : (t.setG i d).gbars = t.gbars := rfl
@[simp] theorem setG_issuedAt (t : Thread) (i : GReg) (d : Segment) : (t.setG i d).issuedAt = t.issuedAt := rfl
@[simp] theorem setG_readyAt (t : Thread) (i : GReg) (d : Segment) : (t.setG i d).readyAt = t.readyAt := rfl
@[simp] theorem setG_yielded (t : Thread) (i : GReg) (d : Segment) : (t.setG i d).yielded = t.yielded := rfl
@[simp] theorem setG_segNext (t : Thread) (i : GReg) (d : Segment) : (t.setG i d).segNext = t.segNext := rfl
@[simp] theorem setG_seq (t : Thread) (i : GReg) (d : Segment) : (t.setG i d).seq = t.seq := rfl
@[simp] theorem setG_vloop (t : Thread) (i : GReg) (d : Segment) : (t.setG i d).vloop = t.vloop := rfl
@[simp] theorem setG_loopRec (t : Thread) (i : GReg) (d : Segment) : (t.setG i d).loopRec = t.loopRec := rfl
@[simp] theorem setG_pass (t : Thread) (i : GReg) (d : Segment) : (t.setG i d).pass = t.pass := rfl
@[simp] theorem setG_replay (t : Thread) (i : GReg) (d : Segment) : (t.setG i d).replay = t.replay := rfl
@[simp] theorem setG_deferred (t : Thread) (i : GReg) (d : Segment) : (t.setG i d).deferred = t.deferred := rfl
@[simp] theorem setG_debugHeld (t : Thread) (i : GReg) (d : Segment) : (t.setG i d).debugHeld = t.debugHeld := rfl
@[simp] theorem setG_debugStopped (t : Thread) (i : GReg) (d : Segment) : (t.setG i d).debugStopped = t.debugStopped := rfl
@[simp] theorem setG_reply (t : Thread) (i : GReg) (d : Segment) : (t.setG i d).reply = t.reply := rfl

@[simp] theorem setW_ctx (t : Thread) (i : WReg) (d : Option Stream) : (t.setW i d).ctx = t.ctx := rfl
@[simp] theorem setW_tid (t : Thread) (i : WReg) (d : Option Stream) : (t.setW i d).tid = t.tid := rfl
@[simp] theorem setW_fn (t : Thread) (i : WReg) (d : Option Stream) : (t.setW i d).fn = t.fn := rfl
@[simp] theorem setW_part (t : Thread) (i : WReg) (d : Option Stream) : (t.setW i d).part = t.part := rfl
@[simp] theorem setW_gang (t : Thread) (i : WReg) (d : Option Stream) : (t.setW i d).gang = t.gang := rfl
@[simp] theorem setW_gangSize (t : Thread) (i : WReg) (d : Option Stream) : (t.setW i d).gangSize = t.gangSize := rfl
@[simp] theorem setW_gangIndex (t : Thread) (i : WReg) (d : Option Stream) : (t.setW i d).gangIndex = t.gangIndex := rfl
@[simp] theorem setW_launch (t : Thread) (i : WReg) (d : Option Stream) : (t.setW i d).launch = t.launch := rfl
@[simp] theorem setW_status (t : Thread) (i : WReg) (d : Option Stream) : (t.setW i d).status = t.status := rfl
@[simp] theorem setW_parked (t : Thread) (i : WReg) (d : Option Stream) : (t.setW i d).parked = t.parked := rfl
@[simp] theorem setW_saved (t : Thread) (i : WReg) (d : Option Stream) : (t.setW i d).saved = t.saved := rfl
@[simp] theorem setW_x (t : Thread) (i : WReg) (d : Option Stream) : (t.setW i d).x = t.x := rfl
@[simp] theorem setW_v (t : Thread) (i : WReg) (d : Option Stream) : (t.setW i d).v = t.v := rfl
@[simp] theorem setW_k (t : Thread) (i : WReg) (d : Option Stream) : (t.setW i d).k = t.k := rfl
@[simp] theorem setW_g (t : Thread) (i : WReg) (d : Option Stream) : (t.setW i d).g = t.g := rfl
@[simp] theorem setW_pc (t : Thread) (i : WReg) (d : Option Stream) : (t.setW i d).pc = t.pc := rfl
@[simp] theorem setW_line (t : Thread) (i : WReg) (d : Option Stream) : (t.setW i d).line = t.line := rfl
@[simp] theorem setW_vstart (t : Thread) (i : WReg) (d : Option Stream) : (t.setW i d).vstart = t.vstart := rfl
@[simp] theorem setW_fz (t : Thread) (i : WReg) (d : Option Stream) : (t.setW i d).fz = t.fz := rfl
@[simp] theorem setW_rm (t : Thread) (i : WReg) (d : Option Stream) : (t.setW i d).rm = t.rm := rfl
@[simp] theorem setW_fflags (t : Thread) (i : WReg) (d : Option Stream) : (t.setW i d).fflags = t.fflags := rfl
@[simp] theorem setW_mxstat (t : Thread) (i : WReg) (d : Option Stream) : (t.setW i d).mxstat = t.mxstat := rfl
@[simp] theorem setW_srseed (t : Thread) (i : WReg) (d : Option Stream) : (t.setW i d).srseed = t.srseed := rfl
@[simp] theorem setW_loops (t : Thread) (i : WReg) (d : Option Stream) : (t.setW i d).loops = t.loops := rfl
@[simp] theorem setW_lsel (t : Thread) (i : WReg) (d : Option Stream) : (t.setW i d).lsel = t.lsel := rfl
@[simp] theorem setW_lword (t : Thread) (i : WReg) (d : Option Stream) : (t.setW i d).lword = t.lword := rfl
@[simp] theorem setW_felimit (t : Thread) (i : WReg) (d : Option Stream) : (t.setW i d).felimit = t.felimit := rfl
@[simp] theorem setW_cblimit (t : Thread) (i : WReg) (d : Option Stream) : (t.setW i d).cblimit = t.cblimit := rfl
@[simp] theorem setW_tvec (t : Thread) (i : WReg) (d : Option Stream) : (t.setW i d).tvec = t.tvec := rfl
@[simp] theorem setW_tcause (t : Thread) (i : WReg) (d : Option Stream) : (t.setW i d).tcause = t.tcause := rfl
@[simp] theorem setW_tpc (t : Thread) (i : WReg) (d : Option Stream) : (t.setW i d).tpc = t.tpc := rfl
@[simp] theorem setW_tval (t : Thread) (i : WReg) (d : Option Stream) : (t.setW i d).tval = t.tval := rfl
@[simp] theorem setW_hnd (t : Thread) (i : WReg) (d : Option Stream) : (t.setW i d).hnd = t.hnd := rfl
@[simp] theorem setW_frames (t : Thread) (i : WReg) (d : Option Stream) : (t.setW i d).frames = t.frames := rfl
@[simp] theorem setW_window (t : Thread) (i : WReg) (d : Option Stream) : (t.setW i d).window = t.window := rfl
@[simp] theorem setW_aseq (t : Thread) (i : WReg) (d : Option Stream) : (t.setW i d).aseq = t.aseq := rfl
@[simp] theorem setW_astat (t : Thread) (i : WReg) (d : Option Stream) : (t.setW i d).astat = t.astat := rfl
@[simp] theorem setW_dseq (t : Thread) (i : WReg) (d : Option Stream) : (t.setW i d).dseq = t.dseq := rfl
@[simp] theorem setW_plate (t : Thread) (i : WReg) (d : Option Stream) : (t.setW i d).plate = t.plate := rfl
@[simp] theorem setW_mailbox (t : Thread) (i : WReg) (d : Option Stream) : (t.setW i d).mailbox = t.mailbox := rfl
@[simp] theorem setW_gbars (t : Thread) (i : WReg) (d : Option Stream) : (t.setW i d).gbars = t.gbars := rfl
@[simp] theorem setW_issuedAt (t : Thread) (i : WReg) (d : Option Stream) : (t.setW i d).issuedAt = t.issuedAt := rfl
@[simp] theorem setW_readyAt (t : Thread) (i : WReg) (d : Option Stream) : (t.setW i d).readyAt = t.readyAt := rfl
@[simp] theorem setW_yielded (t : Thread) (i : WReg) (d : Option Stream) : (t.setW i d).yielded = t.yielded := rfl
@[simp] theorem setW_segNext (t : Thread) (i : WReg) (d : Option Stream) : (t.setW i d).segNext = t.segNext := rfl
@[simp] theorem setW_seq (t : Thread) (i : WReg) (d : Option Stream) : (t.setW i d).seq = t.seq := rfl
@[simp] theorem setW_vloop (t : Thread) (i : WReg) (d : Option Stream) : (t.setW i d).vloop = t.vloop := rfl
@[simp] theorem setW_loopRec (t : Thread) (i : WReg) (d : Option Stream) : (t.setW i d).loopRec = t.loopRec := rfl
@[simp] theorem setW_pass (t : Thread) (i : WReg) (d : Option Stream) : (t.setW i d).pass = t.pass := rfl
@[simp] theorem setW_replay (t : Thread) (i : WReg) (d : Option Stream) : (t.setW i d).replay = t.replay := rfl
@[simp] theorem setW_deferred (t : Thread) (i : WReg) (d : Option Stream) : (t.setW i d).deferred = t.deferred := rfl
@[simp] theorem setW_debugHeld (t : Thread) (i : WReg) (d : Option Stream) : (t.setW i d).debugHeld = t.debugHeld := rfl
@[simp] theorem setW_debugStopped (t : Thread) (i : WReg) (d : Option Stream) : (t.setW i d).debugStopped = t.debugStopped := rfl
@[simp] theorem setW_reply (t : Thread) (i : WReg) (d : Option Stream) : (t.setW i d).reply = t.reply := rfl

@[simp] theorem addFlags_ctx (t : Thread) (f : Flags) : (t.addFlags f).ctx = t.ctx := rfl
@[simp] theorem addFlags_tid (t : Thread) (f : Flags) : (t.addFlags f).tid = t.tid := rfl
@[simp] theorem addFlags_fn (t : Thread) (f : Flags) : (t.addFlags f).fn = t.fn := rfl
@[simp] theorem addFlags_part (t : Thread) (f : Flags) : (t.addFlags f).part = t.part := rfl
@[simp] theorem addFlags_gang (t : Thread) (f : Flags) : (t.addFlags f).gang = t.gang := rfl
@[simp] theorem addFlags_gangSize (t : Thread) (f : Flags) : (t.addFlags f).gangSize = t.gangSize := rfl
@[simp] theorem addFlags_gangIndex (t : Thread) (f : Flags) : (t.addFlags f).gangIndex = t.gangIndex := rfl
@[simp] theorem addFlags_launch (t : Thread) (f : Flags) : (t.addFlags f).launch = t.launch := rfl
@[simp] theorem addFlags_status (t : Thread) (f : Flags) : (t.addFlags f).status = t.status := rfl
@[simp] theorem addFlags_parked (t : Thread) (f : Flags) : (t.addFlags f).parked = t.parked := rfl
@[simp] theorem addFlags_saved (t : Thread) (f : Flags) : (t.addFlags f).saved = t.saved := rfl
@[simp] theorem addFlags_x (t : Thread) (f : Flags) : (t.addFlags f).x = t.x := rfl
@[simp] theorem addFlags_v (t : Thread) (f : Flags) : (t.addFlags f).v = t.v := rfl
@[simp] theorem addFlags_k (t : Thread) (f : Flags) : (t.addFlags f).k = t.k := rfl
@[simp] theorem addFlags_g (t : Thread) (f : Flags) : (t.addFlags f).g = t.g := rfl
@[simp] theorem addFlags_w (t : Thread) (f : Flags) : (t.addFlags f).w = t.w := rfl
@[simp] theorem addFlags_pc (t : Thread) (f : Flags) : (t.addFlags f).pc = t.pc := rfl
@[simp] theorem addFlags_line (t : Thread) (f : Flags) : (t.addFlags f).line = t.line := rfl
@[simp] theorem addFlags_vstart (t : Thread) (f : Flags) : (t.addFlags f).vstart = t.vstart := rfl
@[simp] theorem addFlags_fz (t : Thread) (f : Flags) : (t.addFlags f).fz = t.fz := rfl
@[simp] theorem addFlags_rm (t : Thread) (f : Flags) : (t.addFlags f).rm = t.rm := rfl
@[simp] theorem addFlags_mxstat (t : Thread) (f : Flags) : (t.addFlags f).mxstat = t.mxstat := rfl
@[simp] theorem addFlags_srseed (t : Thread) (f : Flags) : (t.addFlags f).srseed = t.srseed := rfl
@[simp] theorem addFlags_loops (t : Thread) (f : Flags) : (t.addFlags f).loops = t.loops := rfl
@[simp] theorem addFlags_lsel (t : Thread) (f : Flags) : (t.addFlags f).lsel = t.lsel := rfl
@[simp] theorem addFlags_lword (t : Thread) (f : Flags) : (t.addFlags f).lword = t.lword := rfl
@[simp] theorem addFlags_felimit (t : Thread) (f : Flags) : (t.addFlags f).felimit = t.felimit := rfl
@[simp] theorem addFlags_cblimit (t : Thread) (f : Flags) : (t.addFlags f).cblimit = t.cblimit := rfl
@[simp] theorem addFlags_tvec (t : Thread) (f : Flags) : (t.addFlags f).tvec = t.tvec := rfl
@[simp] theorem addFlags_tcause (t : Thread) (f : Flags) : (t.addFlags f).tcause = t.tcause := rfl
@[simp] theorem addFlags_tpc (t : Thread) (f : Flags) : (t.addFlags f).tpc = t.tpc := rfl
@[simp] theorem addFlags_tval (t : Thread) (f : Flags) : (t.addFlags f).tval = t.tval := rfl
@[simp] theorem addFlags_hnd (t : Thread) (f : Flags) : (t.addFlags f).hnd = t.hnd := rfl
@[simp] theorem addFlags_frames (t : Thread) (f : Flags) : (t.addFlags f).frames = t.frames := rfl
@[simp] theorem addFlags_window (t : Thread) (f : Flags) : (t.addFlags f).window = t.window := rfl
@[simp] theorem addFlags_aseq (t : Thread) (f : Flags) : (t.addFlags f).aseq = t.aseq := rfl
@[simp] theorem addFlags_astat (t : Thread) (f : Flags) : (t.addFlags f).astat = t.astat := rfl
@[simp] theorem addFlags_dseq (t : Thread) (f : Flags) : (t.addFlags f).dseq = t.dseq := rfl
@[simp] theorem addFlags_plate (t : Thread) (f : Flags) : (t.addFlags f).plate = t.plate := rfl
@[simp] theorem addFlags_mailbox (t : Thread) (f : Flags) : (t.addFlags f).mailbox = t.mailbox := rfl
@[simp] theorem addFlags_gbars (t : Thread) (f : Flags) : (t.addFlags f).gbars = t.gbars := rfl
@[simp] theorem addFlags_issuedAt (t : Thread) (f : Flags) : (t.addFlags f).issuedAt = t.issuedAt := rfl
@[simp] theorem addFlags_readyAt (t : Thread) (f : Flags) : (t.addFlags f).readyAt = t.readyAt := rfl
@[simp] theorem addFlags_yielded (t : Thread) (f : Flags) : (t.addFlags f).yielded = t.yielded := rfl
@[simp] theorem addFlags_segNext (t : Thread) (f : Flags) : (t.addFlags f).segNext = t.segNext := rfl
@[simp] theorem addFlags_seq (t : Thread) (f : Flags) : (t.addFlags f).seq = t.seq := rfl
@[simp] theorem addFlags_vloop (t : Thread) (f : Flags) : (t.addFlags f).vloop = t.vloop := rfl
@[simp] theorem addFlags_loopRec (t : Thread) (f : Flags) : (t.addFlags f).loopRec = t.loopRec := rfl
@[simp] theorem addFlags_pass (t : Thread) (f : Flags) : (t.addFlags f).pass = t.pass := rfl
@[simp] theorem addFlags_replay (t : Thread) (f : Flags) : (t.addFlags f).replay = t.replay := rfl
@[simp] theorem addFlags_deferred (t : Thread) (f : Flags) : (t.addFlags f).deferred = t.deferred := rfl
@[simp] theorem addFlags_debugHeld (t : Thread) (f : Flags) : (t.addFlags f).debugHeld = t.debugHeld := rfl
@[simp] theorem addFlags_debugStopped (t : Thread) (f : Flags) : (t.addFlags f).debugStopped = t.debugStopped := rfl
@[simp] theorem addFlags_reply (t : Thread) (f : Flags) : (t.addFlags f).reply = t.reply := rfl

@[simp] theorem addFlags_fflags (t : Thread) (f : Flags) : (t.addFlags f).fflags = t.fflags ||| f := rfl
@[simp] theorem completed_pc (t : Thread) : t.completed.pc = (loopStep t.pc t.next t.loops).2 := rfl
@[simp] theorem completed_loops (t : Thread) : t.completed.loops = (loopStep t.pc t.next t.loops).1 := rfl
@[simp] theorem completed_status (t : Thread) : t.completed.status = t.resumed.status := rfl
@[simp] theorem jumped_pc (t : Thread) (p : Word) : (t.jumped p).pc = p := rfl

end Thread

end Sys2Proof.Machine
end

