-- ==== Sys2Proof/Laws/Memory.lean ====
section
/-!
SUPPORT. Memory: what a write leaves at each address, near, far and in a scratchpad, and that every memory operation keeps
the canonical form.
-/
namespace Sys2Proof.Machine

/-! ### Cells -/

theorem all_put {α : Type} {P : Nat × α → Bool} (m : List (Nat × α)) (k : Nat) (a : α) (hm : m.all P = true)
    (ha : P (k, a) = true) : (Map.put m k a).all P = true := by
  induction m with
  | nil => simp [Map.put, ha]
  | cons p m ih =>
    obtain ⟨j, b⟩ := p
    simp only [List.all_cons, Bool.and_eq_true] at hm
    simp only [Map.put]
    split
    · simp [ha, hm.1, hm.2]
    · split
      · simp [ha, hm.2]
      · simp [hm.1, ih hm.2]

theorem all_del {α : Type} {P : Nat × α → Bool} (m : List (Nat × α)) (k : Nat) (hm : m.all P = true) :
    (Map.del m k).all P = true := by
  induction m with
  | nil => rfl
  | cons p m ih =>
    obtain ⟨j, b⟩ := p
    simp only [List.all_cons, Bool.and_eq_true] at hm
    simp only [Map.del]
    split
    · exact ih hm.2
    · simp [hm.1, ih hm.2]

/-- A read after a write gives the byte written, and every other address reads as before. -/
theorem cellGet_cellPut (m : List Host.Cell) (a c : Nat) (b : Byte) :
    cellGet (cellPut m a b) c = if c = a then b else cellGet m c := by
  unfold cellGet cellPut Map.getD
  by_cases h : c = a
  · subst h; split <;> simp [*]
  · split <;> simp [h, Map.get?_del_other, Map.get?_put_other]

/-- A write keeps the canonical form. -/
theorem cellsWf_cellPut (m : List Host.Cell) (a : Nat) (b : Byte) (h : cellsWf m = true) : cellsWf (cellPut m a b) = true := by
  simp only [cellsWf, Bool.and_eq_true] at h ⊢
  unfold cellPut
  split
  · exact ⟨Map.rising_del m a h.1, all_del m a h.2⟩
  · rename_i hb; exact ⟨Map.rising_put m a b h.1, all_put m a b h.2 (by simpa using hb)⟩

/-! ### Near and far memory -/

theorem byteAt_setByte (s : State) (pa a : Nat) (b : Byte) :
    (s.setByte pa b).byteAt a = if a = pa then b else s.byteAt a := by
  by_cases h : pa < farBase
  · rw [show s.setByte pa b = { s with near := cellPut s.near pa b } from if_pos h]
    simp only [State.byteAt, cellGet_cellPut]
    by_cases ha : a < farBase
    · simp only [ha, if_true]
    · simp only [ha, if_false, show a ≠ pa by omega]
  · rw [show s.setByte pa b = { s with far := cellPut s.far (pa - farBase) b } from if_neg h]
    simp only [State.byteAt, cellGet_cellPut]
    by_cases ha : a < farBase
    · simp only [ha, if_true, show a ≠ pa by omega, if_false]
    · simp only [ha, if_false, show (a - farBase = pa - farBase) = (a = pa) by simp only [eq_iff_iff]; omega]

/-- Bytes written read back, and every address outside them reads as before. -/
theorem byteAt_setBytes (s : State) (pa a : Nat) (bs : List Byte) :
    (s.setBytes pa bs).byteAt a = if h : pa ≤ a ∧ a < pa + bs.length then bs[a - pa]'(by omega) else s.byteAt a := by
  induction bs generalizing s pa with
  | nil => simp [State.setBytes, show ¬ (pa ≤ a ∧ a < pa) by omega]
  | cons b bs ih =>
    rw [State.setBytes, ih, byteAt_setByte]
    simp only [List.length_cons]
    by_cases e : a = pa
    · subst e; rw [dif_neg (by omega)]; simp
    · by_cases h : pa + 1 ≤ a ∧ a < pa + 1 + bs.length
      · rw [dif_pos h, dif_pos ⟨by omega, by omega⟩, List.getElem_cons, dif_neg (by omega)]
        congr 1
      · rw [dif_neg h, if_neg e, dif_neg (by omega)]

/-- An address outside the bytes written reads as before. -/
theorem byteAt_setBytes_outside (s : State) {pa a : Nat} (bs : List Byte) (h : a < pa ∨ pa + bs.length ≤ a) :
    (s.setBytes pa bs).byteAt a = s.byteAt a := by
  rw [byteAt_setBytes, dif_neg (by omega)]

theorem wf_setByte (s : State) (pa : Nat) (b : Byte) (h : Memory.wf s = true) : Memory.wf (s.setByte pa b) = true := by
  simp only [Memory.wf, Bool.and_eq_true] at h ⊢
  unfold State.setByte
  split
  · exact ⟨⟨cellsWf_cellPut _ _ _ h.1.1, h.1.2⟩, h.2⟩
  · exact ⟨⟨h.1.1, cellsWf_cellPut _ _ _ h.1.2⟩, h.2⟩

theorem wf_setBytes (s : State) (pa : Nat) (bs : List Byte) (h : Memory.wf s = true) :
    Memory.wf (s.setBytes pa bs) = true := by
  induction bs generalizing s pa with
  | nil => exact h
  | cons b bs ih => exact ih _ _ (wf_setByte s pa b h)

theorem wf_setDouble (s : State) (pa : Nat) (w : Word) (h : Memory.wf s = true) : Memory.wf (s.setDouble pa w) = true :=
  wf_setBytes s pa _ h

/-- Memory is near, far and the allotments: a change of the rest keeps its canonical form. -/
theorem wf_congr {s s' : State} (hn : s'.near = s.near) (hf : s'.far = s.far) (hg : s'.gangs = s.gangs)
    (h : Memory.wf s = true) : Memory.wf s' = true := by
  simpa only [Memory.wf, hn, hf, hg] using h

/-- What a write to memory leaves alone: every field but near and far. -/
theorem setBytes_eq (s : State) (pa : Nat) (bs : List Byte) :
    s.setBytes pa bs = { s with near := (s.setBytes pa bs).near, far := (s.setBytes pa bs).far } := by
  induction bs generalizing s pa with
  | nil => rfl
  | cons b bs ih =>
    rw [State.setBytes, ih]
    unfold State.setByte
    split <;> rfl

/-! ### Scratchpads -/

theorem Gang.byteAt_setBytes (g : Gang) (off a : Nat) (bs : List Byte) :
    (g.setBytes off bs).byteAt a = if h : off ≤ a ∧ a < off + bs.length then bs[a - off]'(by omega) else g.byteAt a := by
  induction bs generalizing g off with
  | nil => simp [Gang.setBytes, show ¬ (off ≤ a ∧ a < off) by omega]
  | cons b bs ih =>
    rw [Gang.setBytes, ih]
    simp only [List.length_cons]
    by_cases h : off + 1 ≤ a ∧ a < off + 1 + bs.length
    · rw [dif_pos h, dif_pos ⟨by omega, by omega⟩, List.getElem_cons, dif_neg (by omega)]
      congr 1
    · rw [dif_neg h]
      have hb := cellGet_cellPut g.bytes off a b
      unfold cellGet at hb
      simp only [Gang.byteAt, hb]
      by_cases e : a = off
      · subst e; simp
      · rw [if_neg e, dif_neg (by omega)]

theorem cellsWf_gang_setBytes (g : Gang) (off : Nat) (bs : List Byte) (h : cellsWf g.bytes = true) :
    cellsWf (g.setBytes off bs).bytes = true := by
  induction bs generalizing g off with
  | nil => exact h
  | cons b bs ih => exact ih _ _ (cellsWf_cellPut _ _ _ h)

theorem wf_putGang (s : State) (n : Nat) (g : Gang) (h : Memory.wf s = true) (hg : cellsWf g.bytes = true) :
    Memory.wf (s.putGang n g) = true := by
  simp only [Memory.wf, Bool.and_eq_true] at h ⊢
  exact ⟨h.1, all_put s.gangs n g h.2 hg⟩

theorem mem_of_get? {α : Type} {m : List (Nat × α)} {k : Nat} {a : α} (h : Map.get? m k = some a) : (k, a) ∈ m := by
  induction m with
  | nil => simp at h
  | cons p m ih =>
    obtain ⟨j, b⟩ := p
    simp only [Map.get?] at h
    split at h
    · rename_i e; subst e; cases h; exact List.mem_cons_self ..
    · exact List.mem_cons_of_mem _ (ih h)

/-- The allotment of a gang that is there is in canonical form. -/
theorem cellsWf_of_gang? {s : State} {n : Nat} {g : Gang} (h : Memory.wf s = true) (hg : s.gang? n = some g) :
    cellsWf g.bytes = true := by
  simp only [Memory.wf, Bool.and_eq_true] at h
  exact List.all_eq_true.mp h.2 _ (mem_of_get? hg)

theorem wf_padPut (s : State) (gang off : Nat) (bs : List Byte) (h : Memory.wf s = true) :
    Memory.wf (s.padPut gang off bs) = true := by
  unfold State.padPut
  split
  · rename_i g hg
    exact wf_putGang s gang _ h (cellsWf_gang_setBytes g off bs (cellsWf_of_gang? h hg))
  · exact h

/-- A scratchpad write leaves near and far memory alone. -/
theorem byteAt_padPut (s : State) (gang off a : Nat) (bs : List Byte) : (s.padPut gang off bs).byteAt a = s.byteAt a := by
  unfold State.padPut
  split <;> rfl

end Sys2Proof.Machine
end

