-- ==== Sys2Proof/Laws/Ops.lean ====
section
/-!
SUPPORT. The shared operations a meaning is made of: the executing thread, a write to an x register, an instruction that
only changes its thread, and the runner of those that can trap or wait.
-/
namespace Sys2Proof.Machine

/-! ### Threads of a state -/

@[simp] theorem State.thread?_putThread (s : State) (t : Thread) : (s.putThread t).thread? t.key = some t :=
  Map.get?_put_self ..

theorem State.thread?_putThread_other (s : State) (t : Thread) {k : Nat} (h : k ≠ t.key) :
    (s.putThread t).thread? k = s.thread? k :=
  Map.get?_put_other _ _ h

theorem State.putThread_putThread (s : State) (t u : Thread) (h : u.key = t.key) :
    (s.putThread t).putThread u = s.putThread u := by
  simp [State.putThread, h]

theorem State.onThread_putThread (s : State) (t : Thread) (f : Thread → Thread) (h : (f t).key = t.key) :
    (s.putThread t).onThread t.key f = s.putThread (f t) := by
  simp [State.onThread, State.putThread, State.thread?, h]

theorem curThread_of_executing {s : State} {t : Thread} (h : Executing s t) : s.curThread = some t := by
  simp [State.curThread, h.1, h.2]

/-! ### Keys -/

@[simp] theorem key_setX (t : Thread) (d : XReg) (v : Word) : (t.setX d v).key = t.key := by simp [Thread.key]
@[simp] theorem key_resumed (t : Thread) : t.resumed.key = t.key := by simp [Thread.key]
@[simp] theorem key_completed (t : Thread) : t.completed.key = t.key := by simp [Thread.key]
@[simp] theorem key_jumped (t : Thread) (p : Word) : (t.jumped p).key = t.key := by simp [Thread.key]
@[simp] theorem key_addFlags (t : Thread) (f : Flags) : (t.addFlags f).key = t.key := rfl

/-! ### x registers -/

theorem getX_setX (t : Thread) (d : XReg) (v : Word) (r : XReg) :
    (t.setX d v).getX r = if r = d ∧ r ≠ 0 then v else t.getX r := by
  by_cases hr : r = 0
  · simp [Thread.getX, hr]
  · by_cases hd : d = 0
    · rw [Thread.setX, if_pos hd, if_neg (fun h => hr (h.1.trans hd))]
    · rw [Thread.setX, if_neg hd, Thread.getX, Thread.getX, if_neg hr, if_neg hr]
      by_cases e : r = d
      · subst e; rw [if_pos ⟨rfl, hr⟩]; exact Vector.getElem_set_self ..
      · have hn : d.toNat ≠ r.toNat := fun x => e (BitVec.eq_of_toNat_eq x.symm)
        rw [if_neg (fun h => e h.1)]; exact Vector.getElem_set_ne d.isLt r.isLt hn

theorem setX_writes (t : Thread) (d : XReg) (v : Word) : Writes t (t.setX d v) d v :=
  ⟨getX_setX t d v, Thread.setX_eq t d v⟩

/-- A write to x0 is discarded. -/
@[simp] theorem setX_zero (t : Thread) (v : Word) : t.setX 0 v = t := by simp [Thread.setX]

/-! ### Runners -/

theorem simple_eq {s : State} {t : Thread} (h : Executing s t) (f : Thread → Thread) :
    simple s f = .next (s.putThread (f t).completed) := by
  simp [simple, curThread_of_executing h]

/-- An instruction that only writes an x register yields its value. -/
theorem yields_of_simple {s : State} {t : Thread} (h : Executing s t) {i : Instr} {d : XReg} (v : Thread → Word)
    (hi : exec i s = simple s fun t => t.setX d (v t)) : Yields s t i d (v t) :=
  ⟨_, setX_writes t d _, by rw [hi, simple_eq h]⟩

/-- A meaning that completes with its thread's last change put. -/
theorem runThread_put {s s' : State} {t u : Thread} (h : Executing s t) {i : Instr} {body : Thread → M Ending}
    (hu : u.key = t.key) (hb : body t s = .ok (.seq, s'.putThread u)) :
    runThread i s body = .next (s'.putThread u.completed) := by
  simp only [runThread, curThread_of_executing h, hb, settleRun]
  rw [← hu, State.onThread_putThread _ _ _ (key_completed u)]

/-- A meaning that transfers with its thread's last change put. -/
theorem runThread_jump {s s' : State} {t u : Thread} (h : Executing s t) {i : Instr} {body : Thread → M Ending}
    {target : Word} (hu : u.key = t.key) (hb : body t s = .ok (.jump target, s'.putThread u)) :
    runThread i s body = .next (s'.putThread (u.jumped target)) := by
  simp only [runThread, curThread_of_executing h, hb, settleRun]
  rw [← hu, State.onThread_putThread _ _ (fun v => v.jumped target) (key_jumped u target)]

/-- A meaning that completes and leaves its own thread as it stands. -/
theorem runThread_seq {s s' : State} {t : Thread} (h : Executing s t) {i : Instr} {body : Thread → M Ending}
    (hb : body t s = .ok (.seq, s')) : runThread i s body = .next (s'.onThread t.key Thread.completed) := by
  simp [runThread, curThread_of_executing h, hb, settleRun]

/-- A meaning that has placed its thread itself. -/
theorem runThread_stay {s s' : State} {t : Thread} (h : Executing s t) {i : Instr} {body : Thread → M Ending}
    (hb : body t s = .ok (.stay, s')) : runThread i s body = .next s' := by
  simp [runThread, curThread_of_executing h, hb, settleRun]

/-- A meaning that traps. -/
theorem runThread_trap {s s' : State} {t : Thread} (h : Executing s t) {i : Instr} {body : Thread → M Ending}
    {c : BitVec 8} {v : Word} {e : Option Nat} (hb : body t s = .error (.trap s' c v e)) :
    runThread i s body = .next (s'.raiseHere t.key c v t.pc e) := by
  simp [runThread, curThread_of_executing h, hb, settleRun]

/-- A meaning that waits. -/
theorem runThread_wait {s s' : State} {t : Thread} (h : Executing s t) {i : Instr} {body : Thread → M Ending}
    {r : Reason} {l : Nat} {a : Asked} (hb : body t s = .error (.wait s' r l a)) :
    runThread i s body = .next (s'.startWait t.key i r l a) := by
  simp [runThread, curThread_of_executing h, hb, settleRun]

/-- What a meaning run in a thread can answer: always a next state, and one of these. -/
theorem runThread_next {s : State} {t : Thread} (h : Executing s t) (i : Instr) (body : Thread → M Ending) :
    ∃ s', runThread i s body = .next s' := by
  simp only [runThread, curThread_of_executing h]
  match body t s with
  | .ok (.seq, _) => exact ⟨_, rfl⟩
  | .ok (.jump _, _) => exact ⟨_, rfl⟩
  | .ok (.stay, _) => exact ⟨_, rfl⟩
  | .error (.trap ..) => exact ⟨_, rfl⟩
  | .error (.wait ..) => exact ⟨_, rfl⟩

/-! ### Order and boundaries -/

/-- Where no release stands before an access it follows, an observer waits for nothing. -/
theorem State.observe_of_orders_nil {s : State} (h : s.orders = []) (key part : Nat) (acq : Option Scope) (a n : Nat) :
    s.observe key part acq a n = s := by
  unfold State.observe; split <;> simp [State.observeIn, h]

/-- A read that is no acquire follows no release. -/
@[simp] theorem State.observe_none (s : State) (key part a n : Nat) : s.observe key part none a n = s := rfl

/-- A thread whose segment registers nobody has loaded is as it stands at its boundary. -/
theorem Thread.boundary_of_nil {t : Thread} (h : t.segNext = []) : t.boundary = t := by
  simp only [Thread.boundary, h, List.foldr_nil]
  rw [← h]

/-- What a release adds are orders of what its thread has sent: nothing else of the machine changes. -/
theorem State.release_eq (s : State) (key part : Nat) (sc : Option Scope) (mark a n : Nat) :
    s.release key part sc mark a n = { s with orders := (s.release key part sc mark a n).orders } := by
  unfold State.release; split
  · split <;> rfl
  · rfl

/-! ### The program form -/

@[simp] theorem bind_apply {α β : Type} (m : M α) (f : α → M β) (s : State) :
    (m >>= f) s = match m s with
      | .ok (a, s') => f a s'
      | .error e => .error e := by
  show StateT.bind m f s = _
  unfold StateT.bind
  cases m s <;> rfl

@[simp] theorem map_apply {α β : Type} (f : α → β) (m : M α) (s : State) :
    (f <$> m) s = match m s with
      | .ok (a, s') => .ok (f a, s')
      | .error e => .error e := by
  show StateT.map f m s = _
  unfold StateT.map
  cases m s <;> rfl

@[simp] theorem pure_apply {α : Type} (a : α) (s : State) : (pure a : M α) s = .ok (a, s) := rfl
@[simp] theorem get_apply (s : State) : (get : M State) s = .ok (s, s) := rfl
@[simp] theorem set_apply (s' s : State) : (set s' : M PUnit) s = .ok (⟨⟩, s') := rfl
@[simp] theorem modify_apply (f : State → State) (s : State) : (modify f : M PUnit) s = .ok (⟨⟩, f s) := rfl
@[simp] theorem putM_apply (t : Thread) (s : State) : putM t s = .ok ((), s.putThread t) := rfl
@[simp] theorem trapM_apply {α : Type} (c : BitVec 8) (v : Word) (s : State) :
    (trapM c v : M α) s = .error (.trap s c v none) := rfl
@[simp] theorem trapElem_apply {α : Type} (c : BitVec 8) (v : Word) (e : Option Nat) (s : State) :
    (trapElem c v e : M α) s = .error (.trap s c v e) := rfl
@[simp] theorem waitM_apply {α : Type} (r : Reason) (l : Nat) (a : Asked) (s : State) :
    (waitM r l a : M α) s = .error (.wait s r l a) := rfl
@[simp] theorem untilSeq_true : untilSeq true = pure () := rfl
@[simp] theorem untilSeq_false : untilSeq false = waitM .sequencer := rfl
theorem nowM_putThread (t u : Thread) (s : State) (h : u.key = t.key) :
    nowM t (s.putThread u) = .ok (u, s.putThread u) := by
  simp [nowM, ← h]

end Sys2Proof.Machine
end

