-- ==== Sys2Proof/Tests/Slice0.lean ====
section
/-!
SUPPORT. Tests: what is not well formed is refused; words written out field by field from the encodings of the spec read as
the instruction they stand for; results the spec works out; and for every statement with hypotheses a state that meets
them.
-/
namespace Sys2Proof.Tests

open Sys2Proof.Machine

set_option Elab.async false

/-! ### Well-formedness: one ill-formed term for each check -/

/-- A length clause. -/
def len1 : VLen := ⟨1, 0⟩
/-- A vector source without chain. -/
def vs (r : VReg) : VSrc := ⟨r, false⟩
/-- A vector source with its chain bit. -/
def vc (r : VReg) : VSrc := ⟨r, true⟩
/-- A memory operand. -/
def ma (g : GReg) (x : XReg) (d : BitVec 16) : MAddr := ⟨g, x, d⟩
/-- Operands of an atomic. -/
def am (t : Ty) (o : Order) (s : Scope) : Amo := ⟨1, t, ma 1 2 0, 3, o, s⟩

/-- Terms that no check lets pass: none of them is well formed. -/
def none_wf (l : List Instr) : Bool := l.all fun i => !i.wf

/-- R114: a field beyond bit 63. R104: an offset of zero or less. R91: `halt` with A 0. R148: counts of 0 and 17. -/
theorem test_wf_scalar : none_wf [.bfx 1 2 32 32, .bfxN 1 2 63 1, .bfi 1 2 1 63, .loop 1 0, .loopi 1 (-2), .haltX 0,
    .vloop 1 2 3 0, .vloop 1 2 3 17] = true := by decide

/-- R116 to R121: types, `.rsr` outside a narrowing conversion, SAT outside a narrowing to a float, equal types, two integer
types. -/
theorem test_wf_float : none_wf [.fadd 1 2 3 .i32 .rne, .fsub 1 2 3 .f32 .rsr, .fmul 1 2 3 .fp8e4 .rne, .fdiv 1 2 3 .n8 .rne,
    .fsqrt 1 2 .f64 .rsr, .ffma 1 2 3 4 .i64 .rne, .fmin 1 2 3 .i8, .fmax 1 2 3 .ds8, .fclass 1 2 .fp4,
    .fcmp .eq 1 2 3 .i32, .fcvt 1 2 .f32 .f32 false .rne, .fcvt 1 2 .i32 .n32 false .rne, .fcvt 1 2 .fp8e4 .f32 false .rne,
    .fcvt 1 2 .f64 .f32 true .rne, .fcvt 1 2 .f64 .f32 false .rsr, .fcvt 1 2 .i32 .f32 true .rne] = true := by decide

/-- R250, R254: fp4 for scalars; 64-bit types and fp4 for vectors. R283: an empty fence. R285 to R287: types, ORDER 0 with a
scope. R292: scopes of `icinv`. -/
theorem test_wf_memory : none_wf [.ld 1 .fp4 (ma 1 2 0), .st 1 .fp4 (ma 1 2 0), .ldacq 1 .fp4 (ma 1 2 0) .bench,
    .strel 1 .fp4 (ma 1 2 0) .bench, .vld 1 .i64 (ma 1 2 0) len1, .vlds 1 .fp4 (ma 1 2 0) 3 len1,
    .vldx 1 .f64 (ma 1 2 0) 3 len1, .vldff 1 .n64 (ma 1 2 0) len1, .vst 1 .fp4 (ma 1 2 0) len1,
    .vsts 1 .i64 (ma 1 2 0) 3 len1, .vstx 1 .i64 (ma 1 2 0) 3 len1, .fence .thread false false false false,
    .amoAdd (am .f32 .acq .die), .amoAnd (am .i8 .acq .die), .amoOr (am .f64 .acq .die), .amoXor (am .n16 .acq .die),
    .amoMin (am .n32 .acq .die), .amoMax (am .n64 .acq .die), .amoMinN (am .i32 .acq .die), .amoMaxN (am .i64 .acq .die),
    .amoSwap (am .f32 .acq .die), .amoFadd (am .i32 .acq .die), .amoAdd (am .i32 .relaxed .core), .cas (am .i8 .acq .die),
    .cas (am .i32 .relaxed .core), .vamo .add 1 .i64 1 2 0 3 len1, .vamo .fadd 1 .f64 1 2 0 3 len1,
    .icinv .thread 1 2 3, .icinv .system 1 2 3] = true := by decide

/-- R301: entry registers that are 0 or no multiple of 4. -/
theorem test_wf_sprue : none_wf [.qpush 1 2 0, .qpushTry 1 2 6, .qtake 0 1 2, .qtakeTry 5 1 2] = true := by decide

/-- R151 to R160: types, SAT with a float, a rounding code with an integer, `.un` with an integer, `.rsr`. -/
theorem test_wf_vector : none_wf [.vadd ⟨1, vs 2, .vec (vs 3), .i64, false, .rne, len1⟩,
    .vsub ⟨1, vs 2, .vec (vs 3), .f32, true, .rne, len1⟩, .vmul ⟨1, vs 2, .vec (vs 3), .i32, false, .rtz, len1⟩,
    .vadd ⟨1, vs 2, .vec (vs 3), .f16, false, .rsr, len1⟩, .vmin ⟨1, vs 2, .vec (vs 3), .fp8e4, len1⟩,
    .vmax ⟨1, vs 2, .scal 3, .ds8, len1⟩, .vabs ⟨1, vs 2, .f32, true, len1⟩, .vneg ⟨1, vs 2, .n64, false, len1⟩,
    .vand ⟨1, vs 2, .vec (vs 3), .i64, len1⟩, .vor ⟨1, vs 2, .vec (vs 3), .fp4, len1⟩, .vxor ⟨1, vs 2, .vec (vs 3), .f64, len1⟩,
    .vshl ⟨1, vs 2, .vec (vs 3), .f32, len1⟩, .vshr ⟨1, vs 2, .vec (vs 3), .bf16, len1⟩,
    .vsra ⟨1, vs 2, .vec (vs 3), .fp8e5, len1⟩, .vmad ⟨1, vs 2, .vec (vs 3), vs 4, .fp8e4, false, .rne, len1⟩,
    .vmsb ⟨1, vs 2, .vec (vs 3), vs 4, .bf16, true, .rne, len1⟩, .vcmp 1 .un (vs 2) (.vec (vs 3)) .i32 len1,
    .vcmp 1 .eq (vs 2) (.vec (vs 3)) .fp8e4 len1, .vsel 1 (vs 2) (vs 3) 1 .i64 len1, .vmov 1 (vs 2) .fp4 len1,
    .vbcast 1 2 .f64 len1, .vext 1 (vs 2) 3 .n64 len1, .vins 1 2 3 .i64 len1, .viota 1 .f32 len1,
    .vred .add 1 (vs 2) .f32 true .rne len1, .vred .min 1 (vs 2) .f32 false .rtz len1, .vred .and 1 (vs 2) .f32 false .rne len1,
    .vscan .or 1 (vs 2) .i32 false .rup len1, .vscan .add 1 (vs 2) .i64 false .rne len1, .vperm 1 2 3 .fp4 len1,
    .vslideDown 1 2 3 .i64 len1, .vslideUp 1 2 3 .fp4 len1, .vcompress 1 2 .f64 len1, .vexpand 1 2 .i64 len1,
    .vzip true 1 2 3 .fp4 len1, .vunzip false 1 2 3 .n64 len1] = true := by decide

/-- R163 to R172: equal types, SAT or a rounding code where a conversion takes none, `.rsr` where it does not narrow, a size
or a part that does not fit, ds8 with a mode, equal destinations, stages beyond the vector, a chained crossing stage. -/
theorem test_wf_conversion : none_wf [.vcvt ⟨1, vs 2, .f32, .f32, 0, false, .rne, len1⟩,
    .vcvt ⟨1, vs 2, .f64, .f32, 0, false, .rne, len1⟩, .vcvt ⟨1, vs 2, .f32, .f16, 0, false, .rtz, len1⟩,
    .vcvt ⟨1, vs 2, .i32, .f32, 0, true, .rne, len1⟩, .vcvt ⟨1, vs 2, .ds8, .f32, 0, false, .rtz, len1⟩,
    .vcvt ⟨1, vs 2, .f16, .f32, 1, false, .rne, len1⟩, .vpack ⟨1, vs 2, .f32, .f16, 0, false, .rne, len1⟩,
    .vpack ⟨1, vs 2, .f16, .f32, 2, false, .rne, len1⟩, .vunpack ⟨1, vs 2, .f16, .f32, 0, false, .rne, len1⟩,
    .vunpack ⟨1, vs 2, .f32, .f16, 2, false, .rne, len1⟩, .vamax ⟨1, vs 2, .i32, len1⟩,
    .vquant 1 2 (vs 3) .f16 .f32 0 .rne len1, .vquant 1 2 (vs 3) .fp8e4 .i32 0 .rne len1,
    .vquant 1 2 (vs 3) .fp8e4 .f32 4 .rne len1, .vquant 1 2 (vs 3) .ds8 .f32 0 .rtz len1,
    .vquant 2 2 (vs 3) .fp8e4 .f32 0 .rne len1, .vdequant 1 (vs 2) (vs 3) .i32 .fp8e4 0 .rne len1,
    .vdequant 1 (vs 2) (vs 3) .f32 .f16 0 .rne len1, .vdequant 1 (vs 2) (vs 3) .f32 .fp8e4 4 .rne len1,
    .vdequant 1 (vs 2) (vs 3) .f32 .fp8e4 0 .rsr len1, .vhad 1 (vs 2) .i32 0 .rne len1, .vhad 1 (vs 2) .f32 7 .rne len1,
    .vhad 1 (vs 2) .f32 0 .rsr len1, .vhad 1 (vc 2) .f32 5 .rne len1, .vhadPass 1 (vs 2) .i32 0 .rne len1,
    .vhadPass 1 (vs 2) .f32 7 .rne len1, .vhadPass 1 (vs 2) .f32 0 .rsr len1, .vhadPass 1 (vc 2) .f32 5 .rne len1,
    .vsfuRcp ⟨1, vs 2, .i32, len1⟩, .vsfuRsq ⟨1, vs 2, .f64, len1⟩, .vsfuSqrt ⟨1, vs 2, .i8, len1⟩,
    .vsfuExp2 ⟨1, vs 2, .fp8e4, len1⟩, .vsfuLog2 ⟨1, vs 2, .n16, len1⟩, .vsfuSin ⟨1, vs 2, .i32, len1⟩,
    .vsfuCos ⟨1, vs 2, .i32, len1⟩, .vsfuTanh ⟨1, vs 2, .i32, len1⟩, .vsfuSigmoid ⟨1, vs 2, .i32, len1⟩,
    .vsfuGelu ⟨1, vs 2, .i32, len1⟩, .vsfuSilu ⟨1, vs 2, .i32, len1⟩] = true := by decide

/-- R178, R186: odd pairs, types, `.rsr`, SAT and rounding codes with f32 and i32. R215 to R225: odd pairs and types. R334:
odd pairs. -/
theorem test_wf_engines : none_wf [.mma 1 2 false (.pad 3) (.reg 1), .mma 1 2 false (.reg 1) (.pad 0), .mrow 1 .i8 2 3 false .rne,
    .mrow 1 .f16 2 3 false .rsr, .mrow 1 .f32 2 3 true .rne, .mrow 1 .i32 2 3 false .rtz, .mwrow 1 .f64 2 3,
    .mload 1 2 4 3 .n32, .mload 1 2 5 3 .f32, .mcopy 1 2 4 3 .i8 false .rne, .mcopy 1 2 5 3 .f32 false .rne,
    .mcopy 1 2 4 3 .f16 false .rsr, .mcopy 1 2 4 3 .f32 true .rne, .dcopy 1 3 4 5, .dcopym 1 2 4 5 6, .dcopym 2 3 4 5 6,
    .dcopym 2 4 4 5 7, .dred .add .i8 1 2 3 4, .dstream .f64 1 2 3 4 5, .wget .fp4 1 2 3, .tkcommit 1 2 3 5 4,
    .tkcommitTry 1 2 3 0 4] = true := by decide

/-! ### Decoding: words written field by field (R31, R43, R44, R45) -/

/-- A head: MAJ, TL and the field A. -/
def hd (maj tl a : Nat) : BitVec 16 := BitVec.ofNat 16 (maj * 2 ^ 9 + tl * 2 ^ 7 + a)
/-- Tail of format SR. -/
def tSR (s1 s2 f : Nat) : Nat := s1 * 2 ^ 10 + s2 * 2 ^ 4 + f
/-- Tail of formats SI and B. -/
def tSI (s f imm : Nat) : Nat := s * 2 ^ 26 + f * 2 ^ 22 + imm
/-- Tail of format X. -/
def tX (p q u w f e : Nat) : Nat := p * 2 ^ 26 + q * 2 ^ 20 + u * 2 ^ 14 + w * 2 ^ 8 + f * 2 ^ 4 + e
/-- Tail of format V: VA, CA, VB, CB, VC, CC, XL, KG, T, F, AUX. -/
def tV (va ca vb cb vc cc xl kg t f aux : Nat) : Nat :=
  va * 2 ^ 44 + ca * 2 ^ 43 + vb * 2 ^ 39 + cb * 2 ^ 38 + vc * 2 ^ 34 + cc * 2 ^ 33 + xl * 2 ^ 27 + kg * 2 ^ 24 + t * 2 ^ 20
    + f * 2 ^ 16 + aux
/-- Tail of format M: G, XB, XI, XL, KG, T, F, DISP. -/
def tM (g xb xi xl kg t f disp : Nat) : Nat :=
  g * 2 ^ 45 + xb * 2 ^ 39 + xi * 2 ^ 33 + xl * 2 ^ 27 + kg * 2 ^ 24 + t * 2 ^ 20 + f * 2 ^ 16 + disp

/-- Every head and tail of the list reads as the instruction beside it. -/
def reads (l : List (BitVec 16 × Nat × Instr)) : Bool :=
  l.all fun w => (decode w.1 (BitVec.ofNat 48 w.2.1)).toOption == some w.2.2

/-- No head and tail of the list reads as an instruction. -/
def rejects (l : List (BitVec 16 × Nat)) : Bool := l.all fun w => (decode w.1 (BitVec.ofNat 48 w.2)).toOption.isNone

/-- R109, R110: MAJ 0x01 to 0x04. -/
theorem test_decode_alu : reads [
    (hd 1 3 3, 4, .li 3 4), (hd 1 3 (64 + 3), 0xFFFFFFFFFFFE, .liN 3 0xFFFFFFFFFFFE),
    (hd 2 1 6, tSR 6 5 0, .add 6 6 5), (hd 2 1 1, tSR 2 3 1, .sub 1 2 3), (hd 2 1 1, tSR 2 3 2, .and 1 2 3),
    (hd 2 1 1, tSR 2 3 3, .or 1 2 3), (hd 2 1 1, tSR 2 3 4, .xor 1 2 3), (hd 2 1 1, tSR 2 3 5, .shl 1 2 3),
    (hd 2 1 1, tSR 2 3 6, .shr 1 2 3), (hd 2 1 1, tSR 2 3 7, .sra 1 2 3), (hd 2 1 1, tSR 2 3 8, .slt 1 2 3),
    (hd 2 1 65, tSR 2 3 8, .sltN 1 2 3), (hd 2 1 1, tSR 2 3 9, .min 1 2 3), (hd 2 1 65, tSR 2 3 9, .minN 1 2 3),
    (hd 2 1 1, tSR 2 3 10, .max 1 2 3), (hd 2 1 65, tSR 2 3 10, .maxN 1 2 3), (hd 2 1 1, tSR 2 0 11, .mov 1 2),
    (hd 3 1 1, tSR 2 3 0, .mul 1 2 3), (hd 3 1 1, tSR 2 3 1, .mulh 1 2 3), (hd 3 1 65, tSR 2 3 1, .mulhN 1 2 3),
    (hd 3 1 1, tSR 2 3 2, .div 1 2 3), (hd 3 1 65, tSR 2 3 2, .divN 1 2 3), (hd 3 1 1, tSR 2 3 3, .rem 1 2 3),
    (hd 3 1 65, tSR 2 3 3, .remN 1 2 3), (hd 4 1 1, tSR 2 0 0, .clz 1 2), (hd 4 1 1, tSR 2 0 1, .ctz 1 2),
    (hd 4 1 1, tSR 2 0 2, .popc 1 2), (hd 4 1 63, tSR 62 0 3, .brev 63 62)] = true := by decide

/-- R113 to R115: MAJ 0x05 to 0x07. -/
theorem test_decode_fields : reads [
    (hd 5 2 1, tX 2 3 4 0 0 0, .sel 1 2 3 4), (hd 6 2 1, tX 2 8 3 0 0 0, .bfx 1 2 8 3), (hd 6 2 65, tX 2 8 3 0 0 0, .bfxN 1 2 8 3),
    (hd 6 2 1, tX 2 60 3 0 1 0, .bfi 1 2 60 3), (hd 7 2 5, tSI 5 0 1, .addi 5 5 1), (hd 7 2 1, tSI 2 1 0x3FFFFF, .andi 1 2 0x3FFFFF),
    (hd 7 2 1, tSI 2 2 5, .ori 1 2 5), (hd 7 2 1, tSI 2 3 5, .xori 1 2 5), (hd 7 2 1, tSI 2 4 63, .shli 1 2 63),
    (hd 7 2 1, tSI 2 5 1, .shri 1 2 1), (hd 7 2 1, tSI 2 6 1, .srai 1 2 1), (hd 7 2 1, tSI 2 7 9, .slti 1 2 9),
    (hd 7 2 65, tSI 2 7 9, .sltiN 1 2 9)] = true := by decide

/-- R116 to R121: MAJ 0x10 to 0x13. -/
theorem test_decode_float : reads [
    (hd 0x10 2 3, tX 4 5 0 3 0 0xA, .fadd 3 4 5 .f32 .rup), (hd 0x10 2 3, tX 4 5 0 7 1 0xB, .fsub 3 4 5 .f64 .dyn),
    (hd 0x10 2 3, tX 4 5 0 0 2 0x8, .fmul 3 4 5 .f16 .rne), (hd 0x10 2 3, tX 4 5 0 1 3 0x9, .fdiv 3 4 5 .bf16 .rtz),
    (hd 0x10 2 3, tX 4 0 0 2 4 0xA, .fsqrt 3 4 .f32 .rdn), (hd 0x10 2 3, tX 4 5 0 0 5 0xA, .fmin 3 4 5 .f32),
    (hd 0x10 2 3, tX 4 5 0 0 6 0xA, .fmax 3 4 5 .f32), (hd 0x10 2 3, tX 4 0 0 0 7 0xB, .fclass 3 4 .f64),
    (hd 0x11 2 3, tX 4 5 6 4 0 0xA, .ffma 3 4 5 6 .f32 .rna), (hd 0x12 2 3, tX 4 5 0 2 0 0xA, .fcmp .le 3 4 5 .f32),
    (hd 0x13 2 3, tX 4 0xA 0 (8 + 5) 0 0x8, .fcvt 3 4 .f16 .f32 true .rsr)] = true := by decide

/-- R102 to R106, R123: MAJ 0x14 to 0x1C. In format B the head holds S1, the tail S2. -/
theorem test_decode_control : reads [
    (hd 0x14 2 0, tSI 0 0 64, .jmp 64), (hd 0x15 2 1, tSI 0 0 64, .jal 1 64), (hd 0x16 2 1, tSI 2 0 8, .jalr 1 2 8),
    (hd 0x17 2 1, tSI 2 0 0x3FFFFE, .beq 1 2 (-2)), (hd 0x17 2 1, tSI 2 1 4, .bne 1 2 4), (hd 0x18 2 1, tSI 2 0 4, .blt 1 2 4),
    (hd 0x18 2 65, tSI 2 0 4, .bltN 1 2 4), (hd 0x18 2 1, tSI 2 1 4, .bge 1 2 4), (hd 0x18 2 65, tSI 2 1 4, .bgeN 1 2 4),
    (hd 0x19 2 3, tSI 0 0 4, .loop 3 4), (hd 0x1A 3 0, 7 * 2 ^ 22 + 4, .loopi 7 4), (hd 0x1B 0 0, 0, .lbrk),
    (hd 0x1C 2 5, tSI 0 0 0x020, .crrd 5 .frm), (hd 0x1C 2 5, tSI 6 1 0x050, .crwr 5 .tvec 6),
    (hd 0x1C 2 5, tSI 6 2 0x021, .crset 5 .fflags 6), (hd 0x1C 2 5, tSI 6 3 0x031, .crclr 5 .ldepth 6)] = true := by decide

/-- R238 to R255: MAJ 0x20 to 0x25. -/
theorem test_decode_memory : reads [
    (hd 0x20 3 1, tM 2 3 0 0 0 0xA 0 0xFFF8, .ld 1 .f32 (ma 2 3 0xFFF8)), (hd 0x21 3 1, tM 2 3 0 0 0 0 0 8, .st 1 .i8 (ma 2 3 8)),
    (hd 0x22 3 5, tM 2 3 0 9 4 0xA 0 8, .vld 5 .f32 (ma 2 3 8) ⟨9, 4⟩), (hd 0x22 3 5, tM 2 3 7 9 4 1 1 8, .vlds 5 .i16 (ma 2 3 8) 7 ⟨9, 4⟩),
    (hd 0x22 3 5, tM 2 3 7 9 4 2 2 8, .vldx 5 .i32 (ma 2 3 8) 7 ⟨9, 4⟩), (hd 0x22 3 5, tM 2 3 0 9 4 4 3 8, .vldff 5 .n8 (ma 2 3 8) ⟨9, 4⟩),
    (hd 0x23 3 5, tM 2 3 0 9 4 0xA 0 8, .vst 5 .f32 (ma 2 3 8) ⟨9, 4⟩), (hd 0x23 3 5, tM 2 3 7 9 4 1 1 8, .vsts 5 .i16 (ma 2 3 8) 7 ⟨9, 4⟩),
    (hd 0x23 3 5, tM 2 3 7 9 4 2 2 8, .vstx 5 .i32 (ma 2 3 8) 7 ⟨9, 4⟩), (hd 0x24 3 0, tM 2 3 7 0 0 1 0 8, .pref true (ma 2 3 8) 7),
    (hd 0x25 2 1, tX 2 4 3 0 0 0, .segld 1 2 3 4), (hd 0x25 2 1, tX 3 2 9 10 1 0xC, .segnarrow 1 3 2 9 10 0xC),
    (hd 0x25 2 1, tX 3 2 0 0 2 0, .segrd 1 3 2)] = true := by decide

/-- R283 to R292: MAJ 0x28 to 0x2F. XL holds ORDER in bits 5:4 and SCOPE in bits 2:0. -/
theorem test_decode_order : reads [
    (hd 0x28 0 0x43, 0, .fence .partition false false true true), (hd 0x29 3 1, tM 1 11 0 4 0 6 0 0, .ldacq 1 .n32 (ma 1 11 0) .partition),
    (hd 0x29 3 1, tM 1 11 0 4 0 6 1 0, .strel 1 .n32 (ma 1 11 0) .partition), (hd 0x2A 3 1, tM 1 2 3 0x33 0 2 0 0, .amoAdd (am .i32 .ar .die)),
    (hd 0x2A 3 1, tM 1 2 3 0x13 0 3 1 0, .amoAnd (am .i64 .acq .die)), (hd 0x2A 3 1, tM 1 2 3 0x23 0 6 2 0, .amoOr (am .n32 .rel .die)),
    (hd 0x2A 3 1, tM 1 2 3 0 0 7 3 0, .amoXor (am .n64 .relaxed .thread)), (hd 0x2A 3 1, tM 1 2 3 0 0 2 4 0, .amoMin (am .i32 .relaxed .thread)),
    (hd 0x2A 3 1, tM 1 2 3 0 0 2 5 0, .amoMax (am .i32 .relaxed .thread)), (hd 0x2A 3 1, tM 1 2 3 0 0 6 6 0, .amoMinN (am .n32 .relaxed .thread)),
    (hd 0x2A 3 1, tM 1 2 3 0 0 6 7 0, .amoMaxN (am .n32 .relaxed .thread)), (hd 0x2A 3 1, tM 1 2 3 0 0 6 8 0, .amoSwap (am .n32 .relaxed .thread)),
    (hd 0x2A 3 1, tM 1 2 3 0 0 0xA 9 0, .amoFadd (am .f32 .relaxed .thread)), (hd 0x2B 3 1, tM 1 2 3 0x15 0 0xB 0 0, .cas (am .f64 .acq .system)),
    (hd 0x2C 3 1, tM 1 2 3 4 5 2 0 (5 * 2 ^ 12 + 0xFFC), .vamo .max 1 .i32 1 2 0xFFC 3 ⟨4, 5⟩), (hd 0x2D 2 1, tX 2 3 0 0 0 0, .objdecl 1 2 3),
    (hd 0x2D 2 1, tX 2 0 0 0 1 0, .objdrop 1 2), (hd 0x2D 2 1, tX 2 3 4 0 2 0, .track 1 2 3 4), (hd 0x2E 2 0, tX 2 3 4 0 0 0, .wb 2 3 4),
    (hd 0x2E 2 0, tX 2 3 4 0 1 0, .inv 2 3 4), (hd 0x2E 2 0, tX 2 3 4 0 2 0, .wbinv 2 3 4), (hd 0x2E 2 0, tX 0 0 0 0 0 1, .wbAll),
    (hd 0x2E 2 0, tX 0 0 0 0 1 1, .invAll), (hd 0x2E 2 0, tX 0 0 0 0 2 1, .wbinvAll), (hd 0x2E 2 0, tX 2 3 4 0 3 3, .icinv .die 2 3 4),
    (hd 0x2F 0 0, 0, .ifence)] = true := by decide

/-- R89 to R101, R136, R351: MAJ 0x30 to 0x37. -/
theorem test_decode_threads : reads [
    (hd 0x30 2 0, tX 2 3 4 1 0 0, .spawn 1 2 3 4), (hd 0x31 2 0, tX 2 0 0 1 0 0, .reap 1 2), (hd 0x31 2 0, tX 2 0 0 1 0 1, .reapTry 1 2),
    (hd 0x32 0 0, 0, .halt), (hd 0x32 0 5, 0, .haltX 5), (hd 0x33 0 0, 0, .yield), (hd 0x34 1 1, tSR 2 0 0, .sleep 1 2),
    (hd 0x35 2 0, tX 2 3 4 1 0 0, .msend 1 2 3 4), (hd 0x35 2 0, tX 2 3 0 1 0 1, .msendTry 1 2 3 0), (hd 0x35 2 0, tX 2 0 4 1 1 0, .mrecv 1 2 4),
    (hd 0x35 2 0, tX 2 0 0 1 1 1, .mrecvTry 1 2 0), (hd 0x36 0 0, 0, .gbar), (hd 0x37 0 0, 0, .slicegive)] = true := by decide

/-- R301, R306, R315, R317, R319: MAJ 0x38 to 0x3D. -/
theorem test_decode_work : reads [
    (hd 0x38 2 1, tX 2 4 0 0 0 0, .qpush 1 2 4), (hd 0x38 2 1, tX 2 4 0 0 0 1, .qpushTry 1 2 4), (hd 0x38 2 4, tX 2 0 0 1 1 0, .qtake 4 1 2),
    (hd 0x38 2 4, tX 2 0 0 1 1 1, .qtakeTry 4 1 2), (hd 0x38 2 1, tX 2 3 0 0 2 0, .qdone 1 2 3), (hd 0x38 2 1, tX 2 0 0 0 3 0, .qstat 1 2),
    (hd 0x39 2 5, tX 2 6 0 0 0 0, .launch 5 2 6), (hd 0x3A 2 1, tX 2 0 3 0 0 0, .cwait 1 2 3), (hd 0x3A 2 1, tX 2 0 0 0 0 1, .cwaitTry 1 2),
    (hd 0x3B 2 1, tX 2 0 0 0 0 0, .cancel 1 2), (hd 0x3C 3 (3 * 8 + 2), tV 1 1 2 0 0 0 9 4 2 0 (5 * 64 + 7), .vwait 3 .ge (vc 1) (vs 2) true 5 7 ⟨9, 4⟩),
    (hd 0x3D 2 1, tX 2 3 4 0 0 0, .phaseOpen 1 2 3 4), (hd 0x3D 2 1, tX 2 3 0 0 0 1, .phaseGraph 1 2 3), (hd 0x3D 2 1, tX 2 0 0 0 0 2, .phaseSeal 1 2)]
    = true := by decide

/-- R141, R148, R151 to R156: MAJ 0x40 to 0x44 and 0x49. AUX holds XR, XS, SAT and RC. -/
theorem test_decode_vector : reads [
    (hd 0x40 2 1, tX 2 0 0 0 0 0, .vclaim 1 2), (hd 0x40 2 1, tX 2 0 0 0 1 0, .vrelease 1 2), (hd 0x41 2 0, tX 11 10 0 1 0 0, .vloop 11 10 0 1),
    (hd 0x42 3 8, tV 2 1 3 0 0 0 9 4 2 0 8, .vadd ⟨1, vc 2, .vec (vs 3), .i32, true, .rne, ⟨9, 4⟩⟩),
    (hd 0x42 3 8, tV 2 0 0 0 0 0 9 4 0xA 1 (7 * 32 + 16 + 1), .vsub ⟨1, vs 2, .scal 7, .f32, false, .rtz, ⟨9, 4⟩⟩),
    (hd 0x42 3 8, tV 2 0 3 1 0 0 9 4 0x8 2 7, .vmul ⟨1, vs 2, .vec (vc 3), .f16, false, .dyn, ⟨9, 4⟩⟩),
    (hd 0x42 3 8, tV 2 0 3 0 0 0 9 4 4 3 0, .vmin ⟨1, vs 2, .vec (vs 3), .n8, ⟨9, 4⟩⟩),
    (hd 0x42 3 8, tV 2 0 3 0 0 0 9 4 4 4 0, .vmax ⟨1, vs 2, .vec (vs 3), .n8, ⟨9, 4⟩⟩),
    (hd 0x42 3 8, tV 2 0 0 0 0 0 9 4 1 5 8, .vabs ⟨1, vs 2, .i16, true, ⟨9, 4⟩⟩), (hd 0x42 3 8, tV 2 0 0 0 0 0 9 4 9 6 0, .vneg ⟨1, vs 2, .bf16, false, ⟨9, 4⟩⟩),
    (hd 0x42 3 8, tV 2 0 3 0 0 0 9 4 0xD 7 0, .vand ⟨1, vs 2, .vec (vs 3), .fp8e5, ⟨9, 4⟩⟩),
    (hd 0x42 3 8, tV 2 0 3 0 0 0 9 4 6 8 0, .vor ⟨1, vs 2, .vec (vs 3), .n32, ⟨9, 4⟩⟩), (hd 0x42 3 8, tV 2 0 3 0 0 0 9 4 6 9 0, .vxor ⟨1, vs 2, .vec (vs 3), .n32, ⟨9, 4⟩⟩),
    (hd 0x42 3 8, tV 2 0 3 0 0 0 9 4 6 10 0, .vshl ⟨1, vs 2, .vec (vs 3), .n32, ⟨9, 4⟩⟩), (hd 0x42 3 8, tV 2 0 3 0 0 0 9 4 6 11 0, .vshr ⟨1, vs 2, .vec (vs 3), .n32, ⟨9, 4⟩⟩),
    (hd 0x42 3 8, tV 2 0 0 0 0 0 9 4 2 12 (5 * 32 + 16), .vsra ⟨1, vs 2, .scal 5, .i32, ⟨9, 4⟩⟩),
    (hd 0x43 3 8, tV 2 0 3 0 4 1 9 4 0xA 0 2, .vmad ⟨1, vs 2, .vec (vs 3), vc 4, .f32, false, .rdn, ⟨9, 4⟩⟩),
    (hd 0x43 3 8, tV 2 0 3 0 4 0 9 4 0 1 8, .vmsb ⟨1, vs 2, .vec (vs 3), vs 4, .i8, true, .rne, ⟨9, 4⟩⟩),
    (hd 0x44 3 (8 + 5), tV 2 0 3 0 0 0 9 4 2 0 0, .vcmp 1 .ge (vs 2) (.vec (vs 3)) .i32 ⟨9, 4⟩),
    (hd 0x49 3 8, tV 2 0 3 0 4 0 9 4 2 0 (8 + 2), .vdot4 1 (vs 2) (vs 3) (vs 4) true false true true ⟨9, 4⟩)] = true := by decide

/-- R157 to R162: MAJ 0x45 to 0x48, 0x4A. -/
theorem test_decode_moves : reads [
    (hd 0x45 3 8, tV 2 0 3 0 0 0 9 4 2 0 6, .vsel 1 (vs 2) (vs 3) 6 .i32 ⟨9, 4⟩), (hd 0x45 3 8, tV 2 1 0 0 0 0 9 4 2 1 0, .vmov 1 (vc 2) .i32 ⟨9, 4⟩),
    (hd 0x45 3 8, tV 0 0 0 0 0 0 9 4 2 2 7, .vbcast 1 7 .i32 ⟨9, 4⟩), (hd 0x45 3 0, tV 2 0 0 0 0 0 9 4 2 3 (8 * 64 + 7), .vext 7 (vs 2) 8 .i32 ⟨9, 4⟩),
    (hd 0x45 3 8, tV 0 0 0 0 0 0 9 4 2 4 (8 * 64 + 7), .vins 1 7 8 .i32 ⟨9, 4⟩), (hd 0x45 3 8, tV 0 0 0 0 0 0 9 4 2 5 0, .viota 1 .i32 ⟨9, 4⟩),
    (hd 0x46 3 (8 + 5), tV 2 0 0 0 0 0 9 4 2 0 0, .vred .xor 1 (vs 2) .i32 false .rne ⟨9, 4⟩),
    (hd 0x47 3 8, tV 2 0 0 0 0 0 9 4 0xA 0 3, .vscan .add 1 (vs 2) .f32 false .rup ⟨9, 4⟩), (hd 0x48 3 8, tV 2 0 3 0 0 0 9 4 2 0 0, .vperm 1 2 3 .i32 ⟨9, 4⟩),
    (hd 0x48 3 8, tV 2 0 0 0 0 0 9 4 2 1 7, .vslideDown 1 2 7 .i32 ⟨9, 4⟩), (hd 0x48 3 9, tV 2 0 0 0 0 0 9 4 2 1 7, .vslideUp 1 2 7 .i32 ⟨9, 4⟩),
    (hd 0x48 3 8, tV 2 0 0 0 0 0 9 4 2 2 0, .vcompress 1 2 .i32 ⟨9, 4⟩), (hd 0x48 3 8, tV 2 0 0 0 0 0 9 4 2 3 0, .vexpand 1 2 .i32 ⟨9, 4⟩),
    (hd 0x48 3 9, tV 2 0 3 0 0 0 9 4 2 4 0, .vzip true 1 2 3 .i32 ⟨9, 4⟩), (hd 0x48 3 8, tV 2 0 3 0 0 0 9 4 2 5 0, .vunzip false 1 2 3 .i32 ⟨9, 4⟩),
    (hd 0x4A 2 1, tX 2 3 0 0 0 0, .kand 1 2 3), (hd 0x4A 2 1, tX 2 3 0 0 1 0, .kor 1 2 3), (hd 0x4A 2 1, tX 2 3 0 0 2 0, .kxor 1 2 3),
    (hd 0x4A 2 1, tX 2 0 0 0 3 0, .knot 1 2), (hd 0x4A 2 1, tX 2 0 0 0 4 0, .kmov 1 2), (hd 0x4A 2 33, tX 2 0 4 0 5 0, .kpop 33 2 4),
    (hd 0x4A 2 33, tX 2 0 4 0 6 0, .kfirst 33 2 4), (hd 0x4A 2 1, tX 0 0 4 0 7 0, .kset 1 4)] = true := by decide

/-- R163 to R172: MAJ 0x58 to 0x5D. AUX holds ST, VS, SAT and RC; QL the part or the stage. -/
theorem test_decode_conversion : reads [
    (hd 0x58 3 8, tV 2 0 0 0 0 0 9 4 8 0 (0xA * 2 ^ 12 + 5), .vcvt ⟨1, vs 2, .f16, .f32, 0, false, .rsr, ⟨9, 4⟩⟩),
    (hd 0x59 3 9, tV 2 0 0 0 0 0 9 4 8 0 (0xA * 2 ^ 12 + 8), .vpack ⟨1, vs 2, .f16, .f32, 1, true, .rne, ⟨9, 4⟩⟩),
    (hd 0x59 3 9, tV 2 0 0 0 0 0 9 4 0xA 1 (8 * 2 ^ 12), .vunpack ⟨1, vs 2, .f32, .f16, 1, false, .rne, ⟨9, 4⟩⟩),
    (hd 0x5A 3 8, tV 2 0 0 0 0 0 9 4 0xA 0 0, .vamax ⟨1, vs 2, .f32, ⟨9, 4⟩⟩),
    (hd 0x5B 3 (8 + 3), tV 2 0 0 0 0 0 9 4 0xC 0 (0xA * 2 ^ 12 + 6 * 2 ^ 8), .vquant 1 6 (vs 2) .fp8e4 .f32 3 .rne ⟨9, 4⟩),
    (hd 0x5B 3 (8 + 3), tV 2 0 3 0 0 0 9 4 0xA 1 (0xE * 2 ^ 12), .vdequant 1 (vs 2) (vs 3) .f32 .fp4 3 .rne ⟨9, 4⟩),
    (hd 0x5C 3 (8 + 4), tV 2 1 0 0 0 0 9 4 0xA 0 0, .vhad 1 (vc 2) .f32 4 .rne ⟨9, 4⟩),
    (hd 0x5C 3 (8 + 4), tV 2 0 0 0 0 0 9 4 0xA 0 8, .vhadPass 1 (vs 2) .f32 4 .rne ⟨9, 4⟩),
    (hd 0x5D 3 8, tV 2 0 0 0 0 0 9 4 0xA 0 0, .vsfuRcp ⟨1, vs 2, .f32, ⟨9, 4⟩⟩), (hd 0x5D 3 8, tV 2 0 0 0 0 0 9 4 0xA 1 0, .vsfuRsq ⟨1, vs 2, .f32, ⟨9, 4⟩⟩),
    (hd 0x5D 3 8, tV 2 0 0 0 0 0 9 4 0xA 2 0, .vsfuSqrt ⟨1, vs 2, .f32, ⟨9, 4⟩⟩), (hd 0x5D 3 8, tV 2 0 0 0 0 0 9 4 0xA 3 0, .vsfuExp2 ⟨1, vs 2, .f32, ⟨9, 4⟩⟩),
    (hd 0x5D 3 8, tV 2 0 0 0 0 0 9 4 0xA 4 0, .vsfuLog2 ⟨1, vs 2, .f32, ⟨9, 4⟩⟩), (hd 0x5D 3 8, tV 2 0 0 0 0 0 9 4 0xA 5 0, .vsfuSin ⟨1, vs 2, .f32, ⟨9, 4⟩⟩),
    (hd 0x5D 3 8, tV 2 0 0 0 0 0 9 4 0xA 6 0, .vsfuCos ⟨1, vs 2, .f32, ⟨9, 4⟩⟩), (hd 0x5D 3 8, tV 2 0 0 0 0 0 9 4 0xA 7 0, .vsfuTanh ⟨1, vs 2, .f32, ⟨9, 4⟩⟩),
    (hd 0x5D 3 8, tV 2 0 0 0 0 0 9 4 0xA 8 0, .vsfuSigmoid ⟨1, vs 2, .f32, ⟨9, 4⟩⟩), (hd 0x5D 3 8, tV 2 0 0 0 0 0 9 4 0xA 9 0, .vsfuGelu ⟨1, vs 2, .f32, ⟨9, 4⟩⟩),
    (hd 0x5D 3 8, tV 2 0 0 0 0 0 9 4 0xA 10 0, .vsfuSilu ⟨1, vs 2, .f32, ⟨9, 4⟩⟩)] = true := by decide

/-- R186: MAJ 0x60 to 0x65. E of `mma` holds SET, BREG, AREG in bits 2:0. -/
theorem test_decode_anvil : reads [
    (hd 0x60 2 1, tX 2 0 0 0 0 0, .mfmt 1 2), (hd 0x60 2 1, tX 2 3 0 0 0 1, .mfmtWin 1 2 3), (hd 0x61 2 1, tX 0 0 3 4 0 0, .mzero 4 1 3),
    (hd 0x62 2 1, tX 2 3 0 4 0 (4 + 2), .mma 4 1 true (.pad 2) (.reg 3)), (hd 0x62 2 1, tX 3 2 0 4 0 1, .mma 4 1 false (.reg 3) (.pad 2)),
    (hd 0x63 2 1, tX 2 0 3 (8 + 1) 0 8, .mrow 1 .f16 2 3 true .rtz), (hd 0x63 2 1, tX 2 0 3 0 1 0xA, .mwrow 1 .f32 2 3),
    (hd 0x64 2 1, tX 2 0 3 4 0 2, .mload 4 1 2 3 .i32), (hd 0x64 2 1, tX 2 8 3 4 1 9, .mcopy 4 1 2 3 .bf16 true .rne),
    (hd 0x65 2 0, tX 2 0 0 0 0 0, .mwait 2), (hd 0x65 2 1, tX 0 0 0 0 1 0, .mstat 1), (hd 0x65 2 1, tX 0 0 0 0 1 1, .mstatClr 1)] = true := by decide

/-- R208, R215, R227, R229: MAJ 0x68 to 0x6D. -/
theorem test_decode_scratch : reads [
    (hd 0x68 2 1, tX 2 3 0 0 0 0, .cbdef 1 2 3), (hd 0x68 2 1, tX 2 0 0 0 1 0, .cbacqW 1 2), (hd 0x68 2 1, tX 2 0 0 0 1 1, .cbacqR 1 2),
    (hd 0x68 2 1, tX 2 0 0 0 1 2, .cbacqWTry 1 2), (hd 0x68 2 1, tX 2 0 0 0 1 3, .cbacqRTry 1 2), (hd 0x68 2 1, tX 2 0 3 0 2 0, .cbrelW 1 2 3),
    (hd 0x68 2 1, tX 2 0 3 0 2 1, .cbrelR 1 2 3), (hd 0x68 2 1, tX 2 0 0 0 3 0, .cbstat 1 2), (hd 0x69 2 1, tX 2 3 4 0 0 0, .dcopy 1 2 3 4),
    (hd 0x69 2 2, tX 4 3 5 6 1 0, .dcopym 2 4 3 5 6), (hd 0x69 2 1, tX 2 3 4 1 2 0xA, .dred .min .f32 1 2 3 4), (hd 0x6A 2 0, tX 2 0 0 0 0 0, .dwait 2),
    (hd 0x6A 2 1, tX 2 0 0 0 1 0, .dtest 1 2), (hd 0x6A 2 1, tX 2 0 0 0 2 0, .dcancel 1 2), (hd 0x6B 2 5, tX 2 3 4 1 0 2, .dstream .i32 5 1 2 3 4),
    (hd 0x6B 2 9, tX 5 0 4 0 1 2, .wget .i32 9 5 4), (hd 0x6C 2 1, tX 2 3 0 0 0 0, .bardef 1 2 3), (hd 0x6C 2 1, tX 2 3 0 0 1 0, .barexp 1 2 3),
    (hd 0x6C 2 1, tX 2 3 0 0 2 0, .bararr 1 2 3), (hd 0x6C 2 0, tX 2 3 0 0 3 0, .barwait 2 3), (hd 0x6D 3 1, tM 2 6 0 0 0 0 0 8, .lde 1 (ma 2 6 8)),
    (hd 0x6D 3 1, tM 2 6 0 0 0 0 1 8, .ldf 1 (ma 2 6 8)), (hd 0x6D 3 1, tM 2 6 0 0 0 0 2 8, .stf 1 (ma 2 6 8))] = true := by decide

/-- R322, R327, R332, R334, R371, R372, R377, R397: MAJ 0x70 to 0x7C. -/
theorem test_decode_screen_seams : reads [
    (hd 0x70 3 8, tV 2 0 3 0 0 0 9 4 0xA 0 0, .boxt 1 2 3 ⟨9, 4⟩), (hd 0x71 3 8, tV 2 0 3 0 0 0 9 4 0xA 0 0, .trit 1 2 3 ⟨9, 4⟩),
    (hd 0x72 3 8, tV 2 0 3 0 0 0 9 4 0xA 0 (5 * 2 ^ 9 + 7 * 8), .tsampGrad 1 2 3 5 7 ⟨9, 4⟩),
    (hd 0x72 3 9, tV 2 0 0 0 0 0 9 4 0xA 0 (5 * 2 ^ 9 + 7 * 8), .tsampLod 1 2 5 7 ⟨9, 4⟩),
    (hd 0x72 3 10, tV 2 0 0 0 0 0 9 4 0xA 0 (5 * 2 ^ 9 + 7 * 8), .tsampBase 1 2 5 7 ⟨9, 4⟩),
    (hd 0x72 3 8, tV 2 0 0 0 0 0 9 4 0xA 1 (5 * 2 ^ 9 + 7 * 8), .tfetch 1 2 5 7 ⟨9, 4⟩),
    (hd 0x73 3 9, tV 2 1 0 0 4 0 9 4 0xA 0 7, .vmm8 true 1 (vc 2) (vs 4) 7 ⟨9, 4⟩), (hd 0x74 2 1, tX 2 3 0 0 0 0, .tkget 1 2 3),
    (hd 0x74 2 1, tX 2 3 0 0 0 1, .tkgetPeek 1 2 3), (hd 0x74 2 5, tX 3 6 8 4 1 0, .tkcommit 5 3 6 8 4), (hd 0x74 2 5, tX 3 6 8 4 1 1, .tkcommitTry 5 3 6 8 4),
    (hd 0x74 2 5, tX 3 6 8 0 2 0, .tkretire 5 3 6 8), (hd 0x78 0 127, 0, .trap 127), (hd 0x79 0 0, 0, .tret), (hd 0x79 0 1, 0, .tretNext),
    (hd 0x7A 2 0, tSI 0 0 255, .seam 255), (hd 0x7B 0 0, 0, .seamret), (hd 0x7C 2 0, tX 0 0 0 0 0 15, .brk 15),
    (hd 0x7C 2 0, tX 5 17 0 0 1 0, .pmark 5 17), (hd 0x7C 2 0, tX 5 17 0 0 1 1, .pmarkE 5 17), (hd 0x7C 2 8, tX 9 0 0 0 2 0, .cntrd 8 9)] = true := by decide

/-- R40, R43, R49: a reserved major, a tail length its major does not take, a reserved minor, a reserved type, N where there is
no natural variant, and a set bit of a field that must be zero, of each format. -/
theorem test_decode_refused : rejects [
    (hd 0 1 0, 0), (hd 0x7F 0 0, 0), (hd 0x1F 2 0, 0), (hd 2 2 1, tSR 2 3 0), (hd 2 1 1, tSR 2 3 12), (hd 2 1 65, tSR 2 3 0), (hd 2 1 1, tSR 2 3 11),
    (hd 7 2 1, tSI 2 8 0), (hd 7 2 1, tSI 2 4 64), (hd 7 2 65, tSI 2 0 1), (hd 5 2 1, tX 2 3 4 1 0 0), (hd 5 2 1, tX 2 3 4 0 1 0),
    (hd 0x10 2 3, tX 4 5 0 6 0 0xA), (hd 0x10 2 3, tX 4 5 0 0 0 2), (hd 0x1C 2 5, tSI 0 0 0x062), (hd 0x1A 3 1, 4), (hd 0x1B 0 1, 0),
    (hd 0x20 3 65, tM 2 3 0 0 0 2 0 8), (hd 0x20 3 1, tM 2 3 1 0 0 2 0 8), (hd 0x22 3 17, tM 2 3 0 9 4 2 0 8), (hd 0x28 0 0x60, 0), (hd 0x28 0 0, 0),
    (hd 0x30 2 1, tX 2 3 4 1 0 0), (hd 0x37 0 1, 0), (hd 0x42 3 9, tV 2 0 3 0 0 0 9 4 2 0 0), (hd 0x42 3 8, tV 2 0 3 0 1 0 9 4 2 0 0),
    (hd 0x42 3 8, tV 2 0 3 0 0 0 9 4 2 13 0), (hd 0x44 3 (64 + 8), tV 2 0 3 0 0 0 9 4 2 0 0), (hd 0x48 3 8, tV 2 1 3 0 0 0 9 4 2 0 0),
    (hd 0x62 2 1, tX 2 3 0 4 0 8), (hd 0x6B 2 9, tX 8 0 4 0 1 2), (hd 0x70 3 8, tV 2 0 3 0 0 0 9 4 2 0 0), (hd 0x79 0 2, 0),
    (hd 0x7A 2 0, tSI 0 0 256), (hd 0x7C 2 0, tX 1 0 0 0 0 15)] = true := by decide

/-! ### Results the spec works out -/

/-- A thread of a placed context with the x registers listed, the rest zero. -/
def th (xs : List (Nat × Word)) : Thread :=
  { Thread.placed with x := Vector.ofFn fun i : Fin 64 => (Map.get? xs i.val).getD 0 }

/-- A machine that executes an instruction of `t`. -/
def small (t : Thread) : State := { State.reset with cur := some t.key, threads := [(t.key, t)] }

/-- What a step of the meaning leaves of thread 0. -/
def after {α : Type} (f : Thread → α) (i : Instr) (s : State) : Option α :=
  match exec i s with
  | .next s' => (s'.thread? 0).map f
  | _ => none

/-- x register `d` after `i`, from a thread with x2 and x3 as given. -/
def x1 (i : Instr) (a b : Word) : Option Word := after (·.getX 1) i (small (th [(2, a), (3, b)]))

/-- R115, the worked set. -/
theorem test_integer_results :
    x1 (.div 1 2 3) 7 (-2) = some (-3) ∧ x1 (.rem 1 2 3) (-7) 2 = some (-1) ∧
    x1 (.div 1 2 3) 0x8000000000000000 (-1) = some 0x8000000000000000 ∧ x1 (.divN 1 2 3) 5 0 = some (-1) ∧
    x1 (.rem 1 2 3) 5 0 = some 5 ∧ x1 (.mulh 1 2 3) (-1) 2 = some (-1) ∧ x1 (.mulhN 1 2 3) (-1) 2 = some 1 ∧
    x1 (.sra 1 2 3) 0x8000000000000000 70 = some (-1) ∧ x1 (.clz 1 2) 1 0 = some 63 ∧
    x1 (.bfx 1 2 8 3) 0x0F00 0 = some (-1) ∧ x1 (.bfxN 1 2 8 3) 0x0F00 0 = some 0xF := by decide +kernel

/-- R109 to R115: wraps, unsigned comparisons, amounts of 64 and more, and the insertion of a field. -/
theorem test_integer_edges :
    x1 (.add 1 2 3) (-1) 2 = some 1 ∧ x1 (.sub 1 2 3) 0 1 = some (-1) ∧ x1 (.shl 1 2 3) 1 64 = some 0 ∧
    x1 (.shr 1 2 3) (-1) 63 = some 1 ∧ x1 (.slt 1 2 3) (-1) 0 = some 1 ∧ x1 (.sltN 1 2 3) (-1) 0 = some 0 ∧
    x1 (.min 1 2 3) (-1) 5 = some (-1) ∧ x1 (.minN 1 2 3) (-1) 5 = some 5 ∧ x1 (.max 1 2 3) (-1) 5 = some 5 ∧
    x1 (.maxN 1 2 3) (-1) 5 = some (-1) ∧ x1 (.li 1 0x800000000000) 0 0 = some 0xFFFF800000000000 ∧
    x1 (.liN 1 0x800000000000) 0 0 = some 0x800000000000 ∧ x1 (.brev 1 2) 1 0 = some 0x8000000000000000 ∧
    x1 (.ctz 1 2) 0 0 = some 64 ∧ x1 (.popc 1 2) 0xF0F 0 = some 8 ∧ x1 (.sel 1 2 3 0) 0 9 = some 0 ∧
    x1 (.bfi 1 2 60 3) 0x15 0 = some 0x5000000000000000 ∧ x1 (.sltiN 1 2 (-1)) 5 0 = some 1 ∧
    x1 (.andi 1 2 0x200000) (-1) 0 = some 0xFFFFFFFFFFE00000 ∧ x1 (.srai 1 2 63) (-2) 0 = some (-1) := by decide +kernel

/-- R121, the worked conversion: the result and NX. -/
theorem test_fcvt_worked : after (fun t => (t.getX 7, t.fflags)) (.fcvt 7 4 .f16 .f32 false .rne) (small (th [(4, 0x40490FDB)])) =
    some (0x4248, 1) := by decide +kernel

/-- R56, R117 to R120: an infinity less itself, a division by zero, a signed zero, a minimum of zeros, a class, a
comparison with a NaN. -/
theorem test_float_results :
    after (fun t => (t.getX 1, t.fflags)) (.fsub 1 2 3 .f32 .rne) (small (th [(2, 0x7F800000), (3, 0x7F800000)])) =
      some (0x7FC00000, 0x10) ∧
    after (fun t => (t.getX 1, t.fflags)) (.fdiv 1 2 3 .f64 .rne) (small (th [(2, 0x3FF0000000000000), (3, 0x8000000000000000)])) =
      some (0xFFF0000000000000, 8) ∧
    after (fun t => (t.getX 1, t.fflags)) (.fsqrt 1 2 .f32 .rne) (small (th [(2, 0x80000000)])) = some (0x80000000, 0) ∧
    after (fun t => (t.getX 1, t.fflags)) (.fmin 1 2 3 .f32) (small (th [(2, 0), (3, 0x80000000)])) = some (0x80000000, 0) ∧
    after (fun t => (t.getX 1, t.fflags)) (.fclass 1 2 .f16) (small (th [(2, 0x8001)])) = some (4, 0) ∧
    after (fun t => (t.getX 1, t.fflags)) (.fcmp .lt 1 2 3 .f32) (small (th [(2, 0x7FC00000)])) = some (0, 0x10) ∧
    after (fun t => (t.getX 1, t.fflags)) (.ffma 1 2 3 4 .f32 .rne) (small (th [(2, 0x3F800001), (3, 0x3F800001), (4, 0xBF800002)])) =
      some (0x28800000, 0) := by decide +kernel

/-- R54, R57, R61: the worked encodings. -/
theorem test_encodings :
    readFp .f32 0x3F800000 = .fin false 1 ∧ readFp .bf16 0x3F80 = .fin false 1 ∧ readFp .f16 0xC100 = .fin true (5 / 2) ∧
    readFp .fp8e5 0xC1 = .fin true (5 / 2) ∧ readFp .fp8e4 0x7E = .fin false 448 ∧ readFp .fp8e4 0x39 = .fin false (9 / 8) ∧
    readFp .fp4 0xD = .fin true 3 := by decide +kernel

/-- R69: the worked draw, and the element it rounds. -/
theorem test_draw : draw 1 = (0x42021, 0x420) ∧ (convert .fp8e4 .f32 (.sr 0x420) false false 0x3F800800).bits = 0x39 := by
  decide +kernel

/-- The line of the worked loop of R106, byte by byte. -/
def loopLine : List Byte :=
  [0x00, 0x20, 0x83, 0x03, 0x03, 0x33, 0x05, 0x0F, 0x86, 0x04] ++ List.replicate 38 0 ++
  [0x50, 0x18, 0x01, 0x00, 0x00, 0x14, 0x04, 0x00, 0x00, 0x00, 0x04, 0x00, 0x00, 0x00, 0x00, 0x00]

/-- R29 to R31, R106: its four instructions. -/
theorem test_line_worked : lineOk loopLine = true ∧
    (List.range 4).map (fun k => (decode (lineHead loopLine k) (lineTail loopLine k)).toOption) =
      [some (.li 3 4), some (.loop 3 4), some (.addi 5 5 1), some (.add 6 6 5)] := by decide +kernel

/-- R51 and the worked line of Instruction Lines: its three instructions as the assembler packs them. -/
theorem test_line_packed : assemble [.addi 5 5 16, .add 6 5 7, .halt] =
    some [[0x00, 0x18, 0x05, 0x0F, 0x86, 0x04, 0x00, 0x64] ++ List.replicate 50 0 ++ [0x70, 0x14, 0x10, 0x00, 0x00, 0x14]] ∧
    assemble [.li 3 4, .loop 3 4, .addi 5 5 1, .add 6 6 5] = some [loopLine] := by decide +kernel

/-- A write to x0 is discarded and the pc goes on (R46). -/
theorem test_x0 : after (fun t => (t.getX 0, t.pc)) (.addi 0 2 5) (small { th [(2, 7)] with pc := 6, line := some (0, loopLine) }) =
      some (0, 8) := by decide +kernel

/-- R105, R106: the loop step of the `add` at offset 8: back to 6 while an iteration is left, then on to the next line. -/
theorem test_loop_step :
    let t := { th [] with pc := 8, line := some (0, loopLine), loops := [⟨6, 8, 4, 2⟩] }
    (t.completed.pc = 6 ∧ t.completed.loops = [⟨6, 8, 4, 3⟩]) ∧
    (t.completed.completed.pc = 8 ∨ ({ t.completed with pc := 8 }).completed.pc = 66) := by decide +kernel

/-- R123, R126: the worked access to LDEPTH: the inner entry goes, LSTACK reads zero. -/
theorem test_ldepth_worked :
    let s := small { th [(8, 0x10101)] with loops := [⟨6, 8, 4, 0⟩, ⟨2, 10, 3, 1⟩] }
    after (fun t => (t.getX 9, t.loops, s.readCr t .lstack)) (.crwr 9 .ldepth 8) s = some (2, [⟨2, 10, 3, 1⟩], 0) := by
  decide +kernel

/-- R123, R364, R368, R371: a write of a read-only register and a `trap` enter the handler at TVEC with the cause in TCAUSE,
the pc in TPC and the operand in TVAL. -/
theorem test_trap_entry :
    let s := small { th [] with pc := 8, tvec := 2, line := some (0, loopLine) }
    let seen := fun t : Thread => (t.tcause.toNat, t.tpc, t.pc, t.hnd)
    after seen (.crwr 0 .gtsc 1) s = some (0x05, 8, 2, true) ∧ after seen (.trap 9) s = some (0x39, 8, 2, true) ∧
    after (·.tval) (.trap 9) s = some 9 := by decide +kernel

/-- A vector register with the elements listed, of `w` bits. -/
def vreg (w : Nat) (es : List Nat) : VData :=
  (es.zipIdx).foldl (fun v p => v ||| (BitVec.ofNat 4096 p.1 <<< (w * p.2))) 0

/-- A thread with v2, v3, k1 as given and x9 as the vector length. -/
def tv (w : Nat) (a b : List Nat) (k : KData) (n : Word) : Thread :=
  let t := th [(9, n)]
  { t with v := (t.v.set 2 (vreg w a)).set 3 (vreg w b), k := t.k.set 1 k }

/-- The element values a group writes. -/
def lanes (t : Thread) (i : Instr) (els : List Nat) : List Nat :=
  ((computeGroup t (newEntry t 0 i []) 0 els).out.v).map (·.val)

/-- R154: the worked table. -/
theorem test_vector_integer :
    lanes (tv 8 [120] [10] 0 1) (.vadd ⟨1, vs 2, .vec (vs 3), .i8, false, .rne, ⟨9, 0⟩⟩) [0] = [0x82] ∧
    lanes (tv 8 [120] [10] 0 1) (.vadd ⟨1, vs 2, .vec (vs 3), .i8, true, .rne, ⟨9, 0⟩⟩) [0] = [127] ∧
    lanes (tv 16 [0x8000] [] 0 1) (.vabs ⟨1, vs 2, .i16, false, ⟨9, 0⟩⟩) [0] = [0x8000] ∧
    lanes (tv 8 [3] [5] 0 1) (.vsub ⟨1, vs 2, .vec (vs 3), .n8, true, .rne, ⟨9, 0⟩⟩) [0] = [0] ∧
    lanes (tv 32 [0xFFFFFFF8] [40] 0 1) (.vsra ⟨1, vs 2, .vec (vs 3), .i32, ⟨9, 0⟩⟩) [0] = [0xFFFFFFFF] := by decide +kernel

/-- R161, R162: the worked compress and the `kpop` after it. -/
theorem test_compress_worked :
    let t := tv 32 [10, 11, 12, 13, 14, 15, 16, 17] [] 0b10110010 8
    let c := Instr.vcompress 6 2 .i32 ⟨9, 1⟩
    (computeGroup t (newEntry t 0 c []) 0 (groupEls t (newEntry t 0 c []) (newEntry t 0 c []).shape 0)).out.v =
      [⟨6, 0, 32, 11⟩, ⟨6, 32, 32, 14⟩, ⟨6, 64, 32, 15⟩, ⟨6, 96, 32, 17⟩] ∧
    (computeGroup t (newEntry t 0 (.kpop 4 1 9) []) 0 []).out.x = [(4, 4)] := by decide +kernel

/-- R169: blocks 0 and 3 of the worked quantisation. -/
theorem test_quantise_worked :
    let t := tv 32 ([0x40400000, 0x3F800000, 0xBE99999A] ++ List.replicate 29 0 ++ [0x7F800000]) [] 0 33
    let o := (computeGroup t (newEntry t 0 (.vquant 6 7 (vs 2) .fp8e4 .f32 0 .dyn ⟨9, 0⟩) []) 0 (List.range 33)).out
    (o.v.contains ⟨7, 0, 8, 0x78⟩ && o.v.contains ⟨6, 0, 8, 0x7C⟩ && o.v.contains ⟨6, 8, 8, 0x70⟩ &&
      o.v.contains ⟨6, 16, 8, 0xE2⟩ && o.v.contains ⟨7, 8, 8, 0xFF⟩ && o.v.contains ⟨6, 256, 8, 0⟩) = true ∧
    o.flags = 1 ∧ o.mx = 2 := by decide +kernel

/-- R337: the worked blend of pixel 0, colour and alpha, both tickets. -/
theorem test_blend_worked :
    blendColour 1 255 128 0 = 128 ∧ blendColour 1 0 128 255 = 127 ∧ blendAlpha 1 128 255 = 255 ∧
    blendColour 1 0 128 128 = 64 ∧ blendColour 1 255 128 0 = 128 ∧ blendColour 1 0 128 127 = 63 := by decide +kernel

/-- R257: the home slice of the worked address. -/
theorem test_home_slice : homeSlice 0x34567FF80 = 188 ∧ sliceDie 188 = 5 := by decide +kernel

/-- R326, the Khronos layout written out by hand: a block of one LDR colour whose extent is empty, an HDR one and one of a reserved
mode, which give the error colour. -/
theorem test_astc_plain :
    astcTexel 4 4 0xFFFF80000000FFFFFFFFFFFFFFFFFDFC false 3 2 = [1, 0, 1 / 2, 1] ∧
    astcTexel 4 4 0xFFFF80000000FFFFFFFFFFFFFFFFFFFC false 3 2 = [1, 0, 1, 1] ∧
    astcTexel 4 4 0 false 0 0 = [1, 0, 1, 1] := by decide +kernel

/-- R326: a grid of 4 by 4 weights of two bits (block mode 0x42), one partition, the luminances 0xC0 and 0x40, the first
texel's weight 3 (the first two bits of the sequence, which stand highest) and the others 0. -/
theorem test_astc_grid :
    let v := 0x42 + 0xC0 * 2 ^ 17 + 0x40 * 2 ^ 25 + 3 * 2 ^ 126
    astcTexel 4 4 v false 1 0 = [771 / 1024, 771 / 1024, 771 / 1024, 1] ∧
    astcTexel 4 4 v false 0 0 = [257 / 1024, 257 / 1024, 257 / 1024, 1] := by decide +kernel

/-- R326 and the Khronos Data Format Specification: a texel whose index lacks a bit lies in its subset, whatever the
partition. -/
theorem test_bc7_anchors : (List.range 64).all (fun p => bc7Subset 2 p 0 == 0 && bc7Subset 3 p 0 == 0 &&
    (bc7Anchors 2 p).zipIdx.all (fun x => bc7Subset 2 p x.1 == x.2) &&
    (bc7Anchors 3 p).zipIdx.all (fun x => bc7Subset 3 p x.1 == x.2)) = true := by decide +kernel

/-- R326: the four colours of a BC1 block of red and blue, the clear texel of one of equal ends, an 8-value BC4 block from 255
to 0, and a BC7 block of mode 6 with both ends red. -/
theorem test_blocks :
    let red := 0xE4001FF800
    let m6 := 0x40 + 0x3FFF * 2 ^ 7 + 2 ^ 63 + 2 ^ 64
    (List.range 4).map (fun i => (colourBlock red false i 0, colourBlock red false i 2)) =
      [(1, 0), (0, 1), (2 / 3, 1 / 3), (1 / 3, 2 / 3)] ∧
    bc1Clear 0xC0000000000 5 = true ∧ bc1Clear red 3 = false ∧ channelBlock false (0xFF + 2 * 2 ^ 16) 0 = 6 / 7 ∧
    bc7Channel m6 5 0 = 255 ∧ bc7Channel m6 5 1 = 1 := by decide +kernel

/-- A head and a tail stored where the next step fetches run as the first instruction (R29, log entry 17): `add x0, x0, x0`
completes and goes on to the next line. -/
theorem test_first_step :
    (match step (State.reset.withFetchWord 32 0x04800000) with
      | .next s => (s.thread? 0).map (·.pc)
      | _ => none) = some 66 := by decide +kernel

/-! ### States that meet the hypotheses of the statements -/

/-- The threads and machines of the witnesses: a placed context with a page of memory at offset 0 of g0 and a scratchpad
segment in g1. -/
def wt (xs : List (Nat × Word)) : Thread :=
  { th xs with line := some (0, loopLine), g := Thread.placed.g.set 1 ⟨.scratch, 0, 0x1000, true, true, false, true, 0⟩ }

/-- The placed context with its thread as given, executing. -/
def wm (t : Thread) : State :=
  { State.reset.withLine loopLine with cur := some t.key, threads := [(t.key, t)], sched := [] }

/-- The line of the worked loop is read by a thread that has fetched it. -/
abbrev lineRead (t : Thread) (target : Word) : Prop := LineOf (wm t) t target loopLine (wm t)

theorem executing_wm (t : Thread) : Executing (wm t) t := ⟨rfl, by simp [wm, State.thread?, Map.get?]⟩

/-- The placed machine with a second thread. -/
def two (t v : Thread) : State := { wm t with threads := [(t.key, t), (v.key, v)] }

/-- IntegerResults: a machine that executes, and fields at the ends of a register. -/
theorem meets_integer : Executing (wm (wt [])) (wt []) ∧ (63#6).toNat + (0#6).toNat ≤ 63 ∧ (0#6).toNat + (63#6).toNat ≤ 63 :=
  ⟨executing_wm _, by decide, by decide⟩

/-- LogicShiftResults, DivisionResults: a zero divisor, another, and the overflow. -/
theorem meets_division :
    Executing (wm (wt [(2, 0x8000000000000000), (3, -1)])) (wt [(2, 0x8000000000000000), (3, -1)]) ∧
    (wt []).getX 3 = 0 ∧ (wt [(3, 2)]).getX 3 ≠ 0 ∧
    ((wt [(2, 0x8000000000000000), (3, -1)]).getX 2).toInt = -2 ^ 63 ∧
    ((wt [(2, 0x8000000000000000), (3, -1)]).getX 3).toInt = -1 := by
  refine ⟨executing_wm _, ?_⟩; decide +kernel

/-- FloatResults: conversions of each kind, a NaN, and finite sums, products and quotients, zero and not. -/
theorem meets_float : Executing (wm (wt [])) (wt []) ∧
    staticMode .rtz (wt []).rm (Ty.narrowing .f16 .f32) = some .rtz ∧ staticMode .rsr (wt []).rm (Ty.narrowing .f16 .f32) = none ∧
    (wt []).owesDraws = false ∧ (Fp.nan true).isNaN = true ∧ (1 : Rat) ≠ 0 ∧
    (Fp.fin false 1).toRat + (Fp.fin true 1).toRat = 0 ∧ (Fp.fin false 1).toRat + (Fp.fin false 1).toRat ≠ 0 ∧
    (Fp.fin false 1).toRat * (Fp.fin false 1).toRat ≠ 0 ∧ (Fp.fin false 1).toRat / (Fp.fin false 1).toRat ≠ 0 := by
  refine ⟨executing_wm _, ?_⟩; decide +kernel

/-- RoundingRules: a tie, and a value of each format that it represents. -/
theorem meets_rounding : (0 : Rat) ≤ 5 / 2 ∧
    ([(Ty.f64, 0x3FF0000000000000), (.f32, 1), (.f16, 0x7BFF), (.bf16, 0x80), (.fp8e4, 0x7E), (.fp8e5, 1), (.fp4, 7)].all fun p =>
      decide (p.2 < 2 ^ p.1.bits) && (match readFp p.1 p.2 with
        | .fin _ m => decide (m ≠ 0)
        | _ => false)) = true := by decide +kernel

/-- TransferResults: a target that is a head, one that is none, and operands for each branch taken and not taken. -/
theorem meets_transfer :
    let t := wt [(2, 1), (3, -1), (4, 6), (5, 5)]
    Executing (wm t) t ∧ lineRead t (t.pc + (4 : BitVec 22).signExtend 64) ∧
    isHead loopLine (t.pc + (4 : BitVec 22).signExtend 64) = true ∧
    lineRead t (t.pc + (3 : BitVec 22).signExtend 64) ∧ isHead loopLine (t.pc + (3 : BitVec 22).signExtend 64) = false ∧
    lineRead t (t.getX 4 + (0 : BitVec 22).signExtend 64) ∧ isHead loopLine (t.getX 4 + (0 : BitVec 22).signExtend 64) = true ∧
    lineRead t (t.getX 5 + (0 : BitVec 22).signExtend 64) ∧ isHead loopLine (t.getX 5 + (0 : BitVec 22).signExtend 64) = false ∧
    t.getX 2 ≠ t.getX 3 ∧ (t.getX 3).toInt < (t.getX 2).toInt ∧ (t.getX 2).toNat < (t.getX 3).toNat := by
  refine ⟨executing_wm _, ?_⟩; decide +kernel

/-- LoopResults: the worked loop, an empty and a full stack, and an entry to leave. -/
theorem meets_loop :
    let t := { wt [(3, 4)] with pc := 4 }
    let full := { wt [(3, 4)] with pc := 4, loops := List.replicate 6 ⟨6, 8, 4, 0⟩ }
    Executing (wm t) t ∧ lineRead t t.next ∧ isHead loopLine t.next = true ∧
    lineRead t (t.pc + (4 : BitVec 22).signExtend 64) ∧ isHead loopLine (t.pc + (4 : BitVec 22).signExtend 64) = true ∧
    t.loops.length < 6 ∧ t.getX 3 ≠ 0 ∧ t.getX 4 = 0 ∧ (wm t).thread? t.key = some t ∧
    Executing (wm full) full ∧ 6 ≤ full.loops.length ∧ lineRead full 8 := by
  refine ⟨executing_wm _, ?_, ?_, ?_, ?_, ?_, ?_, ?_, ?_, executing_wm _, ?_, ?_⟩ <;> decide +kernel

/-- LoopResults: a body that is skipped and an entry that is left, to a head and to what is no head. -/
theorem meets_skip :
    let t := { wt [] with pc := 4, loops := [⟨2, 6, 4, 0⟩] }
    let odd := { wt [] with pc := 4, loops := [⟨2, 5, 4, 0⟩] }
    Executing (wm t) t ∧ lineRead t 6 ∧ lineRead t (nextPc (lineH loopLine) 6) ∧
    isHead loopLine (nextPc (lineH loopLine) 6) = true ∧ (∃ e es, t.loops = e :: es ∧ e.last = 6) ∧ t.getX 4 = 0 ∧
    Executing (wm odd) odd ∧ lineRead odd 5 ∧ lineRead odd (nextPc (lineH loopLine) 5) ∧
    isHead loopLine (nextPc (lineH loopLine) 5) = false ∧ (∃ e es, odd.loops = e :: es ∧ e.last = 5) := by
  refine ⟨executing_wm _, ?_, ?_, ?_, ⟨_, _, rfl, rfl⟩, ?_, executing_wm _, ?_, ?_, ?_, _, _, rfl, rfl⟩ <;> decide +kernel

/-- ControlRegisterResults: registers that are ready, read-only and writable, and modes that are reserved. -/
theorem meets_control_registers : Executing (wm (wt [(2, 6)])) (wt [(2, 6)]) ∧ (wt [(2, 6)]).crReady .frm ∧
    readOnly .gtsc = true ∧ readOnly .frm = false ∧ (wt [(2, 6)]).getX 2 &&& 7 = 6 := by
  refine ⟨executing_wm _, ?_⟩; decide +kernel

/-- What the check of an access of a thread leaves of its machine. -/
def chk (s : State) (t : Thread) (m : MAddr) (n : Nat) (k : Kind) : State :=
  (s.check t.agent (s.gangOf t) (t.getG m.g) (t.offset m) n n k (t.offset m)).2

/-- An access whose check passes is granted, with what the check leaves. -/
theorem granted_chk {s : State} {t : Thread} {m : MAddr} {n : Nat} {k : Kind} {p : Place}
    (h : (s.check t.agent (s.gangOf t) (t.getG m.g) (t.offset m) n n k (t.offset m)).1 = .ok p)
    (hv : (chk s t m n k).vectorClear t p n = true) : Granted s (chk s t m n k) t m n k p := ⟨Prod.ext h rfl, hv⟩

/-- A thread in a wait for what it asked. -/
def asking (t : Thread) (i : Instr) (r : Reason) (a : Asked) : Thread :=
  { t with status := .waiting ⟨r, i, 0, 0, 0, 0, a, true, none⟩ }

/-- Frame 0 in the shared level. -/
def shared (s : State) : State := { s with owners := [(0, 0xC000)] }

/-- LoadResults: the last bytes of a scratchpad, memory before and after its data have come, a line the L1 holds, a shared
frame, and a peer before and after its reply. -/
theorem meets_loads :
    let t := wt []
    let i := Instr.ld 1 .f32 (ma 0 0 0)
    let d := asking t i .load .data
    let p := { t with g := t.g.set 2 ⟨.peer, 0, 64, true, false, false, false, 5⟩ }
    let q := asking p (.ld 1 .f32 (ma 2 0 60)) .load (.peer 5)
    let r := chk (wm t) t (ma 0 0 0) 4 .read
    let rd := chk (wm d) d (ma 0 0 0) 4 .read
    let held := (wm t).putBench 0 { (wm t).bench 0 with l1 := [⟨0, 0, 0, [(0, (1, false)), (1, (2, false)), (2, (3, false)), (3, (4, true))]⟩] }
    let sh := shared (wm d)
    Executing (wm t) t ∧ Granted (wm t) (wm t) t (ma 1 0 0xFFC) 4 .read (.pad 0xFFC) ∧
    Granted (wm t) r t (ma 0 0 0) 4 .read (.mem 0 0 0x783) ∧ r.owesAt t.key 0 4 = false ∧ r.mayRead t.bench 0 0x783 = true ∧
    r.readL1 t.bench t.ctx 0 4 = none ∧ t.asked ≠ .data ∧ pteBit (0x783 : Word) 5 = false ∧
    Granted held (chk held t (ma 0 0 0) 4 .read) t (ma 0 0 0) 4 .read (.mem 0 0 0x783) ∧
    ((chk held t (ma 0 0 0) 4 .read).readL1 t.bench t.ctx 0 4).isSome = true ∧
    Executing (wm d) d ∧ Granted (wm d) rd d (ma 0 0 0) 4 .read (.mem 0 0 0x783) ∧ rd.poisoned 0 4 = none ∧ d.asked = .data ∧
    Granted sh (chk sh d (ma 0 0 0) 4 .read) d (ma 0 0 0) 4 .read (.mem 0 0 0x783) ∧
    (chk sh d (ma 0 0 0) 4 .read).sharedFrame 0 = true ∧
    Executing (wm p) p ∧ Granted (wm p) (wm p) p (ma 2 0 60) 4 .read (.peer 5 60) ∧ p.asked ≠ .peer 5 ∧
    Executing (wm q) q ∧ Granted (wm q) (wm q) q (ma 2 0 60) 4 .read (.peer 5 60) ∧ q.asked = .peer 5 := by
  refine ⟨executing_wm _, ?_, ?_, ?_, ?_, ?_, ?_, ?_, ?_, ?_, executing_wm _, ?_, ?_, ?_, ?_, ?_, executing_wm _, ?_, ?_,
    executing_wm _, ?_, ?_⟩ <;> decide +kernel

/-- The placed machine whose bench 0 holds the L1 lines given. -/
def withL1 (s : State) (ls : List L1Line) : State := s.putBench 0 { s.bench 0 with l1 := ls }

/-- The machine with a full/empty word at physical address 0. -/
def wordObject (s : State) : State := { s with objs := [(0, ⟨0, 0, [0], [0], .invalid⟩)] }

/-- The machine bound to a peer, device 5, over port 3. -/
def bound (s : State) : State :=
  { s with parts := [(0, { Part.oneBench with tag := some 1 })], routes := [(5, 8)], portsDown := [4] }

/-- LoadResults, StoreResults: the last bytes of a line, free ways, a copy that agrees with memory, bytes that are no full/empty
word, and one that is; peers that are reached and that are not, and what a fence leaves to follow. -/
theorem meets_lines :
    let m := wm (wt [])
    let l := withL1 m [⟨0, 0, 0, [(4, (m.byteAt 4, false)), (5, (7, true))]⟩]
    let t := { wt [] with g := (wt []).g.set 2 ⟨.peer, 0, 64, true, true, false, false, 5⟩ }
    (∀ s ∈ [m, l], (0x7C : Nat) < 2 ^ 52 ∧ 0x7C % 128 + 4 ≤ 128 ∧ s.hasRoom 0 0 (0x7C / 128) ∧
      ∀ k < 4, s.tagged (0x7C + k) = false) ∧
    ((l.bench 0).l1Find 0 0).isSome = true ∧ (∀ c ∈ ((l.bench 0).l1Find 0 0), ∀ x ∈ Map.get? c.bytes 4, x.2 = false ∧ x.1 = l.byteAt 4) ∧
    m.tagged 0x7C = false ∧ (wordObject m).tagged 4 = true ∧ (m.gang? 0).isSome = true ∧
    Executing (bound (wm t)) t ∧ Granted (bound (wm t)) (bound (wm t)) t (ma 2 0 60) 4 .write (.peer 5 60) ∧
    (bound (wm t)).peerUp t.part 5 = true ∧ (wm t).peerUp t.part 5 = false := by
  refine ⟨?_, ?_, ?_, ?_, ?_, ?_, ⟨rfl, ?_⟩, ?_⟩ <;> decide +kernel

/-- StoreResults: a scratchpad, memory that is not tracked, a tracked page the bench owns, a shared frame; a `strel` whose
write has been performed. -/
theorem meets_stores :
    let t := wt []
    let h := asking t (.strel 1 .f32 (ma 0 0 0) .bench) .load (.home 0 none)
    let w := chk (wm t) t (ma 0 0 0) 4 .write
    let own := { wm t with attrs := [(0, .tracked)], pageObjs := [(0, (0, .exclusive 0))] }
    let own := own.putBench 0 { own.bench 0 with tlb := [⟨0, 0, 0, frameBytes, 0xFA3, 0⟩] }
    let o := chk own t (ma 0 0 0) 4 .write
    let sh := chk (shared (wm t)) t (ma 0 0 0) 4 .write
    Executing (wm h) h ∧ h.asked = .home 0 none ∧ Map.get? (wm h).home 0 = none ∧
    Executing (wm t) t ∧ (wm t).thread? t.key = some t ∧ Granted (wm t) (wm t) t (ma 1 0 0xFFC) 4 .write (.pad 0xFFC) ∧
    Granted (wm t) w t (ma 0 0 0) 4 .write (.mem 0 0 0xF83) ∧ w.thread? t.key = some t ∧ w.sharedFrame 0 = false ∧
    pteBit (0xF83 : Word) 5 = false ∧ t.asked = .none ∧ t.memoryClear = true ∧ w.owes t.key = false ∧
    Granted own o t (ma 0 0 0) 4 .write (.mem 0 0 0xFA3) ∧ pteBit (0xFA3 : Word) 5 = true ∧ o.sharedFrame 0 = false ∧
    (o.objState (o.objOf 0)).mayWrite t.bench = true ∧ o.owesAt t.key 0 4 = false ∧
    Granted (shared (wm t)) sh t (ma 0 0 0) 4 .write (.mem 0 0 0xF83) ∧ sh.sharedFrame 0 = true ∧
    ((wm t).gang? 0).isSome = true := by
  refine ⟨executing_wm _, ?_, ?_, executing_wm _, ?_, ?_, granted_chk ?_ ?_, ?_, ?_, ?_, ?_, ?_, ?_, granted_chk ?_ ?_, ?_, ?_, ?_, ?_,
    granted_chk ?_ ?_, ?_, ?_⟩ <;> decide +kernel

/-- AccessChecks: a null segment, rights, the last offset that fits and the first that does not, an odd offset. -/
theorem meets_checks :
    let t := { wt [] with g := (wt []).g.set 2 ⟨.scratch, 0, 64, false, false, true, true, 0⟩ }
    Executing (wm t) t ∧ (t.getG 3).type = .null ∧ (t.getG 2).type ≠ .null ∧ (t.getG 2).r = false ∧ (t.getG 2).w = false ∧
    (t.getG 1).r = true ∧ (t.getG 1).w = true ∧ (t.getG 1).size.toNat < 0xFFD + 4 ∧ 0xFFC + 4 ≤ (t.getG 1).size.toNat ∧
    ((t.getG 1).base.toNat + 0xFFA) % 4 ≠ 0 ∧ t.asked = .none := by
  refine ⟨executing_wm _, ?_⟩; decide +kernel

/-- AtomicResults: in a scratchpad, in memory, and with the answer of the home. -/
theorem meets_atomics :
    let t := wt []
    let a := asking t (.amoAdd ⟨1, .i32, ma 0 0 0, 3, .relaxed, .thread⟩) .load (.home 0 (some [7]))
    let w := chk (wm t) t (ma 0 0 0) 4 .atomic
    Executing (wm t) t ∧ t.asked = .none ∧ Granted (wm t) (wm t) t (ma 1 0 0xFFC) 4 .atomic (.pad 0xFFC) ∧
    Granted (wm t) w t (ma 0 0 0) 4 .atomic (.mem 0 0 0xF83) ∧ pteBit (0xF83 : Word) 5 = false ∧ t.memoryClear = true ∧
    w.owes t.key = false ∧ Executing (wm a) a ∧ a.asked = .home 0 (some [7]) := by
  refine ⟨executing_wm _, ?_, ?_, granted_chk ?_ ?_, ?_, ?_, ?_, executing_wm _, ?_⟩ <;> decide +kernel

/-- AtomicResults: a thread with a store on its way releases in a scope; another, within it, observes the place. -/
theorem meets_release :
    let t := wt []
    let y := { t with tid := 1 }
    let m := { wm t with home := [(0, ⟨0, 0, 0, 0, 0x100, 0, false, .store [1], none, none⟩)], nextHome := 1 }
    let r : Ordered := ⟨0, 0, .bench, 1, 0, 4⟩
    let o := { m with orders := [r] }
    Scope.bench ≠ .thread ∧ m.pendingBelow t.key m.nextHome = true ∧ r ∈ o.orders ∧ r.key ≠ y.key ∧
    meets r.pa r.n (placeKey y.gang (.mem 0 0 0)) 4 = true ∧ inScope r.scope r.key r.part y.key y.part = true ∧
    inScope .die y.key y.part r.key r.part = true ∧
    (∃ h ∈ o.home, h.2.key = r.key ∧ h.1 < r.mark) := by decide +kernel

/-- HomeSteps: a store and an atomic at their home, a waiting thread, a line with a written byte, and the object requests. -/
theorem meets_home :
    let t := asking (wt []) (.amoAdd ⟨1, .i32, ma 0 0 0, 3, .relaxed, .thread⟩) .load (.home 0 none)
    let st := { wm t with home := [(0, ⟨0, 0, 0, 0, 0, 0, false, .store [1, 2], none, none⟩)], ev := .empty }
    let am := { wm t with home := [(0, ⟨0, 0, 0, 0, 0, 0, false, .amo .add .i32 5, none, none⟩)], ev := .empty }
    let line : L1Line := ⟨0, 0, 0, [(0, (1, true)), (127, (2, false))]⟩
    let ev := { (wm t).putBench 0 { (wm t).bench 0 with l1 := [line] } with ev := .empty }
    let rq := { wm t with objReqs := [⟨0, 0, 0, .page 0, true⟩], ev := .empty, pageObjs := [(0, (0, .shared [1]))] }
    (Map.get? st.home st.ev.a).isSome = true ∧ (∀ h ∈ Map.get? st.home st.ev.a, st.blocked st.ev.a h = false) ∧
    st.hostLines.contains 0 = false ∧ (∀ h ∈ Map.get? am.home am.ev.a, am.blocked am.ev.a h = false) ∧
    am.poisoned 0 4 = none ∧ (am.bench 0).l1Find 0 0 = none ∧ am.thread? 0 = some t ∧
    (ev.bench ev.ev.a).l1Find ev.ev.b ev.ev.c = some line ∧ Map.rising line.bytes = true ∧ (∀ c ∈ line.bytes, c.1 < 128) ∧
    rq.objReqs = [⟨0, 0, 0, .page 0, true⟩] ∧ rq.ev.a = 0 ∧ rq.objState (.page 0) = .shared [1] := by decide +kernel

/-- HomeSteps: no release to follow, a home that does not reject the line's context, an L1 powered down. -/
theorem meets_home_more :
    let s := withL1 { wm (wt []) with ev := { Ev.empty with flag := true } } [⟨0, 0, 0, [(0, (1, true))]⟩]
    s.orders = [] ∧ (∀ c ∈ s.ctx? 0, s.homeRejects c.part (linePa 0) = false) ∧ s.ev.flag = true := by decide +kernel

/-- LoadResults: a line of an L1 that is poisoned, and one that is not. -/
theorem meets_poisoned_line :
    let t := wt []
    let s := (wm t).putBench 0 { (wm t).bench 0 with badLines := [(0, 0)], l1 := [⟨0, 0, 0, [(0, (1, false)), (1, (2, false)), (2, (3, false)), (3, (4, true))]⟩] }
    let o := chk s t (ma 0 0 0) 4 .read
    Executing s t ∧ Granted s o t (ma 0 0 0) 4 .read (.mem 0 0 0x783) ∧ o.owesAt t.key 0 4 = false ∧
    (o.acquired t none (.mem 0 0 0x783) 4).mayRead 0 0 0x783 = true ∧ (o.readL1 0 0 0 4).isSome = true ∧ o.l1Poisoned 0 0 0 4 = some 0 ∧
    (wm t).l1Poisoned 0 0 0 4 = none := by
  refine ⟨⟨rfl, ?_⟩, granted_chk ?_ ?_, ?_⟩ <;> decide +kernel

/-- StoreResults, AtomicResults: a tracked page that another partition's object holds, and an atomic to a peer behind a store. -/
theorem meets_rejected :
    let t := { wt [] with g := (wt []).g.set 2 ⟨.peer, 0, 64, true, true, false, true, 5⟩ }
    let s := { wm t with attrs := [(0, .tracked)], pageObjs := [(0, (1, .exclusive 1))] }
    let s := s.putBench 0 { s.bench 0 with tlb := [⟨0, 0, 0, frameBytes, 0xFA3, 0x100000⟩] }
    let o := chk s t (ma 0 0 0) 4 .write
    let a := chk s t (ma 0 0 0) 4 .atomic
    let b := { bound (wm t) with home := [(0, ⟨0, 0, 0, 0, 0x100, 0, false, .store [1], none, none⟩)], nextHome := 1 }
    Executing s t ∧ Granted s o t (ma 0 0 0) 4 .write (.mem 0 0 0xFA3) ∧ o.sharedFrame 0 = false ∧
    (o.objState (o.objOf 0)).mayWrite t.bench = false ∧ o.homeRejects t.part 0 = true ∧
    Granted s a t (ma 0 0 0) 4 .atomic (.mem 0 0 0xFA3) ∧ a.homeRejects t.part 0 = true ∧
    Executing b t ∧ Granted b b t (ma 2 0 60) 4 .atomic (.peer 5 60) ∧ b.owes t.key = true ∧ beyond .bench ≠ none := by
  refine ⟨⟨rfl, ?_⟩, granted_chk ?_ ?_, ?_, ?_, ?_, granted_chk ?_ ?_, ?_, ⟨rfl, ?_⟩, ⟨Prod.ext ?_ rfl, ?_⟩, ?_, ?_⟩ <;> decide +kernel

/-- AccessChecks: an address whose leaf a TLB holds, whose L1 line has a written byte, and one whose leaf the walk gives. -/
theorem meets_leaf :
    let s := { wm (wt []) with benches := [(0, { (wm (wt [])).bench 0 with l1 := [⟨0, 0, 0, [(0, (1, false)), (4, (1, true))]⟩] })] }
    let clear := (wm (wt [])).putBench 0 { (wm (wt [])).bench 0 with tlb := [] }
    let w := ((({ clear with owners := [(0, 0x8000), (1, 0x8000), (2, 0x8000)] }).setDouble 0 0x10001).setDouble 0x10000
      0x20001).setDouble 0x20000 0x30383
    (tlbFind (s.bench 0) 0 0).isSome = true ∧ (∀ b, ∀ l ∈ (s.bench b).l1, ∀ c ∈ l.bytes, c.2.2 = true → linePa l.line + c.1 ≠ 3) ∧
    tlbFind (w.bench 0) 0 0 = none ∧ tlbLookup (w.dieTlb 0) 0 0 = none ∧
    walk (w.walkReads 0 0) 0 0 = .leaf 0x30383 frameBytes 0x20000 ∧ (w.ctx? 0).isSome = true := by
  refine ⟨by decide +kernel, ?_, ?_⟩
  · intro b l hl c hc
    by_cases h : b = 0
    · subst h; revert c; revert l; decide +kernel
    · simp [State.bench, Map.getD, Map.get?, Ne.symm h, Bench.fresh] at hl
  · decide +kernel

/-- HomeSteps: a store of another partition's frame, which its home refuses; a line whose frame is its context's. -/
theorem meets_refused :
    let s := { wm (wt []) with owners := [(0, 0x4001)], home := [(0, ⟨0, 0, 0, 0, 0, 64, false, .store [1, 2], none, none⟩)], ev := .empty }
    let l : L1Line := ⟨0, 0, 0, [(0, (1, true))]⟩
    let v := { withL1 (wm (wt [])) [l] with ev := .empty }
    (∃ h, Map.get? s.home s.ev.a = some h ∧ s.blocked s.ev.a h = false ∧ h.op = .store [1, 2] ∧ s.refused h = true ∧
      s.thread? h.key = some (wt []) ∧ (wt []).asked ≠ .home s.ev.a none) ∧
    (v.bench v.ev.a).l1Find v.ev.b v.ev.c = some l ∧
    (∀ c ∈ v.ctx? l.ctx, v.ownerOk l.ctx c.part (linePa l.line) = true ∧ v.homeRejects c.part (linePa l.line) = false) := by
  refine ⟨⟨_, rfl, ?_⟩, ?_⟩ <;> decide +kernel

/-- WalkWakeAndRingSteps: a walk that finds a leaf, threads that wait for a line, for data and for a page, and announcements on
the ring, to two benches and to the last. -/
theorem meets_walks :
    let t := wt []
    let clear := { (wm t).putBench 0 { (wm t).bench 0 with tlb := [] } with ev := { Ev.empty with nums := [0] } }
    let w := ((({ clear with owners := [(0, 0x8000), (1, 0x8000), (2, 0x8000)] }).setDouble 0 0x10001).setDouble 0x10000
      0x20001).setDouble 0x20000 0x30383
    let l := asking t (.jmp 0) .load (.line 0)
    let d := asking t (.ld 1 .f32 (ma 0 0 0)) .load .data
    let p := { t with status := .waiting ⟨.page, .ld 1 .f32 (ma 0 0 0), 0, 0, 0, 0, .pages [0x10], false, none⟩ }
    w.ev.nums = [0] ∧ walk w w.ev.b 0 = .leaf 0x30383 frameBytes 0x20000 ∧ tlbFind (w.bench w.ev.a) w.ev.b 0 = none ∧
    (wm l).thread? (wm l).ev.a = some l ∧ l.key = (wm l).ev.a ∧ (wm l).poisoned 0 64 = none ∧
    (wm d).thread? (wm d).ev.a = some d ∧ (wm p).thread? p.key = some p ∧ p.ctx = (wm p).ev.a ∧
    Map.rising (wm p).threads = true ∧
    (let a := { wm t with ring := [(4, ([0, 1], .shootdown 0 0 65536))], ev := .empty }
     a.ring = [(4, ([0, 1], .shootdown 0 0 65536))] ∧ a.ev.a ∈ [0, 1] ∧ ∃ b ∈ [0, 1], b ≠ a.ev.a) ∧
    (let a := { wm t with ring := [(4, ([0], .icinv 0 [0]))], ev := .empty }
     a.ring = [(4, ([0], .icinv 0 [0]))] ∧ a.ev.a ∈ [0] ∧ ∀ b ∈ [0], b = a.ev.a) := by
  decide +kernel

/-- WalkWakeAndRingSteps: a die's TLB without the page, an announcement at a die's TLB, a page wake. -/
theorem meets_die_tlb :
    let m := wm (wt [])
    let a := { m with ring := [(4, ([128], .shootdown 0 0 65536))], ev := { Ev.empty with a := 128 }, dieTlbs := [(0, [⟨0, 0, 0, frameBytes, 0x783, 0⟩])] }
    let p := { wt [] with status := .waiting ⟨.page, .ld 1 .f32 (ma 0 0 0), 0, 0, 0, 0, .pages [0x10], false, none⟩ }
    tlbLookup (m.dieTlb (coreDie (8 * m.ev.a + m.ev.c % 8))) m.ev.b 0 = none ∧ 128 ≤ a.ev.a ∧ a.ev.a ∈ [128] ∧
    (tlbLookup (a.dieTlb (a.ev.a - 128)) 0 0).isSome = true ∧
    (∃ w vas, p.status = .waiting w ∧ w.asked = .pages vas ∧ w.woken = false ∧ ∃ va ∈ vas, va / 65536 = (wm p).ev.b / 65536) := by
  refine ⟨?_, ?_, ?_, ?_, _, _, rfl, rfl, ?_⟩ <;> decide +kernel

/-- Doubles written to the scratchpad of the placed gang. -/
def padded (s : State) (off : Nat) (ws : List Word) : State := s.padPut 0 off (ws.flatMap fun w => leBytes 8 w.toNat)

/-- SegmentResults: refusals at their limits, a thread that is no head, descriptors that read and one that does not, a g0
off its line. -/
theorem meets_segments :
    let t := wt [(2, 0x1000), (3, 0), (4, 1)]
    let v := { t with tid := 1 }
    let d := fun ws => padded (wm t) 0 ws
    Executing (wm t) t ∧ (t.getG 2).type = .null ∧ (t.getG 1).type ≠ .null ∧
    (t.getG 1).size.toNat < (t.getX 2).toNat + (t.getX 4).toNat ∧ (t.getX 2).toNat + (t.getX 3).toNat ≤ (t.getG 1).size.toNat ∧
    Executing (wm v) v ∧ v.isHead = false ∧ v.depth = 0 ∧
    t.isHead = true ∧ (t.getG 1).type = .scratch ∧ (t.getG 1).refuses (t.getX 3) 32 32 .read = none ∧
    (d [1]).padReadable t 0 32 ∧ t.status = .runnable ∧
    (t.getX 3).extractLsb' 11 53 = 0 ∧ (t.getX 3).extractLsb' 4 4 = 0 ∧ ((t.getX 3).extractLsb' 0 4).toNat = t.context ∧
    readDescriptor (d [1]).ownNumber (doublesOf 4 ((d [1]).padBytes t.gang 0 32)) = none ∧
    ((readDescriptor 0 (doublesOf 4 ((d [32, 64, 0x81, 0]).padBytes t.gang 0 32))).map (·.base.toNat % 64)) = some 32 ∧
    (readDescriptor 0 (doublesOf 4 ((d [64, 64, 0x81, 0]).padBytes t.gang 0 32))).isSome = true ∧
    Executing (d [1]) t := by
  refine ⟨executing_wm _, ?_, ?_, ?_, ?_, executing_wm _, ?_⟩ <;> decide +kernel

/-- SegmentResults: a sibling in a wait whose g3 a head loads, a boundary with a register to load, a well-formed descriptor. -/
theorem meets_segment_of :
    let t := wt [(2, 0x301), (3, 0)]
    let v := asking { t with tid := 1 } .gbar .barrier (.phase 1)
    let s := padded (two t v) 0 [64, 64, 0x81, 0]
    let b := { t with segNext := [(3, t.getG 1)] }
    Executing s t ∧ t.isHead = true ∧ (t.getG 1).refuses (t.getX 3) 32 32 .read = none ∧
    s.padReadable t 0 32 ∧ s.vectorClear t (.pad 0) 32 = true ∧
    (t.getX 2).extractLsb' 11 53 = 0 ∧ (t.getX 2).extractLsb' 4 4 = 0 ∧
    t.ctx * 16384 + t.core * 16 + ((t.getX 2).extractLsb' 0 4).toNat = v.key ∧ v.key ≠ t.key ∧ s.thread? v.key = some v ∧
    v.open = true ∧ (readDescriptor s.ownNumber (doublesOf 4 (s.padBytes t.gang 0 32))).isSome = true ∧
    (t.getX 2).extractLsb' 8 3 ≠ 0 ∧ b.segNext = [(3, t.getG 1)] ∧
    (t.isHead = true ∧ s.vectorClear t (.pad 0) 32 = true ∧ t.status = .runnable) := by
  refine ⟨⟨rfl, ?_⟩, ?_⟩ <;> decide +kernel

/-- A thread with a vector store in its sequencer. -/
def storing : Thread :=
  let t := wt [(9, 1)]
  t.withEntry (.vst 2 .f32 (ma 1 0 0) ⟨9, 0⟩) (newEntry t 0 (.vst 2 .f32 (ma 1 0 0) ⟨9, 0⟩) [])

/-- FenceAndCacheResults: nothing outstanding, an access outstanding, an operation of an engine, a region in a scratchpad, a
ring that has gone round. -/
theorem meets_fences :
    let t := wt []
    let e := { t with dseq := 1, plate := [⟨1, .copy default none, 0, none, .pending, 0, 0, 0⟩] }
    let r := asking t (.icinv .die 0 0 0) .load (.ring 3)
    Executing (wm t) t ∧ t.memoryClear = true ∧ (wm t).owes t.key = false ∧ t.engines (wm t) = false ∧ e.engines (wm e) = true ∧
    Executing (wm storing) storing ∧ storing.memoryClear = false ∧ t.getX 0 = 0 ∧
    (t.getG 1).type = .scratch ∧ (t.getG 1).refuses 0 64 1 .read = none ∧ (wm t).padReadable t 0 64 ∧
    (∀ n, t.asked ≠ .ring n) ∧ Executing (wm r) r ∧ r.asked = .ring 3 := by
  refine ⟨executing_wm _, ?_, ?_, ?_, ?_, executing_wm _, ?_, ?_, ?_, ?_, ?_, ?_, executing_wm _, ?_⟩ <;>
    first | decide +kernel | nofun

/-- FenceAndCacheResults: what makes a fence wait, each cause; a fence of the thread alone that does not; one line to prefetch; a
region of one page in memory, and an instruction line to drop. -/
theorem meets_fence_causes :
    let t := wt [(2, 64), (3, 100)]
    let s := { wm t with home := [(0, ⟨0, 0, 0, 0, 0x100, 0, false, .store [1], none, none⟩)], nextHome := 1, attrs := [(0, .untracked)] }
    let e := { t with dseq := 1, plate := [⟨1, .copy default none, 0, none, .pending, 0, 0, 0⟩] }
    let p := s.check t.agent (s.gangOf t) (t.getG 0) 0 64 1 .read 0
    storing.memoryClear = false ∧ Executing s t ∧ t.memoryClear = true ∧ s.owes t.key = true ∧ e.engines (wm e) = true ∧
    fenceWaits s t .bench false true false = true ∧ fenceWaits s t .thread false true false = false ∧
    prefCount (t.getG 0) (t.offset (ma 0 0 0)) (min (t.getX 2).toNat 65536) = 1 ∧ p.1 = .ok (.mem 0 0 0x783) ∧
    p.2.sharedFrame 0 = false ∧ p.2.readL1 t.bench t.ctx 0 128 = none ∧
    (t.getG 0).type = .global ∧ (t.getX 3).toNat ≠ 0 ∧ (∀ k ∈ [Kind.read, .write, .fetch],
      (t.getG 0).refuses (t.getX 0) (t.getX 3).toNat 1 k = none ∧
      (match regionPages t k (pieces ((t.getG 0).base.toNat + (t.getX 0).toNat) (t.getX 3).toNat) s with
        | .ok (ps, _) => decide (ps.length = 1)
        | _ => false) = true) ∧ (t.getX 0).toNat = 0 ∧ (∀ k, t.asked ≠ .ring k) := by
  refine ⟨?_, ⟨rfl, ?_⟩, ?_, ?_, ?_, ?_, ?_, ?_, ?_, ?_, ?_, ?_, ?_, ?_, ?_, nofun⟩ <;> decide +kernel

/-- ObjectResults: no object and an object of the context under a number, a region in a scratchpad, one that is empty, a record
that is not valid and one that is, and pages that can be tracked already. -/
theorem meets_objects :
    let t := wt [(5, 65536)]
    let r := asking t (.objdrop 1 2) .load (.ring 3)
    let o := { wm t with objs := [(0, ⟨0, 0, [0], [0, 8], .invalid⟩)] }
    let own := { wm t with attrs := [(0, .tracked)] }
    let own := own.putBench 0 { own.bench 0 with tlb := [⟨0, 0, 0, frameBytes, 0xFA3, 0⟩] }
    let rec' := padded own 0 [0, 3, 4, 0, 8, 0, 0, 0]
    let h := (readShape (doublesOf 8 (rec'.padBytes 0 0 64))).getD ⟨0, false, 0, [], []⟩
    Executing (wm r) r ∧ r.asked = .ring 3 ∧ Executing (wm t) t ∧ t.asked = .none ∧
    Map.get? (wm t).objs (t.part * 2 ^ 19 + (t.getX 2).toNat) = none ∧
    Executing o t ∧ (t.getX 2).toNat < 2 ^ 19 ∧ Map.get? o.objs (t.part * 2 ^ 19 + (t.getX 2).toNat) = some ⟨0, 0, [0], [0, 8], .invalid⟩ ∧
    (t.getG 1).type = .scratch ∧ (t.getG 1).refuses 0 64 1 .write = none ∧ (wm t).padReadable t 0 64 ∧
    (t.getG 0).type = .global ∧ (t.getG 0).refuses 0 (t.getX 2).toNat 1 .write = none ∧ (t.getX 2).toNat = 0 ∧
    Executing own t ∧ (t.getG 0).refuses 0 (t.getX 5).toNat 1 .write = none ∧ 0 < (t.getX 5).toNat ∧
    (t.getX 5).toNat % 65536 = 0 ∧
    (match trackFrames t (pieces 0 (t.getX 5).toNat) own with
      | .ok (some fs, s2) => fs.all fun f => !s2.claims.contains f && Map.get? s2.attrs f == some .tracked
      | _ => false) = true ∧
    readShape (doublesOf 8 ((wm t).padBytes 0 0 64)) = none ∧ Executing rec' t ∧
    readShape (doublesOf 8 (rec'.padBytes 0 0 64)) = some h ∧
    (match shapePages t h.fe (h.units 65536) rec' with
      | .ok (some _, s2) => s2.objs.isEmpty && (s2.freeObject t.part).isSome
      | _ => false) = true := by
  refine ⟨executing_wm _, ?_, executing_wm _, ?_⟩ <;> decide +kernel

/-- ObjectResults: a region of a peer, no page of a region in migration, no release to follow. -/
theorem meets_objects_more :
    let t := { wt [(5, 65536)] with g := (wt []).g.set 2 ⟨.peer, 0, 65536, true, true, false, false, 5⟩ }
    Executing (wm t) t ∧ (t.getG 2).type = .peer ∧ (t.getG 2).refuses 0 (t.getX 5).toNat 1 .write = none ∧
    0 < (t.getX 5).toNat ∧ (t.getX 5).toNat % 65536 = 0 ∧ ((t.getG 2).base.toNat + (t.getX 0).toNat) % 65536 = 0 ∧
    (∀ p ∈ pieces 0 (t.getX 5).toNat, (wm t).migrating t.ctx p.1 = false) ∧ (wm t).padReadable t 0 64 ∧
    (wm t).vectorClear t (.pad 0) 64 = true := by
  refine ⟨executing_wm _, ?_⟩; decide +kernel

/-- ObjectResults: an untracked frame to claim, a page that maps with T = 0, a record one of whose lines is another object's, a
full object table, a page the record does not fit, and a page of a peer. -/
theorem meets_object_statuses :
    let t := wt [(5, 65536)]
    let leaf := fun (e : Word) (s : State) => s.putBench 0 { s.bench 0 with tlb := [⟨0, 0, 0, frameBytes, e, 0⟩] }
    let fresh := leaf 0xFA3 { wm t with attrs := [(0, .untracked)] }
    let plain := leaf 0xF83 (wm t)
    let rec' := padded (leaf 0xFA3 { wm t with attrs := [(0, .tracked)] }) 0 [0, 3, 4, 0, 8, 0, 0, 0]
    let held := { rec' with objs := [(0, ⟨0, 0, [0], [], .invalid⟩)] }
    let small := { rec' with parts := [(0, { Part.oneBench with quarters := [] })] }
    let h := (readShape (doublesOf 8 (rec'.padBytes 0 0 64))).getD ⟨0, false, 0, [], []⟩
    let shaped := fun (s : State) => shapePages t h.fe (h.units 65536) s
    (match trackFrames t (pieces 0 65536) fresh with
      | .ok (some fs, s2) => fs.all fun f => !s2.claims.contains f && Map.get? s2.attrs f == some .untracked
      | _ => false) = true ∧
    (match trackFrames t (pieces 0 65536) plain with
      | .ok (none, _) => true
      | _ => false) = true ∧
    (match (plain.regionPage t 0 (some .write)).1 with
      | .mem _ l => !pteBit l 5
      | _ => false) = true ∧
    (match shaped held with
      | .ok (some ps, s2) => s2.objs.any fun o => o.2.lines.any fun l => ((h.units 128).map fun u => pageAt ps (u * 128) / 128).contains l
      | _ => false) = true ∧
    (match shaped small with
      | .ok (some _, s2) => s2.objs.isEmpty && (s2.freeObject t.part).isNone
      | _ => false) = true ∧
    (match (plain.regionPage t 0 none).1 with
      | .mem _ l => !pteBit l 5
      | _ => false) = true ∧
    (match shapePages t h.fe (h.units 65536) (padded plain 0 [0, 3, 4, 0, 8, 0, 0, 0]) with
      | .ok (none, _) => true
      | _ => false) = true := by decide +kernel

/-- SpawnResults: a thread that is no head; contexts 0, 1, 15 and 16; a free context and one in use; entries. -/
theorem meets_spawn :
    let t := wt [(2, 1), (3, 15), (4, 16), (5, 6), (6, 5)]
    let v := { t with tid := 1 }
    Executing (wm v) v ∧ v.isHead = false ∧ Executing (wm t) t ∧ t.isHead = true ∧ (t.getX 0).toNat < 1 ∧ 15 < (t.getX 4).toNat ∧
    (t.getX 3).toNat ≤ 15 ∧ Executing (two t v) t ∧ (two t v).thread? (t.sibling (t.getX 2).toNat) = some v ∧
    (wm t).thread? (t.sibling (t.getX 3).toNat) = none ∧
    lineRead t (t.getX 5) ∧ isHead loopLine (t.getX 5) = true ∧ lineRead t (t.getX 6) ∧ isHead loopLine (t.getX 6) = false := by
  refine ⟨executing_wm _, ?_, executing_wm _, ?_⟩ <;> decide +kernel

/-- ThreadEnds: siblings Halted, Faulted and Runnable, no sibling, a thread that is no head, a sequencer with an entry, a
head with a sibling that runs and one without. -/
theorem meets_thread_ends :
    let t := wt [(2, 1), (4, 16)]
    let v := { t with tid := 1 }
    let dead := { v with status := .halted 7 }
    let bad := { v with status := .faulted 1 }
    Executing (wm v) v ∧ v.isHead = false ∧ v.seqEmpty = true ∧ Executing (two t dead) t ∧ t.isHead = true ∧ 15 < (t.getX 4).toNat ∧
    (two t dead).thread? (t.sibling (t.getX 2).toNat) = some dead ∧ dead.key = t.sibling (t.getX 2).toNat ∧
    (two t bad).thread? (t.sibling (t.getX 2).toNat) = some bad ∧ dead.status = .halted 7 ∧ bad.status = .faulted 1 ∧
    (∀ e, v.status ≠ .halted e) ∧ (∀ c, v.status ≠ .faulted c) ∧ storing.seqEmpty = false ∧ t.seqEmpty = true ∧
    (∀ u ∈ (two t dead).coreThreads t.ctx t.core, u.key = t.key ∨ u.result.isSome = true) ∧
    (∃ u ∈ (two t v).coreThreads t.ctx t.core, u.key ≠ t.key ∧ u.result = none) := by
  refine ⟨executing_wm _, ?_, ?_, ?_, ?_, ?_, ?_, ?_, ?_, ?_, ?_, nofun, nofun, ?_, ?_, ?_, ?_⟩ <;> decide +kernel

/-- TurnResults: a deadline to come and one past, a message, an access outstanding, barriers reached and not. -/
theorem meets_turns :
    let t := wt [(2, 100)]
    let m := { t with mailbox := [⟨5, 1⟩] }
    let z := { t with status := .waiting ⟨.sleep, .sleep 1 0, 0, 0, 0, 0, .none, false, none⟩ }
    let g := asking t .gbar .barrier (.phase 1)
    let v := { t with tid := 1 }
    let late := { two t v with gangs := [(0, { Gang.single with perCore := [2] })] }
    Executing (wm t) t ∧ (wm t).gtsc.toNat < (t.getX 2).toNat ∧ t.mailbox = [] ∧ (t.getX 0).toNat ≤ (wm t).gtsc.toNat ∧
    Executing (wm m) m ∧ m.mailbox ≠ [] ∧ (wm z).ev.a = z.key ∧ z.parked = false ∧ (z.getX 0).toNat ≤ (wm z).gtsc.toNat ∧
    Executing (wm storing) storing ∧ storing.memoryClear = false ∧ (∀ n, storing.asked ≠ .phase n) ∧
    (∀ n, t.asked ≠ .phase n) ∧ t.memoryClear = true ∧ (wm t).owes t.key = false ∧ (wm t).gang? t.gang = some Gang.single ∧
    ((wm t).putThread { t with gbars := t.gbars + 1 }).gangReached Gang.single (t.gbars + 1) = true ∧
    (late.putThread { t with gbars := t.gbars + 1 }).gangReached { Gang.single with perCore := [2] } (t.gbars + 1) = false ∧
    Executing (wm g) g ∧ g.asked = .phase 1 := by
  refine ⟨executing_wm _, ?_, ?_, ?_, executing_wm _, ?_, ?_, ?_, ?_, executing_wm _, ?_, nofun, nofun, ?_, ?_, ?_, ?_, ?_,
    executing_wm _, ?_⟩ <;> decide +kernel

/-- TurnResults: two threads of a core, neither yielding, one yielding to the other, and one whose 16 cycles have passed; a core
with none. -/
theorem meets_rotation :
    let t := { wt [] with readyAt := 3, yielded := some 3, issuedAt := 2 }
    let u := { wt [] with tid := 1, readyAt := 5, issuedAt := 1 }
    turn [] 0 4 = none ∧ t.mayIssue = true ∧ t.readyAt ≤ 5 ∧ t.eligible [t, u] 5 = false ∧
    (u.issuedAt < 3 ∧ u.mayIssue = true ∧ u.readyAt ≤ 5 ∧ u.key ≠ t.key) ∧ t.eligible [t, u] 4 = true ∧
    t.eligible [t, u] 19 = true ∧ (3 + 16 ≤ 19) ∧ u.yielded = none ∧
    (turn [t, u] 0 4).map (·.1.tid) = some 0 ∧ (turn [t, u] 0 5).map (·.1.tid) = some 1 := by decide +kernel

/-- MessageResults: a number no thread has and one out of range, a receiver with room for one and one that is full, a message to
take, an empty mailbox, and limits reached. -/
theorem meets_messages :
    let t := wt [(2, 1), (3, 2 ^ 14), (4, 2), (5, 9)]
    let v := { t with tid := 1, mailbox := List.replicate 7 ⟨0, 0⟩ }
    let f := { v with mailbox := List.replicate 8 ⟨0, 0⟩ }
    let m := { t with mailbox := [⟨5, 1⟩] }
    let w := { t with status := .waiting ⟨.message, .mrecv 1 2 5, 0, 9, 6, 288, .none, false, none⟩ }
    Executing (two t v) t ∧ 2 ^ 14 ≤ (t.getX 3).toNat ∧ (two t v).thread? (t.ctx * 16384 + (t.getX 4).toNat) = none ∧
    (t.getX 2).toNat < 2 ^ 14 ∧ (two t v).thread? (t.ctx * 16384 + (t.getX 2).toNat) = some v ∧
    v.key = t.ctx * 16384 + (t.getX 2).toNat ∧ (∀ c ∈ (two t v).ctx? v.ctx, c.ringMsgs = []) ∧ v.parked = false ∧
    v.mailbox.length < 8 ∧ 8 ≤ f.mailbox.length ∧ Executing (two t f) t ∧ Executing (wm m) m ∧ m.mailbox = [⟨5, 1⟩] ∧
    t.mailbox = [] ∧ (wm w).ev.a = w.key ∧ w.parked = false ∧ (9 : Nat) * 32 ≤ 288 := by
  refine ⟨?_, ?_, ?_, ?_, ?_, ?_, ?_, ?_, ?_, ?_, ?_, executing_wm _, ?_⟩ <;> decide +kernel

/-- RowResults: a head and a thread that is none, a core at a point, a row free for a core with none. -/
theorem meets_rows :
    let t := wt [(2, 1)]
    let v := { t with tid := 1 }
    let p := { (wm t).putCore 0 { (wm t).core 0 with point := true } with ev := .empty }
    let q := (wm t).putCore 0 { (wm t).core 0 with requests := ⟨4, 0, 0, 0, 0⟩ }
    Executing (wm t) t ∧ t.isHead = true ∧ Executing (wm v) v ∧ v.isHead = false ∧ (p.core p.ev.a).point = true ∧
    ({ q with ev := { Ev.empty with a := 0, b := 0 } }.rowTaker 0 (pipeOf 0)).isSome = true := by
  refine ⟨executing_wm _, ?_, executing_wm _, ?_, ?_⟩ <;> decide +kernel

/-- A machine with the placed context changed. -/
def inCtx (s : State) (f : Ctx → Ctx) : State := { s with ctxs := [(0, f (Ctx.plain 0 0 0))] }

/-- A sprue of a kind with entries and taken entries. -/
def sprueOf (k : SprueKind) (logcap : Nat) (es tk : List SprueEntry) : Sprue := ⟨k, 0, logcap, 0xFFF, 0, 0, 0, es, tk, 3, 0⟩

/-- SprueResults: no such number, a sealed sprue, a full one, one with room, one of an encoder, an empty one, one with an
entry, an entry taken by the gang and one that is not. -/
theorem meets_sprues :
    let t := wt [(2, 64), (3, 1)]
    let m := fun b => inCtx (wm t) fun c => { c with sprues := [(1, b)] }
    let e : SprueEntry := ⟨1, [5, 6, 7, 8], 0, none⟩
    let empty := sprueOf .fifo 4 [] []
    let full := sprueOf .sorted 4 (List.replicate 16 e) []
    Executing (wm t) t ∧ 64 ≤ (t.getX 2).toNat ∧ (wm t).sprue? t.ctx (t.getX 3).toNat = none ∧ (t.getX 3).toNat < 64 ∧
    (m empty).sprue? t.ctx (t.getX 3).toNat = some empty ∧ Executing (m empty) t ∧ t.memoryClear = true ∧
    (m empty).owes t.key = false ∧ (m empty).sprueSealed t.ctx empty = false ∧ empty.full = false ∧ full.full = true ∧
    (m full).sprueSealed t.ctx full = false ∧ empty.eligible t.die = none ∧ full.eligible t.die = some e ∧
    (let b := { empty with donec := 5 }
     ((inCtx (wm t) fun c => { c with sprues := [(1, b)]
                                      counters := [(5, { Counter.fresh with state := .opened, sealed := true })] }).sprueSealed
      t.ctx b) = true) ∧
    (sprueOf .encoder 4 [] []).kind = .encoder ∧ (sprueOf .tile 4 [e] []).eligible 0 = some e ∧
    (∀ e ∈ empty.taken, ¬ (e.seq.setWidth 64 = t.getX 3 ∧ e.holder = some t.gang)) ∧
    (∃ x ∈ [{ e with holder := some 0 }], x.seq.setWidth 64 = t.getX 3 ∧ x.holder = some t.gang) := by
  refine ⟨executing_wm _, ?_⟩; decide +kernel

/-- A counter open at a level. -/
def opened (n : Nat) : Counter := { Counter.fresh with state := .opened, level := BitVec.ofNat 3 n }

/-- PhaseResults: reserved bits and 0xFFF, an open counter and one to open, a parent that is an open phase and one that is
none, and counters that can be sealed and cannot. -/
theorem meets_phases :
    let t := wt [(2, 0x10005), (3, 0xFFF), (4, 5), (5, 6), (6, 0x1000)]
    let m := inCtx (wm t) fun c => { c with counters := [(5, opened 2), (7, opened 0)] }
    Executing m t ∧ (t.getX 2).toNat / 65536 ≠ 0 ∧ (t.getX 3).toNat % 4096 = 0xFFF ∧ (t.getX 4).toNat < 65536 ∧
    (t.getX 4).toNat % 4096 ≠ 0xFFF ∧ (m.counter t.ctx ((t.getX 4).toNat % 4096)).state = .opened ∧
    (t.getX 5).toNat % 4096 ≠ 0 ∧ (m.counter t.ctx ((t.getX 5).toNat % 4096)).state ≠ .opened ∧ (m.ctx? t.ctx).isSome = true ∧
    0xFFF ≤ (t.getX 6).toNat ∧ (t.getX 0).toNat = 0 ∧ (m.counter t.ctx (t.getX 4).toNat).level = 2 ∧
    (m.counter t.ctx (t.getX 4).toNat).sealed = false ∧ (m.counter t.ctx (t.getX 5).toNat).state ≠ .opened ∧
    0 < (t.getX 4).toNat ∧ (t.getX 4).toNat < 0xFFF ∧ (m.counter t.ctx 7).level = 0 := by
  refine ⟨?_, ?_⟩ <;> decide +kernel

/-- The doubles of a launch record of one gang of one thread, with a KB64 of scratchpad, its descriptors at `0x100` and no
counters. -/
def launchWords : List Word := [2, 7, 0x100, 0x0001000000000001, 0, 0, 0, 0x003FFFFFFFFFFFFF]

/-- CounterResults: numbers out of range and 0xFFE, counters done, open, free and being cancelled, a limit reached, a wait for a
cancel, a counter that completes, a phase past its deadline, an ended cancel. -/
theorem meets_counters :
    let t := wt [(2, 0x1000), (3, 0xFFE), (4, 5), (5, 9)]
    let m := inCtx (wm t) fun c => { c with counters := [(5, { opened 2 with state := .done }), (6, opened 2),
                                                         (7, { opened 2 with cancelling := true })] }
    let w := { t with status := .waiting ⟨.children, .cwait 1 4 5, 0, 9, 6, 288, .none, false, none⟩ }
    let p := asking t (.cancel 1 4) .children (.phase 6)
    let q := asking t (.cancel 1 4) .children (.phase 7)
    let placed : Launch := ⟨1, (readLaunch 0 launchWords (List.replicate 32 0)).getD default, .placed, 1, 0, 0, false, false⟩
    let gone := inCtx (wm t) fun c => { c with launches := [(0, placed)] }
    let n := inCtx (wm t) fun c => { c with counters := [(5, { opened 1 with sealed := true, parent := 6 }), (6, opened 2)] }
    let ph : Phase := ⟨0, false, 1, 0, 0, 0, true⟩
    let l := inCtx { wm t with gtsc := 1, ev := { Ev.empty with b := 5 } } fun c =>
      { c with counters := [(5, opened 2)], phases := [(5, ph)] }
    let x := inCtx { wm t with ev := { Ev.empty with b := 5 } } fun c =>
      { c with counters := [(5, { opened 0 with cancelling := true })] }
    Executing m t ∧ 2 ^ 12 ≤ (t.getX 2).toNat ∧ (∀ n, t.asked ≠ .phase n) ∧ (t.getX 3).toNat < 0xFFF ∧
    (m.counter t.ctx (t.getX 4).toNat).state = .done ∧ (m.counter t.ctx (t.getX 3).toNat).state = .free ∧
    (m.counter t.ctx 6).state = .opened ∧ (m.counter t.ctx 7).cancelling = true ∧ (m.counter t.ctx 6).cancelling = false ∧
    Executing (wm w) w ∧ (wm w).ev.a = w.key ∧ w.parked = false ∧ (9 : Nat) ≠ 0 ∧ (9 : Nat) * 32 ≤ 288 ∧
    (m.beginCancel t.ctx 6).thread? t.key = some t ∧ ((gone.beginCancel t.ctx 0).thread? t.key).isNone = true ∧
    p.asked = .phase 6 ∧ q.asked = .phase 7 ∧
    (let k := n.counter 0 5
     k.state = .opened ∧ k.sealed = true ∧ k.pending = 0 ∧ k.cancelling = false ∧ k.parent ≠ 5) ∧
    (Map.get? ((l.ctx? 0).map (·.phases)).get! 5 = some ph ∧ (l.counter 0 5).state = .opened ∧ (l.counter 0 5).late = false ∧
      ph.deadline ≠ 0 ∧ ph.deadline.toNat ≤ l.gtsc.toNat) ∧
    (let k := x.counter x.ev.a x.ev.b
     k.cancelling = true ∧ x.ev.b ≠ 0xFFF ∧ k.level = 0 ∧ k.parent = 0xFFF ∧ k.state = .opened) := by
  refine ⟨?_, ?_, nofun, ?_, ?_, ?_, ?_, ?_, ?_, executing_wm _, ?_⟩ <;> decide +kernel

/-- CounterResults: the counter 0xFFF, which is open to no one, and a cancel of a counter that no launch is under. -/
theorem meets_cancel :
    let t := wt [(2, 0xFFF), (3, 6)]
    let m := inCtx (wm t) fun c => { c with counters := [(6, opened 2)] }
    Executing m t ∧ (t.getX 2).toNat = 0xFFF ∧ (m.counter t.ctx 0xFFF).state = .free ∧ (t.getX 3).toNat < 2 ^ 12 ∧
    (m.counter t.ctx 6).state = .opened ∧ (m.counter t.ctx 6).cancelling = false ∧ (m.ctx? t.ctx).isSome = true ∧
    (∀ c ∈ m.ctx? t.ctx, ∀ l ∈ c.launches, m.launchUnder t.ctx 6 l.2 = false) ∧ (6 : Nat) ≠ 0xFFF := by
  refine ⟨?_, ?_⟩ <;> decide +kernel

/-- LaunchResults: a record in a scratchpad that is accepted, one that is not, and the counters of each refusal. -/
theorem meets_launch :
    let t := wt []
    let m := padded (wm t) 0 launchWords
    let r := readLaunch 0 launchWords (List.replicate 32 0)
    let bad := readLaunch 0 (launchWords.set 3 0) (List.replicate 32 0)
    let c := inCtx (wm t) fun c => { c with counters := [(5, opened 2)] }
    Executing m t ∧ (t.getG 1).type = .scratch ∧ (t.getG 1).refuses 0 64 64 .read = none ∧ m.padReadable t 0 64 ∧
    doublesOf 8 (m.padBytes t.gang 0 64) = launchWords ∧ (t.getG 1).refuses 0x100 256 32 .read = none ∧
    m.padReadable t 0x100 256 ∧ t.memoryClear = true ∧ m.owes t.key = false ∧
    r.isSome = true ∧ bad = none ∧ m.launchStatus 0 0 r = 0 ∧ m.launchStatus 0 0 bad = 2 ∧ (m.ctx? 0).isSome = true ∧
    c.launchStatus 0 0 (r.map ({ · with own := 5 })) = 1 ∧ c.launchStatus 0 0 (r.map ({ · with parent := 6 })) = 2 ∧
    c.launchStatus 0 0 (r.map ({ · with cores := 2, wrows := 1024, ngangs := 1 })) = 0 := by
  refine ⟨?_, ?_⟩ <;> decide +kernel

/-- LaunchResults: no counter of the record is being cancelled; a cooperative record that fits and one that does not. -/
theorem meets_launch_more :
    let m := wm (wt [])
    let r := (readLaunch 0 launchWords (List.replicate 32 0)).getD default
    let big := { r with coop := true, ngangs := 1000000, cores := 8 }
    m.orders = [] ∧ m.coveredBy 0 r.parent = false ∧ (r.own = 0xFFF ∧ r.parent = 0xFFF) ∧
    footOf (m.quartersOf 0) (fun _ => false) [] (m.tileLaunch 0 r) r 0 ≠ none ∧
    footOf (m.quartersOf 9) (fun _ => false) [] (m.tileLaunch 0 r) r 0 = none ∧
    footsOf (m.quartersOf 0) (fun _ => false) (m.tileLaunch 0 r) { r with coop := true } (min r.ngangs gangBound) 0 [] ≠ none ∧
    footsOf (m.quartersOf 0) (fun _ => false) (m.tileLaunch 0 r) big (min big.ngangs gangBound) 0 [] = none := by decide +kernel

/-- CasterSteps: a launch that fits on a partition that runs its context, and a partition with none. -/
theorem meets_caster :
    let r := (readLaunch 0 launchWords (List.replicate 32 0)).getD default
    let m := inCtx { wm (wt []) with threads := [], gangs := [], ev := .empty } fun c =>
      { c with launches := [(0, ⟨1, r, .queued, 0, 0, 0, false, false⟩)], nextLaunch := 1 }
    let s1 := (m.sweep 0).classify 0
    let f := (s1.firstPlacement 0 0 true (s1.casterOrder 0 0)).getD (9, [])
    m.sliceCtx 0 = some 0 ∧ f.1 = 0 ∧ f.2.length = 1 ∧ (s1.ctx? 0).isSome = true ∧ (s1.launch? 0 0).isSome = true ∧
    (∀ p ∈ f.2, r.cores = p.cores.length ∧ p.cores.Nodup ∧ ∀ k ∈ p.cores, (p.bench * 8 + k) * 16 < 2 ^ 14) ∧
    { m with parts := [] }.sliceCtx 0 = none := by decide +kernel

/-- A member captured for a `vloop`. -/
def member : SeqEntry := { newEntry (wt [(9, 4)]) 0 (.vld 2 .f32 (ma 1 0 0) ⟨9, 0⟩) [] with member := true }

/-- VectorAcceptance: a thread that accepts, one that waits for an entry that is there and for one that is gone, a full
sequencer, a capturing loop, descriptors of a texture that read and do not, and a loop that starts an iteration and one that
has ended. -/
theorem meets_acceptance :
    let t := wt [(9, 4)]
    let i := Instr.vmov 1 (vs 2) .f32 ⟨9, 0⟩
    let e := newEntry t 7 (.kpop 1 1 9) []
    let here := asking { t with seq := [e] } (.kpop 1 1 9) .sequencer (.vector 7)
    let gone := asking t (.kpop 1 1 9) .sequencer (.vector 7)
    let full := { t with seq := List.replicate 16 e }
    let cap := { t with vloop := some ⟨2, 3, 4, 8, 2, [], 0, 0, 0⟩ }
    let run := { t with vloop := some ⟨2, 3, 4, 8, 0, [member], 0, 0, 5⟩ }
    let tex := doublesOf 8 (List.replicate 64 0)
    Executing (wm t) t ∧ t.accepts ∧ entersSequencer i = true ∧ answersScalar i = false ∧ answersScalar (.kpop 1 1 9) = true ∧
    here.asked = .vector 7 ∧ here.entryGone 7 = false ∧ gone.entryGone 7 = true ∧ 16 ≤ full.entriesTaken ∧
    cap.entriesTaken < 16 ∧ mayMember i = true ∧ t.vloop = none ∧ t.loopRec = none ∧ Ty.f32.bits ∈ [8, 16, 32] ∧
    t.getX 9 ≠ 0 ∧ (t.getX 0).toNat % 64 = 0 ∧ (wm t).padReadable t 0 1056 ∧ (t.getG 1).type = .scratch ∧
    (t.getG 1).refuses 0 64 64 .read = none ∧ (wm t).padReadable t 0 64 ∧ (Machine.readTex tex).isSome = true ∧
    (Machine.readTex (tex.set 4 1)).isNone = true ∧ (wm run).thread? run.key = some run ∧ 0 ≤ run.seq.length ∧
    (0 : Nat) < 3 ∧ memShape member.instr ≠ none ∧ 1 < member.xs.length := by
  refine ⟨executing_wm _, ⟨nofun, ?_⟩, ?_⟩ <;> decide +kernel

/-- VectorAcceptance: the last member of a loop, with a count of none and with one, guards that are ready, and no active
element. -/
theorem meets_members :
    let t := wt [(9, 4)]
    let l : VLoop := ⟨2, 0, 4, 8, 1, [], 0, 0, 0⟩
    let v := { t with vloop := some l }
    let i := Instr.vld 2 .f32 (ma 1 0 0) ⟨9, 0⟩
    let l' := { l with members := l.members ++ [{ newEntry t (wm v).stamps i [] with member := true }], left := 0, mark := (wm v).stamps }
    let x := Instr.tfetch 1 2 1 3 ⟨9, 1⟩
    Executing (wm v) v ∧ (∀ n, v.asked ≠ .vector n) ∧ v.entriesTaken < 16 ∧ v.vloop = some l ∧ l.left = 1 ∧
    mayMember i = true ∧ v.replay = none ∧ l'.trims = false ∧ l.count ≤ l.iter ∧
    Executing (wm t) t ∧ t.accepts ∧ (∀ f ∈ t.held, ∀ w ∈ f.shape.kwrites, w.1 ≠ 1) ∧
    (∀ el < (newEntry t 0 x []).vl, t.active 1 el = false) ∧ (∃ el < (newEntry t 0 (.tfetch 1 2 1 3 ⟨9, 0⟩) []).vl, t.active 0 el = true) ∧
    (wm t).orders = [] ∧ t.memoryClear = true := by
  refine ⟨executing_wm _, nofun, ?_, rfl, ?_, ?_, ?_, ?_, ?_, executing_wm _, ⟨nofun, ?_⟩, ?_⟩ <;> decide +kernel

/-- An entry of thread `t` accepted for `i`. -/
def entry (t : Thread) (i : Instr) : SeqEntry := newEntry t 7 i []

/-- A group of results of no effect. -/
def noOut : GroupOut := ⟨0, [], [], [], 0, 0, [], none⟩

/-- A thread with a move of two groups in its sequencer. -/
def moving : Thread := { wt [(9, 33)] with seq := [entry (wt [(9, 33)]) (.vmov 1 (vs 2) .f32 ⟨9, 0⟩)] }

/-- GroupSteps: a core with a ready group and no row, one with its rows, and entries with a group in a row, not the last and the
last. -/
theorem meets_groups :
    let m := wm moving
    let g := m.putCore 0 { m.core 0 with requests := ⟨1, 0, 0, 0, 0⟩, grants := ⟨1, 0, 0, 0, 0⟩ }
    let one := { moving with seq := moving.seq.map fun e : SeqEntry => { e with rows := [noOut], entered := 1 } }
    let last := { moving with seq := moving.seq.map fun e : SeqEntry => { e with rows := [noOut], entered := 2, delivered := 1 } }
    m.implicitPipe m.ev.a = some .mad ∧ g.implicitPipe g.ev.a = none ∧ (g.nextGroup g.ev.a).isSome = true ∧
    g.thread? 0 = some moving ∧ (∀ e ∈ moving.seq[0]?, checksElements e.instr = false) ∧
    (wm one).thread? (wm one).ev.a = some one ∧ (one.seq.findIdx? fun e => e.num == 7) = some 0 ∧
    (∀ e ∈ one.seq[0]?, e.rows = [noOut] ∧ e.delivered + 1 ≠ e.total) ∧
    (∀ e ∈ last.seq[0]?, e.delivered + 1 = e.total ∧ e.stop = false ∧ e.member = false) := by decide +kernel

/-- GroupSteps: a delivery of a stopped entry, of a pass form and of the last group of a member beside another. -/
theorem meets_deliveries :
    let t := moving
    let e := fun (i : Instr) (f : SeqEntry → SeqEntry) => f { entry t i with rows := [noOut], entered := 1 }
    let p : Instr := .vhadPass 1 (vs 2) .f32 0 .rne ⟨9, 0⟩
    let m := fun (es : List SeqEntry) => wm { t with seq := es }
    let stop := e (.vmov 1 (vs 2) .f32 ⟨9, 0⟩) fun e => { e with stop := true, entered := 2, delivered := 1 }
    let pass := e p id
    let mem := e (.vmov 1 (vs 2) .f32 ⟨9, 0⟩) fun e => { e with member := true, entered := 2, delivered := 1 }
    (∀ x ∈ [stop, pass, mem], (m [x, { mem with num := 8 }]).thread? 0 = some { t with seq := [x, { mem with num := 8 }] } ∧ x.rows = noOut :: []) ∧
    stop.stop = true ∧ pass.delivered + 1 ≠ pass.total ∧ pass.instr = p ∧ mem.delivered + 1 = mem.total ∧ mem.stop = false ∧
    mem.member = true := by decide +kernel

/-- VectorIntegerResults, VectorMoveResults, VectorFloatResults: entries of each kind of form, integer and floating-point. -/
theorem meets_vectors :
    let t := tv 32 [1, 2] [3, 4] 1 2
    Ty.i32.isInt = true ∧ Ty.f32.isInt = false ∧
    (entry t (.vadd ⟨1, vs 2, .vec (vs 3), .i32, true, .rne, ⟨9, 0⟩⟩)).instr = .vadd ⟨1, vs 2, .vec (vs 3), .i32, true, .rne, ⟨9, 0⟩⟩ ∧
    (entry t (.vmov 1 (vs 2) .f32 ⟨9, 1⟩)).instr = .vmov 1 (vs 2) .f32 ⟨9, 1⟩ ∧
    (entry t (.vhad 1 (vs 2) .f32 0 .rne ⟨9, 0⟩)).passIn = [] ∧
    staticMode .rne (entry t (.vcvt ⟨1, vs 2, .f16, .f32, 0, false, .rne, ⟨9, 0⟩⟩)).rm (Ty.narrowing .f16 .f32) = some .rne ∧
    staticMode .rsr (entry t (.vcvt ⟨1, vs 2, .f16, .f32, 0, false, .rsr, ⟨9, 0⟩⟩)).rm (Ty.narrowing .f16 .f32) = none ∧
    (∃ el ∈ [0, 31], el / 32 = 0) ∧ (readFp .f32 0x7FC00000).isNaN = true ∧ readFp .f32 0x3F800000 = .fin false 1 ∧
    (∀ n m, readFp .f32 0x7F800000 ≠ .fin n m) ∧ (0 : Rat) < 1 ∧ (1 : Rat) < pow2 (emaxOf .fp8e4 - 127) + 1 ∧
    pow2 (emaxOf .fp8e4 - 127) ≤ 1 ∧ pow2 (-130) < pow2 (emaxOf .fp8e4 - 127) := by
  have h : readFp .f32 0x7F800000 = .inf false := by decide +kernel
  rw [h]
  refine ⟨?_, ?_, ?_, ?_, ?_, ?_, ?_, ?_, ?_, ?_, nofun, ?_⟩ <;> decide +kernel

/-- ReductionResults: no active element, one, and two; the first of a scan. -/
theorem meets_reductions :
    let live := fun (t : Thread) (i : Instr) => (List.range Ty.i32.vlmax).filter fun el => decide (el < (entry t i).vl) && t.active 1 el
    let r : Instr := .vred .add 1 (vs 2) .i32 false .rne ⟨9, 1⟩
    (entry (tv 32 [] [] 0 2) r).passIn = [] ∧ live (tv 32 [] [] 0 2) r = [] ∧ live (tv 32 [] [] 2 2) r = [1] ∧
    live (tv 32 [] [] 3 2) r = [0, 1] ∧ (∀ el ∈ [0, 1], el ∈ live (tv 32 [] [] 3 2) r) ∧
    (live (tv 32 [] [] 3 2) r).head? = some 0 := by decide +kernel

/-- A thread whose g1 is a scratchpad segment of 4 KiB, with a `vwait`, its flags and its expected values. -/
def flags (a b : List Nat) : Thread := { tv 32 a b 0 1 with g := (wt []).g, line := some (0, loopLine) }

/-- ReductionResults: the pairwise tree of R77 over any leaves. -/
def treeNode (join : Option (Nat × Flags) → Option (Nat × Flags) → Option (Nat × Flags)) (leaf : Nat → Option (Nat × Flags)) :
    Nat → Nat → Option (Nat × Flags)
  | 0, i => leaf i
  | lv + 1, i => join (treeNode join leaf lv (2 * i)) (treeNode join leaf lv (2 * i + 1))

/-- ReductionResults: values of the nodes by the tree's two rules, its root over the four bytes of a double's half, and bit patterns of
a type. -/
theorem meets_tree :
    let join : Option (Nat × Flags) → Option (Nat × Flags) → Option (Nat × Flags) := fun a b => match a, b with
      | some x, some y => some (x.1 + y.1, x.2 ||| y.2)
      | none, y => y
      | x, none => x
    let node := treeNode join fun i => if i ∈ [0, 1] then some (i + 1, 0) else none
    (∀ i, node 0 i = if i ∈ [0, 1] then some (i + 1, 0) else none) ∧
    (∀ lv i, node (lv + 1) i = join (node lv (2 * i)) (node lv (2 * i + 1))) ∧
    node (Nat.log2 Ty.i32.vlmax) 0 = some (3, 0) ∧ 5 < 2 ^ Ty.i32.bits := by
  refine ⟨fun _ => rfl, fun _ _ => rfl, ?_⟩; decide +kernel

/-- GroupSteps: a bit that a group still to enter reads. -/
theorem meets_reads :
    let one := { moving with seq := moving.seq.map fun e : SeqEntry => { e with rows := [noOut], entered := 1 } }
    ∃ e r, one.seq[0]? = some e ∧ e.shape.reads.head? = some r ∧ 1 ∈ e.toRead ∧ r.2.2.base + 1 * r.2.2.step ≤ 1024 ∧
      1024 < r.2.2.base + 1 * r.2.2.step + r.2.2.size ∧ e.delivered + 1 ≠ e.total := by
  refine ⟨_, _, rfl, rfl, ?_⟩; decide +kernel

/-- VectorMemoryResults: a vector load, store and atomic whose elements pass their checks and one that does not; a `vwait` with
entries before it, with no row, met, unmet, woken and at its limit. -/
theorem meets_vector_memory :
    let t := flags [0xFFC, 0x1000] [0]
    let i := Instr.vwait 1 .eq (vs 2) (vs 3) true 1 4 ⟨9, 0⟩
    let u := flags [0] [5]
    let met := flags [0] [0]
    let g := fun (t : Thread) => (wm t).putCore 0 { (wm t).core 0 with grants := ⟨0, 1, 0, 0, 0⟩ }
    let w := { u with status := .waiting ⟨.sleep, i, 0, 9, 6, 288, .data, false, none⟩ }
    (memShape (.vldx 1 .i32 (ma 1 0 0) 2 ⟨9, 0⟩)).isSome = true ∧ (memShape (.vst 1 .f32 (ma 1 0 0) ⟨9, 0⟩)).isSome = true ∧
    (memShape (.vamo .add 1 .i32 1 0 0 2 ⟨9, 0⟩)).isSome = true ∧ (t.getG 1).type = .scratch ∧
    (t.getG 1).refuses 0xFFC 4 4 .read = none ∧ (wm t).padReadable t 0xFFC 4 ∧
    (t.getG 1).refuses 0x1000 4 4 .read = some Cause.segmentLimit ∧
    Executing (wm storing) storing ∧ storing.seqEmpty = false ∧ Executing (wm u) u ∧ u.seqEmpty = true ∧
    waitEls u true ⟨9, 0⟩ = [0] ∧ waitEls u true ⟨0, 0⟩ = [] ∧ ((wm u).core u.core).grants.ld = 0 ∧
    0 < ((g u).core u.core).grants.ld ∧ (u.getG 1).refuses (BitVec.ofNat 64 (u.elem 2 .n32 0)) 4 4 .read = none ∧
    (g u).padReadable u 0 4 ∧ leNat ((g u).padBytes 0 0 4) ≠ u.elem 3 .n32 0 ∧
    leNat ((g met).padBytes 0 0 4) = met.elem 3 .n32 0 ∧ (g w).ev.a = w.key ∧ w.parked = false ∧ (9 : Nat) * 32 ≤ 288 := by
  refine ⟨?_, ?_, ?_, ?_, ?_, ?_, ?_, executing_wm _, ?_, executing_wm _, ?_⟩ <;> decide +kernel

/-- VectorMemoryResults: no release to follow; an atomic's element in the scratchpad. -/
theorem meets_vector_memory_more :
    let t := flags [0xFFC] [0]
    (wm t).orders = [] ∧ (t.getG 1).refuses 0xFFC 4 4 .write = none := by decide +kernel

/-- AnvilResults: formats taken and turned away, window words, tiles inside and outside the window at its edges, operands of v
registers that fit, tickets pending and not. -/
theorem meets_anvil :
    let t := wt [(2, 0x00FC04040022), (3, 0x100), (4, 0x00040001), (5, 255), (6, 0x01FC00FC), (7, 0x0010000), (8, 16), (10, 0x10000)]
    let v := { t with tid := 1 }
    let f := t.getX 2
    let rows := t.window.getD ⟨0, 0⟩
    let q := { wm t with benches := [(0, { (wm t).bench 0 with anvil := [⟨0, 0, 1, .zero, 0, 0, 1, 1, 0, 0, 0, 0, 0, none, 0, 0, 0, 0, 0⟩] })] }
    Executing (wm v) v ∧ v.isHead = false ∧ Executing (wm t) t ∧ t.isHead = true ∧ t.accepts ∧
    f.extractLsb' 46 18 = 0 ∧ f.extractLsb' 8 10 = 0 ∧ (f.extractLsb' 0 4).toNat ∈ [2, 3] ∧ (f.extractLsb' 4 4).toNat ∈ [2, 3, 7] ∧
    ¬ ((t.getX 3).extractLsb' 46 18 = 0 ∧ (t.getX 3).extractLsb' 8 10 = 0) ∧
    15 < (t.getX 5).toNat ∧ (wm t).thread? (t.sibling 0) = some t ∧ rows.rows = 256 ∧
    (t.getX 5).extractLsb' 0 10 = 255 ∧ 255 + 1 ≤ rows.rows ∧ rows.rows < 255 + 2 ∧
    firstMiss ((wm t).gangOf t) (tileRanges (t.getX 10) (t.getX 10) 4 1 1) = none ∧
    (∀ n ∈ (wm t).anvilTickets t, (t.getX 0).toNat < n) ∧ (∃ n ∈ q.anvilTickets t, n ≤ (t.getX 8).toNat) := by
  refine ⟨executing_wm _, ?_, executing_wm _, ?_, ⟨nofun, ?_⟩, ?_⟩ <;> decide +kernel

/-- Registers for a copy in the scratchpad with a follow-on `mma` of two rows and columns, and the machine with its format. -/
def copying : Thread :=
  wt [(4, 0), (5, 0x10), (6, 64), (7, 63), (20, 0x100), (21, 128), (22, 0x400), (23, 128), (25, 0x1614), (30, 0x1000200000), (31, 0x300)]

/-- The machine of a thread whose core has a format of two rows, two columns and a depth of three. -/
def formatted (t : Thread) : State := (wm t).putCore 0 { (wm t).core 0 with format := 0x804040055 }

/-- AnvilResults: counts of none and tiles inside; operands in the scratchpad that pass every check. -/
theorem meets_mma :
    let t := copying
    let s := formatted t
    let a := AnvilSrc.pad (t.getX 20) (t.getX 21)
    let b := AnvilSrc.pad (t.getX 22) (t.getX 23)
    Executing s t ∧ PairClean (t.getX 20) (t.getX 21) ∧ MmaClean s t (t.getX 0) a b ∧ t.accepts ∧
    ((t.getX 0).extractLsb' 16 10).toNat = 0 := by
  refine ⟨⟨rfl, ?_⟩, ?_, ?_, ⟨nofun, ?_⟩, ?_⟩
  all_goals first | (unfold PairClean; decide +kernel) | skip
  all_goals first | (unfold MmaClean OperandClean PairClean; decide +kernel) | decide +kernel

/-- ScratchResults: numbers 7, 8, 15 and 16, a buffer with and without free and filled slots, none, descriptors that are
clean and not, barriers at their last arrival, full and empty words, and limits reached. -/
theorem meets_scratch :
    let t := wt [(2, 8), (3, 16), (4, 7), (5, 15), (6, 0x0001000000000040), (7, 0x0001000000000001)]
    let b : CircBuf := ⟨0, 64, 2, 1, 1, 0, 0, 0, 0⟩
    let bar : Barrier := ⟨1, 1, 0, 0, false⟩
    let g := { Gang.single with cbs := [(7, b)], bars := [(15, bar)], fullTags := [(8, true)] }
    let m := { wm t with gangs := [(0, g)] }
    let w := { t with status := .waiting ⟨.circularBuffer, .cbacqW 1 4, 0, 9, 6, 288, .none, false, none⟩ }
    let x := t.getX 6
    let y := t.getX 7
    Executing m t ∧ m.gang? t.gang = some g ∧ 7 < (t.getX 2).toNat ∧ 15 < (t.getX 3).toNat ∧ (t.getX 4).toNat ≤ 7 ∧
    Map.get? g.cbs (t.getX 4).toNat = some b ∧ Map.get? g.cbs (t.getX 0).toNat = none ∧
    m.slotRequests 0 7 true m.stamps < b.free ∧ m.slotRequests 0 7 false m.stamps < b.filled ∧ t.memoryClear = true ∧
    m.owes t.key = false ∧ (t.getX 0).toNat ≤ b.wheld ∧ b.rheld < (t.getX 4).toNat ∧ x ≠ 0 ∧
    (x.extractLsb' 56 8 = 0 ∧ x.extractLsb' 42 6 = 0 ∧ x.extractLsb' 22 10 = 0 ∧ (x.extractLsb' 0 22).toNat % 64 = 0) ∧
    (y.extractLsb' 0 22).toNat % 64 ≠ 0 ∧ allotMiss (some g) (x.extractLsb' 0 22).toNat (2 * 64) = none ∧
    (∀ o ∈ m.gangPlates 0, o.targets.1 ≠ some 0 ∧ o.targets.2 ≠ some 15) ∧
    (t.getX 5).toNat ≤ 15 ∧ Map.get? g.bars (t.getX 5).toNat = some bar ∧ Map.rising g.bars = true ∧
    Map.get? g.bars (t.getX 4).toNat = none ∧ bar.phase.toNat = (t.getX 0).toNat % 2 ^ 32 ∧ bar.phase.toNat ≠ (t.getX 4).toNat % 2 ^ 32 ∧
    m.barWaited 0 15 = false ∧ (t.getG 1).type = .scratch ∧ allotMiss (some g) 8 8 = none ∧ m.vectorClear t (.pad 8) 8 = true ∧
    (t.getG 1).refuses 8 8 8 .read = none ∧ Map.getD g.fullTags 8 false = true ∧ Map.getD g.fullTags 16 false = false ∧
    (t.getG 1).refuses 16 8 8 .write = none ∧ (wm w).ev.a = w.key ∧ w.parked = false ∧ (9 : Nat) * 32 ≤ 288 := by
  refine ⟨?_, ?_⟩ <;> decide +kernel

/-- An anvil operation of one row or block of thread 0, of one kind and a format word. -/
def beatOp (k : AnvilKind) (rows cols depth : Nat) (f : Word) : AnvilOp :=
  ⟨0, 0, 1, k, 0, 0, rows, cols, depth, f, 0, 0, 1, none, 0, 0, 0, 0, 0⟩

/-- The machine whose first anvil operation in core 0 is given, with its bench's poisoned cells. -/
def beating (o : AnvilOp) (bad : List Nat) : State :=
  let m := wm { wt [] with window := some ⟨8, 0⟩ }
  { m with benches := [(0, { m.bench 0 with anvil := [o], badCells := bad })] }

/-- A thread whose entry moves a row of the accumulator, all its groups out. -/
def rowMoving (i : Instr) : Thread :=
  { wt [] with window := some ⟨8, 0⟩
               seq := [{ newEntry (wt []) 0 i [0, 0, 2, 0] with xs := [0, 0, 2], entered := 1 }] }

/-- AnvilSteps: the operations whose beat is ready, with clean and poisoned cells; a row to deliver and to write. -/
theorem meets_anvil_steps :
    let copy := AnvilKind.copy .f32 false 0 0 0
    let mma := { beatOp (.mma true (.pad 0 0) (.pad 0 0)) 2 2 3 0x804040055 with left := 1 }
    let row := wm (rowMoving (.mwrow 1 .f32 4 5))
    let ready := fun o bad => (beating o bad).firstOp (beating o bad).ev.a = some o ∧ (beating o bad).beatReady o = true ∧
      ((beating o bad).opGang o).isSome = true ∧ ((beating o bad).opThread o).isSome = true ∧ o.col + o.cols ≤ 512
    ready (beatOp .zero 2 2 1 0) [] ∧ ready (beatOp (.load .f32 0 0) 2 1 1 0) [] ∧ ready (beatOp copy 2 1 1 0) [] ∧
    ((beating (beatOp copy 2 1 1 0) []).bench 0).badRange 0 1 0 1 = false ∧ ready (beatOp copy 2 1 1 0) [0] ∧
    ((beating (beatOp copy 2 1 1 0) [0]).bench 0).badRange 0 1 0 1 = true ∧
    ready mma [] ∧ pairInt mma.format = true ∧ (fmtM mma.format, fmtN mma.format, fmtK mma.format) = (2, 2, 3) ∧
    ((beating mma []).bench 0).badRange 0 2 0 2 = false ∧ (row.thread? row.ev.a).isSome = true ∧
    (∀ i ∈ [Instr.mrow 1 .f32 4 5 true .rne, .mwrow 1 .f32 4 5], (wm (rowMoving i)).rowReady (rowMoving i) 0 = true) ∧
    ((rowMoving (.mwrow 1 .f32 4 5)).seq.findIdx? fun e => e.num == 0) = some 0 := by decide +kernel

/-- AnvilSteps: float pairs whose products are finite with a sum that is none, infinite, and no numbers; rows of 16-bit types, cells
clean; a gang with no poisoned line. -/
theorem meets_block_sums :
    let f : Word := 0x804040011
    let a := fun (bs : List (Nat × Byte)) => Machine.readOperand { Gang.single with bytes := bs } (.pad 0 128) 2 3 16
    let prod := fun bs k => (codeVal (fmtA f) ((a bs).elem 16 0 k)).times (codeVal (fmtB f) ((a bs).elem 16 0 k))
    let o := { beatOp (.mma true (.pad 0 128) (.pad 0 128)) 2 2 3 f with left := 1 }
    let half := wm (rowMoving (.mrow 1 .f16 4 5 true .rne))
    pairInt f = false ∧ pairMx f = false ∧ (o.rows, o.cols, o.depth) = (fmtM f, fmtN f, fmtK f) ∧ (beating o []).beatReady o = true ∧
    Gang.single.bad = [] ∧ (beating o []).gang? 0 = some Gang.single ∧ o.key < 2 ^ 40 ∧
    prod [(1, 0x3C)] 0 = .fin false 1 ∧ prod [(1, 0x3C)] 1 = .fin false 0 ∧ prod [(1, 0x7C)] 0 = .inf false ∧
    (prod [(1, 0x7E)] 0).isNaN = true ∧ (half.bench 0).badRange 0 1 0 2 = false ∧ (2 : Nat) ≤ Ty.f16.vlmax ∧
    (readFp .f16 0x7E00).isNaN = true ∧ readFp .f16 0x7C00 = .inf false ∧ readFp .f16 0x3C00 = .fin false 1 := by decide +kernel

/-- AnvilSteps: an `mma` all of whose blocks are added, with a row to release; the turn of a core with a beat to take. -/
theorem meets_release_of_rows :
    let o := { beatOp (.mma true (.pad 0 0) (.pad 0 0)) 2 2 3 0x804040055 with done := 1, freed := 0 }
    let s := beating o []
    let z := beating (beatOp .zero 2 2 1 0) []
    (s.bench (s.ev.a / 8)).anvil = [o] ∧ o.core = s.ev.a ∧ o.added = true ∧ s.opParked o = false ∧ o.freed + 1 < o.rows ∧
    (∀ f ∈ (z.bench (z.ev.a / 8)).anvil, f.core = z.ev.a → f.added = false) ∧
    z.beatTurn (z.bench (z.ev.a / 8)).anvilTurn z.anvilWork z.ev.a = true ∧ z.banks = [] ∧
    (∀ t ∈ z.opThread (beatOp .zero 2 2 1 0), some t.gang = (z.opGang (beatOp .zero 2 2 1 0)).map (·.1)) := by decide +kernel

/-- A drawplate operation of ticket 1: a row of 64 bytes from offset 0 of g1 to byte 64, its status given. -/
def plateOp (st : PlateStatus) : PlateOp :=
  ⟨1, .copy ⟨2, (wt []).getG 1, 0, 64, 1, 64, 0, 64, 0, none, none⟩ none, 0, none, st, 0, 0, 0⟩

/-- Element 0 of four i32 elements of g1 has arrived. -/
def stream : Stream := ⟨.i32, 0, 0, (wt []).getG 1, 0, 4, 4, 1, 0, [⟨0, 5, none⟩]⟩

/-- DrawplateResults: copies that pass their checks with and without a follow-on command, reserved bits, a reduction and its
list, operations of each status and none, streams refused and opened, elements there and to come. -/
theorem meets_drawplate :
    let t := wt [(4, 0), (5, 0x10), (6, 64), (7, 63), (8, 1), (9, 4), (10, 1), (11, 0x400), (13, 0x2000), (14, 0x100000000)]
    let full := { t with plate := List.replicate 16 (plateOp .pending) }
    let of := fun st => { t with dseq := 1, plate := [plateOp st] }
    let w := fun b : Stream => { t with w := t.w.set 0 (some b) }
    let m := padded (wm t) 0 [0, 1]
    let es := [(0, 1)]
    Executing (wm t) t ∧ 16 ≤ full.outstanding ∧ t.outstanding < 16 ∧ (copyM t 4 6 7 (wm t)).toOption.isSome = true ∧
    (t.getX (10 + 1)).extractLsb' 11 5 = 0 ∧ (t.getX (12 + 1)).extractLsb' 11 5 ≠ 0 ∧
    (t.getX 4).extractLsb' 38 26 = 0 ∧ (t.getX 4).extractLsb' 26 6 = 0 ∧ (t.getX 4).getLsbD 37 = false ∧
    m.padReadable t 0 16 ∧ readSources 1 (m.padBytes t.gang 0 16) = some es ∧
    (∀ e ∈ es, (t.getG (BitVec.ofNat 3 e.2)).refuses e.1 (1 * 4) 1 .read = none) ∧ m.padReadable t 64 4 ∧
    (∃ o ∈ (of .pending).plate, o.ticket ≤ 1 ∧ o.status = .pending) ∧ (∀ o ∈ (of .complete).plate, o.status = .complete) ∧
    (of (.faulted 5 0 false)).plate = [] ++ plateOp (.faulted 5 0 false) :: [] ∧
    (∀ o ∈ t.plate, o.ticket = 1 → o.slot = none) ∧ t.getX 0 = 0 ∧ t.getX 9 ≠ 0 ∧ (t.getX 8).toNat % 4 ≠ 0 ∧
    2 ^ 32 ≤ (t.getX 14).toNat ∧ streamRefusal (m.gangOf t) (t.getG 1) 0 4 4 4 = none ∧
    streamRefusal (m.gangOf t) (t.getG 1) 0x1000 4 4 4 = some (Cause.segmentLimit, 0x1000) ∧ t.getW 0 = none ∧
    (w stream).getW 0 = some stream ∧ Ty.i64.bits ≠ stream.ty.bits ∧ Ty.i32.bits = stream.ty.bits ∧ (w stream).held = [] ∧
    stream.arrived.length < min 2 (4 - 0) ∧ min 1 (4 - 0) ≤ stream.arrived.length ∧ (∀ e ∈ stream.arrived, e.fault = none) := by
  decide +kernel

/-- DrawplateResults: a copy that passes each check written out, with a follow-on command; a reduction whose barrier is
there. -/
theorem meets_copy :
    let t := copying
    let s := formatted t
    let y := t.getX 5
    let z := t.getX 6
    let v := t.getX 7
    let c : PlateCopy := ⟨2, t.getG 0, t.getX 4, (v.extractLsb' 32 32).toInt, 1, 63, 0, 64, 0, none, none⟩
    let x := t.getX 25
    let bars := { s with gangs := [(0, { Gang.single with bars := [(3, ⟨1, 1, 0, 0, false⟩)] })] }
    y.extractLsb' 22 42 = 0 ∧ y.extractLsb' 11 5 = 0 ∧ z.extractLsb' 44 20 = 0 ∧ (y.extractLsb' 3 2).toNat = 2 ∧
    (v.extractLsb' 0 16).toNat = 63 ∧ y.extractLsb' 0 3 = 0 ∧ y.getLsbD 10 = false ∧ (y.extractLsb' 5 5).toNat = 0 ∧
    y.getLsbD 21 = false ∧ c.miss (s.gangOf t) (some 64) = none ∧
    x.extractLsb' 6 2 = 0 ∧ x.extractLsb' 14 2 = 0 ∧ x.extractLsb' 17 47 = 0 ∧ x.extractLsb' 0 6 = 20 ∧
    x.extractLsb' 8 6 = 22 ∧ (bars.bar? t.gang 3).isSome = true ∧
    padSide (s.gangOf t) (t.getG 1) 0 4 = none := by decide +kernel

/-- DrawplateResults: the beat of a reduction whose fork is done, over a source in the scratchpad; an element of a stream that has met
a fault, behind one that has not. -/
theorem meets_reduction_beat :
    let c : PlateRed := ⟨.add, .i32, [((wt []).getG 1, 0)], 64, 4, none⟩
    let o : PlateOp := ⟨1, .red c, 4, none, .pending, 0, 0, 0⟩
    let t := { wt [] with dseq := 1, plate := [o] }
    let m := wm t
    let b := { stream with arrived := [⟨0, 5, none⟩, ⟨1, 0, some (0x0B, 4)⟩] }
    m.thread? t.key = some t ∧ m.gang? t.gang = some Gang.single ∧ Gang.single.bad = [] ∧ m.banks = [] ∧
    m.beatTurn (m.bench (m.ev.a / 8)).plateTurn m.plateReady m.ev.a = true ∧
    m.plateWork m.ev.a = .op t.gang (.thread t.key) o :: [] ∧ m.forkDone (.thread t.key) o = true ∧ c.t.bits ∈ [16, 32] ∧
    c.srcs ≠ [] ∧ o.mark = 1 * (c.t.bits / 8) ∧ 1 < c.n ∧
    (∀ x ∈ c.srcs, x.1.type = .scratch ∧ x.1.refuses (x.2 + BitVec.ofNat 64 4) (3 * 4) 1 .read = none ∧
      allotMiss (some Gang.single) (x.1.base.toNat + (x.2 + BitVec.ofNat 64 4).toNat) (3 * 4) = none) ∧
    (∃ e, b.arrived[1]? = some e ∧ e.fault = some (0x0B, 4) ∧ 1 < min 4 (b.count - b.consumed)) ∧
    (∀ i < 1, ∀ e ∈ b.arrived[i]?, e.fault = none) ∧ (wt []).asked ≠ .elements := by
  refine ⟨?_, ?_, ?_, ?_, ?_, ?_, ?_, ?_, ?_, ?_, ?_, ?_, ⟨_, rfl, ?_⟩, ?_⟩ <;> decide +kernel

/-- DrawplateResults: a cancel of a copy that holds a slot, and the turn of a core's drawplate. -/
theorem meets_plate_turn :
    let c : PlateCopy := ⟨2, (wt []).getG 1, 0, 64, 1, 64, 0, 64, 0, none, some 2⟩
    let o : PlateOp := ⟨1, .copy c none, 0, some (64, 0), .pending, 0, 0, 0⟩
    let t := { wt [(2, 1)] with dseq := 1, plate := [plateOp .pending] }
    (([o].find? fun o => o.ticket == (t.getX 2).toNat && o.status == .pending) = some o) ∧ c.buf = some 2 ∧ o.slot = some (64, 0) ∧
    (wm t).beatTurn ((wm t).bench ((wm t).ev.a / 8)).plateTurn (wm t).plateReady (wm t).ev.a = true ∧
    (plateOp .pending).slot = none ∧ (plateOp .pending).mark < 64 := by decide +kernel

/-- DrawplateResults: the beat of a copy whose fork is done, and an element of a stream to fetch, and none. -/
theorem meets_drawplate_steps :
    let t := { wt [] with dseq := 1, plate := [plateOp .pending] }
    let m := wm t
    let b := { stream with requested := 4 }
    let z := { wt [] with w := (wt []).w.set 0 (some b) }
    m.thread? t.key = some t ∧ (m.gang? t.gang).isSome = true ∧ m.banks = [] ∧
    m.plateWork m.ev.a = .op t.gang (.thread t.key) (plateOp .pending) :: [] ∧
    m.forkDone (.thread t.key) (plateOp .pending) = true ∧ (0 : Nat) < 64 ∧
    (∀ k < 64, allotMiss (m.gang? t.gang) (64 + k) 1 = none) ∧ (wm z).thread? (wm z).ev.a = some z ∧ z.key = (wm z).ev.a ∧
    z.w[(wm z).ev.b]? = some (some b) ∧ stream.requested ≤ 0 + stream.arrived.length ∧ 0 + b.arrived.length < b.requested ∧
    b.seg.refuses 4 4 1 .read = none ∧ allotMiss ((wm z).gang? z.gang) 4 4 = none ∧ (4 : Nat) ≤ 64 - 4 % 64 := by
  decide +kernel

/-- The tile at offset 0x100 of g0 is neither shared nor coherent, and its thread is there, with no answer owed. -/
def tileFree (s : State) (t : Thread) : Bool :=
  match s.check t.agent (s.gangOf t) (t.getG 0) 0x100 256 256 .atomic 0x100 with
  | (.ok (.mem pa _ leaf), s2) => !s2.sharedFrame pa && !pteBit leaf 5 && s2.thread? t.key == some t && !s2.owes t.key
  | _ => false

/-- ScreenResults: places of tiles and accesses refused, request words taken and not, requests at a tile home in each state. -/
theorem meets_screen :
    let t := wt [(3, 0x1000000001), (4, 0x700000000), (5, 5)]
    let c : Commit := ⟨0, 5, 0, 1, [], false⟩
    let r : TicketReq := ⟨0, 0, 0, 0x1000, .commit c false⟩
    let w : Wait := ⟨.load, .tkget 1 0 2, 0, 0, 0, 0, .ticket 0 none, false, none⟩
    let z := t.waitingAs w
    let m := { wm z with tickets := [(0, r)] }
    let e : Tile := ⟨0, 0, 8, 4, [], []⟩
    Executing (wm t) t ∧ (t.getG 1).type = .scratch ∧ (t.getG 0).type = .global ∧ t.asked = .none ∧
    ({ t with status := .waiting { w with asked := .ticket 0 (some 7) } } : Thread).asked = .ticket 0 (some 7) ∧
    tileFree (wm t) t = true ∧
    (t.getX 3).extractLsb' 36 28 ≠ 0 ∧ 7 ≤ ((t.getX 4).extractLsb' 32 4).toNat ∧ (t.getX 5).extractLsb' 36 28 = 0 ∧
    ((t.getX 5).extractLsb' 32 4).toNat < 7 ∧ t.entriesTaken < 16 ∧ t.owesReg 1 = false ∧ t.memoryClear = true ∧
    Map.get? m.tickets m.ev.a = some r ∧ m.thread? r.key = some z ∧ z.key = r.key ∧ Map.get? m.tiles r.tile = none ∧
    (e.taken - e.applied).toNat ≠ 2 ^ 31 ∧ e.taken + 1 ≠ e.applied ∧ ((2 ^ 31 : BitVec 32) - 0).toNat = 2 ^ 31 ∧
    e.outstanding 9 = false ∧ e.applied ≠ e.taken ∧ e.outstanding c.ticket = true ∧ c.ticket ≠ e.applied ∧
    e.outstanding 4 = true ∧ e.commits.length < 64 ∧ 64 ≤ (List.replicate 64 c).length ∧
    (∀ k ∈ List.replicate 64 c, k.ticket ≠ e.applied) ∧ m.objState (m.objOf r.tile) = .invalid ∧
    e.applied + 1 ≠ e.taken ∧ (7 : BitVec 32) + 1 = e.taken := by decide +kernel

/-- ScreenResults: a box hit and three missed, a triangle hit and one missed; a texture of one texel in a scratchpad, sampled at its
middle with linear filters and fetched beyond its edge; shader matrices with and without a scale. -/
theorem meets_samples :
    let box := fun (lo hi : Nat) => [lo, lo, lo, hi, hi, hi]
    let one := 0x3F800000
    let two := 0x40000000
    let ray := [0, 0, 0, one, one, one, 0, two]
    let tex : Machine.Tex := (Machine.readTex (List.replicate 8 0)).getD ⟨0, 0, 0, 1, 1, 1, 1, false, 0, 0, 0, 0, false, false, 0⟩
    let th := flags [0, 0, 5] []
    let e := { entry th (.tsampBase 1 2 1 9 ⟨9, 0⟩) with xs := 1 :: 0 :: List.replicate 8 0, seg := (wt []).getG 1 }
    let good := fun (refs : List TexelRef) => refs.all fun r => match r.place with
      | none => true
      | some (x, y) => (e.seg.refuses (tex.offset r.level 0 x y) tex.block.2.2 tex.block.2.2 .read).isNone &&
          decide ((wm th).padReadable th (tex.offset r.level 0 x y).toNat tex.block.2.2)
    (boxHit ray (box one two)).isSome = true ∧ boxHit ray (box two one) = none ∧
    Machine.readTex (e.xs.drop 2) = some tex ∧ e.seg.type = .scratch ∧
    (match sampleRefs th tex .base 2 0 0 with
      | some (_, refs) => good refs && !refs.isEmpty
      | none => false) = true ∧ (0 < tex.width ∧ 0 < tex.levels ∧ 0 < tex.layers) ∧
    (sampleRefs (flags [5] []) tex .fetch 2 0 0).isNone = true ∧ tex.srgb = false ∧ tex.fmt = 0 ∧
    (∃ n m, readFp .f32 one = .fin n m) ∧ readFp .fp8e4 0x38 = .fin false 1 := by
  refine ⟨?_, ?_, ?_, ?_, ?_, ?_, ?_, ?_, ?_, ⟨false, 1, ?_⟩, ?_⟩ <;> decide +kernel

/-- ScreenResults: both lines of a tile in no object; a frame of an encoder whose tiles can be read. -/
theorem meets_tile_lines :
    let m := wm (wt [])
    (∀ l ∈ [0x1000 / 128, 0x1000 / 128 + 1], m.objState (m.objOf (l * 128)) = .invalid) ∧ (0x1000 + 255) / 128 = 0x1000 / 128 + 1 := by
  decide +kernel

/-- The tables of a machine's context map virtual page 0 to frame 3. -/
def tabled (s : State) : State :=
  ((({ s with owners := [(0, 0x8000), (1, 0x8000), (2, 0x8000), (3, 0x8000)] }).setDouble 0 0x10001).setDouble 0x10000
    0x20001).setDouble 0x20000 0x30383

/-- ScreenResults: a frame in an encoder's queue. -/
theorem meets_encoder :
    let en : SprueEntry := ⟨1, [0, 0x1000, 0, 0x100], 0, none⟩
    let m := { tabled (wm (wt [])) with ctxs := (wm (wt [])).ctxs.map fun c : Nat × Ctx => (c.1, { c.2 with sprues := [(0, sprueOf .encoder 4 [en] [])] }) }
    let e : EncStream := ⟨0, 0, 2, 1, 1000, 1, 0, 0x1000, 0, false, 0⟩
    let z := { m with encoders := [(0, e)] }
    (z.ctx? z.ev.a).isSome = true ∧ z.sprue? z.ev.a z.ev.b = some (sprueOf .encoder 4 [en] []) ∧
    Map.get? z.encoders 0 = some e ∧ (sprueOf .encoder 4 [en] []).donec = 0xFFF ∧
    ((sprueOf .encoder 4 [en] []).entries = [en]) ∧
    ((State.frameVas e 0x1000 0).all fun va => match z.frameTile z.ev.a 0 va with
      | .ok _ => true
      | _ => false) = true := by decide +kernel

/-- How the reading of a line ends: read, failed, a page to wait for, a line to wait for. -/
def lineEnd (s : State) (t : Thread) (target : Word) : Nat :=
  match s.fetchLine t target true true with
  | (.ok .., _) => 0
  | (.fails .., _) => 1
  | (.page .., _) => 2
  | (.line .., _) => 3

/-- TrapInstructionResults: no session and one, HND at 0 and 1, returns to a head and to none, with a replay record of it, of
another and none, and a deferred trap and page wait at each point of theirs. -/
theorem meets_trap_instructions :
    let t := wt []
    let h := { t with hnd := true, tpc := 2 }
    let e := entry t (.vld 2 .f32 (ma 1 0 0) ⟨9, 0⟩)
    let d : Deferred := ⟨0x08, 0, 3, 0, 7⟩
    let z := { t with deferred := some d, seq := [e] }
    let p := { t with deferred := some { d with cause := 0 }, seq := [e] }
    let w : Wait := ⟨.page, .deferredTrapEntry, 0, 0, 0, 0, .pages [0], true, none⟩
    let ss : Session := ⟨0, 0, 0, 6, true, 0, 0, 0, [], []⟩
    let b := (wm t).putBench 0 { (wm t).bench 0 with trace := some ss }
    Executing (wm t) t ∧ (wm t).debugged t = none ∧ (b.debugged t).isSome = true ∧ t.hnd = false ∧ h.hnd = true ∧
    lineRead h h.tpc ∧ isHead loopLine h.tpc = true ∧ isHead loopLine 1 = false ∧ h.replay = none ∧
    lineRead h (nextPc (lineH loopLine) h.tpc) ∧ isHead loopLine (nextPc (lineH loopLine) h.tpc) = true ∧
    (⟨2, 4, 3, [e], none, none, 1, false⟩ : Replay).pc = h.tpc ∧ (⟨8, 4, 3, [e], none, none, 1, false⟩ : Replay).pc ≠ h.tpc ∧
    (wm z).cur.getD (wm z).ev.a = z.key ∧ (wm z).thread? z.key = some z ∧ z.deferred = some d ∧ z.seq = e :: [] ∧
    e.num = d.num ∧ e.rows = [] ∧ { e with rows := [noOut] }.rows ≠ [] ∧ z.parked = false ∧ d.cause ≠ 0 ∧ e.member = false ∧
    p.deferred.map (·.cause) = some 0 ∧ p.status = .runnable ∧ (p.waitingAs w).status = .waiting w ∧
    w.instr = .deferredTrapEntry ∧ w.asked = .pages [0] := by decide +kernel

/-- TrapInstructionResults: entries with every row delivered and none of a loop, a wait that has been woken and one that has
not. -/
theorem meets_deferred :
    let e := entry (wt []) (.vld 2 .f32 (ma 1 0 0) ⟨9, 0⟩)
    let d : Deferred := ⟨0x08, 0, 3, 0, 7⟩
    let z := { wt [] with deferred := some d, seq := [e, { e with num := 8 }] }
    let w : Wait := ⟨.page, .deferredTrapEntry, 0, 0, 0, 0, .pages [0], true, none⟩
    (∀ f ∈ z.seq, f.rows = []) ∧ (∀ f ∈ [{ e with num := 8 }], f.member = false) ∧ z.parked = false ∧ e.num = d.num ∧
    (∃ f ∈ [{ e with rows := [noOut] }], f.rows ≠ []) ∧ w.woken = true ∧ { w with woken := false }.woken = false := by decide +kernel

/-- A thread with a seam frame of itself. -/
def seamed (t : Thread) : Thread := { t with frames := [frameOf t (readGate [])] }

/-- TrapEntry: the causes of each route, handlers whose line is read, is no head, cannot be fetched and is to be waited for,
with and without a frame, and a freeze in progress and none. -/
theorem meets_trap_entry :
    let t := { wt [] with tvec := 2 }
    let far := { t with tvec := 0x10000 }
    let out := { t with g := t.g.set 0 Segment.none, line := none }
    let bare := (wm t).putBench 0 { (wm t).bench 0 with il1 := [] }
    let cold := bare.putThread { t with line := none }
    (wm t).thread? t.key = some t ∧ (wm (seamed t)).thread? t.key = some (seamed t) ∧ t.hnd = false ∧
    (∀ c ∈ [0x12, 0x13, 0x30, 0x31, 0x3F], (0x08 : BitVec 8) ≠ c) ∧ lineRead t t.tvec ∧ isHead loopLine t.tvec = true ∧
    isHead loopLine 1 = false ∧ lineEnd (wm far) far far.tvec = 2 ∧ lineEnd (wm out) out out.tvec = 1 ∧
    lineEnd cold { t with line := none } 2 = 3 ∧ t.frames = [] ∧ (seamed t).frames ≠ [] ∧ (wm t).freeze = none := by
  decide +kernel

/-- A frame of zeros, as a seam region that nothing has written holds it. -/
def zeroFrame : SeamFrame :=
  { frameOf (th []) (readGate []) with g := Vector.replicate 8 Segment.none, retPc := 0, tvec := 0, window := none }

/-- TrapEntry, SeamResults: a frame the region holds, one that it does not, and one whose bytes are poisoned; where frame 1
stands. -/
theorem meets_frames :
    let t := { wt [] with frames := [zeroFrame] }
    let m := inCtx { wm t with near := [] } fun c => { c with seamRegion := some 0x20000 }
    let bad := { m with poison := [0x20000 / 128] }
    t.frames = [zeroFrame] ∧ m.thread? t.key = some t ∧ m.framePa t 1 = some 0x20000 ∧ m.framePoison t = none ∧
    m.frameHeld t zeroFrame = true ∧ (wm t).frameHeld t zeroFrame = false ∧ (bad.framePoison t).isSome = true := by
  decide +kernel

/-- The words of a gate to offset 2 of g0, its segment set at 0x100 of frame 0, one register of each kind passed, depth 1. -/
def gateWords : List Word := [2, 2, 0x100, 0x0001000101010000, 0x01010100, 0, 0, 0]

/-- A machine whose context has gate 3 and a seam region, its segment set in memory. -/
def gated (t : Thread) (ws : List Word) : State :=
  let m := (((wm t).setDouble 0x100 0).setDouble 0x108 0x8000).setDouble 0x110 0xF1
  { m with ctxs := m.ctxs.map fun c : Nat × Ctx => (c.1, { c.2 with gates := [(3, ws)], seamRegion := some 0 }) }

/-- SeamResults: a gate written and one that is not, a sequencer with an entry, depths below and above MAXD, calls made and
not, and frames. -/
theorem meets_seams :
    let t := wt []
    let m := gated t gateWords
    let busy := storing
    let gt := readGate gateWords
    let set := readSet m.ownNumber (m.bytesAt gt.setPa 256)
    let u := callee t gt set
    let r := returned (seamed t) (frameOf t (readGate [])) []
    Executing m t ∧ (∀ x ∈ m.ctx? t.ctx, Map.get? x.gates 3 = some gateWords ∧ Map.get? x.gates 4 = none) ∧ t.seqEmpty = true ∧
    busy.seqEmpty = false ∧ t.frames.length + 1 ≤ gt.maxd ∧ (readGate []).maxd < t.frames.length + 1 ∧
    m.seamRefusal t gt 1 = 0 ∧ (wm t).seamRefusal t gt 1 ≠ 0 ∧ (set[0]?).isSome = true ∧ (0 : Nat) ≤ gt.sreg ∧
    lineEnd m u gt.entry = 0 ∧ isHead loopLine gt.entry = true ∧ Executing (wm (seamed t)) (seamed t) ∧ t.frames = [] ∧
    (seamed t).frames = [frameOf t (readGate [])] ∧ lineEnd (wm (seamed t)) r 2 = 0 := by
  decide +kernel

/-- SeamResults: a segment set with a poisoned line; a call that can be made, its frame in the region; a callee of every
register number passed and none. -/
theorem meets_seam_sets :
    let t := wt []
    let m := gated t gateWords
    let gt := readGate gateWords
    (m.framePa t 1).isSome = true ∧ m.seamRefusal t gt 1 ≠ 0x12 ∧ m.poisoned gt.setPa 256 = none ∧
    ({ m with poison := [2] }.poisoned gt.setPa 256).isSome = true ∧ { m with poison := [2] }.seamRefusal t gt 1 ≠ 0x12 := by
  decide +kernel

/-- MarkAndCounterReads: no data yet and the data there, selectors of each kind, counters configured, not, unfiltered and of
an event of another unit. -/
theorem meets_marks :
    let t := wt [(2, 0x10000), (3, 0x8000), (4, 0x4120), (5, 0x4000), (6, 0x7000)]
    let a := asking t (.cntrd 1 5) .load .data
    let b : BankCounter := ⟨0x42, true, 0, 9, false⟩
    let m := { wm a with banks := [(State.bankKey 4 0 0 0, b)] }
    let sel := fun (p : XReg) => (((t.getX p).extractLsb 63 16, (t.getX p).extractLsb 15 12, (t.getX p).extractLsb 11 3) : _)
    Executing (wm t) t ∧ t.asked ≠ .data ∧ Executing m a ∧ a.asked = .data ∧ sel 2 = (1, 0, 0) ∧ sel 3 = (0, 8, 0) ∧
    sel 4 = (0, 4, 36) ∧ sel 5 = (0, 4, 0) ∧ sel 6 = (0, 7, 0) ∧
    Map.get? m.banks (State.bankKey 4 0 (m.ctxFn a.ctx) 0) = some b ∧ b.cfen = true ∧
    (∀ x ∈ m.ctx? b.cfilt.toNat, x.part = t.part) ∧ (m.ctx? b.cfilt.toNat).isSome = true ∧ implements 4 b.event = true ∧
    followed b.event = true ∧ implements 3 b.event = false ∧ { b with cfen := false }.cfen = false ∧
    Map.get? m.banks (State.bankKey 4 1 0 0) = none ∧ (wm t).freeze = none ∧ ((wm t).bench 0).trace = none := by
  decide +kernel

/-- MarkAndCounterReads: a bank counter of the level of a queue, and one unavailable. -/
theorem meets_levels :
    let b : BankCounter := ⟨0x04, true, 0, 9, false⟩
    let a := asking (wt [(5, 0x0000)]) (.cntrd 1 5) .load .data
    let m := { wm a with banks := [(State.bankKey 0 0 0 0, b)] }
    Executing m a ∧ a.asked = .data ∧ Map.get? m.banks (State.bankKey 0 0 (m.ctxFn a.ctx) 0) = some b ∧ implements 0 b.event = true ∧
    b.event = 0x04 ∧ b.unav = false ∧ (m.ctx? b.cfilt.toNat).isSome = true ∧ (∀ x ∈ m.ctx? b.cfilt.toNat, x.part = a.part) := by
  refine ⟨⟨rfl, ?_⟩, ?_⟩ <;> decide +kernel

/-- FreezeAndCapsules: threads held and not, a freeze whose stamp has passed and one whose stamp has not, cores that hold and
do not, slots that are all taken and not. -/
theorem meets_freeze :
    let t := wt []
    let z := { t with debugHeld := true }
    let f : Freeze := ⟨48, 0, 0, [], [(0, 0)]⟩
    let m := { wm t with freeze := some f, gtsc := 112 }
    let held := { (wm t).putCore 0 { (wm t).core 0 with lost := 1 } with freeze := some { f with held := [0] }, gtsc := 112 }
    let c : Capsule := ⟨0, 0, 1, 0, 0, 0, [], [], [], 0, [], []⟩
    let all := { held with capsules := [(0, c), (1, { c with seq := 2 }), (2, { c with seq := 3 })] }
    let one := { held with capsules := [(0, c)] }
    (wm t).thread? (wm t).ev.a = some t ∧ t.key = (wm t).ev.a ∧ t.debugHeld = false ∧ z.debugHeld = true ∧ z.status = .runnable ∧
    z.seqEmpty = true ∧ (wm t).gtsc.toNat < f.stamp.toNat + 64 ∧ f.stamp.toNat + 64 ≤ m.gtsc.toNat ∧ m.ev.a < 1024 ∧
    m.ev.a ∉ f.held ∧ (∃ c ∈ held.cores, c.1 ∉ f.held) ∧ (∀ c ∈ held.cores, c.1 ∈ [0]) ∧ (∀ c ∈ all.capsules, c.1 < 3) ∧
    (∀ i, i < 3 → (Map.get? all.capsules i).isSome = true) ∧ (∀ c ∈ all.capsules, c.2.seq < 2 ^ 64) ∧
    Map.get? one.capsules 1 = none ∧ (∀ i, i < 3 → (i ≠ 1 ∨ Map.get? one.capsules i = none)) := by decide +kernel

/-- A machine of a partition in a phase with its running context's state and ticks. -/
def sliced (p : SwitchPhase) (running : Option Nat) (st : CtxState) : State :=
  let m := inCtx (wm (wt [])) fun c => { c with state := st }
  { m with parts := [(0, { Part.oneBench with phase := p, running := running })], gtsc := 5000000 }

/-- TrapEntry: a thread with a trap deferred, one that waits for its handler's line, a freeze of the same instant from a higher core
and from an earlier one. -/
theorem meets_trap_order :
    let t := { wt [] with tcause := 0x08, tpc := 2 }
    let d := { t with deferred := some ⟨0x08, 0, 3, 0, 7⟩ }
    let h := asking t .deferredTrapEntry .load (.handler (some 0) [])
    let f : Freeze := ⟨48, 5, 0, [], [(5, 0)]⟩
    let m := { wm t with freeze := some f }
    m.thread? t.key = some t ∧ t.deferred = none ∧ d.deferred.isSome = true ∧ h.asked = .handler (some 0) [] ∧ h.frames = [] ∧
    m.freeze = some f ∧ (m.gtsc = f.t0 ∧ t.core < f.source) ∧ ¬ ({ m with gtsc := 1 }.gtsc = f.t0) := by decide +kernel

/-- SeamResults: a segment set in a frame that is not the context's, one that has a malformed segment, a stack segment that is too
small; a register of each kind passed and none. -/
theorem meets_seam_refusals :
    let t := wt []
    let m := gated t gateWords
    let gt := readGate gateWords
    let small := { gt with sreg := 2 }
    let set := fun (s : State) => readSet s.ownNumber (s.bytesAt gt.setPa 256)
    let foreign := { m with owners := [(0, 0x4001)] }
    let bad := m.setDouble 0x118 1
    foreign.ownerOk t.ctx t.part gt.setPa = false ∧ m.ownerOk t.ctx t.part gt.setPa = true ∧
    (set bad).any Option.isNone = true ∧ bad.ownerOk t.ctx t.part gt.setPa = true ∧ (set m).any Option.isNone = false ∧
    (((set m)[0]?).getD none |>.getD Segment.none).base.toNat % 64 = 0 ∧ (∃ pa, m.framePa t 1 = some pa ∧ m.ownerOk t.ctx t.part pa = true) ∧
    small.sreg ≠ 0 ∧ (((set m)[small.sreg]?).getD none |>.getD Segment.none).size.toNat < (t.tid.toNat * 16 + 1 + 1) * 2 ^ small.stklog ∧
    (wm t).framePa t 1 = none := by
  refine ⟨?_, ?_, ?_, ?_, ?_, ?_, ⟨0, ?_⟩, ?_⟩ <;> decide +kernel

/-- MarkAndCounterReads: a counter of an event whose every occurrence is not counted, the words of the mask, a ring with room. -/
theorem meets_unfollowed :
    let b : BankCounter := ⟨0x01, true, 0, 9, false⟩
    let a := asking (wt [(5, 0), (6, 0x7001), (7, 0x7002)]) (.cntrd 1 5) .load .data
    let m := { wm a with banks := [(State.bankKey 0 0 0 0, b)] }
    let sel := fun (p : XReg) => (((a.getX p).extractLsb 63 16, (a.getX p).extractLsb 15 12, (a.getX p).extractLsb 1 0) : _)
    Executing m a ∧ a.asked = .data ∧ Map.get? m.banks (State.bankKey 0 0 (m.ctxFn a.ctx) 0) = some b ∧ implements 0 b.event = true ∧
    followed b.event = false ∧ b.unav = false ∧ sel 6 = (0, 7, 1) ∧ sel 7 = (0, 7, 2) ∧
    (m.core a.core).ring.length + 1 < Config.assayRecords := by
  refine ⟨⟨rfl, ?_⟩, ?_⟩ <;> decide +kernel

/-- FreezeAndCapsules: a ring with as many records as it holds, none of them after the freeze, and one with a record fewer. -/
theorem meets_full_ring (n : Nat) :
    let r : AssayRecord := ⟨0, 0, 0x80, 0, 0, 0⟩
    ((List.replicate n r).filter fun r => !stampAfter r.stamp ((48 : BitVec 64).setWidth 48)).length = n := by
  intro r
  rw [List.filter_eq_self.mpr, List.length_replicate]
  intro x hx
  rw [List.eq_of_mem_replicate hx]; decide +kernel

/-- SliceSteps: a partition settled and in a switch, choices of the running context, of another and of none, a `slicegive`
waiting. -/
theorem meets_slices :
    let run := sliced .settled (some 0) .running
    let busy := { run with ctxs := (1, { Ctx.plain 0 0 0 with state := .ready, prio := 1 }) :: run.ctxs }
    let idle := sliced .settled none .ready
    let give := fun s : State => { s with parts := s.parts.map fun p : Nat × Part => (p.1, { p.2 with give := true }) }
    let p := Part.oneBench
    Executing run (wt []) ∧ run.part? (wt []).part = some p ∧ run.part? run.ev.a = some p ∧ p.phase = .settled ∧
    (sliced (.restoring [0]) (some 0) .restoring).part? 0 = some { p with phase := .restoring [0] } ∧ p.give = false ∧
    p.running = some 0 ∧ State.reset.gtsc.toNat < { p with tickAt := 1 }.tickAt ∧ p.tickAt ≤ run.gtsc.toNat ∧ run.chooseCtx 0 p false = some 0 ∧
    (busy.ctx? 0).isSome = true ∧ busy.chooseCtx 0 p false = some 1 ∧ busy.chooseCtx 0 p true = some 1 ∧
    (∃ m ∈ busy.ctxs, m.2.part = 0 ∧ m.2.state = .ready) ∧ run.chooseCtx 0 p true = some 0 ∧ (sliced .settled (some 0) .idle).chooseCtx 0 p true = none ∧
    (give run).part? 0 = some { p with give := true } ∧ idle.part? 0 = some { p with running := none } ∧
    idle.chooseCtx 0 { p with running := none } false = some 0 ∧ (idle.ctx? 0).isSome = true := by decide +kernel

/-- SliceSteps: contexts with no phase open, one preferred to the other; a partition whose cores reach a point at the tick. -/
theorem meets_choices :
    let c := { Ctx.plain 0 0 0 with state := .ready }
    c.openPhases = [] ∧ c.state = .ready ∧ (Part.oneBench.quarters ≠ []) := by decide +kernel

/-- SwitchSteps: a save with one die and with two, its area checked, accesses still out, budget and overrun passed and not; a
restore with one die and with two. -/
theorem meets_switches :
    let c := Ctx.plain 0 0 0
    let p := Part.oneBench
    let save := fun ds => { sliced (.saving 0 ds) (some 0) .saving with
      owners := (List.range 600).map fun i => (i, 0x8000), parts := [(0, { p with phase := .saving 0 ds, next := some 1 })] }
    let out := { save [0] with home := [(0, ⟨0, 0, 0, 0, 0, 0, false, .store [], none, none⟩)] }
    let q := { p with phase := .saving 0 [0], next := some 1 }
    (save [0]).part? 0 = some q ∧ (save [0]).ctx? 0 = some { c with state := .saving } ∧ (save [0]).ev.b ∈ [0] ∧
    (save [0]).accessesOut 0 0 = false ∧ out.accessesOut 0 0 = true ∧ (save [0]).saveAreaOk 0 { c with state := .saving } q = true ∧
    (∃ x ∈ [0, 1], x ≠ (save [0, 1]).ev.b) ∧ (∀ x ∈ [0], x = (save [0]).ev.b) ∧
    q.switchAt + q.savebud * 1000 < (save [0]).gtsc.toNat ∧ q.switchAt + 2000000 ≤ (save [0]).gtsc.toNat ∧
    { save [0] with gtsc := 0 }.gtsc.toNat < q.switchAt + 2000000 ∧ (save [0]).thread? 0 = some (wt []) ∧
    (wt []).ctx = 0 ∧ (wt []).die = 0 ∧ (wt []).result = none ∧ (wt []).reply = none ∧
    (∀ x ∈ (save [0]).threads, x.2.key = x.1) ∧
    (sliced (.restoring [0, 1]) (some 0) .restoring).part? 0 = some { p with phase := .restoring [0, 1] } ∧
    ((sliced (.restoring [0]) (some 0) .restoring).ctx? 0).isSome = true := by decide +kernel

/-- SwitchSteps: records of threads that are saved: those the area holds, and those written over; no thread saved. -/
theorem meets_records :
    let p := { Part.oneBench with phase := .restoring [0], running := some 0 }
    let c := { Ctx.plain 0 0 0 with state := .restoring, savebase := 0x100000 }
    let t := { th [] with g := Vector.replicate 8 Segment.none, pc := 0, window := none, parked := true, saved := true }
    let u := { wt [(0x3F, 7)] with parked := true, saved := true }
    let m := { wm t with parts := [(0, p)], ctxs := [(0, c)], near := [] }
    t.saved = true ∧ (wt []).saved = false ∧ m.ev.b ∈ [0] ∧ m.thread? 0 = some t ∧ t.ctx = 0 ∧ t.die = m.ev.b ∧ t.reply = none ∧
    (m.bench 0).trace = none ∧ (∀ b ∈ m.benches, b.2.trace = none) ∧
    m.doublesAt (State.threadPa c p t) t.image.length = t.image ∧ m.doublesAt (State.threadPa c p u) u.image.length ≠ u.image ∧
    (m.ctx? 0).isSome = true := by decide +kernel

/-- SwitchSteps: a blend still on its way at a die that is to report. -/
theorem meets_tickets_out :
    let c : Commit := ⟨0, 5, 0, 1, [], false⟩
    let m := { wm (wt []) with tickets := [(0, ⟨0, 0, 0, 0x1000, .commit c false⟩)] }
    m.accessesOut 0 0 = true ∧ (wm (wt [])).accessesOut 0 0 = false := by decide +kernel

/-- A machine whose mailbox of function 0 is given a command's payload. -/
def told (s : State) (ws : List Word) : State := { s with ev := { Ev.empty with words := ws } }

/-- The machine of a settled partition with its clocks at a time. -/
def timed (t : Nat) : State := { wm (wt []) with gtsc := BitVec.ofNat 64 t }

/-- LadleTemperAndWindowSteps: no page to swap up, a migration copied and not, windows and intervals passed and not, an
account and none, a push window that takes an entry, that does not, and none. -/
theorem meets_ladle :
    let m := tabled (wm (wt []))
    let g : Migration := ⟨0, 0, 0x30000, 0x50000, false, false, false, 7⟩
    let go := { m with migrations := [g] }
    let wait := { go with ring := [(7, ([0], .object))] }
    let pw := { timed 20000 with parts := [(0, { Part.oneBench with power := 100 })] }
    let q := sprueOf .fifo 4 [] []
    let w := inCtx (wm (wt [])) fun c => { c with sprues := [(0, q)] }
    let rd := { w with ev := { Ev.empty with flag := true, a := 0xFF0 } }
    let wr := { w with ev := { Ev.empty with a := 0x20, data := List.replicate 32 0 } }
    (∀ d ∈ m.swapTarget 0 Part.oneBench, m.farRecorded d = []) ∧
    (go.migrations.find? fun m => m.ctx == go.ev.a && m.va == go.ev.b) = some g ∧ g.swapped = false ∧
    (∀ r ∈ go.ring, r.1 ≠ g.ann) ∧ (∃ r ∈ wait.ring, r.1 = g.ann) ∧ { g with swapped := true }.swapped = true ∧
    walk go g.ctx g.va = .leaf 0x30383 65536 0x20000 ∧ Memory.wf go = true ∧ g.src % 65536 = 0 ∧ g.dst % 65536 = 0 ∧
    (0x20000 + 8 ≤ g.dst) ∧ (∀ g ∈ m.migrations, ¬ (g.ctx = m.ev.a ∧ g.va = m.ev.b)) ∧
    (timed 0).gtsc.toNat < (timed 0).temperAt + 10000 ∧ pw.temperAt + 10000 ≤ pw.gtsc.toNat ∧
    pw.part? pw.ev.a = some { Part.oneBench with power := 100 } ∧ 4 ≤ Part.oneBench.clock ∧ Part.oneBench.clock ≤ 16 ∧
    (timed 0).gtsc.toNat < Part.oneBench.creditAt + 1000 ∧ Part.oneBench.creditAt + 1000 ≤ pw.gtsc.toNat ∧
    { Part.oneBench with running := none }.account = none ∧ Part.oneBench.account = some (0, true) ∧
    (∀ c ∈ pw.ctx? 0, c.energy.toInt ≤ 100 * 10 ^ 6 ∧ -(2 ^ 62) ≤ c.energy.toInt) ∧ (pw.ctx? 0).isSome = true ∧
    w.windowOf 0 0x20 = some (0, 0, q) ∧ rd.windowOf 0 rd.ev.a = some (0, 0, q) ∧ rd.ev.a % 4096 = 0xFF0 ∧
    wr.windowOf 0 wr.ev.a = some (0, 0, q) ∧ wr.ev.data.length = 32 ∧ wr.ev.a % 32 = 0 ∧ wr.ev.a % 4096 < 0xFA0 ∧
    q.full = false ∧ wr.sprueSealed 0 q = false ∧ w.ev.data.length ≠ 32 ∧ (wm (wt [])).windowOf 0 0 = none := by
  decide +kernel

/-- LadleTemperAndWindowSteps: a migration whose page an access still on its way meets, and one that none does. -/
theorem meets_migration_home :
    let m := tabled (wm (wt []))
    let g : Migration := ⟨0, 0, 0x30000, 0x50000, false, false, false, 7⟩
    let h := { m with migrations := [g], home := [(0, ⟨0, 0, 0, 0, 0x30008, 0, false, .store [1], none, none⟩)] }
    (∃ x ∈ h.home, x.2.pa / 65536 = g.src / 65536) ∧ (∀ x ∈ m.home, x.2.pa / 65536 ≠ g.src / 65536) ∧ g.src ≠ g.dst ∧
    g.src < 2 ^ 60 ∧ g.dst < 2 ^ 60 := by decide +kernel

/-- LadleTemperAndWindowSteps: a recorded far page of the context that runs, with a free frame; the object of its leaf's line in no
bench; a package within its budget is a matter of its free draws. -/
theorem meets_swap_up :
    let m := tabled (wm (wt []))
    let page : Managed := ⟨1, none, 0, true, true, false⟩
    let p := { Part.oneBench with pool := [9] }
    let s := { m with parts := [(0, p)], ctxs := m.ctxs.map fun c : Nat × Ctx => (c.1, { c.2 with
      farloc := 1, farbase := 0x100000, farsize := 4, managed := [(0, page)], recorded := [0] }) }
    s.part? s.ev.a = some p ∧ s.swapTarget s.ev.a p = some 0 ∧ s.farRecorded 0 = [0] ∧
    (∃ c, s.ctx? 0 = some c ∧ Map.get? c.managed 0 = some page ∧ s.unitPa 0 c 1 / 65536 ∉ s.claims) ∧ s.poolFree 0 = [9] ∧
    walk s 0 0 = .leaf 0x30383 65536 0x20000 ∧
    m.objState (m.objOf 0x20000) = .invalid ∧ m.objState (m.objOf 0x20007) = .invalid := by
  refine ⟨?_, ?_, ?_, ⟨_, rfl, ?_, ?_⟩, ?_⟩ <;> decide +kernel

/-- MailboxRules: payloads of entry commands with and without a reserved bit; a command that waits for the ring, whose announcement is
there and is gone. -/
theorem meets_payloads :
    let s := { told State.reset [0] with fns := [(0, { Fn.fresh with busy := true, waits := some (.ring 7) })] }
    let r := { s with ring := [(7, ([0], .object))] }
    let up := told (wm (wt [])) [0, 0x10000, 2, 0]
    payloadClear (up.ev.words) .ladlemap = true ∧ payloadClear [0x800] .ctxdestroy = false ∧ payloadClear [0] .ctxdestroy = true ∧
    up.mayCommand ∧ up.mayName 0 0 = true ∧ (up.ctx? 0).isSome = true ∧
    (Map.get? s.fns 0).map (·.waits) = some (some (.ring 7)) ∧ Map.rising s.fns = true ∧ (∀ x ∈ s.fns, x.1 = 0) ∧
    (∀ x ∈ s.ring, x.1 ≠ 7) ∧ (∃ x ∈ r.ring, x.1 = 7) ∧ (told s (List.replicate 513 0)).ev.words.length = 513 := by decide +kernel

/-- MailboxRules: a mailbox that is busy and not, firmware that holds the device, a device not up, functions that may and may
not, a payload too long, entries Free, Faulted and of another function, index values in the range and not. -/
theorem meets_mailbox :
    let s := State.reset
    let busy := s.putFn 0 { s.fn 0 with busy := true }
    let m := wm (wt [])
    let bad := inCtx m fun c => { c with state := .faulted }
    let vf := { s with ev := { Ev.empty with fn := 3 } }
    let f : Fn := { Fn.fresh with evTail := 4, evHead := 1 }
    s.mayCommand ∧ (s.fn 0).busy = false ∧ (busy.fn busy.ev.fn).busy = true ∧ { s with fwHeld := true }.fwHeld = true ∧
    { s with booted := false }.booted = false ∧ vf.ev.fn ≠ 0 ∧ vf.mayCommand ∧ .partcfg ∈ pfCommands ∧ .setevq ∉ pfCommands ∧
    512 < (told s (List.replicate 513 0)).ev.words.length ∧ .ctxpolicy ∈ entryCommands ∧ (told s [1]).ctx? 1 = none ∧
    vf.mayName 3 0 = false ∧ s.mayName 0 5 = true ∧ bad.mayCommand ∧ (∀ c ∈ bad.ctx? 0, c.state = .faulted) ∧
    (bad.ctx? 0).isSome = true ∧ Instr.ctxpolicy ≠ .ctxdestroy ∧ ((3 : BitVec 32) - f.evHead).toNat ≤ (f.evTail - f.evHead).toNat ∧
    (f.evTail - f.evHead).toNat < ((5 : BitVec 32) - f.evHead).toNat := by decide +kernel

/-- The payload of a PARTCFG of quarter 4 as partition 1. -/
def partWords : List Word := [0x10, 0, 0, 0, 0, 0, 0, 0, 0x0000010001010081, 0x10000A, 0x10000]

/-- DeviceCommandResults: payloads that each command takes and turns away, a partition with contexts and one without, sealed and
not, frames owned and not, in a pool and not. -/
theorem meets_device_commands :
    let s := told State.reset []
    let m := wm (wt [])
    let part := fun w => told m w
    let num := fun ws => (readPart ws 0).map fun r => (r.1, (part ws).partStatus r.1 r.2)
    let p := { Part.oneBench with pool := [9] }
    let pool := { m with owners := [(8, 0x4000), (9, 0x4000)], parts := [(0, p)] }
    let none' := { m with ctxs := [], parts := [(0, { p with isSealed := true })] }
    s.mayCommand ∧ clearFrom s.ev.words 0 = true ∧ within 0x1000 [(6, 46)] = true ∧ within 4 [(0, 5)] = true ∧
    (part partWords).mayCommand ∧ (part partWords).ev.fn = 0 ∧ readPart [] 0 = none ∧ num partWords = some (1, 0) ∧
    (part partWords).part? 1 = none ∧ num (0x1 :: partWords.drop 1) = some (1, 4) ∧
    num [0x10, 0, 0, 0, 0, 0, 0, 0, 0x0000400001011801, 0x10000A, 0x10000] = some (1, 3) ∧
    m.part? 0 = some Part.oneBench ∧ (∃ c ∈ m.ctxs, c.2.part = 0) ∧ (∀ c ∈ none'.ctxs, c.2.part ≠ 0) ∧
    none'.part? 0 = some { p with isSealed := true } ∧ Map.rising none'.owners = true ∧ p.isSealed = false ∧
    within 0x50000 [(16, 36)] = true ∧ within 2 [(0, 32)] = true ∧ within 0x4000 [(0, 16)] = true ∧ ownerFormed 0x4000 = true ∧
    ownerFormed 0xC001 = false ∧ (∀ f, 5 ≤ f → f < 5 + 2 → m.boundFrame f = false) ∧ within 7 [(0, 7)] = true ∧
    within 0x40010 [(0, 11), (16, 5)] = true ∧ poolFrames [0, 0x80000, 2] = some (0, [8, 9]) ∧ pool.part? 0 = some p ∧
    (∀ f ∈ [8, 9], pool.owner f = BitVec.ofNat 16 (2 ^ 14 + 0)) ∧ (∃ f ∈ [8, 9], m.owner f ≠ 0x4000) ∧
    (∀ f ∈ [8, 9], pool.frameUsed 0 f = false) ∧
    (let u := { pool with ctxs := pool.ctxs.map fun c : Nat × Ctx => (c.1, { c.2 with managed := [(0, ⟨0, some 9, 0, false, false, false⟩)] }) }
     u.frameUsed 0 9 = true) := by
  refine ⟨?_, ?_, ?_, ?_, ?_, ?_, ?_, ?_, ?_, ?_, ?_, ?_, ?_, ?_, ?_, ?_, ?_, ?_, ?_, ?_, ?_, ?_, ?_, ?_, ?_, ?_, ?_, ?_, ?_, ?_, ?_⟩
  case refine_23 => intro f h g; have : f = 5 ∨ f = 6 := by omega
                    rcases this with rfl | rfl <;> decide +kernel
  all_goals decide +kernel

/-- DeviceCommandResults: a sealed partition to create that owns no frame, and one that owns one; frames whose key an OWNERSET
keeps, and frames whose key it changes. -/
theorem meets_keys :
    let m := wm (wt [])
    let own := { m with owners := [(5, 0x4001)] }
    let sealed' := { own with parts := [(1, { Part.oneBench with isSealed := true })] }
    m.framesOf 1 1 = [] ∧ own.framesOf 1 1 = [5] ∧ sealed'.keyOf 0x4001 ≠ sealed'.keyOf 0 ∧ own.keyOf 0x4001 = own.keyOf 0 ∧
    m.framesOf 2 1 = [] := by decide +kernel

/-- The payload of a CTXCREATE of entry 1 in partition 0, its table and save area in frames 4 and 5. -/
def ctxWords : List Word := [1, 0, 0x40000, 0x50000, 0, 0, 0, 0, 0]

/-- The payload of a CTXSTART of entry 0: the record of `launchWords` with no counters, null segments. -/
def startWords : List Word := [0, 0, 0, 0, 0, 0, 0, 0, 2, 7, 0, 0x0001000000000001, 0, 0, 0, 0x003FFFFFFFFFFFFF]

/-- ContextCommandResults: entries Free and not, payloads formed and not, sprues and counters there and not, regions, a
context with work and one without, a swap region and none, leaves that have their tables and not. -/
theorem meets_context_commands :
    let m := told (wm (wt [])) ctxWords
    let c := Ctx.plain 0 0 0
    let at' := fun (c : Ctx) ws => told (inCtx (wm (wt [])) fun _ => c) ws
    let sq := { c with sprues := [(2, sprueOf .fifo 4 [] [])] }
    let spr := fun d : Word => ([0, 2, 0x40000 + d * 2 ^ 32, 0, 0, 0] : List Word)
    let qs := { c with sprues := [(2, { sprueOf .fifo 4 [] [] with donec := 5 })], counters := [(5, opened 4)] }
    let idle := { told (wm (wt [])) startWords with gangs := [], threads := [], ctxs := [(0, { c with state := .idle })] }
    let early := { idle with ctxs := (1, c) :: [], parts := [(0, { Part.oneBench with quarters := [] })] }
    let far := { c with farloc := 1, farsize := 4 }
    let lm := fun c : Ctx => told (tabled { wm (wt []) with ctxs := [(0, c)] }) [0, 0x30000, 2, 2]
    let rec' := readLaunch 0 ((startWords.drop 8).take 8) (List.replicate 32 0)
    m.mayCommand ∧ m.mayName 0 1 = true ∧ (readCtx ctxWords).isSome = true ∧ m.ctx? 1 = none ∧ (m.ctx? 0).isSome = true ∧
    m.part? 0 = some Part.oneBench ∧ Part.oneBench.isSealed = false ∧ within 1 [(0, 11)] = true ∧ clearFrom ctxWords 9 = true ∧
    c.state ≠ .faulted ∧ (at' c []).mayCommand ∧ (Machine.readSprue (spr 0xFFF)).isSome = true ∧ (Machine.readSprue (spr 5)).isSome = true ∧
    (Map.get? sq.sprues 2).isSome = true ∧ Map.get? c.sprues 2 = none ∧ ((at' c []).counter 0 5).state ≠ .opened ∧
    ((at' qs []).counter 0 5).state = .opened ∧ (Map.get? qs.sprues 2).map (·.donec) = some 5 ∧
    gateNamed [0, 3, 2, 2] = true ∧ gateFormed gateWords = true ∧ gateFormed [] = false ∧ within 0x40000 [(16, 36)] = true ∧
    (0 : Nat) < (m.quartersOf 0).length * 7680 * 1024 ∧ (m.quartersOf 0).length * 7680 * 1024 ≤ 2 ^ 25 ∧
    m.hasWork 0 = true ∧ idle.hasWork 0 = false ∧ rec'.isSome = true ∧ (∀ r ∈ rec', r.parent = 0xFFF) ∧
    fieldAt ((startWords.drop 10).headD 0) 0 55 = 0 ∧ idle.launchStatus 0 0 rec' = 0 ∧ early.launchStatus 0 0 rec' ≠ 0 ∧
    ladleFormed [0, 0x30000, 2, 2] = true ∧ m.boundPart 0 = false ∧ c.farloc = 0 ∧ far.farloc ≠ 0 ∧
    (leafPlaces (lm far) 0 far (ladlePages [0, 0x30000, 2, 2])).isSome = true ∧ 2 + 2 ≤ far.farsize ∧
    { far with farsize := 3 }.farsize < 2 + 2 ∧ leafPlaces m 0 far (ladlePages [0, 0x30000, 2, 2]) = none := by
  decide +kernel

/-- ContextCommandResults: a thread at Service parked and not, one that is not, none; streams named, formed and not, there
and not, in a partition with encoders and without. -/
theorem meets_replies_and_streams :
    let z := { wt [] with status := .service ⟨0x12, 4, 0, none⟩ }
    let m := told (wm z) [0, 0]
    let e : EncStream := ⟨0, 0, 16, 16, 1000, 1, 0, 0x1000, 0, false, 0⟩
    let ws : List Word := [5, 0, 0x100010, 0x1000003E8, 0, 0x1000]
    let n := told (wm (wt [])) ws
    let k := { n with parts := [(0, { Part.oneBench with encs := 1 })] }
    m.mayCommand ∧ m.mayName 0 0 = true ∧ (∀ c ∈ m.ctx? 0, c.state ≠ .faulted) ∧ (m.ctx? 0).isSome = true ∧
    within 0 [(0, 14), (16, 11)] = true ∧ m.thread? 0 = some z ∧ z.key = 0 ∧ m.thread? 1 = none ∧ (∀ f, (wt []).status ≠ .service f) ∧
    z.parked = false ∧ { z with parked := true }.parked = true ∧ n.mayCommand ∧ streamClear ws = true ∧
    streamClear (ws ++ [1]) = false ∧ (pay ws 0).getLsbD 32 = false ∧ (pay (0x100000005 :: ws.drop 1) 0).getLsbD 32 = true ∧
    streamClear (0x100000005 :: ws.drop 1) = true ∧ codecOk 0 0 false false = true ∧ codecOk 3 0 false false = false ∧
    Map.get? n.encoders 5 = none ∧ n.mayEncode 0 0 = true ∧ n.mayEncode 0 7 = false ∧ (∀ x ∈ n.encoders, x.1 / 65536 ≠ 0) ∧
    Part.oneBench.encs < encUnits 16 16 1000 ∧ k.part? 0 = some { Part.oneBench with encs := 1 } ∧ encUnits 16 16 1000 ≤ 1 ∧
    Map.get? { n with encoders := [(5, e)] }.encoders 5 = some e ∧ e.fn = 0 ∧ { e with fn := 3 }.fn ≠ 0 := by
  refine ⟨?_, ?_, ?_, ?_, ?_, ?_, ?_, ?_, nofun, ?_⟩ <;> decide +kernel

/-- ContextCommandResults: functions with room for a context and with none; sealed partitions; a sprue with entries left and one
without; engines with room and without. -/
theorem meets_limits :
    let m := wm (wt [])
    let c := Ctx.plain 0 0 0
    let many := { m with ctxs := (List.range 16).map fun i => (i, { c with fn := 3 }) }
    let q := sprueOf .fifo 4 [⟨1, [5, 6, 7, 8], 0, none⟩] []
    let e : EncStream := ⟨0, 0, 16, 16, 1000, 1, 0, 0x1000, 0, false, 0⟩
    let full := { m with encoders := (List.range 64).map fun i => (65536 * 9 + i, { e with engine := i / 8 }) }
    m.ownedBy 3 < 16 ∧ 16 ≤ many.ownedBy 3 ∧ c.farloc ≠ 2 ∧ { q with donec := 5 }.donec ≠ 0xFFF ∧ q.entries ≠ [] ∧ c.launches = [] ∧
    encUnits 16 16 1000 = 1 ∧ (∀ g < 8, 8 < full.engineUnits 5 g + encUnits 16 16 1000) ∧
    (∃ g < 8, m.engineUnits 5 g + encUnits 16 16 1000 ≤ 8) := by decide +kernel

/-- InspectCommandResults: selectors in range and not, counters there and not, sessions claimed, suspended and none, threads
stopped and not, slots with a capsule and without, partitions there and not. -/
theorem meets_inspect_commands :
    let m := told (wm (wt [])) [0x4000, 0x8000000000000142]
    let b : BankCounter := ⟨0x42, true, 0, 9, false⟩
    let ss : Session := ⟨0, 0, 0x1000, 6, true, 0, 0, 0, [], []⟩
    let h := { wt [] with debugHeld := true, debugStopped := true }
    let on := fun (t : Thread) (ss : Session) (u : Option Session) => (wm t).putBench 0 { (wm t).bench 0 with trace := some ss, suspended := u }
    let c : Capsule := ⟨0, 0, 1, 0, 0, 0, [], [], [], 0, [], []⟩
    let cap := { wm (wt []) with capsules := [(0, c)], summary := some c }
    m.mayCommand ∧ within 0x4000 [(0, 16)] = true ∧ within 0x8000000000000142 [(0, 9), (16, 11), (63, 1)] = true ∧
    Map.get? { m with banks := [(State.bankKey 4 0 0 0, b)] }.banks (State.bankKey 4 0 0 0) = some b ∧ implements 4 b.event = true ∧
    followed b.event = true ∧ implements 4 0x10 = false ∧ selectorOf 0x1424000 = some (4, 0, 0) ∧
    within 0x1424000 [(0, 25), (32, 11)] = true ∧ within 0x40 [(6, 46)] = true ∧ within 0x106 [(0, 5), (8, 1)] = true ∧
    (m.bench 0).trace = none ∧ ((on (wt []) ss none).bench 0).trace = some ss ∧ { ss with fn := 3 }.fn ≠ 0 ∧
    ((on (wt []) ss (some { ss with fn := 3 })).bench 0).suspended = some { ss with fn := 3 } ∧
    m.debugSession 0 0 = none ∧ (on (wt []) ss none).debugSession 0 0 = some ss ∧ (on (wt []) ss none).mayCommand ∧
    (on (wt []) ss none).stoppedThread ss 0 = none ∧ (on h ss none).stoppedThread ss 0 = some h ∧ cap.capsuleAt 0 = some c ∧
    cap.capsuleAt 3 = some c ∧ cap.capsuleAt 1 = none ∧ cap.mayCommand ∧ m.part? 0 = some Part.oneBench ∧ m.part? 1 = none ∧
    within 0x10000 [(0, 6), (16, 16)] = true ∧ { m with ev := { m.ev with fn := 3 } }.mayCommand := by decide +kernel

/-- No object is held in a state that lists none. -/
theorem objState_reset (o : ObjId) : State.reset.objState o = .invalid := by cases o <;> rfl

/-- The address of a peer's transaction translates for the context that runs, and nothing there is poisoned. -/
def peerLeaf (s : State) : Bool :=
  match s.translate ⟨0, 0, 0, false⟩ s.ev.a (peerOp s.ev).extent.2 with
  | (.ok (.mem pa _ _), s1) => s1.poisoned pa 8 == none && s1.orders.isEmpty
  | _ => false

/-- OutsideAccessResults: frames of each kind, sealed and bound and not; accesses allowed and not, poisoned and not; tags bound
and not; threads that wait for a peer; a counter of a link. -/
theorem meets_outside :
    let s := State.reset
    let p := { Part.oneBench with isSealed := true, bound := some 3 }
    let o := fun (e : BitVec 16) (q : Part) => { wm (wt []) with owners := [(0, e)], parts := [(0, q)] }
    let rd := fun s : State => { s with ev := { Ev.empty with flag := true, b := 8 } }
    let bad := { s with poison := [0] }
    let tag := { wm (wt []) with parts := [(0, { Part.oneBench with tag := some 9 })]
                                 ev := { Ev.empty with flag := true, b := 8, nums := [9, 0] } }
    let t := wt []
    let w : Wait := ⟨.load, .ld 1 .f32 (ma 2 0 0), 0, 0, 100000, 0, .peer 1, false, none⟩
    let m := wm (t.waitingAs w)
    let b : BankCounter := ⟨0x42, false, 0, 9, false⟩
    State.ownerKind (s.owner 0) = 0 ∧ State.ownerKind ((o 0xC000 p).owner 0) = 3 ∧ State.ownerKind ((o 0x4000 p).owner 0) = 1 ∧
    State.ownerKind ((o 0x8000 p).owner 0) = 2 ∧ (o 0x4000 p).part? 0 = some p ∧ ((o 0x8000 p).ctx? 0).isSome = true ∧
    (o 0x4000 Part.oneBench).part? 0 = some Part.oneBench ∧
    (rd s).ev.flag = true ∧ (0 : Nat) < (rd s).ev.b ∧ s.hdmOk 0 0 = true ∧ (o 0x4000 p).hdmOk 0 0 = false ∧
    (rd s).poisoned 0 8 = none ∧ (rd bad).poisoned 0 8 ≠ none ∧ (rd s).ev.a / 128 ≤ 0 ∧ 0 * 128 < (rd s).ev.a + (rd s).ev.b ∧
    s.ev.flag = false ∧ (∀ q ∈ (rd s).parts, q.2.tag ≠ some 9) ∧
    tag.tagPart 9 = some (0, { Part.oneBench with tag := some 9 }) ∧
    peerLeaf tag = true ∧ (rd s).orders = [] ∧ tag.orders = [] ∧
    m.thread? m.ev.a = some (t.waitingAs w) ∧ (t.waitingAs w).key = m.ev.a ∧ (t.waitingAs w).asked = .peer 1 ∧
    (t.waitingAs w).parked = false ∧ 100000 ≤ w.elapsed ∧ { w with elapsed := 9 }.elapsed < 100000 ∧
    Map.get? { s with banks := [(State.bankKey 4 0 0 0, b)] }.banks (State.bankKey 4 0 0 0) = some b := by
  decide +kernel

/-- OutsideAccessResults: save areas that a function may read and may not; ports 0 and 35; peers' events of a poisoned line. -/
theorem meets_save_areas :
    let m := inCtx (wm (wt [])) fun c => { c with savebase := 0x40000, fn := 3 }
    m.saveOk 0 4 = true ∧ m.saveOk 3 4 = true ∧ m.saveOk 2 4 = false ∧
    { m with parts := [(0, { Part.oneBench with isSealed := true })] }.saveOk 0 4 = false ∧ (35 : Nat) % 36 = 35 := by decide +kernel

/-- ResetAndErrorResults: a sealed partition with a context of the function and one without, functions 0 and another, a
device that is stopped and not, errors in a frame, in a cell and of the device, a freeze and none. -/
theorem meets_resets :
    let p := { Part.oneBench with isSealed := true }
    let m := { wm (wt []) with parts := [(0, p)] }
    let vf := { m with ev := { Ev.empty with fn := 3 } }
    let f : Freeze := ⟨48, 0, 0, [], [(0, 0)]⟩
    m.part? 0 = some p ∧ (∃ c ∈ m.ctxs, c.2.part = 0 ∧ c.2.fn = m.ev.fn) ∧ (∀ c ∈ vf.ctxs, c.2.fn ≠ vf.ev.fn) ∧
    p.isSealed = true ∧ Part.oneBench.isSealed = false ∧ vf.ev.fn ≠ 0 ∧ m.ev.fn = 0 ∧ (m.ctx? 0).isSome = true ∧ m.stopped = false ∧
    { m with stopped := true }.stopped = true ∧ m.ev.flag = false ∧ { m with ev := { m.ev with flag := true } }.ev.flag = true ∧
    { m with ev := { m.ev with nums := [0, 5] } }.ev.nums = [0, 5] ∧ m.ev.nums.length ≠ 2 ∧ m.freeze = none ∧
    { m with freeze := some f }.freeze = some f ∧
    (let b : BankCounter := ⟨0x32, false, 0, 9, false⟩
     Map.get? { m with banks := [(State.bankKey 3 0 0 0, b)] }.banks (State.bankKey 3 0 0 0) = some b) := by decide +kernel

/-- ResetAndErrorResults: numbers of units listed and not, at the edges of the table; a line in a near frame with a counter. -/
theorem meets_sources :
    (sourceListed 0x663 = true ∧ sourceListed 0x664 = false ∧ sourceListed 0x668 = true ∧ sourceListed 0x683 = true ∧
      sourceListed 0x684 = false ∧ sourceListed 0x690 = true ∧ sourceListed 0x693 = true ∧ sourceListed 0x694 = false) ∧
    State.reset.ev.a / 65536 < Config.nearFrames ∧
    (let b : BankCounter := ⟨0x33, false, 0, 9, false⟩
     Map.get? { State.reset with banks := [(State.bankKey 3 0 0 0, b)] }.banks (State.bankKey 3 0 0 0) = some b) := by decide +kernel

/-- DecodeOfEncode, EncodeOfDecode: a well-formed instruction with an encoding, and a word of four bytes and its tail. -/
theorem meets_encodings : (Instr.pmark 5 17).wf = true ∧ (Instr.pmark 5 17).encoded = true ∧
    (0x15100010#48).toNat < 2 ^ (8 * tailLen 0xF900) ∧ (decode 0xF900 0x15100010).toOption = some (.pmark 5 17) := by decide +kernel

/-- The first step of a machine whose line holds a word. -/
def firstStep (nbits w : Nat) : State := State.reset.withFetchWord nbits w

/-- DeviceCommandResults: a POOLSET whose bit 8 of D0 adds, and one that withdraws. -/
theorem meets_pool_selects :
    poolFrames [0x100, 0x80000, 2] = some (0, [8, 9]) ∧ (pay [0x100, 0x80000, 2] 0).getLsbD 8 = true ∧
    (pay [0, 0x80000, 2] 0).getLsbD 8 = false ∧ [8, 9].length = ((pay [0x100, 0x80000, 2] 2).extractLsb 31 0).toNat ∧
    poolFrames [0x140, 0x80000, 2] = none := by decide +kernel

/-- ContextCommandResults: pinned storage that a set holds, and more of it than the ways of a partition hold. -/
theorem meets_pins :
    let m := told (wm (wt [])) ctxWords
    let c := Ctx.plain 0 0 0
    (∀ x, readCtx ctxWords = some x → ((m.taken .ctxcreate).putCtx 1 x).ctx? 1 = some x) ∧
    within 0 [(0, 11)] = true ∧ within 5 [(0, 6)] = true ∧ Map.get? c.sprues 5 = none := by
  refine ⟨?_, ?_⟩
  · intro x h; exact rfl
  · decide +kernel

/-- ContextCommandResults: a shootdown of some pages and of all; gate entries written and withdrawn, with a reserved bit and
without; pages mapped and unmapped below FARSIZE and above it. -/
theorem meets_selects :
    let c := { Ctx.plain 0 0 0 with farloc := 1, farsize := 4 }
    let lm := fun ws => told (tabled { wm (wt []) with ctxs := [(0, c)] }) ws
    let un : List Word := [0x10000, 0x30000, 2, 2]
    within 0x30000 [(16, 39)] = true ∧ within 2 [(0, 32)] = true ∧ (0 : Word).toNat = 0 ∧ clearFrom [0, 0x30000, 2] 3 = true ∧
    gateNamed [0, 3, 2, 2] = true ∧ gateNamed [0, 0x103, 2, 2] = true ∧ (0x103 : Word).getLsbD 8 = true ∧ gateClear gateWords = true ∧
    gateClear [] = true ∧ gateClear [0, 0, 0, 0, 0, 0, 1, 0] = false ∧
    ladleFormed un = true ∧ (un.headD 0).getLsbD 16 = true ∧ (∀ k < 2, 2 + k < c.farsize) ∧ (∃ k < 2, { c with farsize := 3 }.farsize ≤ 2 + k) ∧
    (∃ ps, leafPlaces (lm un) 0 c ((List.range 2).map fun k => 0x30000 + k * 65536) = some ps ∧ ∀ p ∈ ps, p.2 < farBase) := by
  decide +kernel

/-- InspectCommandResults: the operations of DEBUGSTATE and WOENEBIND, the first and the last and one above them, their payloads
whole and not. -/
theorem meets_operations :
    let d : List Word := [0, 3, 1, 0x1234]
    let b : List Word := [3, 0x90001]
    within 0 [(0, 14)] = true ∧ within 1 [(0, 2)] = true ∧ clearFrom d 4 = true ∧ clearFrom [0, 0, 18] 3 = true ∧ (3 : Nat) < (4 : Word).toNat ∧
    within 0x90001 [(0, 6), (16, 16)] = true ∧ clearFrom b 2 = true ∧ within 0x3FF [(0, 10)] = true ∧
    within 0xFFFFFFFFF [(0, 36)] = true := by decide +kernel

/-- OutsideAccessResults: a device that firmware holds and one not up; a peer's page that is tracked, of an owner that lets it in and
one that does not; its atomic at a poisoned line; a thread whose peer's time ends with a fault put off. -/
theorem meets_outside_more :
    let s := State.reset
    let p := { Part.oneBench with tag := some 9 }
    let tag := { wm (wt []) with parts := [(0, p)], ev := { Ev.empty with flag := true, b := 8, nums := [9, 2, 0] } }
    let taken' := { tag with pageObjs := [(0, (1, .shared [0]))] }
    { s with fwHeld := true }.fwHeld = true ∧ { s with booted := false }.booted = false ∧ s.fwHeld = false ∧ s.booted = true ∧
    s.orders = [] ∧ p.running.isSome = true ∧ tag.homeRejects 0 0 = false ∧ taken'.homeRejects 0 0 = true ∧
    (∃ op, peerOp tag.ev = .atomic op ∧ tag.poisoned 0 op.size = none ∧ { tag with poison := [0] }.poisoned 0 op.size ≠ none) ∧
    (∃ t : Thread, t.deferred.isSome = true) ∧ (wt []).deferred = none := by
  refine ⟨?_, ?_, ?_, ?_, ?_, ?_, ?_, ?_, ⟨_, rfl, ?_, ?_⟩, ⟨{ wt [] with deferred := some ⟨0x12, 0, 0, 0, 0⟩ }, ?_⟩, ?_⟩ <;> decide +kernel

/-- ResetAndErrorResults: errors in a gang's scratchpad and in an L1 that holds the line and that does not; two checks of one time,
the first source above the second and not; a restart that firmware holds. -/
theorem meets_errors :
    let m := wm (wt [])
    let f : Freeze := ⟨48, 5, m.gtsc, [], [(5, m.gtsc)]⟩
    (m.gang? 0).isSome = true ∧ [0].length ∈ [1, 2, 3] ∧ [0, 0, 1].length ∈ [1, 2, 3] ∧ ([] : List Nat).length ∉ [1, 2, 3] ∧
    ((m.bench 0).l1Find 0 1).isSome = false ∧
    (∃ b : Bench, (b.l1Find 0 1).isSome = true) ∧ m.gtsc = f.t0 ∧ 4 < f.source ∧ ¬ 6 < f.source ∧
    { m with ev := { m.ev with flag := true } }.ev.flag = true := by
  refine ⟨?_, ?_, ?_, ?_, ?_, ⟨{ State.reset.bench 0 with l1 := [⟨0, 0, 1, []⟩] }, ?_⟩, ?_⟩ <;> decide +kernel

/-- StepRunsDecoded: a thread whose access the home has refused, and one with none. -/
theorem meets_strays :
    let s := firstStep 48 0xF90015100010
    let t := Thread.placed
    let m := { s with strays := [(t.key, 0x1234)] }
    Map.get? m.strays t.key = some 0x1234 ∧ Map.get? s.strays t.key = none ∧ (m.thread? t.key).isSome = true ∧
    t.mayIssue = true ∧ (m.turnOf t.core).isSome = true := by decide +kernel

/-- StepRunsDecoded: a thread chosen, whose head decodes and whose head does not; a line that is no line; an act of an agent; a
machine with nothing to do. -/
theorem meets_step :
    let s := firstStep 48 0xF90015100010
    let t := Thread.placed
    let s0 := { s with sched := [] }
    let a := { State.reset with sched := [.agent .temperWindow .empty] }
    s.choose = (some (.issue t.key), s0) ∧ s0.thread? t.key = some t ∧ t.mayIssue = true ∧ s0.stopped = false ∧
    t.deferred = none ∧ t.pass = none ∧ t.vloop = none ∧ lineEnd s0 t t.pc = 0 ∧ s0.debugged t = none ∧
    a.choose = (some (.agent .temperWindow .empty), { a with sched := [] }) ∧
    (State.reset.choose).1 = none ∧ { a with stopped := true }.stopped = true ∧ ofPartition .temperWindow = false := by
  decide +kernel

/-- StepRunsDecoded: a thread whose turn it is and one whose turn it is not; a pc that is no head; a stopped device. -/
theorem meets_step_turns :
    let s := firstStep 48 0xF90015100010
    let t := Thread.placed
    let u := { t with tid := 1 }
    let s0 := { s with sched := [], threads := [(t.key, t), (u.key, u)] }
    (∃ n, s0.turnOf t.core = some (t, n)) ∧ u.key ≠ t.key ∧ (∃ n, s0.turnOf u.core = some (t, n)) ∧
    (s0.turnOf t.core).map (·.1) = some t ∧ t.boundary = t ∧
    { s0 with sched := [.issue u.key] }.choose = (some (.issue u.key), s0) ∧ { s0 with stopped := true }.stopped = true := by
  refine ⟨?_, ?_⟩
  · exact ⟨((firstStep 48 0xF90015100010).core 0).cycle, by decide +kernel⟩
  · refine ⟨by decide +kernel, ⟨((firstStep 48 0xF90015100010).core 0).cycle, by decide +kernel⟩, ?_⟩
    decide +kernel

/-- MemoryInvariant, ThreadInvariant: the machine after reset, and one that holds a thread, steps. -/
theorem meets_invariants :
    let s := firstStep 48 0xF90015100010
    (Memory.wf State.reset = true ∧ Map.rising State.reset.owners = true ∧ ∀ c ∈ State.reset.capsules, c.1 < 3) ∧
    (Memory.wf s = true ∧ Map.rising s.owners = true ∧ ∀ c ∈ s.capsules, c.1 < 3) ∧
    (∀ x ∈ s.threads, x.2.key = x.1 ∧ x.2.loops.length ≤ 6 ∧ x.2.frames.length ≤ 15 ∧ x.2.mailbox.length ≤ 8 ∧
      ∀ f ∈ x.2.frames, f.loops.length ≤ 6) ∧ s.threads.length = 1 := by decide +kernel

end Sys2Proof.Tests
end

section
/-!
PROOFS. Bitwise operations, shifts and divisions on x registers (R110 to R112, R115): what each word operation of the model
is in the library's terms, and its value as a number.
-/
namespace Sys2Proof.Machine

/-! ### Runners -/

/-- A three-register instruction yields its operation on the values of its operands. -/
theorem yields_of_alu {s : State} {t : Thread} (h : Executing s t) {i : Instr} {d a b : XReg} (f : Word → Word → Word)
    (hi : exec i s = alu d a b f s) : Yields s t i d (f (t.getX a) (t.getX b)) :=
  yields_of_simple h (fun t => f (t.getX a) (t.getX b)) hi

/-- An instruction with an immediate yields its operation on its operand's value and the immediate. -/
theorem yields_of_aluImm {s : State} {t : Thread} (h : Executing s t) {i : Instr} {d a : XReg} {imm : Word}
    (f : Word → Word → Word) (hi : exec i s = aluImm d a imm f s) : Yields s t i d (f (t.getX a) imm) :=
  yields_of_simple h (fun t => f (t.getX a) imm) hi

/-! ### Immediates -/

/-- A bit of a sign-extended 22-bit immediate: its own, and its sign from bit 21 up. -/
theorem getLsbD_sx (c : BitVec 22) {n : Nat} (hn : n < 64) : (sx c).getLsbD n = c.getLsbD (min n 21) := by
  rw [sx, BitVec.getLsbD_signExtend, decide_eq_true hn, Bool.true_and]
  by_cases hlow : n < 22
  · rw [if_pos hlow, Nat.min_eq_left (by omega)]
  · rw [if_neg hlow, Nat.min_eq_right (by omega), BitVec.msb_eq_getLsbD_last]

/-- A zero-extended shift amount is the same number. -/
@[simp] theorem toNat_zx (sh : BitVec 6) : (zx sh).toNat = sh.toNat := BitVec.toNat_setWidth_of_le (by decide)

/-! ### Shifts (R111)

The model cuts off amounts of 64 and more. The library's shifts of a word by a natural number do the same of themselves, so
each operation is the library's shift by the whole amount. -/

theorem shlWord_eq_shiftLeft (a b : Word) : shlWord a b = a <<< b.toNat := by
  by_cases hb : 64 ≤ b.toNat
  · rw [shlWord, if_pos hb, BitVec.shiftLeft_eq_zero hb]
    rfl
  · rw [shlWord, if_neg hb]

theorem shrWord_eq_ushiftRight (a b : Word) : shrWord a b = a >>> b.toNat := by
  by_cases hb : 64 ≤ b.toNat
  · rw [shrWord, if_pos hb, BitVec.ushiftRight_eq_zero hb]
    rfl
  · rw [shrWord, if_neg hb]

/-- Past the last bit an arithmetic shift leaves copies of the sign. -/
theorem sshiftRight_of_le {w n : Nat} {a : BitVec w} (hn : w ≤ n) :
    a.sshiftRight n = if a.msb then BitVec.allOnes w else 0 := by
  refine BitVec.eq_of_getLsbD_eq fun k hk => ?_
  rw [BitVec.getLsbD_sshiftRight, if_neg (by omega)]
  cases a.msb <;> simp [hk]

theorem sraWord_eq_sshiftRight (a b : Word) : sraWord a b = a.sshiftRight b.toNat := by
  by_cases hb : 64 ≤ b.toNat
  · rw [sraWord, if_pos hb, sshiftRight_of_le hb, ← BitVec.neg_one_eq_allOnes]
    rfl
  · rw [sraWord, if_neg hb]

theorem toNat_shlWord (a b : Word) : (shlWord a b).toNat = a.toNat * 2 ^ b.toNat % 2 ^ 64 := by
  rw [shlWord_eq_shiftLeft, BitVec.toNat_shiftLeft, Nat.shiftLeft_eq]

theorem toNat_shrWord (a b : Word) : (shrWord a b).toNat = a.toNat / 2 ^ b.toNat := by
  rw [shrWord_eq_ushiftRight, BitVec.toNat_ushiftRight, Nat.shiftRight_eq_div_pow]

theorem toInt_sraWord (a b : Word) : (sraWord a b).toInt = a.toInt / 2 ^ b.toNat := by
  rw [sraWord_eq_sshiftRight, BitVec.toInt_sshiftRight, Int.shiftRight_eq_div_pow, Int.natCast_pow]
  rfl

/-! ### Division (R112) -/

section ZeroDivisor
variable (a : Word)

theorem divWord_zero : divWord a 0 = BitVec.allOnes 64 := (if_pos rfl).trans BitVec.neg_one_eq_allOnes
theorem divuWord_zero : divuWord a 0 = BitVec.allOnes 64 := (if_pos rfl).trans BitVec.neg_one_eq_allOnes
theorem remWord_zero : remWord a 0 = a := if_pos rfl
theorem remuWord_zero : remuWord a 0 = a := if_pos rfl

end ZeroDivisor

section NonzeroDivisor
variable {a b : Word} (hb : b ≠ 0)
include hb

theorem toNat_pos_of_ne_zero : 0 < b.toNat :=
  Nat.pos_of_ne_zero fun h => hb (BitVec.eq_of_toNat_eq h)

theorem toInt_ne_zero_of_ne_zero : b.toInt ≠ 0 := fun h => hb (BitVec.toInt_inj.mp h)

theorem divuWord_eq_udiv : divuWord a b = a / b := by
  rw [divuWord, if_neg hb, ← BitVec.toNat_udiv, BitVec.ofNat_toNat, BitVec.setWidth_eq]

theorem remuWord_eq_umod : remuWord a b = a % b := by
  rw [remuWord, if_neg hb, ← BitVec.toNat_umod, BitVec.ofNat_toNat, BitVec.setWidth_eq]

theorem divWord_eq_sdiv : divWord a b = a.sdiv b := by
  rw [divWord, if_neg hb, ← BitVec.toInt_inj, BitVec.toInt_ofInt, BitVec.toInt_sdiv]

theorem remWord_eq_srem : remWord a b = a.srem b := by
  rw [remWord, if_neg hb, ← BitVec.toInt_srem, BitVec.ofInt_toInt]

/-- Unsigned division: the dividend is quotient times divisor plus a remainder below the divisor. -/
theorem divuWord_remuWord_spec :
    a.toNat = (divuWord a b).toNat * b.toNat + (remuWord a b).toNat ∧ (remuWord a b).toNat < b.toNat := by
  rw [divuWord_eq_udiv hb, remuWord_eq_umod hb, BitVec.toNat_udiv, BitVec.toNat_umod]
  exact ⟨(Nat.div_add_mod' _ _).symm, Nat.mod_lt _ (toNat_pos_of_ne_zero hb)⟩

theorem toInt_remWord : (remWord a b).toInt = a.toInt.tmod b.toInt := by
  rw [remWord_eq_srem hb, BitVec.toInt_srem]

/-- The quotient of every pair but −2^63 and −1 is a word. -/
theorem toInt_divWord (hov : ¬(a.toInt = -2 ^ 63 ∧ b.toInt = -1)) : (divWord a b).toInt = a.toInt.tdiv b.toInt := by
  have hne : a ≠ BitVec.intMin 64 ∨ b ≠ -1#64 := by
    by_cases ha : a = BitVec.intMin 64
    · refine .inr fun hneg => hov ?_
      subst ha hneg
      decide
    · exact .inl ha
  rw [divWord_eq_sdiv hb, BitVec.toInt_sdiv_of_ne_or_ne a b hne]

end NonzeroDivisor

/-- The signed overflow: its quotient wraps to −2^63 and its remainder is 0. -/
theorem divWord_remWord_overflow {a b : Word} (ha : a.toInt = -2 ^ 63) (hb : b.toInt = -1) :
    (divWord a b).toInt = -2 ^ 63 ∧ remWord a b = 0 := by
  obtain rfl : a = BitVec.intMin 64 := BitVec.toInt_inj.mp ha
  obtain rfl : b = -1 := BitVec.toInt_inj.mp hb
  decide

/-- A remainder of truncated division is 0 or has the sign of the dividend. -/
theorem tmod_eq_zero_or_neg_iff (m n : Int) : m.tmod n = 0 ∨ (m.tmod n < 0 ↔ m < 0) := by
  have hsign := Int.sign_tmod m n
  by_cases hdvd : n ∣ m
  · exact .inl (Int.tmod_eq_zero_of_dvd hdvd)
  · rw [if_neg hdvd] at hsign
    exact .inr (by rw [← Int.sign_eq_neg_one_iff_neg, hsign, Int.sign_eq_neg_one_iff_neg])

/-- Signed division where the quotient is a word: the dividend is quotient times divisor plus a remainder that is smaller
than the divisor and has the dividend's sign. -/
theorem divWord_remWord_spec {a b : Word} (hb : b ≠ 0) (hov : ¬(a.toInt = -2 ^ 63 ∧ b.toInt = -1)) :
    a.toInt = (divWord a b).toInt * b.toInt + (remWord a b).toInt ∧
    (remWord a b).toInt.natAbs < b.toInt.natAbs ∧
    ((remWord a b).toInt = 0 ∨ ((remWord a b).toInt < 0 ↔ a.toInt < 0)) := by
  rw [toInt_divWord hb hov, toInt_remWord hb]
  refine ⟨(Int.tdiv_mul_add_tmod _ _).symm, ?_, tmod_eq_zero_or_neg_iff _ _⟩
  rw [Int.natAbs_tmod]
  exact Nat.mod_lt _ (Int.natAbs_pos.mpr (toInt_ne_zero_of_ne_zero hb))

/-! ### The statements -/

/-- Settles O2: each bitwise operation is the library's, whose bits are the operands' bits combined, and each shift is the
library's shift by the whole amount. -/
theorem logicShiftResults : Obligations.LogicShiftResults := by
  intro s t hx d a b c sh
  refine ⟨?and, ?or, ?xor, ?andi, ?ori, ?xori, ?shl, ?shr, ?sra, ?shli, ?shri, ?srai⟩
  case and => exact ⟨_, yields_of_alu hx (· &&& ·) rfl, fun _ _ => BitVec.getLsbD_and⟩
  case or => exact ⟨_, yields_of_alu hx (· ||| ·) rfl, fun _ _ => BitVec.getLsbD_or⟩
  case xor => exact ⟨_, yields_of_alu hx (· ^^^ ·) rfl, fun _ _ => BitVec.getLsbD_xor⟩
  case andi =>
    exact ⟨_, yields_of_aluImm hx (· &&& ·) rfl, fun n hn => by rw [BitVec.getLsbD_and, getLsbD_sx c hn]⟩
  case ori =>
    exact ⟨_, yields_of_aluImm hx (· ||| ·) rfl, fun n hn => by rw [BitVec.getLsbD_or, getLsbD_sx c hn]⟩
  case xori =>
    exact ⟨_, yields_of_aluImm hx (· ^^^ ·) rfl, fun n hn => by rw [BitVec.getLsbD_xor, getLsbD_sx c hn]⟩
  case shl => exact ⟨_, yields_of_alu hx shlWord rfl, toNat_shlWord _ _⟩
  case shr => exact ⟨_, yields_of_alu hx shrWord rfl, toNat_shrWord _ _⟩
  case sra => exact ⟨_, yields_of_alu hx sraWord rfl, toInt_sraWord _ _⟩
  case shli => exact ⟨_, yields_of_aluImm hx shlWord rfl, by rw [toNat_shlWord, toNat_zx]⟩
  case shri => exact ⟨_, yields_of_aluImm hx shrWord rfl, by rw [toNat_shrWord, toNat_zx]⟩
  case srai => exact ⟨_, yields_of_aluImm hx sraWord rfl, by rw [toInt_sraWord, toNat_zx]⟩

/-- Settles O3: the four meanings are the word operations above, by the divisor's value and the one pair that overflows. -/
theorem divisionResults : Obligations.DivisionResults := by
  intro s t hx d a b
  have hdiv : Yields s t (.div d a b) d (divWord (t.getX a) (t.getX b)) := yields_of_alu hx divWord rfl
  have hdivN : Yields s t (.divN d a b) d (divuWord (t.getX a) (t.getX b)) := yields_of_alu hx divuWord rfl
  have hrem : Yields s t (.rem d a b) d (remWord (t.getX a) (t.getX b)) := yields_of_alu hx remWord rfl
  have hremN : Yields s t (.remN d a b) d (remuWord (t.getX a) (t.getX b)) := yields_of_alu hx remuWord rfl
  refine ⟨fun hzero => ?_, fun hb => ⟨⟨_, _, hdivN, hremN, divuWord_remuWord_spec hb⟩, ⟨_, _, hdiv, hrem, ?_, ?_⟩⟩⟩
  · rw [hzero, divWord_zero] at hdiv
    rw [hzero, divuWord_zero] at hdivN
    rw [hzero, remWord_zero] at hrem
    rw [hzero, remuWord_zero] at hremN
    exact ⟨hdiv, hdivN, hrem, hremN⟩
  · rintro ⟨hmin, hneg⟩
    exact divWord_remWord_overflow hmin hneg
  · exact divWord_remWord_spec hb

end Sys2Proof.Machine
end
